-- ==== Sys2Proof/Word.lean ====
section
/-! DEFINITION. The word types of the model: a byte and a 64-bit register word (00 R2, 06 R126). -/

namespace Sys2Proof

/-- One byte of memory. -/
abbrev Byte := BitVec 8

/-- The contents of a scalar register, a state register or a virtual address. -/
abbrev Word := BitVec 64

end Sys2Proof
end

