-- ==== Sys2Proof/Config.lean ====
section
/-! DEFINITION. What this implementation fixes (the CX4 figures of 00 R1 that the model uses) and the free values: constants
without a body, of which nothing can be proved, one for each point that the manual leaves open.  The rows of
notes/assumptions/ named beside each say which point. -/

namespace Sys2Proof.Config

/-- Bytes of HBM that each die homes: 96 GiB (04 R77). -/
def dieBytes : Nat := 0x1800000000
/-- Line size in bytes (04 R89: the line address is pa[41:7]). -/
def lineBytes : Nat := 128
/-- Core pairs on a die (01 R7). -/
def coresPerDie : Nat := 72
/-- The pool of stash windows and hash claims of one trail core, in blocks of 64 KiB: 1.5 MiB (04 R84). -/
def poolBlocks : Nat := 24
/-- Capacity of a lead context's delay buffer (01 R8, R19). -/
def delayBufferEntries : Nat := 8192
/-- Entries of a core's slice table (01 R8). -/
def sliceTableEntries : Nat := 2048
/-- Entries of a core's interlock table (05 R109). -/
def interlockEntries : Nat := 64
/-- Capacity of the hardware return stack (07 R176). -/
def returnStackEntries : Nat := 16
/-- Instructions a class L hart may retire before it falls back to class P (19 R330). -/
def classLLimit : Nat := 4096
/-- Carillon channels of a die, and domain channels of a hub (11 R264). -/
def dieChannels : Nat := 64
def hubChannels : Nat := 16
/-- Commands of one source that may be accepted and not completed (20 R340). -/
def commandsPerSource : Nat := 256
/-- Entries that the management controller keeps of the event log (22 R380). -/
def sideBandLogEntries : Nat := 1024

/-- FREE VALUE (log 4): the lane cycles that a step takes, of which CYCLES and WDCOUNT count (02 R44, 18 R315). -/
opaque laneCycles : Nat → Nat
/-- FREE VALUE (log 4): how many steps may pass before one takes the next turn that 02 R49 guarantees. -/
opaque patience : Nat
/-- FREE VALUE (log 4): whether a limit of the power controller holds work of a hart in a step, for its number and the step (18 R315). -/
opaque capHolds : Nat → Nat → Bool
/-- FREE VALUE (logs 4 to 6, 8, 9, 11, 12, 14, 18, 21, 26, 27): an open yes or no, a fresh one for each count. -/
opaque freeBit : Nat → Bool
/-- FREE VALUE (logs 5, 6, 10, 21, 26, 27, 64): an open number, a fresh one for each count. -/
opaque freeNat : Nat → Nat
/-- FREE VALUE (logs 12, 26): an open word, a fresh one for each count. -/
opaque freeWord : Nat → Word
/-- FREE VALUE (log 5): which of the values that an MTGEMM has read of a unit serves one use of it, for each command's count and each
use (04 R93). -/
opaque freeUse : Nat → List Nat → Nat
/-- FREE VALUE (log 13): the signature function of an address entry of the delay buffer (01 R18). -/
opaque addressSignature : List Word → BitVec 32
/-- FREE VALUE (log 23): SHA-384 as a function of bytes (23 R382). -/
opaque sha384 : List Byte → List Byte
/-- FREE VALUE (log 23): the RSASSA-PSS signature that the holder of a public key makes of a message (23 R382). -/
opaque rsaSign : List Byte → List Byte → BitVec 3072
/-- FREE VALUE (log 23): the SLH-DSA-SHA2-192s signature that the holder of a public key makes of a message (23 R382). -/
opaque slhSign : List Byte → List Byte → BitVec 129792
/-- FREE VALUE (log 23): which other RSASSA-PSS signatures verify: public key, message, signature (23 R382). -/
opaque rsaAlso : List Byte → List Byte → BitVec 3072 → Bool
/-- FREE VALUE (log 23): which other SLH-DSA-SHA2-192s signatures verify: public key, message, signature (23 R382). -/
opaque slhAlso : List Byte → List Byte → BitVec 129792 → Bool
/-- FREE VALUE (log 23): the bytes of the fuse array, for a policy minimum version (23 R381, R387, R388). -/
opaque fuseArray : Nat → List Byte
/-- FREE VALUE (log 23): the device identity key pair, held inside the security engine (23 R383). -/
opaque deviceKeyPair : BitVec 3488
/-- FREE VALUE (log 23): the Vigeane key pair that certifies it (23 R383). -/
opaque vigeaneKeyPair : BitVec 3488
/-- FREE VALUE (log 23): the body of the identity certificate of a device key pair (23 R383). -/
opaque certificateBody : BitVec 3488 → List Byte
/-- FREE VALUE (log 23): the owner key pair (23 R383). -/
opaque ownerKeyPair : List Byte
/-- FREE VALUE (log 23): the fused SHA-384 of the owner key pair (23 R383). -/
opaque ownerKeyDigest : List Byte
/-- FREE VALUE (log 24): the voltage of a rail of a die at a temperature in eighths of a degree, in microvolts (23 R389). -/
opaque railVoltage : Nat → Nat → Int → Nat

end Sys2Proof.Config
end

