-- ==== Sys2Proof/Syntax.lean ====
section
/-! DEFINITION. The whole syntax of the model: register names, operand forms, and one constructor of `Instr` for each
row of spec/opcode_table.json.  Rows 0 to 286 are instruction words (06 R124 to R148).  The other rows are steps of the part
that are no instruction words: firmware commands, die-control actions, asynchronous causes, engine events and events of the
links, the supply and the power controller.  They have a constructor each, with what the outside supplies as arguments. -/

namespace Sys2Proof

/-- A scalar register number, s0 to s31 (06 R126). -/
abbrev SReg := Fin 32
/-- A vector register number, v0 to v31 (06 R126). -/
abbrev VReg := Fin 32
/-- A mask register number, k0 to k7 (06 R126). -/
abbrev MReg := Fin 8
/-- A completion counter, cc0 to cc15 (06 R126). -/
abbrev CReg := Fin 16
/-- A hash handle, h0 to h3 (06 R126). -/
abbrev Handle := Fin 4
/-- A stash window id, w0 to w7 (06 R126). -/
abbrev WinId := Fin 8
/-- An accumulator tile, acc0 to acc7 (06 R126). -/
abbrev Tile := Fin 8

/-- The scope named by K (05 R98). -/
inductive Scope | hart | pair | die | package | domain | system
  deriving DecidableEq, Repr

/-- The order bits of AMO and VAMO (06 R135, R145). -/
inductive Order | relaxed | acquire | release | acqRel
  deriving DecidableEq, Repr

/-- The width of a scalar floating-point instruction (06 R134): `single` FP32, `double` FP64. -/
inductive FWidth | single | double
  deriving DecidableEq, Repr

/-- The width of an AMO (06 R135): `word` 32 bits, `dword` 64 bits. -/
inductive AWidth | word | dword
  deriving DecidableEq, Repr

/-- A rounding mode as an instruction names it (03 R57); `dyn` takes FCSR.FRM. -/
inductive Rm | rne | rtz | rdn | rup | rmm | dit | dyn
  deriving DecidableEq, Repr

/-- The hint of PREF (06 R133). -/
inductive PrefHint | scalarL1 | lookahead | homeSlice
  deriving DecidableEq, Repr

/-- A set of access kinds named by FENCE (05 R106). -/
structure StreamSet where
  s : Bool
  v : Bool
  e : Bool
  deriving DecidableEq, Repr

/-- The second operand of VALU, VFPU, VMASK and VPERM instructions (06 R128): a vector group, a scalar, or a signed 5-bit
immediate. -/
inductive Src2
  | vv (b : VReg)
  | vs (b : SReg)
  | vi (b : BitVec 5)
  deriving DecidableEq, Repr

/-- Where a reduction writes (06 R142): a scalar seeded from sA, or element 0 of each row of vD. -/
inductive RedDst
  | scalar (d a : SReg)
  | perRow (d : VReg)
  deriving DecidableEq, Repr

/-- The formats of 03 R56, by code 0x00 to 0x12. -/
inductive Fmt
  | fp64 | fp32 | fp16 | bf16 | e4m3 | e5m2 | e2m1 | int8 | mxE4m3 | mxE5m2 | mxE2m1 | uint8 | int16 | uint16
  | int32 | uint32 | int64 | uint64 | e8m0
  deriving DecidableEq, Repr

/-- The memory element width EW (06 R144). -/
inductive EWidth | w8 | w16 | w32 | w64
  deriving DecidableEq, Repr

/-- HINT of the non-indexed vector memory modes (06 R144). -/
inductive VHint | normal | stream | keep
  deriving DecidableEq, Repr

/-- HINT of the indexed vector memory modes (06 R144): 64-bit indices, and the stream hint. -/
structure XHint where
  wide   : Bool
  stream : Bool
  deriving DecidableEq, Repr

/-- The value format of a cell add (06 R148). -/
inductive CellFmt | f32 | bf16 | f16 | f64
  deriving DecidableEq, Repr

/-- The sub-operation of HACC (06 R148). -/
inductive HAccOp | wrap | f32 | f64 | max
  deriving DecidableEq, Repr

/-- The user state registers of RDSR and WRSR (06 R137). -/
inductive UReg
  | vl | vrows | vtype | vstart | rowstr | vlcap | lanepart | fcsr | mxflags | hartmode | hartid | gangid | gangsize | hartidx
  | cycles | rsp | rsdepth
  deriving DecidableEq, Repr

/-- The privileged registers of PRDSR and PWRSR on a hart (18 R305). -/
inductive PReg
  | tvec | tcause | trappc | tval | tvstart | pstat | tscratch | ptroot | asid | partid | leadctl | vdirty | adirty | wdlimit
  | wdcount | rsbase | rslimit
  deriving DecidableEq, Repr

/-- A firmware command message: the header of 20 R339 and its body. -/
structure Msg where
  opcode : BitVec 16
  source : BitVec 16
  length : BitVec 32
  seq    : BitVec 64
  zero   : BitVec 128
  body   : List Byte
  deriving DecidableEq, Repr

/-- A host access through the host port (21 R365): the host source, the partition number, the ASID, the virtual address, the
number of bytes, and for a write the bytes. -/
structure HostReq where
  source    : BitVec 16
  partition : Fin 4
  asid      : BitVec 16
  va        : Word
  n         : Nat
  data      : List Byte
  deriving DecidableEq, Repr

/-- What an AMO or a VAMO of another package does at the home slice (07 R170, 09 R218). -/
inductive PeerRmw
  | add | and | or | xor | min | max | minu | maxu | swap | fadd
  | cas (expected : Word)
  deriving DecidableEq, Repr
/-- What a request from another package asks of the home slice (04 R91), or that it makes a TLBINV (21 R369). -/
inductive PeerOp
  | read
  | write
  | rmw (o : PeerRmw)
  | tlbInv (ctl base len : Word)
  | cellAdd (f : CellFmt) (e0 : Int)
  | cellRead (f : CellFmt) (e0 : Int)
  deriving DecidableEq, Repr

/-- A request from another package of the load-store domain (04 R91, 22 R378): the package, the domain tag that its own policy
gives the partition of its source die, and the access at a physical address. -/
structure PeerReq where
  pkg  : Fin 8
  tag  : Byte
  op   : PeerOp
  pa   : Nat
  n    : Nat
  data : List Byte
  deriving DecidableEq, Repr

/-- What a PLDM request on the side band asks for (22 R379, R380, 23 R392). -/
inductive PldmReq
  | discovery
  | dieSensor (die : Fin 4)
  | dieSensorAt (die : Fin 4) (n : Fin 64)
  | hubSensor (n : Fin 8)
  | stateSensor (n : Nat)
  | packagePower
  | eventLog
  | firmwareUpdate
  deriving DecidableEq, Repr

/-- A place that acquires an uncorrectable error (18 R318): an 8-byte unit of memory, or a register, tile, hash region or
window line of the hart with the given HARTID. -/
inductive EccUnit
  | memory (unit : Nat)
  | scalar (hart : Word) (r : SReg)
  | vector (hart : Word) (r : VReg)
  | mask (hart : Word) (r : MReg)
  | tile (hart : Word) (t : Tile)
  | hash (hart : Word) (h : Handle)
  | window (hart : Word) (line : Nat)
  | modifiedLine (line : Nat)
  deriving DecidableEq, Repr

/-- A correctable error that the hardware has corrected (18 R320): none, one in the line that is scrubbed, or one in the tile buffer or a
register file of a core, by die and number. -/
inductive Corrected
  | none
  | line
  | tileBuffer (die : Fin 4) (core : Fin 72)
  | registers (die : Fin 4) (core : Fin 72)
  deriving DecidableEq, Repr

/-- One port as the boot steps or a training leave it (22 R374, R375). -/
structure PortTrain where
  port  : Fin 9
  lanes : Nat
  far   : Fin 8
  deriving DecidableEq, Repr

/-- What the boot steps meet (23 R381): a step that fails, if any, the policy object in the flash, if any, the ROM version, and
how each port trains. -/
structure BootInput where
  failStep   : Option Nat
  flash      : Option (List Byte)
  romVersion : Word
  ports      : List PortTrain
  deriving DecidableEq, Repr

/-- Every instruction word of Weanen 1.0 and every other step of opcode_table.json, one constructor a row. -/
inductive Instr
  /-- ADD (R161). -/
  | add (d : SReg) (a : SReg) (b : SReg)
  /-- SUB (R161). -/
  | sub (d : SReg) (a : SReg) (b : SReg)
  /-- AND (R161). -/
  | and (d : SReg) (a : SReg) (b : SReg)
  /-- OR (R161). -/
  | or (d : SReg) (a : SReg) (b : SReg)
  /-- XOR (R161). -/
  | xor (d : SReg) (a : SReg) (b : SReg)
  /-- ANDN (R161). -/
  | andn (d : SReg) (a : SReg) (b : SReg)
  /-- SLL (R161). -/
  | sll (d : SReg) (a : SReg) (b : SReg)
  /-- SRL (R161). -/
  | srl (d : SReg) (a : SReg) (b : SReg)
  /-- SRA (R161). -/
  | sra (d : SReg) (a : SReg) (b : SReg)
  /-- ROR (R161). -/
  | ror (d : SReg) (a : SReg) (b : SReg)
  /-- SLT (R161). -/
  | slt (d : SReg) (a : SReg) (b : SReg)
  /-- SLTU (R161). -/
  | sltu (d : SReg) (a : SReg) (b : SReg)
  /-- MIN (R161). -/
  | min (d : SReg) (a : SReg) (b : SReg)
  /-- MAX (R161). -/
  | max (d : SReg) (a : SReg) (b : SReg)
  /-- MINU (R161). -/
  | minu (d : SReg) (a : SReg) (b : SReg)
  /-- MAXU (R161). -/
  | maxu (d : SReg) (a : SReg) (b : SReg)
  /-- CLZ (R161). -/
  | clz (d : SReg) (a : SReg)
  /-- CTZ (R161). -/
  | ctz (d : SReg) (a : SReg)
  /-- POPC (R161). -/
  | popc (d : SReg) (a : SReg)
  /-- BREV (R161). -/
  | brev (d : SReg) (a : SReg)
  /-- SEXTB (R161). -/
  | sextb (d : SReg) (a : SReg)
  /-- SEXTH (R161). -/
  | sexth (d : SReg) (a : SReg)
  /-- SEXTW (R161). -/
  | sextw (d : SReg) (a : SReg)
  /-- ZEXTW (R161). -/
  | zextw (d : SReg) (a : SReg)
  /-- ADDI (R162). -/
  | addi (d : SReg) (a : SReg) (i : BitVec 16)
  /-- ANDI (R162). -/
  | andi (d : SReg) (a : SReg) (i : BitVec 16)
  /-- ORI (R162). -/
  | ori (d : SReg) (a : SReg) (i : BitVec 16)
  /-- XORI (R162). -/
  | xori (d : SReg) (a : SReg) (i : BitVec 16)
  /-- SLLI (R162). -/
  | slli (d : SReg) (a : SReg) (n : Fin 64)
  /-- SRLI (R162). -/
  | srli (d : SReg) (a : SReg) (n : Fin 64)
  /-- SRAI (R162). -/
  | srai (d : SReg) (a : SReg) (n : Fin 64)
  /-- RORI (R162). -/
  | rori (d : SReg) (a : SReg) (n : Fin 64)
  /-- SLTI (R162). -/
  | slti (d : SReg) (a : SReg) (i : BitVec 16)
  /-- SLTIU (R162). -/
  | sltiu (d : SReg) (a : SReg) (i : BitVec 16)
  /-- LUI (R162). -/
  | lui (d : SReg) (i : BitVec 16)
  /-- ADDPC (R162). -/
  | addpc (d : SReg) (i : BitVec 16)
  /-- MUL (R163). -/
  | mul (d : SReg) (a : SReg) (b : SReg)
  /-- MULH (R163). -/
  | mulh (d : SReg) (a : SReg) (b : SReg)
  /-- MULHU (R163). -/
  | mulhu (d : SReg) (a : SReg) (b : SReg)
  /-- MULHSU (R163). -/
  | mulhsu (d : SReg) (a : SReg) (b : SReg)
  /-- DIV (R163). -/
  | div (d : SReg) (a : SReg) (b : SReg)
  /-- DIVU (R163). -/
  | divu (d : SReg) (a : SReg) (b : SReg)
  /-- REM (R163). -/
  | rem (d : SReg) (a : SReg) (b : SReg)
  /-- REMU (R163). -/
  | remu (d : SReg) (a : SReg) (b : SReg)
  /-- FADD (R165). -/
  | fadd (w : FWidth) (m : Rm) (d : SReg) (a : SReg) (b : SReg)
  /-- FSUB (R165). -/
  | fsub (w : FWidth) (m : Rm) (d : SReg) (a : SReg) (b : SReg)
  /-- FMUL (R165). -/
  | fmul (w : FWidth) (m : Rm) (d : SReg) (a : SReg) (b : SReg)
  /-- FDIV (R165). -/
  | fdiv (w : FWidth) (m : Rm) (d : SReg) (a : SReg) (b : SReg)
  /-- FSQRT (R165). -/
  | fsqrt (w : FWidth) (m : Rm) (d : SReg) (a : SReg)
  /-- FMIN (R165). -/
  | fmin (w : FWidth) (d : SReg) (a : SReg) (b : SReg)
  /-- FMAX (R165). -/
  | fmax (w : FWidth) (d : SReg) (a : SReg) (b : SReg)
  /-- FCOPYS (R165). -/
  | fcopys (w : FWidth) (d : SReg) (a : SReg) (b : SReg)
  /-- FCOPYNS (R165). -/
  | fcopyns (w : FWidth) (d : SReg) (a : SReg) (b : SReg)
  /-- FXORS (R165). -/
  | fxors (w : FWidth) (d : SReg) (a : SReg) (b : SReg)
  /-- FEQ (R165). -/
  | feq (w : FWidth) (d : SReg) (a : SReg) (b : SReg)
  /-- FLT (R165). -/
  | flt (w : FWidth) (d : SReg) (a : SReg) (b : SReg)
  /-- FLE (R165). -/
  | fle (w : FWidth) (d : SReg) (a : SReg) (b : SReg)
  /-- FCLASS (R166). -/
  | fclass (w : FWidth) (d : SReg) (a : SReg)
  /-- FCVTFI (R165). -/
  | fcvtfi (w : FWidth) (m : Rm) (d : SReg) (a : SReg)
  /-- FCVTFU (R165). -/
  | fcvtfu (w : FWidth) (m : Rm) (d : SReg) (a : SReg)
  /-- FCVTIF (R165). -/
  | fcvtif (w : FWidth) (m : Rm) (d : SReg) (a : SReg)
  /-- FCVTUF (R165). -/
  | fcvtuf (w : FWidth) (m : Rm) (d : SReg) (a : SReg)
  /-- FCVTFF (R165). -/
  | fcvtff (w : FWidth) (m : Rm) (d : SReg) (a : SReg)
  /-- FMADD (R167). -/
  | fmadd (w : FWidth) (m : Rm) (d : SReg) (a : SReg) (b : SReg) (c : SReg)
  /-- FMSUB (R167). -/
  | fmsub (w : FWidth) (m : Rm) (d : SReg) (a : SReg) (b : SReg) (c : SReg)
  /-- FNMADD (R167). -/
  | fnmadd (w : FWidth) (m : Rm) (d : SReg) (a : SReg) (b : SReg) (c : SReg)
  /-- FNMSUB (R167). -/
  | fnmsub (w : FWidth) (m : Rm) (d : SReg) (a : SReg) (b : SReg) (c : SReg)
  /-- LDB (R168). -/
  | ldb (d : SReg) (a : SReg) (i : BitVec 16)
  /-- LDBU (R168). -/
  | ldbu (d : SReg) (a : SReg) (i : BitVec 16)
  /-- LDH (R168). -/
  | ldh (d : SReg) (a : SReg) (i : BitVec 16)
  /-- LDHU (R168). -/
  | ldhu (d : SReg) (a : SReg) (i : BitVec 16)
  /-- LDW (R168). -/
  | ldw (d : SReg) (a : SReg) (i : BitVec 16)
  /-- LDWU (R168). -/
  | ldwu (d : SReg) (a : SReg) (i : BitVec 16)
  /-- LDD (R168). -/
  | ldd (d : SReg) (a : SReg) (i : BitVec 16)
  /-- STB (R168). -/
  | stb (d : SReg) (a : SReg) (i : BitVec 16)
  /-- STH (R168). -/
  | sth (d : SReg) (a : SReg) (i : BitVec 16)
  /-- STW (R168). -/
  | stw (d : SReg) (a : SReg) (i : BitVec 16)
  /-- STD (R168). -/
  | std (d : SReg) (a : SReg) (i : BitVec 16)
  /-- LDAQ_W (R169). -/
  | ldaqW (sc : Scope) (d : SReg) (a : SReg)
  /-- LDAQ_D (R169). -/
  | ldaqD (sc : Scope) (d : SReg) (a : SReg)
  /-- STRL_W (R169). -/
  | strlW (sc : Scope) (d : SReg) (a : SReg)
  /-- STRL_D (R169). -/
  | strlD (sc : Scope) (d : SReg) (a : SReg)
  /-- AMOADD (R170). -/
  | amoadd (sc : Scope) (o : Order) (w : AWidth) (d : SReg) (a : SReg) (b : SReg)
  /-- AMOAND (R170). -/
  | amoand (sc : Scope) (o : Order) (w : AWidth) (d : SReg) (a : SReg) (b : SReg)
  /-- AMOOR (R170). -/
  | amoor (sc : Scope) (o : Order) (w : AWidth) (d : SReg) (a : SReg) (b : SReg)
  /-- AMOXOR (R170). -/
  | amoxor (sc : Scope) (o : Order) (w : AWidth) (d : SReg) (a : SReg) (b : SReg)
  /-- AMOMIN (R170). -/
  | amomin (sc : Scope) (o : Order) (w : AWidth) (d : SReg) (a : SReg) (b : SReg)
  /-- AMOMAX (R170). -/
  | amomax (sc : Scope) (o : Order) (w : AWidth) (d : SReg) (a : SReg) (b : SReg)
  /-- AMOMINU (R170). -/
  | amominu (sc : Scope) (o : Order) (w : AWidth) (d : SReg) (a : SReg) (b : SReg)
  /-- AMOMAXU (R170). -/
  | amomaxu (sc : Scope) (o : Order) (w : AWidth) (d : SReg) (a : SReg) (b : SReg)
  /-- AMOSWAP (R170). -/
  | amoswap (sc : Scope) (o : Order) (w : AWidth) (d : SReg) (a : SReg) (b : SReg)
  /-- AMOCAS (R170). -/
  | amocas (sc : Scope) (o : Order) (w : AWidth) (d : SReg) (a : SReg) (b : SReg)
  /-- AMOFADD (R171). -/
  | amofadd (sc : Scope) (o : Order) (w : AWidth) (d : SReg) (a : SReg) (b : SReg)
  /-- PREF (R172). -/
  | pref (h : PrefHint) (a : SReg) (i : BitVec 16)
  /-- BEQ (R173). -/
  | beq (d : SReg) (a : SReg) (i : BitVec 16)
  /-- BNE (R173). -/
  | bne (d : SReg) (a : SReg) (i : BitVec 16)
  /-- BLT (R173). -/
  | blt (d : SReg) (a : SReg) (i : BitVec 16)
  /-- BGE (R173). -/
  | bge (d : SReg) (a : SReg) (i : BitVec 16)
  /-- BLTU (R173). -/
  | bltu (d : SReg) (a : SReg) (i : BitVec 16)
  /-- BGEU (R173). -/
  | bgeu (d : SReg) (a : SReg) (i : BitVec 16)
  /-- CALL (R173). -/
  | call (i : BitVec 26)
  /-- JMP (R173). -/
  | jmp (i : BitVec 26)
  /-- JALR (R173). -/
  | jalr (d : SReg) (a : SReg)
  /-- CALLR (R173). -/
  | callr (a : SReg)
  /-- RET (R173). -/
  | ret
  /-- JR (R173). -/
  | jr (a : SReg)
  /-- FENCE (R179). -/
  | fence (p : StreamSet) (q : StreamSet) (sc : Scope)
  /-- SPIN (R180). -/
  | spin
  /-- LEADHOLD (R180). -/
  | leadhold
  /-- SVC (R181). -/
  | svc (n : Fin 32)
  /-- BRK (R181). -/
  | brk
  /-- RDSR (R182). -/
  | rdsr (d : SReg) (r : UReg)
  /-- WRSR (R182). -/
  | wrsr (r : UReg) (d : SReg)
  /-- FORK (R39). -/
  | fork (d : SReg) (a : SReg)
  /-- JOIN (R40). -/
  | join
  /-- EXIT (R47). -/
  | exit
  /-- GBAR (R262). -/
  | gbar (x : Fin 4)
  /-- GBARA (R262). -/
  | gbara (x : Fin 4)
  /-- GBARW (R262). -/
  | gbarw (x : Fin 4)
  /-- ERET (R314). -/
  | eret
  /-- TLBINV (R369). -/
  | tlbinv (d : SReg) (a : SReg) (b : SReg)
  /-- CWB (R323). -/
  | cwb (a : SReg) (b : SReg)
  /-- CINV (R324). -/
  | cinv (a : SReg) (b : SReg)
  /-- CTXSAVE (R333). -/
  | ctxsave (a : SReg)
  /-- CTXLOAD (R336). -/
  | ctxload (a : SReg)
  /-- WAITEV (R326). -/
  | waitev (d : SReg)
  /-- HSIG (R325). -/
  | hsig (a : SReg) (b : SReg)
  /-- PRDSR (R322). -/
  | prdsr (d : SReg) (r : PReg)
  /-- PWRSR (R322). -/
  | pwrsr (r : PReg) (d : SReg)
  /-- HALT (R327). -/
  | halt
  /-- SETVL (R189). -/
  | setvl (d : SReg) (a : SReg) (b : SReg)
  /-- SETVLX (R189). -/
  | setvlx (d : SReg) (a : SReg) (b : SReg)
  /-- SETTYPE (R189). -/
  | settype (d : SReg) (a : SReg)
  /-- SETROWS (R189). -/
  | setrows (d : SReg) (a : SReg)
  /-- SETVLI (R189). -/
  | setvli (d : SReg) (a : SReg) (r : Fin 8) (v : BitVec 9)
  /-- VADD (R190). -/
  | vadd (d : VReg) (a : VReg) (b : Src2) (k : MReg)
  /-- VSUB (R190). -/
  | vsub (d : VReg) (a : VReg) (b : Src2) (k : MReg)
  /-- VRSUB (R190). -/
  | vrsub (d : VReg) (a : VReg) (b : Src2) (k : MReg)
  /-- VMUL (R190). -/
  | vmul (d : VReg) (a : VReg) (b : Src2) (k : MReg)
  /-- VMULH (R190). -/
  | vmulh (d : VReg) (a : VReg) (b : Src2) (k : MReg)
  /-- VMULHU (R190). -/
  | vmulhu (d : VReg) (a : VReg) (b : Src2) (k : MReg)
  /-- VMACC (R190). -/
  | vmacc (d : VReg) (a : VReg) (b : Src2) (k : MReg)
  /-- VMIN (R190). -/
  | vmin (d : VReg) (a : VReg) (b : Src2) (k : MReg)
  /-- VMAX (R190). -/
  | vmax (d : VReg) (a : VReg) (b : Src2) (k : MReg)
  /-- VMINU (R190). -/
  | vminu (d : VReg) (a : VReg) (b : Src2) (k : MReg)
  /-- VMAXU (R190). -/
  | vmaxu (d : VReg) (a : VReg) (b : Src2) (k : MReg)
  /-- VAND (R190). -/
  | vand (d : VReg) (a : VReg) (b : Src2) (k : MReg)
  /-- VOR (R190). -/
  | vor (d : VReg) (a : VReg) (b : Src2) (k : MReg)
  /-- VXOR (R190). -/
  | vxor (d : VReg) (a : VReg) (b : Src2) (k : MReg)
  /-- VSLL (R190). -/
  | vsll (d : VReg) (a : VReg) (b : Src2) (k : MReg)
  /-- VSRL (R190). -/
  | vsrl (d : VReg) (a : VReg) (b : Src2) (k : MReg)
  /-- VSRA (R190). -/
  | vsra (d : VReg) (a : VReg) (b : Src2) (k : MReg)
  /-- VSADD (R190). -/
  | vsadd (d : VReg) (a : VReg) (b : Src2) (k : MReg)
  /-- VSADDU (R190). -/
  | vsaddu (d : VReg) (a : VReg) (b : Src2) (k : MReg)
  /-- VSSUB (R190). -/
  | vssub (d : VReg) (a : VReg) (b : Src2) (k : MReg)
  /-- VSSUBU (R190). -/
  | vssubu (d : VReg) (a : VReg) (b : Src2) (k : MReg)
  /-- VCLZ (R190). -/
  | vclz (d : VReg) (a : VReg) (k : MReg)
  /-- VPOPC (R190). -/
  | vpopc (d : VReg) (a : VReg) (k : MReg)
  /-- VWADD (R190). -/
  | vwadd (d : VReg) (a : VReg) (b : Src2) (k : MReg)
  /-- VWMUL (R190). -/
  | vwmul (d : VReg) (a : VReg) (b : Src2) (k : MReg)
  /-- VNSHR (R190). -/
  | vnshr (d : VReg) (a : VReg) (b : Src2) (k : MReg)
  /-- VMERGE (R191). -/
  | vmerge (d : VReg) (a : VReg) (b : Src2) (k : MReg)
  /-- VID (R190). -/
  | vid (d : VReg) (k : MReg)
  /-- VMV (R190). -/
  | vmv (d : VReg) (b : Src2) (k : MReg)
  /-- VDIV (R190). -/
  | vdiv (d : VReg) (a : VReg) (b : Src2) (k : MReg)
  /-- VREM (R190). -/
  | vrem (d : VReg) (a : VReg) (b : Src2) (k : MReg)
  /-- VFADD (R192). -/
  | vfadd (d : VReg) (a : VReg) (b : Src2) (k : MReg)
  /-- VFSUB (R192). -/
  | vfsub (d : VReg) (a : VReg) (b : Src2) (k : MReg)
  /-- VFMUL (R192). -/
  | vfmul (d : VReg) (a : VReg) (b : Src2) (k : MReg)
  /-- VFDIV (R192). -/
  | vfdiv (d : VReg) (a : VReg) (b : Src2) (k : MReg)
  /-- VFSQRT (R192). -/
  | vfsqrt (d : VReg) (a : VReg) (k : MReg)
  /-- VFRSQE (R193). -/
  | vfrsqe (d : VReg) (a : VReg) (k : MReg)
  /-- VFRECE (R193). -/
  | vfrece (d : VReg) (a : VReg) (k : MReg)
  /-- VFMIN (R192). -/
  | vfmin (d : VReg) (a : VReg) (b : Src2) (k : MReg)
  /-- VFMAX (R192). -/
  | vfmax (d : VReg) (a : VReg) (b : Src2) (k : MReg)
  /-- VFCOPYS (R192). -/
  | vfcopys (d : VReg) (a : VReg) (b : Src2) (k : MReg)
  /-- VFCOPYNS (R192). -/
  | vfcopyns (d : VReg) (a : VReg) (b : Src2) (k : MReg)
  /-- VFXORS (R192). -/
  | vfxors (d : VReg) (a : VReg) (b : Src2) (k : MReg)
  /-- VFSCALE (R192). -/
  | vfscale (d : VReg) (a : VReg) (b : Src2) (k : MReg)
  /-- VFEXPO (R192). -/
  | vfexpo (d : VReg) (a : VReg) (k : MReg)
  /-- VFCLASS (R192). -/
  | vfclass (d : VReg) (a : VReg) (k : MReg)
  /-- VFWADD (R192). -/
  | vfwadd (d : VReg) (a : VReg) (b : Src2) (k : MReg)
  /-- VFWMUL (R192). -/
  | vfwmul (d : VReg) (a : VReg) (b : Src2) (k : MReg)
  /-- VFMA (R194). -/
  | vfma (d : VReg) (a : VReg) (b : VReg) (c : VReg) (k : MReg)
  /-- VFMS (R194). -/
  | vfms (d : VReg) (a : VReg) (b : VReg) (c : VReg) (k : MReg)
  /-- VFNMA (R194). -/
  | vfnma (d : VReg) (a : VReg) (b : VReg) (c : VReg) (k : MReg)
  /-- VFNMS (R194). -/
  | vfnms (d : VReg) (a : VReg) (b : VReg) (c : VReg) (k : MReg)
  /-- VFWMA (R194). -/
  | vfwma (d : VReg) (a : VReg) (b : VReg) (c : VReg) (k : MReg)
  /-- VIMAC (R194). -/
  | vimac (d : VReg) (a : VReg) (b : VReg) (c : VReg) (k : MReg)
  /-- VCMP_EQ (R195). -/
  | vcmpEq (j : MReg) (a : VReg) (b : Src2) (k : MReg)
  /-- VCMP_NE (R195). -/
  | vcmpNe (j : MReg) (a : VReg) (b : Src2) (k : MReg)
  /-- VCMP_LT (R195). -/
  | vcmpLt (j : MReg) (a : VReg) (b : Src2) (k : MReg)
  /-- VCMP_LE (R195). -/
  | vcmpLe (j : MReg) (a : VReg) (b : Src2) (k : MReg)
  /-- VCMP_LTU (R195). -/
  | vcmpLtu (j : MReg) (a : VReg) (b : Src2) (k : MReg)
  /-- VCMP_LEU (R195). -/
  | vcmpLeu (j : MReg) (a : VReg) (b : Src2) (k : MReg)
  /-- VFCMP_EQ (R195). -/
  | vfcmpEq (j : MReg) (a : VReg) (b : Src2) (k : MReg)
  /-- VFCMP_LT (R195). -/
  | vfcmpLt (j : MReg) (a : VReg) (b : Src2) (k : MReg)
  /-- VFCMP_LE (R195). -/
  | vfcmpLe (j : MReg) (a : VReg) (b : Src2) (k : MReg)
  /-- VFCMP_UN (R195). -/
  | vfcmpUn (j : MReg) (a : VReg) (b : Src2) (k : MReg)
  /-- KAND (R196). -/
  | kand (j : MReg) (x : MReg) (y : MReg) (k : MReg)
  /-- KOR (R196). -/
  | kor (j : MReg) (x : MReg) (y : MReg) (k : MReg)
  /-- KXOR (R196). -/
  | kxor (j : MReg) (x : MReg) (y : MReg) (k : MReg)
  /-- KANDN (R196). -/
  | kandn (j : MReg) (x : MReg) (y : MReg) (k : MReg)
  /-- KPREX (R196). -/
  | kprex (j : MReg) (x : MReg) (k : MReg)
  /-- KPRIN (R196). -/
  | kprin (j : MReg) (x : MReg) (k : MReg)
  /-- KSUFIN (R196). -/
  | ksufin (j : MReg) (x : MReg) (k : MReg)
  /-- KPOPC (R196). -/
  | kpopc (d : SReg) (x : MReg) (k : MReg)
  /-- KFIRST (R196). -/
  | kfirst (d : SReg) (x : MReg) (k : MReg)
  /-- KMOV (R196). -/
  | kmov (j : MReg) (x : MReg) (k : MReg)
  /-- KTOV (R196). -/
  | ktov (d : VReg) (x : MReg) (k : MReg)
  /-- VTOK (R196). -/
  | vtok (j : MReg) (a : VReg) (k : MReg)
  /-- KSET (R196). -/
  | kset (j : MReg) (k : MReg)
  /-- VCVT (R197). -/
  | vcvt (c : Fmt) (m : Rm) (s : Bool) (d : VReg) (a : VReg) (k : MReg)
  /-- VREDSUM (R198). -/
  | vredsum (t : RedDst) (b : VReg) (k : MReg)
  /-- VREDMAX (R198). -/
  | vredmax (t : RedDst) (b : VReg) (k : MReg)
  /-- VREDMIN (R198). -/
  | vredmin (t : RedDst) (b : VReg) (k : MReg)
  /-- VREDAND (R198). -/
  | vredand (t : RedDst) (b : VReg) (k : MReg)
  /-- VREDOR (R198). -/
  | vredor (t : RedDst) (b : VReg) (k : MReg)
  /-- VREDXOR (R198). -/
  | vredxor (t : RedDst) (b : VReg) (k : MReg)
  /-- VFREDSUM (R198). -/
  | vfredsum (t : RedDst) (b : VReg) (k : MReg)
  /-- VFREDMAX (R198). -/
  | vfredmax (t : RedDst) (b : VReg) (k : MReg)
  /-- VFREDMIN (R198). -/
  | vfredmin (t : RedDst) (b : VReg) (k : MReg)
  /-- VSCAN (R199). -/
  | vscan (d : VReg) (a : SReg) (b : VReg) (k : MReg)
  /-- VFSCAN (R199). -/
  | vfscan (d : VReg) (a : SReg) (b : VReg) (k : MReg)
  /-- VCOMPRESS (R200). -/
  | vcompress (d : VReg) (a : VReg) (k : MReg)
  /-- VEXPAND (R200). -/
  | vexpand (d : VReg) (a : VReg) (k : MReg)
  /-- VTOPK (R201). -/
  | vtopk (d : VReg) (a : VReg) (b : SReg) (k : MReg)
  /-- VSLIDEUP (R202). -/
  | vslideup (d : VReg) (a : VReg) (b : Src2) (k : MReg)
  /-- VSLIDEDN (R202). -/
  | vslidedn (d : VReg) (a : VReg) (b : Src2) (k : MReg)
  /-- VPERM (R202). -/
  | vperm (d : VReg) (a : VReg) (b : VReg) (k : MReg)
  /-- VEXTR (R202). -/
  | vextr (d : SReg) (a : VReg) (b : SReg) (k : MReg)
  /-- VINS (R202). -/
  | vins (d : VReg) (a : SReg) (b : SReg) (k : MReg)
  /-- VIOTA (R202). -/
  | viota (d : VReg) (x : MReg) (k : MReg)
  /-- VROWBC (R202). -/
  | vrowbc (d : VReg) (a : VReg) (b : SReg) (k : MReg)
  /-- VLD (R205). -/
  | vld (d : VReg) (a : SReg) (k : MReg) (e : EWidth) (x : Bool) (h : VHint)
  /-- VLDS (R205). -/
  | vlds (d : VReg) (a : SReg) (b : SReg) (k : MReg) (e : EWidth) (x : Bool) (h : VHint)
  /-- VLDX (R213). -/
  | vldx (d : VReg) (a : SReg) (b : VReg) (k : MReg) (e : EWidth) (x : Bool) (h : XHint)
  /-- VLDFF (R214). -/
  | vldff (d : VReg) (a : SReg) (k : MReg) (e : EWidth) (x : Bool) (h : VHint)
  /-- VLDW (R215). -/
  | vldw (d : VReg) (a : SReg) (b : VReg) (k : MReg) (e : EWidth) (x : Bool) (h : XHint)
  /-- VLDMX (R216). -/
  | vldmx (d : VReg) (a : SReg) (b : VReg) (k : MReg) (x : Bool) (h : VHint)
  /-- VLDAQ (R219). -/
  | vldaq (d : VReg) (a : SReg) (k : MReg) (e : EWidth) (x : Bool) (h : VHint)
  /-- VST (R205). -/
  | vst (d : VReg) (a : SReg) (k : MReg) (e : EWidth) (h : VHint)
  /-- VSTS (R205). -/
  | vsts (d : VReg) (a : SReg) (b : SReg) (k : MReg) (e : EWidth) (h : VHint)
  /-- VSTX (R213). -/
  | vstx (d : VReg) (a : SReg) (b : VReg) (k : MReg) (e : EWidth) (h : XHint)
  /-- VSTP (R217). -/
  | vstp (d : VReg) (a : SReg) (k : MReg) (e : EWidth) (h : VHint)
  /-- VCOMMIT (R218). -/
  | vcommit (k : MReg)
  /-- VAMOADD (R220). -/
  | vamoadd (o : Order) (e : Bool) (d : VReg) (a : SReg) (b : VReg) (k : MReg)
  /-- VAMOAND (R220). -/
  | vamoand (o : Order) (e : Bool) (d : VReg) (a : SReg) (b : VReg) (k : MReg)
  /-- VAMOOR (R220). -/
  | vamoor (o : Order) (e : Bool) (d : VReg) (a : SReg) (b : VReg) (k : MReg)
  /-- VAMOXOR (R220). -/
  | vamoxor (o : Order) (e : Bool) (d : VReg) (a : SReg) (b : VReg) (k : MReg)
  /-- VAMOMIN (R220). -/
  | vamomin (o : Order) (e : Bool) (d : VReg) (a : SReg) (b : VReg) (k : MReg)
  /-- VAMOMAX (R220). -/
  | vamomax (o : Order) (e : Bool) (d : VReg) (a : SReg) (b : VReg) (k : MReg)
  /-- VAMOMINU (R220). -/
  | vamominu (o : Order) (e : Bool) (d : VReg) (a : SReg) (b : VReg) (k : MReg)
  /-- VAMOMAXU (R220). -/
  | vamomaxu (o : Order) (e : Bool) (d : VReg) (a : SReg) (b : VReg) (k : MReg)
  /-- VAMOSWAP (R220). -/
  | vamoswap (o : Order) (e : Bool) (d : VReg) (a : SReg) (b : VReg) (k : MReg)
  /-- VAMOFADD (R220). -/
  | vamofadd (o : Order) (r : Bool) (e : Bool) (d : VReg) (a : SReg) (b : VReg) (k : MReg)
  /-- MBEGIN (R227). -/
  | mbegin (d : SReg) (a : SReg)
  /-- MEND (R227). -/
  | mend
  /-- MZERO (R230). -/
  | mzero (t : Tile)
  /-- MPROD (R231). -/
  | mprod (t : Tile) (a : VReg) (b : VReg) (k : MReg)
  /-- MPRODN (R231). -/
  | mprodn (t : Tile) (a : VReg) (b : VReg) (k : MReg)
  /-- MPRODS (R232). -/
  | mprods (t : Tile) (d : VReg) (a : VReg) (b : VReg) (k : MReg)
  /-- MRD (R233). -/
  | mrd (t : Tile) (s : Bool) (d : VReg) (a : SReg)
  /-- MWR (R233). -/
  | mwr (t : Tile) (s : Bool) (d : VReg) (a : SReg)
  /-- MLD (R234). -/
  | mld (c : CReg) (t : Tile) (s : Bool) (a : SReg) (b : SReg)
  /-- MST (R234). -/
  | mst (c : CReg) (t : Tile) (s : Bool) (a : SReg) (b : SReg)
  /-- MTGEMM (R245). -/
  | mtgemm (c : CReg) (a : SReg)
  /-- XCOPY (R247). -/
  | xcopy (c : CReg) (a : SReg)
  /-- XFILL (R248). -/
  | xfill (c : CReg) (a : SReg)
  /-- CZERO (R258). -/
  | czero (c : CReg) (a : SReg) (b : SReg)
  /-- HDRAIN (R283). -/
  | hdrain (c : CReg) (a : SReg) (h : Handle)
  /-- CCWAIT (R237). -/
  | ccwait (c : CReg) (b : Fin 32)
  /-- CCRD (R238). -/
  | ccrd (c : CReg) (a : SReg)
  /-- SMAP (R266). -/
  | smap (d : SReg) (a : SReg) (b : SReg) (w : WinId)
  /-- SUNMAP (R267). -/
  | sunmap (w : WinId)
  /-- SWB (R268). -/
  | swb (c : CReg) (w : WinId)
  /-- CADD (R256). -/
  | cadd (f : CellFmt) (a : SReg) (b : SReg)
  /-- VCADD (R256). -/
  | vcadd (f : CellFmt) (d : VReg) (a : SReg) (b : VReg) (k : MReg)
  /-- CRAW (R256). -/
  | craw (d : VReg) (a : SReg) (k : MReg)
  /-- CWRAW (R257). -/
  | cwraw (d : VReg) (a : SReg) (k : MReg)
  /-- HCLAIM (R272). -/
  | hclaim (d : SReg) (a : SReg) (h : Handle)
  /-- HREL (R273). -/
  | hrel (h : Handle)
  /-- HINS (R280). -/
  | hins (d : VReg) (a : VReg) (b : VReg) (h : Handle) (k : MReg)
  /-- HPROBE (R280). -/
  | hprobe (d : VReg) (a : VReg) (h : Handle) (k : MReg)
  /-- HDEL (R280). -/
  | hdel (a : VReg) (h : Handle) (k : MReg)
  /-- HACC (R280). -/
  | hacc (f : HAccOp) (d : VReg) (a : VReg) (b : VReg) (h : Handle) (k : MReg)
  /-- HSTAT (R282). -/
  | hstat (d : SReg) (h : Handle)
  /-- IMAGE_LOAD (R386). -/
  | imageLoad (m : Msg)
  /-- IMAGE_DROP (R342). -/
  | imageDrop (m : Msg)
  /-- LAUNCH (R344). -/
  | launch (m : Msg)
  /-- GRAPH_DEFINE (R353). -/
  | graphDefine (m : Msg)
  /-- GRAPH_REPLAY (R354). -/
  | graphReplay (m : Msg)
  /-- GRAPH_PATCH (R355). -/
  | graphPatch (m : Msg)
  /-- SYNC (R342). -/
  | sync (m : Msg)
  /-- QUERY (R342). -/
  | query (m : Msg)
  /-- PARTITION_SET (R377). -/
  | partitionSet (m : Msg)
  /-- DIE_RESET (R397). -/
  | dieReset (m : Msg)
  /-- ATTEST (R388). -/
  | attest (m : Msg)
  /-- POLICY_LOAD (R387). -/
  | policyLoad (m : Msg)
  /-- COMPLETION_MESSAGE (R341). -/
  | completionMessage (n : Nat)
  /-- DCTL_FENCE (R396). -/
  | dctlFence (x : Fin 4)
  /-- DCTL_QUIESCE (R396). -/
  | dctlQuiesce (x : Fin 4)
  /-- DCTL_FLUSH (R396). -/
  | dctlFlush (x : Fin 4)
  /-- DCTL_SELFREF (R396). -/
  | dctlSelfref (x : Fin 4)
  /-- DCTL_RESET (R396). -/
  | dctlReset (x : Fin 4)
  /-- DCTL_TRAIN (R396). -/
  | dctlTrain (x : Fin 4)
  /-- DCTL_ADMIT (R396). -/
  | dctlAdmit (x : Fin 4)
  /-- DIE_ACTION_COMPLETE (R396). -/
  | dieActionComplete (x : Fin 4) (f : Bool)
  /-- DISPATCH_ROUND (R346). -/
  | dispatchRound
  /-- PREEMPTION_REQUEST (R328). -/
  | preemptionRequest
  /-- GANG_STOP_COMPLETE (R350). -/
  | gangStopComplete (g : BitVec 32)
  /-- GANG_END (R351). -/
  | gangEnd (g : BitVec 32)
  /-- GRAPH_NODE_QUEUE (R354). -/
  | graphNodeQueue (r : Nat) (n : Nat)
  /-- CP_SERVICE_REPLY (R356). -/
  | cpServiceReply
  /-- WATCHDOG (R316). -/
  | watchdog
  /-- ENGINE_ACCEPT (R236). -/
  | engineAccept
  /-- ENGINE_COMPLETE (R110). -/
  | engineComplete (n : Nat)
  /-- BARRIER_EPISODE_COMPLETE (R261). -/
  | barrierEpisodeComplete (g : BitVec 32) (x : Fin 4)
  /-- LEAD_INSTRUCTION (R14). -/
  | leadInstruction
  /-- LEAD_PREFETCH_FILL (R17). -/
  | leadPrefetchFill (n : Nat)
  /-- L2_LINE_EVICTION (R90). -/
  | l2LineEviction (l : Nat)
  /-- PATROL_SCRUB (R320). -/
  | patrolScrub (l : Nat) (c : Corrected)
  /-- VOLTAGE_UPDATE (R389). -/
  | voltageUpdate
  /-- CAP_STEP (R390). -/
  | capStep (p : Nat)
  /-- KETTLE_UPDATE (R391). -/
  | kettleUpdate (p : Nat)
  /-- TEMPERATURE_CROSSING (R392). -/
  | temperatureCrossing (x : Fin 4) (c : Int)
  /-- THERMAL_TRIP (R393). -/
  | thermalTrip (x : Fin 4)
  /-- MAIN_POWER_UP (R381). -/
  | mainPowerUp (b : BootInput)
  /-- MAIN_POWER_DOWN (R380). -/
  | mainPowerDown
  /-- PORT_DOWN (R375). -/
  | portDown (x : Fin 9) (lost : List (BitVec 32))
  /-- LINK_FLIT_RETRY (R371). -/
  | linkFlitRetry (x : Fin 9)
  /-- PORTSTAT_READ (R374). -/
  | portstatRead (x : Fin 9)
  /-- HOST_READ (R365). -/
  | hostRead (r : HostReq)
  /-- HOST_WRITE (R365). -/
  | hostWrite (r : HostReq)
  /-- PEER_REQUEST (R91). -/
  | peerRequest (r : PeerReq)
  /-- SIDEBAND_PLDM_REQUEST (R379). -/
  | sidebandPldmRequest (t : BitVec 8) (q : PldmReq)
  /-- SIDEBAND_POWER_LIMIT (R380). -/
  | sidebandPowerLimit (w : Nat)
  /-- ILLEGAL_INSTRUCTION (R149). -/
  | illegalInstruction (w : BitVec 32)
  /-- FETCH_FAULT (R174). -/
  | fetchFault (w : Word)
  /-- VECTOR_INSTRUCTION_COMPLETION (R311). -/
  | vectorInstructionCompletion
  /-- ACCESS_PERFORMS (R102). -/
  | accessPerforms (n : Nat)
  /-- UNCORRECTABLE_ERROR (R318). -/
  | uncorrectableError (u : EccUnit)
  /-- PORT_UP (R374). -/
  | portUp (x : Fin 9) (n : Nat) (far : Fin 8)
  deriving DecidableEq, Repr

end Sys2Proof
end

