-- ==== Sys2Proof/WellFormed.lean ====
section
/-! DEFINITION. What the operand types alone do not say: the operand forms, mask numbers, rounding modes, format codes and
registers that an instruction word may name (06 R128 to R148).  Every condition here is one that the word alone decides
(step 1 of 06 R150); a word that breaks one is no instruction. -/

namespace Sys2Proof

/-- The operand is in form .VV or .VS (06 R128). -/
def Src2.noImm : Src2 → Bool
  | .vi _ => false
  | _ => true

/-- The operand is in form .VS or .VI (06 R128). -/
def Src2.noVec : Src2 → Bool
  | .vv _ => false
  | _ => true

/-- The amount of a slide: a scalar, or an immediate that is not negative (06 R143). -/
def Src2.slideAmount : Src2 → Bool
  | .vv _ => false
  | .vs _ => true
  | .vi b => !b.msb

/-- The format may be a VCVT destination (03 R56). -/
def Fmt.inVcvt : Fmt → Bool
  | .mxE4m3 | .mxE5m2 | .mxE2m1 => false
  | _ => true

/-- The format is an integer format (03 R56). -/
def Fmt.isInt : Fmt → Bool
  | .int8 | .uint8 | .int16 | .uint16 | .int32 | .uint32 | .int64 | .uint64 => true
  | _ => false

/-- A rounding mode that a scalar floating-point instruction may name (06 R130). -/
def Rm.scalarOk : Rm → Bool
  | .dit => false
  | _ => true

/-- The user state registers that hold an RW field (02 R28, R42, 03 R61, R74, 07 R176). -/
def UReg.writable : UReg → Bool
  | .vstart | .rowstr | .fcsr | .mxflags | .hartmode | .rsp => true
  | _ => false

/-- The privileged registers that hold an RW field (18 R306 to R308). -/
def PReg.writable : PReg → Bool
  | .ptroot | .asid | .partid => false
  | _ => true

/-- The operands are ones that the encoding admits. -/
def wellFormed : Instr → Bool
  | .fadd _ m _ _ _ | .fsub _ m _ _ _ | .fmul _ m _ _ _ | .fdiv _ m _ _ _ => m.scalarOk
  | .fsqrt _ m _ _ | .fcvtfi _ m _ _ | .fcvtfu _ m _ _ | .fcvtif _ m _ _ | .fcvtuf _ m _ _ | .fcvtff _ m _ _ => m.scalarOk
  | .fmadd _ m _ _ _ _ | .fmsub _ m _ _ _ _ | .fnmadd _ m _ _ _ _ | .fnmsub _ m _ _ _ _ => m.scalarOk
  | .wrsr r _ => r.writable
  | .pwrsr r _ => r.writable
  | .vsub _ _ b _ | .vmulh _ _ b _ | .vmulhu _ _ b _ | .vmacc _ _ b _ | .vminu _ _ b _ | .vmaxu _ _ b _
  | .vssub _ _ b _ | .vssubu _ _ b _ | .vwadd _ _ b _ | .vwmul _ _ b _ | .vdiv _ _ b _ | .vrem _ _ b _ => b.noImm
  | .vrsub _ _ b _ => b.noVec
  | .vfadd _ _ b _ | .vfsub _ _ b _ | .vfmul _ _ b _ | .vfdiv _ _ b _ | .vfmin _ _ b _ | .vfmax _ _ b _
  | .vfcopys _ _ b _ | .vfcopyns _ _ b _ | .vfxors _ _ b _ | .vfscale _ _ b _ | .vfwadd _ _ b _ | .vfwmul _ _ b _ => b.noImm
  | .vcmpEq j _ _ _ | .vcmpNe j _ _ _ | .vcmpLt j _ _ _ | .vcmpLe j _ _ _ | .vcmpLtu j _ _ _ | .vcmpLeu j _ _ _ => j != 0
  | .vfcmpEq j _ b _ | .vfcmpLt j _ b _ | .vfcmpLe j _ b _ | .vfcmpUn j _ b _ => j != 0 && b.noImm
  | .kand j _ _ _ | .kor j _ _ _ | .kxor j _ _ _ | .kandn j _ _ _ => j != 0
  | .kprex j _ _ | .kprin j _ _ | .ksufin j _ _ | .kmov j _ _ => j != 0
  | .vtok j _ _ => j != 0
  | .kset j _ => j != 0
  | .vcvt c m _ _ _ _ => c.inVcvt && !(c.isInt && m == .dit)
  | .vslideup _ _ b _ | .vslidedn _ _ b _ => b.slideAmount
  | .vldw _ _ _ k _ _ _ => k != 0
  | .vldmx _ _ _ k _ _ => k != 0
  | .hprobe _ _ _ k => k != 0
  | .ccwait _ b => b != 0
  | .hostWrite r => r.data.length == r.n
  | _ => true

end Sys2Proof
end

