-- ==== Sys2Proof/Decode.lean ====
section
/-! DEFINITION. The decoder of instruction words (06 R124 to R149), total and rejecting by name, and after it the encoder,
written from the same tables.  A word is read as a natural number, bit 0 its least significant bit; bytes are little-endian
(00 R2). -/

namespace Sys2Proof

/-- Why a word is no instruction (06 R149): each is an Illegal Instruction fault of the trail. -/
inductive Reject
  | tooShort | reservedMajor | undefinedFn | mustBeZero | badForm | badScope | badRounding | badIndex | badHint | badFormat
  | badOperand
  deriving DecidableEq, Repr

/-! ## Codes of the operand types -/

def Scope.code : Scope → Nat
  | .hart => 0 | .pair => 1 | .die => 2 | .package => 3 | .domain => 4 | .system => 5
/-- The scope of a K field (05 R98). -/
def Scope.ofCode : Nat → Except Reject Scope
  | 0 => .ok .hart | 1 => .ok .pair | 2 => .ok .die | 3 => .ok .package | 4 => .ok .domain | 5 => .ok .system
  | _ => .error .badScope

def Order.code : Order → Nat
  | .relaxed => 0 | .acquire => 1 | .release => 2 | .acqRel => 3
/-- The order of FN[7:6] (06 R135, R145). -/
def Order.ofCode : Nat → Order
  | 0 => .relaxed | 1 => .acquire | 2 => .release | _ => .acqRel

def FWidth.code : FWidth → Nat
  | .single => 0 | .double => 1
def FWidth.ofCode : Nat → FWidth
  | 0 => .single | _ => .double

def AWidth.code : AWidth → Nat
  | .word => 0 | .dword => 1
def AWidth.ofCode : Nat → AWidth
  | 0 => .word | _ => .dword

def Rm.code : Rm → Nat
  | .rne => 0 | .rtz => 1 | .rdn => 2 | .rup => 3 | .rmm => 4 | .dit => 5 | .dyn => 7
/-- The rounding mode of a 3-bit field (03 R57); 110 names none. -/
def Rm.ofCode : Nat → Except Reject Rm
  | 0 => .ok .rne | 1 => .ok .rtz | 2 => .ok .rdn | 3 => .ok .rup | 4 => .ok .rmm | 5 => .ok .dit | 7 => .ok .dyn
  | _ => .error .badRounding

def PrefHint.code : PrefHint → Nat
  | .scalarL1 => 0 | .lookahead => 1 | .homeSlice => 2
def PrefHint.ofCode : Nat → Except Reject PrefHint
  | 0 => .ok .scalarL1 | 1 => .ok .lookahead | 2 => .ok .homeSlice
  | _ => .error .badHint

def StreamSet.code (x : StreamSet) : Nat := x.s.toNat + 2 * x.v.toNat + 4 * x.e.toNat
/-- A set of streams: bit 0 S, bit 1 V, bit 2 E (05 R106). -/
def StreamSet.ofCode (n : Nat) : StreamSet := ⟨n % 2 == 1, n / 2 % 2 == 1, n / 4 % 2 == 1⟩

def Src2.form : Src2 → Nat
  | .vv _ => 0 | .vs _ => 1 | .vi _ => 2
def Src2.field : Src2 → Nat
  | .vv b => b.val | .vs b => b.val | .vi b => b.toNat
/-- The second operand of a form code and a B field (06 R128). -/
def Src2.ofCode (form b : Nat) : Except Reject Src2 :=
  match form with
  | 0 => .ok (.vv (Fin.ofNat 32 b))
  | 1 => .ok (.vs (Fin.ofNat 32 b))
  | 2 => .ok (.vi (BitVec.ofNat 5 b))
  | _ => .error .badForm

def RedDst.d : RedDst → Nat
  | .scalar d _ => d.val | .perRow d => d.val
def RedDst.a : RedDst → Nat
  | .scalar _ a => a.val | .perRow _ => 0
def RedDst.row : RedDst → Nat
  | .scalar _ _ => 0 | .perRow _ => 1
/-- The destination of a reduction (06 R142); the per-row form needs A = 0 (08 R198). -/
def RedDst.ofCode (row d a : Nat) : Except Reject RedDst :=
  match row, a with
  | 0, a => .ok (.scalar (Fin.ofNat 32 d) (Fin.ofNat 32 a))
  | _, 0 => .ok (.perRow (Fin.ofNat 32 d))
  | _, _ => .error .mustBeZero

def Fmt.code : Fmt → Nat
  | .fp64 => 0 | .fp32 => 1 | .fp16 => 2 | .bf16 => 3 | .e4m3 => 4 | .e5m2 => 5 | .e2m1 => 6 | .int8 => 7
  | .mxE4m3 => 8 | .mxE5m2 => 9 | .mxE2m1 => 10 | .uint8 => 11 | .int16 => 12 | .uint16 => 13 | .int32 => 14
  | .uint32 => 15 | .int64 => 16 | .uint64 => 17 | .e8m0 => 18
/-- The format of a code (03 R56). -/
def Fmt.ofCode : Nat → Except Reject Fmt
  | 0 => .ok .fp64 | 1 => .ok .fp32 | 2 => .ok .fp16 | 3 => .ok .bf16 | 4 => .ok .e4m3 | 5 => .ok .e5m2 | 6 => .ok .e2m1
  | 7 => .ok .int8 | 8 => .ok .mxE4m3 | 9 => .ok .mxE5m2 | 10 => .ok .mxE2m1 | 11 => .ok .uint8 | 12 => .ok .int16
  | 13 => .ok .uint16 | 14 => .ok .int32 | 15 => .ok .uint32 | 16 => .ok .int64 | 17 => .ok .uint64 | 18 => .ok .e8m0
  | _ => .error .badFormat

def EWidth.code : EWidth → Nat
  | .w8 => 0 | .w16 => 1 | .w32 => 2 | .w64 => 3
def EWidth.ofCode : Nat → EWidth
  | 0 => .w8 | 1 => .w16 | 2 => .w32 | _ => .w64

def VHint.code : VHint → Nat
  | .normal => 0 | .stream => 1 | .keep => 2
def VHint.ofCode : Nat → Except Reject VHint
  | 0 => .ok .normal | 1 => .ok .stream | 2 => .ok .keep | _ => .error .badHint

def XHint.code (h : XHint) : Nat := 2 * h.wide.toNat + h.stream.toNat
def XHint.ofCode (n : Nat) : XHint := ⟨n / 2 % 2 == 1, n % 2 == 1⟩

def CellFmt.code : CellFmt → Nat
  | .f32 => 0 | .bf16 => 1 | .f16 => 2 | .f64 => 3
def CellFmt.ofCode : Nat → CellFmt
  | 0 => .f32 | 1 => .bf16 | 2 => .f16 | _ => .f64

def HAccOp.code : HAccOp → Nat
  | .wrap => 0 | .f32 => 1 | .f64 => 2 | .max => 3
def HAccOp.ofCode : Nat → HAccOp
  | 0 => .wrap | 1 => .f32 | 2 => .f64 | _ => .max

/-- The 10-bit index of a user state register (06 R137). -/
def UReg.index : UReg → Nat
  | .vl => 0 | .vrows => 1 | .vtype => 2 | .vstart => 3 | .rowstr => 4 | .vlcap => 5 | .lanepart => 6 | .fcsr => 16
  | .mxflags => 17 | .hartmode => 18 | .hartid => 32 | .gangid => 33 | .gangsize => 34 | .hartidx => 35 | .cycles => 36
  | .rsp => 48 | .rsdepth => 49
def UReg.ofIndex : Nat → Except Reject UReg
  | 0 => .ok .vl | 1 => .ok .vrows | 2 => .ok .vtype | 3 => .ok .vstart | 4 => .ok .rowstr | 5 => .ok .vlcap
  | 6 => .ok .lanepart | 16 => .ok .fcsr | 17 => .ok .mxflags | 18 => .ok .hartmode | 32 => .ok .hartid | 33 => .ok .gangid
  | 34 => .ok .gangsize | 35 => .ok .hartidx | 36 => .ok .cycles | 48 => .ok .rsp | 49 => .ok .rsdepth
  | _ => .error .badIndex

/-- The 10-bit index of a privileged register (18 R305). -/
def PReg.index : PReg → Nat
  | .tvec => 512 | .tcause => 513 | .trappc => 514 | .tval => 515 | .tvstart => 516 | .pstat => 517 | .tscratch => 518
  | .ptroot => 528 | .asid => 529 | .partid => 530 | .leadctl => 544 | .vdirty => 560 | .adirty => 561 | .wdlimit => 576
  | .wdcount => 577 | .rsbase => 592 | .rslimit => 593
def PReg.ofIndex : Nat → Except Reject PReg
  | 512 => .ok .tvec | 513 => .ok .tcause | 514 => .ok .trappc | 515 => .ok .tval | 516 => .ok .tvstart | 517 => .ok .pstat
  | 518 => .ok .tscratch | 528 => .ok .ptroot | 529 => .ok .asid | 530 => .ok .partid | 544 => .ok .leadctl
  | 560 => .ok .vdirty | 561 => .ok .adirty | 576 => .ok .wdlimit | 577 => .ok .wdcount | 592 => .ok .rsbase
  | 593 => .ok .rslimit
  | _ => .error .badIndex

/-! ## Fields of a word (06 R124, R125) -/

def fldOp (w : Nat) : Nat := w / 67108864 % 64
def fldD (w : Nat) : Nat := w / 2097152 % 32
def fldA (w : Nat) : Nat := w / 65536 % 32
def fldB (w : Nat) : Nat := w / 2048 % 32
def fldK (w : Nat) : Nat := w / 256 % 8
def fldFn (w : Nat) : Nat := w % 256
def fldC (w : Nat) : Nat := w / 64 % 32
def fldK4 (w : Nat) : Nat := w / 8 % 8
def fldFn4 (w : Nat) : Nat := w % 8
def fldImm16 (w : Nat) : Nat := w % 65536
def fldImm26 (w : Nat) : Nat := w % 67108864
def fldMode (w : Nat) : Nat := w / 32 % 8
def fldEw (w : Nat) : Nat := w / 8 % 4
def fldSx (w : Nat) : Nat := w / 4 % 2
def fldHint (w : Nat) : Nat := w % 4

def regD (w : Nat) : Fin 32 := Fin.ofNat 32 (fldD w)
def regA (w : Nat) : Fin 32 := Fin.ofNat 32 (fldA w)
def regB (w : Nat) : Fin 32 := Fin.ofNat 32 (fldB w)
def regC (w : Nat) : Fin 32 := Fin.ofNat 32 (fldC w)
def maskK (w : Nat) : MReg := Fin.ofNat 8 (fldK w)
def maskK4 (w : Nat) : MReg := Fin.ofNat 8 (fldK4 w)
def maskD (w : Nat) : MReg := Fin.ofNat 8 (fldD w)
def maskA (w : Nat) : MReg := Fin.ofNat 8 (fldA w)
def maskB (w : Nat) : MReg := Fin.ofNat 8 (fldB w)
def ctrD (w : Nat) : CReg := Fin.ofNat 16 (fldD w)
def imm16 (w : Nat) : BitVec 16 := BitVec.ofNat 16 (fldImm16 w)

/-- Accept `i` if a field requirement holds, else refuse by name. -/
def need (c : Bool) (r : Reject) (i : Instr) : Except Reject Instr := if c then .ok i else .error r

/-- The fields that a word requires to be zero are zero (06 R126, R149). -/
def zeroB (w : Nat) (i : Instr) : Except Reject Instr := need (fldB w == 0) .mustBeZero i
def zeroK (w : Nat) (i : Instr) : Except Reject Instr := need (fldK w == 0) .mustBeZero i
def zeroBK (w : Nat) (i : Instr) : Except Reject Instr := need (fldB w == 0 && fldK w == 0) .mustBeZero i
def zeroDABK (w : Nat) (i : Instr) : Except Reject Instr :=
  need (fldD w == 0 && fldA w == 0 && fldB w == 0 && fldK w == 0) .mustBeZero i
/-- A mask number is in bits 2:0 of its field, and bits 4:3 are zero (06 R126). -/
def isMask (x : Nat) : Bool := x < 8

/-! ## Majors

The compiler numbers constructors that carry fields up to 244, and `Instr` has 343, so the definitions that build an `Instr` are
noncomputable: Lean's kernel evaluates them, the compiler does not. -/

noncomputable section

/-- ALU (06 R132). -/
def decodeAlu (w : Nat) : Except Reject Instr :=
  match fldFn w with
  | 0 => zeroK w (.add (regD w) (regA w) (regB w))
  | 1 => zeroK w (.sub (regD w) (regA w) (regB w))
  | 2 => zeroK w (.and (regD w) (regA w) (regB w))
  | 3 => zeroK w (.or (regD w) (regA w) (regB w))
  | 4 => zeroK w (.xor (regD w) (regA w) (regB w))
  | 5 => zeroK w (.andn (regD w) (regA w) (regB w))
  | 6 => zeroK w (.sll (regD w) (regA w) (regB w))
  | 7 => zeroK w (.srl (regD w) (regA w) (regB w))
  | 8 => zeroK w (.sra (regD w) (regA w) (regB w))
  | 9 => zeroK w (.ror (regD w) (regA w) (regB w))
  | 10 => zeroK w (.slt (regD w) (regA w) (regB w))
  | 11 => zeroK w (.sltu (regD w) (regA w) (regB w))
  | 12 => zeroK w (.min (regD w) (regA w) (regB w))
  | 13 => zeroK w (.max (regD w) (regA w) (regB w))
  | 14 => zeroK w (.minu (regD w) (regA w) (regB w))
  | 15 => zeroK w (.maxu (regD w) (regA w) (regB w))
  | 16 => zeroBK w (.clz (regD w) (regA w))
  | 17 => zeroBK w (.ctz (regD w) (regA w))
  | 18 => zeroBK w (.popc (regD w) (regA w))
  | 19 => zeroBK w (.brev (regD w) (regA w))
  | 20 => zeroBK w (.sextb (regD w) (regA w))
  | 21 => zeroBK w (.sexth (regD w) (regA w))
  | 22 => zeroBK w (.sextw (regD w) (regA w))
  | 23 => zeroBK w (.zextw (regD w) (regA w))
  | _ => .error .undefinedFn

/-- SHI (06 R133). -/
def decodeShi (w : Nat) : Except Reject Instr :=
  let n : Fin 64 := Fin.ofNat 64 (fldImm16 w)
  if fldImm16 w / 64 % 256 == 0 then
    match fldImm16 w / 16384 with
    | 0 => .ok (.slli (regD w) (regA w) n)
    | 1 => .ok (.srli (regD w) (regA w) n)
    | 2 => .ok (.srai (regD w) (regA w) n)
    | _ => .ok (.rori (regD w) (regA w) n)
  else .error .mustBeZero

/-- MULDIV (06 R132). -/
def decodeMuldiv (w : Nat) : Except Reject Instr :=
  match fldFn w with
  | 0 => zeroK w (.mul (regD w) (regA w) (regB w))
  | 1 => zeroK w (.mulh (regD w) (regA w) (regB w))
  | 2 => zeroK w (.mulhu (regD w) (regA w) (regB w))
  | 3 => zeroK w (.mulhsu (regD w) (regA w) (regB w))
  | 4 => zeroK w (.div (regD w) (regA w) (regB w))
  | 5 => zeroK w (.divu (regD w) (regA w) (regB w))
  | 6 => zeroK w (.rem (regD w) (regA w) (regB w))
  | 7 => zeroK w (.remu (regD w) (regA w) (regB w))
  | _ => .error .undefinedFn

/-- FPS (06 R134). -/
def decodeFps (w : Nat) : Except Reject Instr :=
  let fw := FWidth.ofCode (fldFn w / 128)
  match fldFn w % 128 with
  | 0 => (Rm.ofCode (fldK w)).bind fun m => .ok (.fadd fw m (regD w) (regA w) (regB w))
  | 1 => (Rm.ofCode (fldK w)).bind fun m => .ok (.fsub fw m (regD w) (regA w) (regB w))
  | 2 => (Rm.ofCode (fldK w)).bind fun m => .ok (.fmul fw m (regD w) (regA w) (regB w))
  | 3 => (Rm.ofCode (fldK w)).bind fun m => .ok (.fdiv fw m (regD w) (regA w) (regB w))
  | 4 => (Rm.ofCode (fldK w)).bind fun m => zeroB w (.fsqrt fw m (regD w) (regA w))
  | 5 => zeroK w (.fmin fw (regD w) (regA w) (regB w))
  | 6 => zeroK w (.fmax fw (regD w) (regA w) (regB w))
  | 7 => zeroK w (.fcopys fw (regD w) (regA w) (regB w))
  | 8 => zeroK w (.fcopyns fw (regD w) (regA w) (regB w))
  | 9 => zeroK w (.fxors fw (regD w) (regA w) (regB w))
  | 10 => zeroK w (.feq fw (regD w) (regA w) (regB w))
  | 11 => zeroK w (.flt fw (regD w) (regA w) (regB w))
  | 12 => zeroK w (.fle fw (regD w) (regA w) (regB w))
  | 13 => zeroBK w (.fclass fw (regD w) (regA w))
  | 14 => (Rm.ofCode (fldK w)).bind fun m => zeroB w (.fcvtfi fw m (regD w) (regA w))
  | 15 => (Rm.ofCode (fldK w)).bind fun m => zeroB w (.fcvtfu fw m (regD w) (regA w))
  | 16 => (Rm.ofCode (fldK w)).bind fun m => zeroB w (.fcvtif fw m (regD w) (regA w))
  | 17 => (Rm.ofCode (fldK w)).bind fun m => zeroB w (.fcvtuf fw m (regD w) (regA w))
  | 18 => (Rm.ofCode (fldK w)).bind fun m => zeroB w (.fcvtff fw m (regD w) (regA w))
  | _ => .error .undefinedFn

/-- FMAS (06 R134). -/
def decodeFmas (w : Nat) : Except Reject Instr :=
  (Rm.ofCode (fldK4 w)).bind fun m =>
    let fw := FWidth.ofCode (fldFn4 w / 4)
    match fldFn4 w % 4 with
    | 0 => .ok (.fmadd fw m (regD w) (regA w) (regB w) (regC w))
    | 1 => .ok (.fmsub fw m (regD w) (regA w) (regB w) (regC w))
    | 2 => .ok (.fnmadd fw m (regD w) (regA w) (regB w) (regC w))
    | _ => .ok (.fnmsub fw m (regD w) (regA w) (regB w) (regC w))

/-- LDSYNC (06 R135). -/
def decodeLdsync (w : Nat) : Except Reject Instr :=
  (Scope.ofCode (fldK w)).bind fun sc =>
    match fldFn w with
    | 0 => zeroB w (.ldaqW sc (regD w) (regA w))
    | 1 => zeroB w (.ldaqD sc (regD w) (regA w))
    | 2 => zeroB w (.strlW sc (regD w) (regA w))
    | 3 => zeroB w (.strlD sc (regD w) (regA w))
    | _ => .error .undefinedFn

/-- AMO (06 R135). -/
def decodeAmo (w : Nat) : Except Reject Instr :=
  (Scope.ofCode (fldK w)).bind fun sc =>
    let od := Order.ofCode (fldFn w / 64)
    let aw := AWidth.ofCode (fldFn w / 32 % 2)
    match fldFn w % 32 with
    | 0 => .ok (.amoadd sc od aw (regD w) (regA w) (regB w))
    | 1 => .ok (.amoand sc od aw (regD w) (regA w) (regB w))
    | 2 => .ok (.amoor sc od aw (regD w) (regA w) (regB w))
    | 3 => .ok (.amoxor sc od aw (regD w) (regA w) (regB w))
    | 4 => .ok (.amomin sc od aw (regD w) (regA w) (regB w))
    | 5 => .ok (.amomax sc od aw (regD w) (regA w) (regB w))
    | 6 => .ok (.amominu sc od aw (regD w) (regA w) (regB w))
    | 7 => .ok (.amomaxu sc od aw (regD w) (regA w) (regB w))
    | 8 => .ok (.amoswap sc od aw (regD w) (regA w) (regB w))
    | 9 => .ok (.amocas sc od aw (regD w) (regA w) (regB w))
    | 10 => .ok (.amofadd sc od aw (regD w) (regA w) (regB w))
    | _ => .error .undefinedFn

/-- JIND (06 R136). -/
def decodeJind (w : Nat) : Except Reject Instr :=
  match fldFn w with
  | 0 => zeroBK w (.jalr (regD w) (regA w))
  | 1 => need (fldD w == 0 && fldB w == 0 && fldK w == 0) .mustBeZero (.callr (regA w))
  | 2 => zeroDABK w .ret
  | 3 => need (fldD w == 0 && fldB w == 0 && fldK w == 0) .mustBeZero (.jr (regA w))
  | _ => .error .undefinedFn

/-- The barrier index of GBAR, GBARA and GBARW is in B[1:0] (06 R136). -/
def decodeBarrier (w : Nat) (i : Instr) : Except Reject Instr :=
  need (fldD w == 0 && fldA w == 0 && fldB w < 4 && fldK w == 0) .mustBeZero i

/-- SYSU (06 R136). -/
def decodeSysu (w : Nat) : Except Reject Instr :=
  match fldFn w with
  | 0 => (Scope.ofCode (fldK w)).bind fun sc =>
      need (fldD w < 8 && fldA w < 8 && fldB w == 0) .mustBeZero
        (.fence (StreamSet.ofCode (fldD w)) (StreamSet.ofCode (fldA w)) sc)
  | 1 => zeroDABK w .spin
  | 2 => zeroDABK w .leadhold
  | 3 => need (fldD w == 0 && fldA w == 0 && fldK w == 0) .mustBeZero (.svc (regB w))
  | 4 => zeroDABK w .brk
  | 5 => (UReg.ofIndex (32 * fldA w + fldB w)).bind fun r => zeroK w (.rdsr (regD w) r)
  | 6 => (UReg.ofIndex (32 * fldA w + fldB w)).bind fun r => zeroK w (.wrsr r (regD w))
  | 7 => zeroBK w (.fork (regD w) (regA w))
  | 8 => zeroDABK w .join
  | 9 => zeroDABK w .exit
  | 10 => decodeBarrier w (.gbar (Fin.ofNat 4 (fldB w)))
  | 11 => decodeBarrier w (.gbara (Fin.ofNat 4 (fldB w)))
  | 12 => decodeBarrier w (.gbarw (Fin.ofNat 4 (fldB w)))
  | _ => .error .undefinedFn

/-- SYSP (18 R321). -/
def decodeSysp (w : Nat) : Except Reject Instr :=
  match fldFn w with
  | 0 => zeroDABK w .eret
  | 1 => zeroK w (.tlbinv (regD w) (regA w) (regB w))
  | 2 => need (fldD w == 0 && fldK w == 0) .mustBeZero (.cwb (regA w) (regB w))
  | 3 => need (fldD w == 0 && fldK w == 0) .mustBeZero (.cinv (regA w) (regB w))
  | 4 => need (fldD w == 0 && fldB w == 0 && fldK w == 0) .mustBeZero (.ctxsave (regA w))
  | 5 => need (fldD w == 0 && fldB w == 0 && fldK w == 0) .mustBeZero (.ctxload (regA w))
  | 6 => need (fldA w == 0 && fldB w == 0 && fldK w == 0) .mustBeZero (.waitev (regD w))
  | 7 => need (fldD w == 0 && fldK w == 0) .mustBeZero (.hsig (regA w) (regB w))
  | 8 => (PReg.ofIndex (32 * fldA w + fldB w)).bind fun r => zeroK w (.prdsr (regD w) r)
  | 9 => (PReg.ofIndex (32 * fldA w + fldB w)).bind fun r => zeroK w (.pwrsr r (regD w))
  | 10 => zeroDABK w .halt
  | _ => .error .undefinedFn

/-- VCFG (06 R138). -/
def decodeVcfg (w : Nat) : Except Reject Instr :=
  match fldFn w with
  | 0 => zeroK w (.setvl (regD w) (regA w) (regB w))
  | 1 => zeroK w (.setvlx (regD w) (regA w) (regB w))
  | 2 => zeroBK w (.settype (regD w) (regA w))
  | 3 => zeroBK w (.setrows (regD w) (regA w))
  | _ => .error .undefinedFn

/-- SETVLI (06 R138). -/
def decodeSetvli (w : Nat) : Except Reject Instr :=
  need (fldImm16 w / 4096 == 0) .mustBeZero
    (.setvli (regD w) (regA w) (Fin.ofNat 8 (fldImm16 w / 512)) (BitVec.ofNat 9 (fldImm16 w)))

/-- VALU (06 R139). -/
def decodeValu (w : Nat) : Except Reject Instr :=
  (Src2.ofCode (fldFn w / 64) (fldB w)).bind fun b =>
    match fldFn w % 64 with
    | 0 => .ok (.vadd (regD w) (regA w) b (maskK w))
    | 1 => .ok (.vsub (regD w) (regA w) b (maskK w))
    | 2 => .ok (.vrsub (regD w) (regA w) b (maskK w))
    | 3 => .ok (.vmul (regD w) (regA w) b (maskK w))
    | 4 => .ok (.vmulh (regD w) (regA w) b (maskK w))
    | 5 => .ok (.vmulhu (regD w) (regA w) b (maskK w))
    | 6 => .ok (.vmacc (regD w) (regA w) b (maskK w))
    | 7 => .ok (.vmin (regD w) (regA w) b (maskK w))
    | 8 => .ok (.vmax (regD w) (regA w) b (maskK w))
    | 9 => .ok (.vminu (regD w) (regA w) b (maskK w))
    | 10 => .ok (.vmaxu (regD w) (regA w) b (maskK w))
    | 11 => .ok (.vand (regD w) (regA w) b (maskK w))
    | 12 => .ok (.vor (regD w) (regA w) b (maskK w))
    | 13 => .ok (.vxor (regD w) (regA w) b (maskK w))
    | 14 => .ok (.vsll (regD w) (regA w) b (maskK w))
    | 15 => .ok (.vsrl (regD w) (regA w) b (maskK w))
    | 16 => .ok (.vsra (regD w) (regA w) b (maskK w))
    | 17 => .ok (.vsadd (regD w) (regA w) b (maskK w))
    | 18 => .ok (.vsaddu (regD w) (regA w) b (maskK w))
    | 19 => .ok (.vssub (regD w) (regA w) b (maskK w))
    | 20 => .ok (.vssubu (regD w) (regA w) b (maskK w))
    | 21 => need (fldFn w / 64 == 0 && fldB w == 0) .mustBeZero (.vclz (regD w) (regA w) (maskK w))
    | 22 => need (fldFn w / 64 == 0 && fldB w == 0) .mustBeZero (.vpopc (regD w) (regA w) (maskK w))
    | 23 => .ok (.vwadd (regD w) (regA w) b (maskK w))
    | 24 => .ok (.vwmul (regD w) (regA w) b (maskK w))
    | 25 => .ok (.vnshr (regD w) (regA w) b (maskK w))
    | 26 => .ok (.vmerge (regD w) (regA w) b (maskK w))
    | 27 => need (fldFn w / 64 == 0 && fldA w == 0 && fldB w == 0) .mustBeZero (.vid (regD w) (maskK w))
    | 28 => need (fldA w == 0) .mustBeZero (.vmv (regD w) b (maskK w))
    | 29 => .ok (.vdiv (regD w) (regA w) b (maskK w))
    | 30 => .ok (.vrem (regD w) (regA w) b (maskK w))
    | _ => .error .undefinedFn

/-- VFPU (06 R140). -/
def decodeVfpu (w : Nat) : Except Reject Instr :=
  (Src2.ofCode (fldFn w / 64) (fldB w)).bind fun b =>
    match fldFn w % 64 with
    | 0 => .ok (.vfadd (regD w) (regA w) b (maskK w))
    | 1 => .ok (.vfsub (regD w) (regA w) b (maskK w))
    | 2 => .ok (.vfmul (regD w) (regA w) b (maskK w))
    | 3 => .ok (.vfdiv (regD w) (regA w) b (maskK w))
    | 4 => need (fldFn w / 64 == 0 && fldB w == 0) .mustBeZero (.vfsqrt (regD w) (regA w) (maskK w))
    | 5 => need (fldFn w / 64 == 0 && fldB w == 0) .mustBeZero (.vfrsqe (regD w) (regA w) (maskK w))
    | 6 => need (fldFn w / 64 == 0 && fldB w == 0) .mustBeZero (.vfrece (regD w) (regA w) (maskK w))
    | 7 => .ok (.vfmin (regD w) (regA w) b (maskK w))
    | 8 => .ok (.vfmax (regD w) (regA w) b (maskK w))
    | 9 => .ok (.vfcopys (regD w) (regA w) b (maskK w))
    | 10 => .ok (.vfcopyns (regD w) (regA w) b (maskK w))
    | 11 => .ok (.vfxors (regD w) (regA w) b (maskK w))
    | 12 => .ok (.vfscale (regD w) (regA w) b (maskK w))
    | 13 => need (fldFn w / 64 == 0 && fldB w == 0) .mustBeZero (.vfexpo (regD w) (regA w) (maskK w))
    | 14 => need (fldFn w / 64 == 0 && fldB w == 0) .mustBeZero (.vfclass (regD w) (regA w) (maskK w))
    | 15 => .ok (.vfwadd (regD w) (regA w) b (maskK w))
    | 16 => .ok (.vfwmul (regD w) (regA w) b (maskK w))
    | _ => .error .undefinedFn

/-- VFMA (06 R140). -/
def decodeVfma (w : Nat) : Except Reject Instr :=
  match fldFn4 w with
  | 0 => .ok (.vfma (regD w) (regA w) (regB w) (regC w) (maskK4 w))
  | 1 => .ok (.vfms (regD w) (regA w) (regB w) (regC w) (maskK4 w))
  | 2 => .ok (.vfnma (regD w) (regA w) (regB w) (regC w) (maskK4 w))
  | 3 => .ok (.vfnms (regD w) (regA w) (regB w) (regC w) (maskK4 w))
  | 4 => .ok (.vfwma (regD w) (regA w) (regB w) (regC w) (maskK4 w))
  | 5 => .ok (.vimac (regD w) (regA w) (regB w) (regC w) (maskK4 w))
  | _ => .error .undefinedFn

/-- VMASK (06 R141). -/
def decodeVmask (w : Nat) : Except Reject Instr :=
  (Src2.ofCode (fldFn w / 64) (fldB w)).bind fun b =>
    let vv := fldFn w / 64 == 0
    let kd := isMask (fldD w)
    let ka := isMask (fldA w)
    let b0 := fldB w == 0
    match fldFn w % 64 with
    | 0 => need kd .mustBeZero (.vcmpEq (maskD w) (regA w) b (maskK w))
    | 1 => need kd .mustBeZero (.vcmpNe (maskD w) (regA w) b (maskK w))
    | 2 => need kd .mustBeZero (.vcmpLt (maskD w) (regA w) b (maskK w))
    | 3 => need kd .mustBeZero (.vcmpLe (maskD w) (regA w) b (maskK w))
    | 4 => need kd .mustBeZero (.vcmpLtu (maskD w) (regA w) b (maskK w))
    | 5 => need kd .mustBeZero (.vcmpLeu (maskD w) (regA w) b (maskK w))
    | 8 => need kd .mustBeZero (.vfcmpEq (maskD w) (regA w) b (maskK w))
    | 9 => need kd .mustBeZero (.vfcmpLt (maskD w) (regA w) b (maskK w))
    | 10 => need kd .mustBeZero (.vfcmpLe (maskD w) (regA w) b (maskK w))
    | 11 => need kd .mustBeZero (.vfcmpUn (maskD w) (regA w) b (maskK w))
    | 16 => need (vv && kd && ka && isMask (fldB w)) .mustBeZero (.kand (maskD w) (maskA w) (maskB w) (maskK w))
    | 17 => need (vv && kd && ka && isMask (fldB w)) .mustBeZero (.kor (maskD w) (maskA w) (maskB w) (maskK w))
    | 18 => need (vv && kd && ka && isMask (fldB w)) .mustBeZero (.kxor (maskD w) (maskA w) (maskB w) (maskK w))
    | 19 => need (vv && kd && ka && isMask (fldB w)) .mustBeZero (.kandn (maskD w) (maskA w) (maskB w) (maskK w))
    | 20 => need (vv && kd && ka && b0) .mustBeZero (.kprex (maskD w) (maskA w) (maskK w))
    | 21 => need (vv && kd && ka && b0) .mustBeZero (.kprin (maskD w) (maskA w) (maskK w))
    | 22 => need (vv && kd && ka && b0) .mustBeZero (.ksufin (maskD w) (maskA w) (maskK w))
    | 23 => need (vv && ka && b0) .mustBeZero (.kpopc (regD w) (maskA w) (maskK w))
    | 24 => need (vv && ka && b0) .mustBeZero (.kfirst (regD w) (maskA w) (maskK w))
    | 25 => need (vv && kd && ka && b0) .mustBeZero (.kmov (maskD w) (maskA w) (maskK w))
    | 26 => need (vv && ka && b0) .mustBeZero (.ktov (regD w) (maskA w) (maskK w))
    | 27 => need (vv && kd && b0) .mustBeZero (.vtok (maskD w) (regA w) (maskK w))
    | 28 => need (vv && kd && fldA w == 0 && b0) .mustBeZero (.kset (maskD w) (maskK w))
    | _ => .error .undefinedFn

/-- The VCVT group of VXFORM (06 R142). -/
def decodeVcvt (w : Nat) : Except Reject Instr :=
  (Fmt.ofCode (fldB w)).bind fun c =>
    (Rm.ofCode (fldFn w / 4 % 8)).bind fun m =>
      need (fldFn w % 2 == 0) .mustBeZero (.vcvt c m (fldFn w / 2 % 2 == 1) (regD w) (regA w) (maskK w))

/-- The reduction group of VXFORM (06 R142). -/
def decodeReduction (w : Nat) : Except Reject Instr :=
  (RedDst.ofCode (fldFn w / 16 % 2) (fldD w) (fldA w)).bind fun t =>
    match fldFn w % 16 with
    | 0 => .ok (.vredsum t (regB w) (maskK w))
    | 1 => .ok (.vredmax t (regB w) (maskK w))
    | 2 => .ok (.vredmin t (regB w) (maskK w))
    | 3 => .ok (.vredand t (regB w) (maskK w))
    | 4 => .ok (.vredor t (regB w) (maskK w))
    | 5 => .ok (.vredxor t (regB w) (maskK w))
    | 6 => .ok (.vfredsum t (regB w) (maskK w))
    | 7 => .ok (.vfredmax t (regB w) (maskK w))
    | 8 => .ok (.vfredmin t (regB w) (maskK w))
    | _ => .error .undefinedFn

/-- VXFORM (06 R142). -/
def decodeVxform (w : Nat) : Except Reject Instr :=
  match fldFn w / 32 with
  | 0 => decodeVcvt w
  | 1 => decodeReduction w
  | 2 =>
    match fldFn w % 32 with
    | 0 => .ok (.vscan (regD w) (regA w) (regB w) (maskK w))
    | 1 => .ok (.vfscan (regD w) (regA w) (regB w) (maskK w))
    | _ => .error .undefinedFn
  | 3 =>
    match fldFn w % 32 with
    | 0 => zeroB w (.vcompress (regD w) (regA w) (maskK w))
    | 1 => zeroB w (.vexpand (regD w) (regA w) (maskK w))
    | 2 => .ok (.vtopk (regD w) (regA w) (regB w) (maskK w))
    | _ => .error .undefinedFn
  | _ => .error .undefinedFn

/-- VPERM (06 R143). -/
def decodeVperm (w : Nat) : Except Reject Instr :=
  (Src2.ofCode (fldFn w / 64) (fldB w)).bind fun b =>
    match fldFn w % 64 with
    | 0 => .ok (.vslideup (regD w) (regA w) b (maskK w))
    | 1 => .ok (.vslidedn (regD w) (regA w) b (maskK w))
    | 2 => need (fldFn w / 64 == 0) .badForm (.vperm (regD w) (regA w) (regB w) (maskK w))
    | 3 => need (fldFn w / 64 == 1) .badForm (.vextr (regD w) (regA w) (regB w) (maskK w))
    | 4 => need (fldFn w / 64 == 1) .badForm (.vins (regD w) (regA w) (regB w) (maskK w))
    | 5 => need (fldFn w / 64 == 0 && isMask (fldA w) && fldB w == 0) .mustBeZero (.viota (regD w) (maskA w) (maskK w))
    | 6 => need (fldFn w / 64 == 1) .badForm (.vrowbc (regD w) (regA w) (regB w) (maskK w))
    | _ => .error .undefinedFn

/-- VLD (06 R144, 09 R204). -/
def decodeVld (w : Nat) : Except Reject Instr :=
  let e := EWidth.ofCode (fldEw w)
  let x := fldSx w == 1
  match fldMode w with
  | 0 => (VHint.ofCode (fldHint w)).bind fun h => zeroB w (.vld (regD w) (regA w) (maskK w) e x h)
  | 1 => (VHint.ofCode (fldHint w)).bind fun h => .ok (.vlds (regD w) (regA w) (regB w) (maskK w) e x h)
  | 2 => .ok (.vldx (regD w) (regA w) (regB w) (maskK w) e x (XHint.ofCode (fldHint w)))
  | 3 => (VHint.ofCode (fldHint w)).bind fun h => zeroB w (.vldff (regD w) (regA w) (maskK w) e x h)
  | 4 => .ok (.vldw (regD w) (regA w) (regB w) (maskK w) e x (XHint.ofCode (fldHint w)))
  | 5 => (VHint.ofCode (fldHint w)).bind fun h =>
      need (fldEw w == 0) .mustBeZero (.vldmx (regD w) (regA w) (regB w) (maskK w) x h)
  | 6 => (VHint.ofCode (fldHint w)).bind fun h => zeroB w (.vldaq (regD w) (regA w) (maskK w) e x h)
  | _ => .error .undefinedFn

/-- VST (06 R144, 09 R204). -/
def decodeVst (w : Nat) : Except Reject Instr :=
  let e := EWidth.ofCode (fldEw w)
  if fldSx w == 0 then
    match fldMode w with
    | 0 => (VHint.ofCode (fldHint w)).bind fun h => zeroB w (.vst (regD w) (regA w) (maskK w) e h)
    | 1 => (VHint.ofCode (fldHint w)).bind fun h => .ok (.vsts (regD w) (regA w) (regB w) (maskK w) e h)
    | 2 => .ok (.vstx (regD w) (regA w) (regB w) (maskK w) e (XHint.ofCode (fldHint w)))
    | 3 => (VHint.ofCode (fldHint w)).bind fun h => zeroB w (.vstp (regD w) (regA w) (maskK w) e h)
    | 4 => need (fldD w == 0 && fldA w == 0 && fldB w == 0 && fldEw w == 0 && fldHint w == 0) .mustBeZero (.vcommit (maskK w))
    | _ => .error .undefinedFn
  else .error .mustBeZero

/-- VAMO (06 R145). -/
def decodeVamo (w : Nat) : Except Reject Instr :=
  let od := Order.ofCode (fldFn w / 64)
  let ra := fldFn w / 32 % 2 == 1
  let rt := fldFn w / 16 % 2 == 1
  match fldFn w % 16 with
  | 0 => need (!ra) .undefinedFn (.vamoadd od rt (regD w) (regA w) (regB w) (maskK w))
  | 1 => need (!ra) .undefinedFn (.vamoand od rt (regD w) (regA w) (regB w) (maskK w))
  | 2 => need (!ra) .undefinedFn (.vamoor od rt (regD w) (regA w) (regB w) (maskK w))
  | 3 => need (!ra) .undefinedFn (.vamoxor od rt (regD w) (regA w) (regB w) (maskK w))
  | 4 => need (!ra) .undefinedFn (.vamomin od rt (regD w) (regA w) (regB w) (maskK w))
  | 5 => need (!ra) .undefinedFn (.vamomax od rt (regD w) (regA w) (regB w) (maskK w))
  | 6 => need (!ra) .undefinedFn (.vamominu od rt (regD w) (regA w) (regB w) (maskK w))
  | 7 => need (!ra) .undefinedFn (.vamomaxu od rt (regD w) (regA w) (regB w) (maskK w))
  | 8 => need (!ra) .undefinedFn (.vamoswap od rt (regD w) (regA w) (regB w) (maskK w))
  | 10 => .ok (.vamofadd od ra rt (regD w) (regA w) (regB w) (maskK w))
  | _ => .error .undefinedFn

/-- MATRIX (06 R146). -/
def decodeMatrix (w : Nat) : Except Reject Instr :=
  let t : Tile := Fin.ofNat 8 (fldFn w / 2)
  let s := fldFn w % 2 == 1
  let k0 := fldK w == 0
  let b0 := fldB w == 0
  match fldFn w / 16 with
  | 0 => need (fldFn w % 16 == 0 && b0 && k0) .mustBeZero (.mbegin (regD w) (regA w))
  | 1 => need (fldFn w % 16 == 0 && fldD w == 0 && fldA w == 0 && b0 && k0) .mustBeZero .mend
  | 2 => need (!s && fldD w == 0 && fldA w == 0 && b0 && k0) .mustBeZero (.mzero t)
  | 3 => need (!s && fldD w == 0) .mustBeZero (.mprod t (regA w) (regB w) (maskK w))
  | 4 => need (!s && fldD w == 0) .mustBeZero (.mprodn t (regA w) (regB w) (maskK w))
  | 5 => need (!s) .mustBeZero (.mprods t (regD w) (regA w) (regB w) (maskK w))
  | 6 => need (b0 && k0) .mustBeZero (.mrd t s (regD w) (regA w))
  | 7 => need (b0 && k0) .mustBeZero (.mwr t s (regD w) (regA w))
  | 8 => need (fldD w < 16 && k0) .mustBeZero (.mld (ctrD w) t s (regA w) (regB w))
  | 9 => need (fldD w < 16 && k0) .mustBeZero (.mst (ctrD w) t s (regA w) (regB w))
  | _ => .error .undefinedFn

/-- ENGINE (06 R147). -/
def decodeEngine (w : Nat) : Except Reject Instr :=
  let cc := fldD w < 16
  let k0 := fldK w == 0
  let b0 := fldB w == 0
  let h (n : Nat) : Except Reject Instr :=
    need (cc && b0 && k0) .mustBeZero (.hdrain (ctrD w) (regA w) (Fin.ofNat 4 n))
  match fldFn w with
  | 0 => need (cc && b0 && k0) .mustBeZero (.mtgemm (ctrD w) (regA w))
  | 1 => need (cc && b0 && k0) .mustBeZero (.xcopy (ctrD w) (regA w))
  | 2 => need (cc && b0 && k0) .mustBeZero (.xfill (ctrD w) (regA w))
  | 3 => need (cc && k0) .mustBeZero (.czero (ctrD w) (regA w) (regB w))
  | 6 => need (cc && fldA w == 0 && k0) .mustBeZero (.ccwait (ctrD w) (regB w))
  | 7 => need (cc && b0 && k0) .mustBeZero (.ccrd (ctrD w) (regA w))
  | 8 => .ok (.smap (regD w) (regA w) (regB w) (maskK w))
  | 9 => need (fldD w == 0 && fldA w == 0 && b0) .mustBeZero (.sunmap (maskK w))
  | 10 => need (cc && fldA w == 0 && b0) .mustBeZero (.swb (ctrD w) (maskK w))
  | 64 => h 0
  | 68 => h 1
  | 72 => h 2
  | 76 => h 3
  | _ => .error .undefinedFn

/-- CELLHASH (06 R148). -/
def decodeCellhash (w : Nat) : Except Reject Instr :=
  let h : Handle := Fin.ofNat 4 (fldFn w / 4)
  let f := CellFmt.ofCode (fldFn w % 4)
  let h0 := fldFn w / 4 % 4 == 0
  let s0 := fldFn w % 4 == 0
  let d0 := fldD w == 0
  let a0 := fldA w == 0
  let b0 := fldB w == 0
  let k0 := fldK w == 0
  match fldFn w / 16 with
  | 0 => need (h0 && d0 && k0) .mustBeZero (.cadd f (regA w) (regB w))
  | 1 => need h0 .mustBeZero (.vcadd f (regD w) (regA w) (regB w) (maskK w))
  | 2 => need (h0 && s0 && b0) .mustBeZero (.craw (regD w) (regA w) (maskK w))
  | 3 => need (h0 && s0 && b0) .mustBeZero (.cwraw (regD w) (regA w) (maskK w))
  | 8 => need (s0 && b0 && k0) .mustBeZero (.hclaim (regD w) (regA w) h)
  | 9 => need (s0 && d0 && a0 && b0 && k0) .mustBeZero (.hrel h)
  | 10 => need s0 .mustBeZero (.hins (regD w) (regA w) (regB w) h (maskK w))
  | 11 => need (s0 && b0) .mustBeZero (.hprobe (regD w) (regA w) h (maskK w))
  | 12 => need (s0 && d0 && b0) .mustBeZero (.hdel (regA w) h (maskK w))
  | 13 => .ok (.hacc (HAccOp.ofCode (fldFn w % 4)) (regD w) (regA w) (regB w) h (maskK w))
  | 14 => need (s0 && a0 && b0 && k0) .mustBeZero (.hstat (regD w) h)
  | _ => .error .undefinedFn

/-- The major opcode map (06 R131). -/
def decodeMajor (w : Nat) : Except Reject Instr :=
  match fldOp w with
  | 1 => decodeAlu w
  | 2 => .ok (.addi (regD w) (regA w) (imm16 w))
  | 3 => .ok (.andi (regD w) (regA w) (imm16 w))
  | 4 => .ok (.ori (regD w) (regA w) (imm16 w))
  | 5 => .ok (.xori (regD w) (regA w) (imm16 w))
  | 6 => decodeShi w
  | 7 => .ok (.slti (regD w) (regA w) (imm16 w))
  | 8 => .ok (.sltiu (regD w) (regA w) (imm16 w))
  | 9 => need (fldA w == 0) .mustBeZero (.lui (regD w) (imm16 w))
  | 10 => need (fldA w == 0) .mustBeZero (.addpc (regD w) (imm16 w))
  | 11 => decodeMuldiv w
  | 12 => decodeFps w
  | 13 => decodeFmas w
  | 16 => .ok (.ldb (regD w) (regA w) (imm16 w))
  | 17 => .ok (.ldbu (regD w) (regA w) (imm16 w))
  | 18 => .ok (.ldh (regD w) (regA w) (imm16 w))
  | 19 => .ok (.ldhu (regD w) (regA w) (imm16 w))
  | 20 => .ok (.ldw (regD w) (regA w) (imm16 w))
  | 21 => .ok (.ldwu (regD w) (regA w) (imm16 w))
  | 22 => .ok (.ldd (regD w) (regA w) (imm16 w))
  | 23 => .ok (.stb (regD w) (regA w) (imm16 w))
  | 24 => .ok (.sth (regD w) (regA w) (imm16 w))
  | 25 => .ok (.stw (regD w) (regA w) (imm16 w))
  | 26 => .ok (.std (regD w) (regA w) (imm16 w))
  | 27 => decodeLdsync w
  | 28 => decodeAmo w
  | 29 => (PrefHint.ofCode (fldD w)).bind fun h => .ok (.pref h (regA w) (imm16 w))
  | 32 => .ok (.beq (regD w) (regA w) (imm16 w))
  | 33 => .ok (.bne (regD w) (regA w) (imm16 w))
  | 34 => .ok (.blt (regD w) (regA w) (imm16 w))
  | 35 => .ok (.bge (regD w) (regA w) (imm16 w))
  | 36 => .ok (.bltu (regD w) (regA w) (imm16 w))
  | 37 => .ok (.bgeu (regD w) (regA w) (imm16 w))
  | 38 => .ok (.call (BitVec.ofNat 26 (fldImm26 w)))
  | 39 => .ok (.jmp (BitVec.ofNat 26 (fldImm26 w)))
  | 40 => decodeJind w
  | 41 => decodeSysu w
  | 42 => decodeSysp w
  | 48 => decodeVcfg w
  | 49 => decodeSetvli w
  | 50 => decodeValu w
  | 51 => decodeVfpu w
  | 52 => decodeVfma w
  | 53 => decodeVmask w
  | 54 => decodeVxform w
  | 55 => decodeVperm w
  | 56 => decodeVld w
  | 57 => decodeVst w
  | 58 => decodeVamo w
  | 60 => decodeMatrix w
  | 61 => decodeEngine w
  | 62 => decodeCellhash w
  | _ => .error .reservedMajor

/-- The instruction of a word, or the name of what makes it none (06 R149). -/
def decodeWord (w : BitVec 32) : Except Reject Instr :=
  match decodeMajor w.toNat with
  | .ok i => if wellFormed i then .ok i else .error .badOperand
  | .error r => .error r

/-- The word of four bytes, the first the least significant (00 R2). -/
def wordOfBytes (b0 b1 b2 b3 : Byte) : BitVec 32 :=
  BitVec.ofNat 32 (b0.toNat + 256 * b1.toNat + 65536 * b2.toNat + 16777216 * b3.toNat)

/-- The four bytes of a word, the least significant first (00 R2). -/
def bytesOfWord (w : BitVec 32) : List Byte :=
  [BitVec.ofNat 8 w.toNat, BitVec.ofNat 8 (w.toNat / 256), BitVec.ofNat 8 (w.toNat / 65536), BitVec.ofNat 8 (w.toNat / 16777216)]

/-- The instruction at the head of a list of bytes, and the bytes after it (06 R124). -/
def decode : List Byte → Except Reject (Instr × List Byte)
  | b0 :: b1 :: b2 :: b3 :: rest =>
    match decodeWord (wordOfBytes b0 b1 b2 b3) with
    | .ok i => .ok (i, rest)
    | .error r => .error r
  | _ => .error .tooShort

/-- The instruction that the decoder reads from an instruction of the opcode table whose bits are `w`. -/
def decodeTableWord (_nbits w : Nat) : Option Instr :=
  match decode (bytesOfWord (BitVec.ofNat 32 w)) with
  | .ok (i, _) => some i
  | .error _ => none

end

/-! ## The encoder -/

/-- Format RR (06 R125). -/
def encRR (op d a b k fn : Nat) : Nat := op * 67108864 + d * 2097152 + a * 65536 + b * 2048 + k * 256 + fn
/-- Format R4 (06 R125). -/
def encR4 (op d a b c k fn : Nat) : Nat := op * 67108864 + d * 2097152 + a * 65536 + b * 2048 + c * 64 + k * 8 + fn
/-- Formats RI and BR (06 R125). -/
def encRI (op d a imm : Nat) : Nat := op * 67108864 + d * 2097152 + a * 65536 + imm
/-- Format J (06 R125). -/
def encJ (op imm : Nat) : Nat := op * 67108864 + imm
/-- Format VM (06 R125). -/
def encVM (op d a b k mode ew sx hint : Nat) : Nat :=
  op * 67108864 + d * 2097152 + a * 65536 + b * 2048 + k * 256 + mode * 32 + ew * 8 + sx * 4 + hint

/-- The number of an instruction's word; a step that is no instruction word has none. -/
def encodeNat : Instr → Option Nat
  | .add d a b => some (encRR 1 d.val a.val b.val 0 0)
  | .sub d a b => some (encRR 1 d.val a.val b.val 0 1)
  | .and d a b => some (encRR 1 d.val a.val b.val 0 2)
  | .or d a b => some (encRR 1 d.val a.val b.val 0 3)
  | .xor d a b => some (encRR 1 d.val a.val b.val 0 4)
  | .andn d a b => some (encRR 1 d.val a.val b.val 0 5)
  | .sll d a b => some (encRR 1 d.val a.val b.val 0 6)
  | .srl d a b => some (encRR 1 d.val a.val b.val 0 7)
  | .sra d a b => some (encRR 1 d.val a.val b.val 0 8)
  | .ror d a b => some (encRR 1 d.val a.val b.val 0 9)
  | .slt d a b => some (encRR 1 d.val a.val b.val 0 10)
  | .sltu d a b => some (encRR 1 d.val a.val b.val 0 11)
  | .min d a b => some (encRR 1 d.val a.val b.val 0 12)
  | .max d a b => some (encRR 1 d.val a.val b.val 0 13)
  | .minu d a b => some (encRR 1 d.val a.val b.val 0 14)
  | .maxu d a b => some (encRR 1 d.val a.val b.val 0 15)
  | .clz d a => some (encRR 1 d.val a.val 0 0 16)
  | .ctz d a => some (encRR 1 d.val a.val 0 0 17)
  | .popc d a => some (encRR 1 d.val a.val 0 0 18)
  | .brev d a => some (encRR 1 d.val a.val 0 0 19)
  | .sextb d a => some (encRR 1 d.val a.val 0 0 20)
  | .sexth d a => some (encRR 1 d.val a.val 0 0 21)
  | .sextw d a => some (encRR 1 d.val a.val 0 0 22)
  | .zextw d a => some (encRR 1 d.val a.val 0 0 23)
  | .addi d a i => some (encRI 2 d.val a.val i.toNat)
  | .andi d a i => some (encRI 3 d.val a.val i.toNat)
  | .ori d a i => some (encRI 4 d.val a.val i.toNat)
  | .xori d a i => some (encRI 5 d.val a.val i.toNat)
  | .slli d a n => some (encRI 6 d.val a.val (0 + n.val))
  | .srli d a n => some (encRI 6 d.val a.val (16384 + n.val))
  | .srai d a n => some (encRI 6 d.val a.val (32768 + n.val))
  | .rori d a n => some (encRI 6 d.val a.val (49152 + n.val))
  | .slti d a i => some (encRI 7 d.val a.val i.toNat)
  | .sltiu d a i => some (encRI 8 d.val a.val i.toNat)
  | .lui d i => some (encRI 9 d.val 0 i.toNat)
  | .addpc d i => some (encRI 10 d.val 0 i.toNat)
  | .mul d a b => some (encRR 11 d.val a.val b.val 0 0)
  | .mulh d a b => some (encRR 11 d.val a.val b.val 0 1)
  | .mulhu d a b => some (encRR 11 d.val a.val b.val 0 2)
  | .mulhsu d a b => some (encRR 11 d.val a.val b.val 0 3)
  | .div d a b => some (encRR 11 d.val a.val b.val 0 4)
  | .divu d a b => some (encRR 11 d.val a.val b.val 0 5)
  | .rem d a b => some (encRR 11 d.val a.val b.val 0 6)
  | .remu d a b => some (encRR 11 d.val a.val b.val 0 7)
  | .fadd w m d a b => some (encRR 12 d.val a.val b.val m.code (128 * w.code + 0))
  | .fsub w m d a b => some (encRR 12 d.val a.val b.val m.code (128 * w.code + 1))
  | .fmul w m d a b => some (encRR 12 d.val a.val b.val m.code (128 * w.code + 2))
  | .fdiv w m d a b => some (encRR 12 d.val a.val b.val m.code (128 * w.code + 3))
  | .fsqrt w m d a => some (encRR 12 d.val a.val 0 m.code (128 * w.code + 4))
  | .fmin w d a b => some (encRR 12 d.val a.val b.val 0 (128 * w.code + 5))
  | .fmax w d a b => some (encRR 12 d.val a.val b.val 0 (128 * w.code + 6))
  | .fcopys w d a b => some (encRR 12 d.val a.val b.val 0 (128 * w.code + 7))
  | .fcopyns w d a b => some (encRR 12 d.val a.val b.val 0 (128 * w.code + 8))
  | .fxors w d a b => some (encRR 12 d.val a.val b.val 0 (128 * w.code + 9))
  | .feq w d a b => some (encRR 12 d.val a.val b.val 0 (128 * w.code + 10))
  | .flt w d a b => some (encRR 12 d.val a.val b.val 0 (128 * w.code + 11))
  | .fle w d a b => some (encRR 12 d.val a.val b.val 0 (128 * w.code + 12))
  | .fclass w d a => some (encRR 12 d.val a.val 0 0 (128 * w.code + 13))
  | .fcvtfi w m d a => some (encRR 12 d.val a.val 0 m.code (128 * w.code + 14))
  | .fcvtfu w m d a => some (encRR 12 d.val a.val 0 m.code (128 * w.code + 15))
  | .fcvtif w m d a => some (encRR 12 d.val a.val 0 m.code (128 * w.code + 16))
  | .fcvtuf w m d a => some (encRR 12 d.val a.val 0 m.code (128 * w.code + 17))
  | .fcvtff w m d a => some (encRR 12 d.val a.val 0 m.code (128 * w.code + 18))
  | .fmadd w m d a b c => some (encR4 13 d.val a.val b.val c.val m.code (4 * w.code + 0))
  | .fmsub w m d a b c => some (encR4 13 d.val a.val b.val c.val m.code (4 * w.code + 1))
  | .fnmadd w m d a b c => some (encR4 13 d.val a.val b.val c.val m.code (4 * w.code + 2))
  | .fnmsub w m d a b c => some (encR4 13 d.val a.val b.val c.val m.code (4 * w.code + 3))
  | .ldb d a i => some (encRI 16 d.val a.val i.toNat)
  | .ldbu d a i => some (encRI 17 d.val a.val i.toNat)
  | .ldh d a i => some (encRI 18 d.val a.val i.toNat)
  | .ldhu d a i => some (encRI 19 d.val a.val i.toNat)
  | .ldw d a i => some (encRI 20 d.val a.val i.toNat)
  | .ldwu d a i => some (encRI 21 d.val a.val i.toNat)
  | .ldd d a i => some (encRI 22 d.val a.val i.toNat)
  | .stb d a i => some (encRI 23 d.val a.val i.toNat)
  | .sth d a i => some (encRI 24 d.val a.val i.toNat)
  | .stw d a i => some (encRI 25 d.val a.val i.toNat)
  | .std d a i => some (encRI 26 d.val a.val i.toNat)
  | .ldaqW sc d a => some (encRR 27 d.val a.val 0 sc.code 0)
  | .ldaqD sc d a => some (encRR 27 d.val a.val 0 sc.code 1)
  | .strlW sc d a => some (encRR 27 d.val a.val 0 sc.code 2)
  | .strlD sc d a => some (encRR 27 d.val a.val 0 sc.code 3)
  | .amoadd sc o w d a b => some (encRR 28 d.val a.val b.val sc.code (64 * o.code + 32 * w.code + 0))
  | .amoand sc o w d a b => some (encRR 28 d.val a.val b.val sc.code (64 * o.code + 32 * w.code + 1))
  | .amoor sc o w d a b => some (encRR 28 d.val a.val b.val sc.code (64 * o.code + 32 * w.code + 2))
  | .amoxor sc o w d a b => some (encRR 28 d.val a.val b.val sc.code (64 * o.code + 32 * w.code + 3))
  | .amomin sc o w d a b => some (encRR 28 d.val a.val b.val sc.code (64 * o.code + 32 * w.code + 4))
  | .amomax sc o w d a b => some (encRR 28 d.val a.val b.val sc.code (64 * o.code + 32 * w.code + 5))
  | .amominu sc o w d a b => some (encRR 28 d.val a.val b.val sc.code (64 * o.code + 32 * w.code + 6))
  | .amomaxu sc o w d a b => some (encRR 28 d.val a.val b.val sc.code (64 * o.code + 32 * w.code + 7))
  | .amoswap sc o w d a b => some (encRR 28 d.val a.val b.val sc.code (64 * o.code + 32 * w.code + 8))
  | .amocas sc o w d a b => some (encRR 28 d.val a.val b.val sc.code (64 * o.code + 32 * w.code + 9))
  | .amofadd sc o w d a b => some (encRR 28 d.val a.val b.val sc.code (64 * o.code + 32 * w.code + 10))
  | .pref h a i => some (encRI 29 h.code a.val i.toNat)
  | .beq d a i => some (encRI 32 d.val a.val i.toNat)
  | .bne d a i => some (encRI 33 d.val a.val i.toNat)
  | .blt d a i => some (encRI 34 d.val a.val i.toNat)
  | .bge d a i => some (encRI 35 d.val a.val i.toNat)
  | .bltu d a i => some (encRI 36 d.val a.val i.toNat)
  | .bgeu d a i => some (encRI 37 d.val a.val i.toNat)
  | .call i => some (encJ 38 i.toNat)
  | .jmp i => some (encJ 39 i.toNat)
  | .jalr d a => some (encRR 40 d.val a.val 0 0 0)
  | .callr a => some (encRR 40 0 a.val 0 0 1)
  | .ret => some (encRR 40 0 0 0 0 2)
  | .jr a => some (encRR 40 0 a.val 0 0 3)
  | .fence p q sc => some (encRR 41 p.code q.code 0 sc.code 0)
  | .spin => some (encRR 41 0 0 0 0 1)
  | .leadhold => some (encRR 41 0 0 0 0 2)
  | .svc n => some (encRR 41 0 0 n.val 0 3)
  | .brk => some (encRR 41 0 0 0 0 4)
  | .rdsr d r => some (encRR 41 d.val (r.index / 32) (r.index % 32) 0 5)
  | .wrsr r d => some (encRR 41 d.val (r.index / 32) (r.index % 32) 0 6)
  | .fork d a => some (encRR 41 d.val a.val 0 0 7)
  | .join => some (encRR 41 0 0 0 0 8)
  | .exit => some (encRR 41 0 0 0 0 9)
  | .gbar x => some (encRR 41 0 0 x.val 0 10)
  | .gbara x => some (encRR 41 0 0 x.val 0 11)
  | .gbarw x => some (encRR 41 0 0 x.val 0 12)
  | .eret => some (encRR 42 0 0 0 0 0)
  | .tlbinv d a b => some (encRR 42 d.val a.val b.val 0 1)
  | .cwb a b => some (encRR 42 0 a.val b.val 0 2)
  | .cinv a b => some (encRR 42 0 a.val b.val 0 3)
  | .ctxsave a => some (encRR 42 0 a.val 0 0 4)
  | .ctxload a => some (encRR 42 0 a.val 0 0 5)
  | .waitev d => some (encRR 42 d.val 0 0 0 6)
  | .hsig a b => some (encRR 42 0 a.val b.val 0 7)
  | .prdsr d r => some (encRR 42 d.val (r.index / 32) (r.index % 32) 0 8)
  | .pwrsr r d => some (encRR 42 d.val (r.index / 32) (r.index % 32) 0 9)
  | .halt => some (encRR 42 0 0 0 0 10)
  | .setvl d a b => some (encRR 48 d.val a.val b.val 0 0)
  | .setvlx d a b => some (encRR 48 d.val a.val b.val 0 1)
  | .settype d a => some (encRR 48 d.val a.val 0 0 2)
  | .setrows d a => some (encRR 48 d.val a.val 0 0 3)
  | .setvli d a r v => some (encRI 49 d.val a.val (512 * r.val + v.toNat))
  | .vadd d a b k => some (encRR 50 d.val a.val b.field k.val (64 * b.form + 0))
  | .vsub d a b k => some (encRR 50 d.val a.val b.field k.val (64 * b.form + 1))
  | .vrsub d a b k => some (encRR 50 d.val a.val b.field k.val (64 * b.form + 2))
  | .vmul d a b k => some (encRR 50 d.val a.val b.field k.val (64 * b.form + 3))
  | .vmulh d a b k => some (encRR 50 d.val a.val b.field k.val (64 * b.form + 4))
  | .vmulhu d a b k => some (encRR 50 d.val a.val b.field k.val (64 * b.form + 5))
  | .vmacc d a b k => some (encRR 50 d.val a.val b.field k.val (64 * b.form + 6))
  | .vmin d a b k => some (encRR 50 d.val a.val b.field k.val (64 * b.form + 7))
  | .vmax d a b k => some (encRR 50 d.val a.val b.field k.val (64 * b.form + 8))
  | .vminu d a b k => some (encRR 50 d.val a.val b.field k.val (64 * b.form + 9))
  | .vmaxu d a b k => some (encRR 50 d.val a.val b.field k.val (64 * b.form + 10))
  | .vand d a b k => some (encRR 50 d.val a.val b.field k.val (64 * b.form + 11))
  | .vor d a b k => some (encRR 50 d.val a.val b.field k.val (64 * b.form + 12))
  | .vxor d a b k => some (encRR 50 d.val a.val b.field k.val (64 * b.form + 13))
  | .vsll d a b k => some (encRR 50 d.val a.val b.field k.val (64 * b.form + 14))
  | .vsrl d a b k => some (encRR 50 d.val a.val b.field k.val (64 * b.form + 15))
  | .vsra d a b k => some (encRR 50 d.val a.val b.field k.val (64 * b.form + 16))
  | .vsadd d a b k => some (encRR 50 d.val a.val b.field k.val (64 * b.form + 17))
  | .vsaddu d a b k => some (encRR 50 d.val a.val b.field k.val (64 * b.form + 18))
  | .vssub d a b k => some (encRR 50 d.val a.val b.field k.val (64 * b.form + 19))
  | .vssubu d a b k => some (encRR 50 d.val a.val b.field k.val (64 * b.form + 20))
  | .vclz d a k => some (encRR 50 d.val a.val 0 k.val 21)
  | .vpopc d a k => some (encRR 50 d.val a.val 0 k.val 22)
  | .vwadd d a b k => some (encRR 50 d.val a.val b.field k.val (64 * b.form + 23))
  | .vwmul d a b k => some (encRR 50 d.val a.val b.field k.val (64 * b.form + 24))
  | .vnshr d a b k => some (encRR 50 d.val a.val b.field k.val (64 * b.form + 25))
  | .vmerge d a b k => some (encRR 50 d.val a.val b.field k.val (64 * b.form + 26))
  | .vid d k => some (encRR 50 d.val 0 0 k.val 27)
  | .vmv d b k => some (encRR 50 d.val 0 b.field k.val (64 * b.form + 28))
  | .vdiv d a b k => some (encRR 50 d.val a.val b.field k.val (64 * b.form + 29))
  | .vrem d a b k => some (encRR 50 d.val a.val b.field k.val (64 * b.form + 30))
  | .vfadd d a b k => some (encRR 51 d.val a.val b.field k.val (64 * b.form + 0))
  | .vfsub d a b k => some (encRR 51 d.val a.val b.field k.val (64 * b.form + 1))
  | .vfmul d a b k => some (encRR 51 d.val a.val b.field k.val (64 * b.form + 2))
  | .vfdiv d a b k => some (encRR 51 d.val a.val b.field k.val (64 * b.form + 3))
  | .vfsqrt d a k => some (encRR 51 d.val a.val 0 k.val 4)
  | .vfrsqe d a k => some (encRR 51 d.val a.val 0 k.val 5)
  | .vfrece d a k => some (encRR 51 d.val a.val 0 k.val 6)
  | .vfmin d a b k => some (encRR 51 d.val a.val b.field k.val (64 * b.form + 7))
  | .vfmax d a b k => some (encRR 51 d.val a.val b.field k.val (64 * b.form + 8))
  | .vfcopys d a b k => some (encRR 51 d.val a.val b.field k.val (64 * b.form + 9))
  | .vfcopyns d a b k => some (encRR 51 d.val a.val b.field k.val (64 * b.form + 10))
  | .vfxors d a b k => some (encRR 51 d.val a.val b.field k.val (64 * b.form + 11))
  | .vfscale d a b k => some (encRR 51 d.val a.val b.field k.val (64 * b.form + 12))
  | .vfexpo d a k => some (encRR 51 d.val a.val 0 k.val 13)
  | .vfclass d a k => some (encRR 51 d.val a.val 0 k.val 14)
  | .vfwadd d a b k => some (encRR 51 d.val a.val b.field k.val (64 * b.form + 15))
  | .vfwmul d a b k => some (encRR 51 d.val a.val b.field k.val (64 * b.form + 16))
  | .vfma d a b c k => some (encR4 52 d.val a.val b.val c.val k.val 0)
  | .vfms d a b c k => some (encR4 52 d.val a.val b.val c.val k.val 1)
  | .vfnma d a b c k => some (encR4 52 d.val a.val b.val c.val k.val 2)
  | .vfnms d a b c k => some (encR4 52 d.val a.val b.val c.val k.val 3)
  | .vfwma d a b c k => some (encR4 52 d.val a.val b.val c.val k.val 4)
  | .vimac d a b c k => some (encR4 52 d.val a.val b.val c.val k.val 5)
  | .vcmpEq j a b k => some (encRR 53 j.val a.val b.field k.val (64 * b.form + 0))
  | .vcmpNe j a b k => some (encRR 53 j.val a.val b.field k.val (64 * b.form + 1))
  | .vcmpLt j a b k => some (encRR 53 j.val a.val b.field k.val (64 * b.form + 2))
  | .vcmpLe j a b k => some (encRR 53 j.val a.val b.field k.val (64 * b.form + 3))
  | .vcmpLtu j a b k => some (encRR 53 j.val a.val b.field k.val (64 * b.form + 4))
  | .vcmpLeu j a b k => some (encRR 53 j.val a.val b.field k.val (64 * b.form + 5))
  | .vfcmpEq j a b k => some (encRR 53 j.val a.val b.field k.val (64 * b.form + 8))
  | .vfcmpLt j a b k => some (encRR 53 j.val a.val b.field k.val (64 * b.form + 9))
  | .vfcmpLe j a b k => some (encRR 53 j.val a.val b.field k.val (64 * b.form + 10))
  | .vfcmpUn j a b k => some (encRR 53 j.val a.val b.field k.val (64 * b.form + 11))
  | .kand j x y k => some (encRR 53 j.val x.val y.val k.val 16)
  | .kor j x y k => some (encRR 53 j.val x.val y.val k.val 17)
  | .kxor j x y k => some (encRR 53 j.val x.val y.val k.val 18)
  | .kandn j x y k => some (encRR 53 j.val x.val y.val k.val 19)
  | .kprex j x k => some (encRR 53 j.val x.val 0 k.val 20)
  | .kprin j x k => some (encRR 53 j.val x.val 0 k.val 21)
  | .ksufin j x k => some (encRR 53 j.val x.val 0 k.val 22)
  | .kpopc d x k => some (encRR 53 d.val x.val 0 k.val 23)
  | .kfirst d x k => some (encRR 53 d.val x.val 0 k.val 24)
  | .kmov j x k => some (encRR 53 j.val x.val 0 k.val 25)
  | .ktov d x k => some (encRR 53 d.val x.val 0 k.val 26)
  | .vtok j a k => some (encRR 53 j.val a.val 0 k.val 27)
  | .kset j k => some (encRR 53 j.val 0 0 k.val 28)
  | .vcvt c m s d a k => some (encRR 54 d.val a.val c.code k.val (4 * m.code + 2 * s.toNat))
  | .vredsum t b k => some (encRR 54 t.d t.a b.val k.val (16 * t.row + 32))
  | .vredmax t b k => some (encRR 54 t.d t.a b.val k.val (16 * t.row + 33))
  | .vredmin t b k => some (encRR 54 t.d t.a b.val k.val (16 * t.row + 34))
  | .vredand t b k => some (encRR 54 t.d t.a b.val k.val (16 * t.row + 35))
  | .vredor t b k => some (encRR 54 t.d t.a b.val k.val (16 * t.row + 36))
  | .vredxor t b k => some (encRR 54 t.d t.a b.val k.val (16 * t.row + 37))
  | .vfredsum t b k => some (encRR 54 t.d t.a b.val k.val (16 * t.row + 38))
  | .vfredmax t b k => some (encRR 54 t.d t.a b.val k.val (16 * t.row + 39))
  | .vfredmin t b k => some (encRR 54 t.d t.a b.val k.val (16 * t.row + 40))
  | .vscan d a b k => some (encRR 54 d.val a.val b.val k.val 64)
  | .vfscan d a b k => some (encRR 54 d.val a.val b.val k.val 65)
  | .vcompress d a k => some (encRR 54 d.val a.val 0 k.val 96)
  | .vexpand d a k => some (encRR 54 d.val a.val 0 k.val 97)
  | .vtopk d a b k => some (encRR 54 d.val a.val b.val k.val 98)
  | .vslideup d a b k => some (encRR 55 d.val a.val b.field k.val (64 * b.form + 0))
  | .vslidedn d a b k => some (encRR 55 d.val a.val b.field k.val (64 * b.form + 1))
  | .vperm d a b k => some (encRR 55 d.val a.val b.val k.val 2)
  | .vextr d a b k => some (encRR 55 d.val a.val b.val k.val 67)
  | .vins d a b k => some (encRR 55 d.val a.val b.val k.val 68)
  | .viota d x k => some (encRR 55 d.val x.val 0 k.val 5)
  | .vrowbc d a b k => some (encRR 55 d.val a.val b.val k.val 70)
  | .vld d a k e x h => some (encVM 56 d.val a.val 0 k.val 0 e.code x.toNat h.code)
  | .vlds d a b k e x h => some (encVM 56 d.val a.val b.val k.val 1 e.code x.toNat h.code)
  | .vldx d a b k e x h => some (encVM 56 d.val a.val b.val k.val 2 e.code x.toNat h.code)
  | .vldff d a k e x h => some (encVM 56 d.val a.val 0 k.val 3 e.code x.toNat h.code)
  | .vldw d a b k e x h => some (encVM 56 d.val a.val b.val k.val 4 e.code x.toNat h.code)
  | .vldmx d a b k x h => some (encVM 56 d.val a.val b.val k.val 5 0 x.toNat h.code)
  | .vldaq d a k e x h => some (encVM 56 d.val a.val 0 k.val 6 e.code x.toNat h.code)
  | .vst d a k e h => some (encVM 57 d.val a.val 0 k.val 0 e.code 0 h.code)
  | .vsts d a b k e h => some (encVM 57 d.val a.val b.val k.val 1 e.code 0 h.code)
  | .vstx d a b k e h => some (encVM 57 d.val a.val b.val k.val 2 e.code 0 h.code)
  | .vstp d a k e h => some (encVM 57 d.val a.val 0 k.val 3 e.code 0 h.code)
  | .vcommit k => some (encVM 57 0 0 0 k.val 4 0 0 0)
  | .vamoadd o e d a b k => some (encRR 58 d.val a.val b.val k.val (64 * o.code + 16 * e.toNat + 0))
  | .vamoand o e d a b k => some (encRR 58 d.val a.val b.val k.val (64 * o.code + 16 * e.toNat + 1))
  | .vamoor o e d a b k => some (encRR 58 d.val a.val b.val k.val (64 * o.code + 16 * e.toNat + 2))
  | .vamoxor o e d a b k => some (encRR 58 d.val a.val b.val k.val (64 * o.code + 16 * e.toNat + 3))
  | .vamomin o e d a b k => some (encRR 58 d.val a.val b.val k.val (64 * o.code + 16 * e.toNat + 4))
  | .vamomax o e d a b k => some (encRR 58 d.val a.val b.val k.val (64 * o.code + 16 * e.toNat + 5))
  | .vamominu o e d a b k => some (encRR 58 d.val a.val b.val k.val (64 * o.code + 16 * e.toNat + 6))
  | .vamomaxu o e d a b k => some (encRR 58 d.val a.val b.val k.val (64 * o.code + 16 * e.toNat + 7))
  | .vamoswap o e d a b k => some (encRR 58 d.val a.val b.val k.val (64 * o.code + 16 * e.toNat + 8))
  | .vamofadd o r e d a b k => some (encRR 58 d.val a.val b.val k.val (64 * o.code + 32 * r.toNat + 16 * e.toNat + 10))
  | .mbegin d a => some (encRR 60 d.val a.val 0 0 0)
  | .mend => some (encRR 60 0 0 0 0 16)
  | .mzero t => some (encRR 60 0 0 0 0 (32 + 2 * t.val))
  | .mprod t a b k => some (encRR 60 0 a.val b.val k.val (48 + 2 * t.val))
  | .mprodn t a b k => some (encRR 60 0 a.val b.val k.val (64 + 2 * t.val))
  | .mprods t d a b k => some (encRR 60 d.val a.val b.val k.val (80 + 2 * t.val))
  | .mrd t s d a => some (encRR 60 d.val a.val 0 0 (96 + 2 * t.val + s.toNat))
  | .mwr t s d a => some (encRR 60 d.val a.val 0 0 (112 + 2 * t.val + s.toNat))
  | .mld c t s a b => some (encRR 60 c.val a.val b.val 0 (128 + 2 * t.val + s.toNat))
  | .mst c t s a b => some (encRR 60 c.val a.val b.val 0 (144 + 2 * t.val + s.toNat))
  | .mtgemm c a => some (encRR 61 c.val a.val 0 0 0)
  | .xcopy c a => some (encRR 61 c.val a.val 0 0 1)
  | .xfill c a => some (encRR 61 c.val a.val 0 0 2)
  | .czero c a b => some (encRR 61 c.val a.val b.val 0 3)
  | .hdrain c a h => some (encRR 61 c.val a.val 0 0 (64 + 4 * h.val))
  | .ccwait c b => some (encRR 61 c.val 0 b.val 0 6)
  | .ccrd c a => some (encRR 61 c.val a.val 0 0 7)
  | .smap d a b w => some (encRR 61 d.val a.val b.val w.val 8)
  | .sunmap w => some (encRR 61 0 0 0 w.val 9)
  | .swb c w => some (encRR 61 c.val 0 0 w.val 10)
  | .cadd f a b => some (encRR 62 0 a.val b.val 0 f.code)
  | .vcadd f d a b k => some (encRR 62 d.val a.val b.val k.val (16 + f.code))
  | .craw d a k => some (encRR 62 d.val a.val 0 k.val 32)
  | .cwraw d a k => some (encRR 62 d.val a.val 0 k.val 48)
  | .hclaim d a h => some (encRR 62 d.val a.val 0 0 (128 + 4 * h.val))
  | .hrel h => some (encRR 62 0 0 0 0 (144 + 4 * h.val))
  | .hins d a b h k => some (encRR 62 d.val a.val b.val k.val (160 + 4 * h.val))
  | .hprobe d a h k => some (encRR 62 d.val a.val 0 k.val (176 + 4 * h.val))
  | .hdel a h k => some (encRR 62 0 a.val 0 k.val (192 + 4 * h.val))
  | .hacc f d a b h k => some (encRR 62 d.val a.val b.val k.val (208 + 4 * h.val + f.code))
  | .hstat d h => some (encRR 62 d.val 0 0 0 (224 + 4 * h.val))
  | .imageLoad _ => none
  | .imageDrop _ => none
  | .launch _ => none
  | .graphDefine _ => none
  | .graphReplay _ => none
  | .graphPatch _ => none
  | .sync _ => none
  | .query _ => none
  | .partitionSet _ => none
  | .dieReset _ => none
  | .attest _ => none
  | .policyLoad _ => none
  | .completionMessage _ => none
  | .dctlFence _ => none
  | .dctlQuiesce _ => none
  | .dctlFlush _ => none
  | .dctlSelfref _ => none
  | .dctlReset _ => none
  | .dctlTrain _ => none
  | .dctlAdmit _ => none
  | .dieActionComplete _ _ => none
  | .dispatchRound => none
  | .preemptionRequest => none
  | .gangStopComplete _ => none
  | .gangEnd _ => none
  | .graphNodeQueue _ _ => none
  | .cpServiceReply => none
  | .watchdog => none
  | .engineAccept => none
  | .engineComplete _ => none
  | .barrierEpisodeComplete _ _ => none
  | .leadInstruction => none
  | .leadPrefetchFill _ => none
  | .l2LineEviction _ => none
  | .patrolScrub _ _ => none
  | .voltageUpdate => none
  | .capStep _ => none
  | .kettleUpdate _ => none
  | .temperatureCrossing _ _ => none
  | .thermalTrip _ => none
  | .mainPowerUp _ => none
  | .mainPowerDown => none
  | .portDown _ _ => none
  | .linkFlitRetry _ => none
  | .portstatRead _ => none
  | .hostRead _ => none
  | .hostWrite _ => none
  | .peerRequest _ => none
  | .sidebandPldmRequest _ _ => none
  | .sidebandPowerLimit _ => none
  | .illegalInstruction _ => none
  | .fetchFault _ => none
  | .vectorInstructionCompletion => none
  | .accessPerforms _ => none
  | .uncorrectableError _ => none
  | .portUp _ _ _ => none

/-- The word of a well-formed instruction (06 R124 to R148). -/
def encode (i : Instr) : Option (BitVec 32) := (encodeNat i).map (BitVec.ofNat 32)

/-- The bytes of a well-formed instruction, the least significant first. -/
def encodeBytes (i : Instr) : Option (List Byte) := (encode i).map bytesOfWord

end Sys2Proof
end

