-- ==== Sys2Proof/Machine/State.lean ====
section
/-! DEFINITION. The whole state of a CX4 package as plain data, the reasons a step can stop, and the state after reset.
Every field names the rule that gives it; INVENTORY.md lists them with their reset values. -/

namespace Sys2Proof.Machine

/-- The contents of a vector or mask register (02 R30). -/
abbrev VBits := BitVec 8192
/-- The contents of an accumulator tile (10 R224). -/
abbrev TileBits := BitVec 131072

/-- Why the model stops.  No instruction word ends here: traps and waits are next states. -/
inductive Fault
  /-- An event step was asked for in a state where the manual does not let it happen (no such command, gang, line or
  request).  Raised by the event meanings only; `step` chooses enabled events only.  SAFE: the model has no behaviour there. -/
  | eventNotEnabled
  deriving DecidableEq, Repr

/-- What the model gives no meaning to. -/
inductive Refusal
  /-- An arm of `exec` that has no meaning yet.  SAFE. -/
  | notModelled (mnemonic : String)
  deriving DecidableEq, Repr

/-! ## A hart -/

/-- What a Waiting or stalled hart waits for (02 R45, 18 R316). -/
inductive WaitKind
  | ccwait | barrier | join | exitDrain | forkDrain | waitev | hsig | queue | vector | save | engines | spin
  deriving DecidableEq, Repr

/-- The states of 02 R45; `vacant` is a hart that no launch has placed. -/
inductive HartStatus
  | vacant
  | running
  | waiting (kind : WaitKind)
  | stopped
  | halted
  | exited
  deriving DecidableEq, Repr

/-- The shape registers and the lane mode (02 R27, R28, R38). -/
structure Shape where
  vl     : Nat
  vrows  : Nat
  vtype  : Word
  vstart : BitVec 15
  rowstr : Word
  /-- VLCAP.WIDTH -/
  width  : Nat
  forked : Bool
  half   : Bool
  split  : Bool
  /-- the VLCAP.WIDTH under which the open strip was granted (01 R21) -/
  granted : Nat
  deriving DecidableEq, Repr

/-- The identity registers (02 R44). -/
structure Ident where
  hartid   : BitVec 13
  gangid   : BitVec 32
  gangsize : BitVec 16
  hartidx  : BitVec 16
  deriving DecidableEq, Repr

/-- The return stack (07 R176): hardware entries oldest first, DEPTH, and RSP divided by 8. -/
structure RetStack where
  entries : List Word
  depth   : BitVec 32
  rsp     : BitVec 61
  deriving DecidableEq, Repr

/-- A completion counter (10 R235). -/
structure Counter where
  err   : Bool
  ecode : BitVec 3
  count : BitVec 8
  fail  : Word
  deriving DecidableEq, Repr

/-- A stash window (04 R86); a length of 0 is no window (19 R334). -/
structure Window where
  base : Word
  len  : Nat
  deriving DecidableEq, Repr

/-- A bucket of a hash region (12 R275): header bits and the key and value of each slot. -/
structure Bucket where
  live    : BitVec 14
  tomb    : BitVec 14
  spilled : Bool
  slots   : List (Word × Word)
  deriving DecidableEq, Repr

/-- A hash claim (12 R271 to R278): the buckets that differ from an empty one, by ascending number. -/
structure Claim where
  claimed   : Bool
  fail      : Bool
  spillBase : Word
  spillCap  : BitVec 32
  size      : Nat
  kw        : Bool
  vw        : Bool
  flags     : BitVec 32
  used      : Nat
  /-- live spill records (12 R282), and the records that a restored claim could not read, which may be live -/
  spilled   : Nat
  unread    : List Nat
  buckets   : List (Nat × Bucket)
  deriving DecidableEq, Repr

/-- A block of pending VSTP entries (09 R217, 19 R334). -/
structure VstpBlock where
  base   : Word
  rowstr : Word
  ew     : EWidth
  vrows  : Nat
  vl     : Nat
  mask   : VBits
  data   : List VBits
  deriving DecidableEq, Repr

/-- A participant's barrier state for one index (11 R261). -/
structure Barrier where
  arrivals : BitVec 32
  pending  : Bool
  deriving DecidableEq, Repr

/-- The two streams of a hart (05 R97). -/
inductive Stream
  | scalar | vector
  deriving DecidableEq, Repr

/-- How far a write has come (05 R98, R102): its own stream sees it, both streams and the engines of its hart, or the harts and engines of
its core; then it is owed to every agent of its die, of the package or of the domain, for whose accesses it performs first; and
last it has performed at its home. -/
inductive Level
  | stream | hart | core | die | package | domain | home
  deriving DecidableEq, Repr

/-- A cache that holds a copy of a data line as its home directory records it (04 R82): the scalar L1 of a core, a line of a stash
window (HARTID, window id, virtual line), or a cache of another package. -/
inductive Holder
  | scalarL1 (core : Nat)
  | window (hart : Nat) (id : Nat) (vline : Nat)
  | remote (pkg : Nat)
  deriving DecidableEq, Repr

/-- What a write does at its home: it stores bytes, or adds a value to a cell of a page (kind CELL64, E0) (11 R255). -/
inductive WriteOp
  | store (data : List Byte)
  | cellAdd (f : CellFmt) (wide : Bool) (e0 : Int) (x : Nat)
  deriving DecidableEq, Repr

/-- What a FENCE of a hart asks of a write before that hart's later accesses of the kinds in Q (05 R106): the level that its scope
names. -/
structure Fence where
  owner  : BitVec 13
  gang   : BitVec 32
  scalar : Bool
  vector : Bool
  engine : Bool
  reach  : Level
  deriving DecidableEq, Repr

/-- A write that its home has accepted and that has not performed (05 R102, 09 R209): the HARTID and GANGID of its hart, its stream, the
strip it belongs to (05 R107), how far it has come, the cache that takes the line, its placement hint (09 R212), its physical address
and effect, and the fences after it.  `early` counts the queued vector instructions up to the last unconfirmed one before it, for which
it waits in the store buffer (18 R311). -/
structure PendingWrite where
  owner  : BitVec 13
  gang   : BitVec 32
  stream : Stream
  strip  : Nat
  level  : Level
  early  : Nat
  holder : Option Holder
  hint   : VHint
  pa     : Nat
  op     : WriteOp
  fences : List Fence
  deriving DecidableEq, Repr

/-- A read that a stream of a hart has made ahead of its later instructions (05 R103, R104): the 8-byte unit, its value, and when it was
read. -/
structure EarlyRead where
  stream : Stream
  unit   : Nat
  value  : Nat
  at_    : Nat
  deriving DecidableEq, Repr

/-- What the value of a register comes from (05 R103, R105): when the last read that feeds it was made, and the bytes that such reads took
from writes that only their own stream saw. -/
structure Source where
  at_ : Nat
  own : List (Nat × Nat)
  deriving DecidableEq, Repr

/-- A position of a VAMO whose read-modify-write has passed its checks (05 R117, 09 R209): position, cache, place and operand. -/
structure Lane where
  row    : Nat
  col    : Nat
  holder : Option Holder
  pa     : Nat
  opnd   : Nat
  deriving DecidableEq, Repr

/-- A range of bytes that an engine operand may touch (05 R109): first address, number of bytes, whether it is written. -/
structure Range where
  base  : Word
  len   : Nat
  write : Bool
  deriving DecidableEq, Repr

/-- An engine command and its operands (10 R234, R236 to R248; 11 R258, R268; 12 R283).  `wide` is the 64-bit view, `col`
column order. -/
inductive EngineOp
  | mtgemm
  | xcopy
  | xfill
  | czero (count : Word)
  | mld (tile : Nat) (col wide : Bool) (stride : Word)
  | mst (tile : Nat) (col wide : Bool) (stride : Word)
  | hdrain (h : Handle)
  | swb (w : WinId)
  deriving DecidableEq, Repr

/-- An engine command in flight: its counter, its address operand, and after acceptance the descriptor bytes it read, the
interlock entries it holds, and the failure found at acceptance. -/
structure EngineCmd where
  op       : EngineOp
  cc       : CReg
  addr     : Word
  accepted : Bool
  finished : Bool
  desc     : List Byte
  ranges   : List Range
  failure  : Option (BitVec 3 × Word)
  /-- the operand units that it has read so far, by number (of MTGEMM and HDRAIN by address, latest first), and the numbers of the
  destination units that it has written so far (05 R110); of SWB, the window lines to be written back, each with its line (11 R268) -/
  read     : List (Nat × Nat)
  wrote    : List Nat
  /-- the transfers made in flight that failed: whether of a destination, the unit's number, ECODE and the failing address -/
  broke    : List (Bool × Nat × Nat × Word)
  /-- the pages that it has translated, with the leaf's value, address and size (21 R364), and the lines that it pins (04 R92) -/
  pages    : List (Nat × Word × Nat × Bool)
  pins     : List Nat
  deriving DecidableEq, Repr

/-- The privileged registers (18 R305 to R308), each field at the width the manual gives. -/
structure Priv where
  tvec     : BitVec 62
  tcause   : BitVec 13
  trappc   : BitVec 62
  tval     : Word
  tvstart  : BitVec 15
  trap     : Bool
  plevel   : Bool
  level    : Bool
  tscratch : Word
  ptroot   : BitVec 36
  asid     : BitVec 16
  partid   : BitVec 2
  maxdist  : BitVec 14
  leadOn   : Bool
  vdirty   : BitVec 32
  adirty   : BitVec 8
  wdlimit  : BitVec 48
  wdcount  : BitVec 48
  rsbase   : BitVec 61
  rslimit  : BitVec 61
  deriving DecidableEq, Repr

/-- A stop-table entry (19 R332), and the live masks a stop latches (19 R330). -/
structure StopEntry where
  offset  : BitVec 32
  sregs   : BitVec 32
  vregs   : BitVec 32
  tiles   : BitVec 8
  handles : BitVec 4
  deriving DecidableEq, Repr

/-- What a pending or served pre-emption request is (19 R328 to R330, R401). -/
structure Preempt where
  /-- PSTAT.PREQ and the save-area address of the pending request -/
  pending : Option Word
  /-- class L: how many instructions the hart has retired at U level since the request -/
  runOn   : Option Nat
  /-- the request has fallen back to class P (19 R330) -/
  fell    : Bool
  serves  : Bool
  classL  : Bool
  live    : StopEntry
  deriving DecidableEq, Repr

/-- The declared counts (20 R345) and whether the gang was launched forkable (02 R39). -/
structure Declared where
  barriers : Nat
  hash     : Nat
  windows  : Nat
  fork     : Bool
  deriving DecidableEq, Repr

/-- The state of the control processor's service for a hart (18 R326; 20 R356): posted replies oldest first, codes of requests not yet
answered, and those of a child that is saved with the hart (19 R338). -/
structure Service where
  replies    : List Word
  unanswered : List (BitVec 32)
  child      : List (BitVec 32)
  deriving DecidableEq, Repr

/-- What a hart holds in uncorrectable error (18 R318): registers, tiles, hash regions, and 8-byte units of window lines by
virtual unit number. -/
structure Ecc where
  s : BitVec 32
  v : BitVec 32
  k : BitVec 8
  t : BitVec 8
  h : BitVec 4
  w : List Nat
  deriving DecidableEq, Repr

/-- A register as slice training and the lead name it (01 R13). -/
inductive RegName
  | s (r : SReg) | v (r : VReg) | k (r : MReg) | shape
  deriving DecidableEq, Repr

/-- An entry of the delay buffer (01 R18). -/
inductive DelayEntry
  | branch (pc : Word) (taken : Bool) (target : Word)
  | grant (pc : Word) (req rows vtype : Word) (width vl vrows : Nat)
  | address (pc : Word) (signature : BitVec 32) (lines : List Nat)
  | stop (pc : Word)
  deriving DecidableEq, Repr

/-- A line that the lead has asked for (01 R17): the line, the address that asked for it, whether it is of a vector or tile access, which
the lookahead area or a stash window takes, or of a scalar load, which the lead L1 takes, and the placement hint (09 R212). -/
structure LeadLine where
  line   : Nat
  va     : Word
  vector : Bool
  hint   : VHint
  deriving DecidableEq, Repr

/-- What the lead does next (01 R14, R23). -/
inductive LeadMode
  | idle | running | waiting | parked | asking
  deriving DecidableEq, Repr

/-- A lead context (01 Lead contexts): shadow registers, their known bits, and the delay buffer.  It changes no outcome
(01 R24). -/
structure Lead where
  mode     : LeadMode
  pc       : Word
  s        : Vector Word 32
  v        : Vector VBits 32
  k        : Vector VBits 8
  vl       : Nat
  vrows    : Nat
  vtype    : Word
  rowstr   : Word
  knownS   : BitVec 32
  knownV   : BitVec 32
  knownK   : BitVec 8
  shapeKnown : Bool
  stack    : List Word
  /-- the entries that the trail has not consumed, oldest first: those of the delay buffer, then those that the lead cannot record until
  it has room (01 R19) -/
  buffer   : List DelayEntry
  /-- lines on their way -/
  prefetch : List LeadLine
  /-- what the lead's fetch at its PC gave: an instruction, or none that is one -/
  fetched  : Option (Option Instr)
  deriving DecidableEq, Repr

/-- What the scalar front end has changed when it places an instruction in the vector queue (01 R9, 18 R311): the scalar registers and
their errors, FCSR, the return stack, the shape registers with the instruction's VSTART, the strip, HARTMODE.DET, and what the scalar
registers come from. -/
structure Front where
  s     : Vector Word 32
  bad   : BitVec 32
  fcsr  : BitVec 8
  rs    : RetStack
  shape : Shape
  strip : Nat
  det   : Bool
  sources : List (RegName × Source)
  deriving DecidableEq, Repr

/-- An entry of the vector instruction queue (01 R9): the instruction, its address and word, its snapshot, the signature of the lead's
address entry that the trail met there (01 R18), and how many scalar instructions have retired after it and before the next entry (18
R311). -/
structure QueueEntry where
  pc    : Word
  word  : BitVec 32
  instr : Instr
  front : Front
  signature : Option (BitVec 32)
  past  : Nat
  deriving DecidableEq, Repr

/-- A hart (02). -/
structure Hart where
  pc       : Word
  /-- the word the last fetch returned, from which TVAL and TCAUSE.VEC are taken (18 R309) -/
  ir       : BitVec 32
  s        : Vector Word 32
  v        : Vector VBits 32
  k        : Vector VBits 8
  acc      : Vector TileBits 8
  shape    : Shape
  fcsr     : BitVec 8
  mxflags  : BitVec 2
  leadOn   : Bool
  det      : Bool
  ident    : Ident
  /-- its first instruction has begun, from which CYCLES counts (02 R44) -/
  started  : Bool
  cycles   : Word
  rs       : RetStack
  matrix   : Option (Fmt × Fmt)
  cc       : Vector Counter 16
  engine   : List EngineCmd
  windows  : Vector Window 8
  claims   : Vector Claim 4
  vstp     : List VstpBlock
  vstpRun  : Nat
  /-- the vector instruction queue, oldest first (01 R9) -/
  queue    : List QueueEntry
  /-- the oldest queued instruction waits at the lanes, which lends its turn to the other hart of the core (02 R41) -/
  stalled  : Bool
  /-- what the vector instruction that waits at its VSTART has done beyond it (05 R109, 09 R214): the values that later positions have
  read, by VSTART code, each with its flags, and whether it has begun -/
  taken    : List (Nat × Nat × BitVec 5)
  begun    : Bool
  /-- the lanes of the VAMO in execution that are checked and not applied, and whether there are others, from VSTART on (05 R117) -/
  lanes    : List Lane
  lanesCut : Option (Nat × Nat)
  /-- the reads made ahead, what the registers come from, and the time of the last read that the addresses of the instruction in
  execution come from (05 R103 to R105) -/
  reads    : List EarlyRead
  sources  : List (RegName × Source)
  since    : Nat
  /-- the SPIN in execution has given up its turn (02 R49) -/
  spun     : Bool
  /-- the number of traps that the hart has taken -/
  traps    : Nat
  /-- the number of strips closed so far (02 R37) -/
  strip    : Nat
  barrier  : Vector Barrier 4
  /-- the indices at which the arrival of a GBAR is made and its wait is not over (11 R263) -/
  gbarWait : BitVec 4
  service  : Service
  priv     : Priv
  watchdog : Bool
  preempt  : Preempt
  declared : Declared
  /-- false for a hart made by FORK -/
  launched : Bool
  /-- the save area of a hart that the dispatcher starts to be resumed (19 R336) -/
  resume   : Option Word
  status   : HartStatus
  ecc      : Ecc
  lead     : Lead
  lastWriter : List (RegName × Word)
  deriving DecidableEq, Repr

/-! ## The package -/

/-- A cached entry (21 R366): in the TLB of a core pair or in the translation cache of a die, the entry's ASID, the first byte of
the walk that found it, its level, value and address.  The TLBs hold leaves; the die caches hold table entries as well. -/
structure TlbEntry where
  die  : Nat
  core : Option Nat
  asid : BitVec 16
  base : Nat
  lvl  : Nat
  pte  : Word
  at_  : Nat
  deriving DecidableEq, Repr

/-- A word of an L1 instruction cache (07 R175): package, die and core, virtual address, ASID, word, and the gang for whose harts it was
read, since only words read after a gang's launch serve its harts. -/
structure FetchLine where
  core : Nat
  gang : BitVec 32
  asid : BitVec 16
  va   : Word
  word : BitVec 32
  deriving DecidableEq, Repr

/-- A modified line (04 R87, R90): in its slice, or in the cache that owns it. -/
structure DirtyLine where
  line   : Nat
  holder : Option Holder
  deriving DecidableEq, Repr

/-- The states of a die (24 R396). -/
inductive DieState
  | run | fenced | quiesced | flushed | selfref | reset | trained | failed
  deriving DecidableEq, Repr

/-- The kind of an error-log entry (18 R320). -/
inductive LogKind
  | corrected | uncorrectable
  deriving DecidableEq, Repr

/-- Where an error was found (18 R320): a stack of HBM, an L2 slice, or the tile buffer or a register file of a core. -/
inductive LogUnit
  | hbm (stack : Nat) | slice (number : Nat) | tileBuffer (core : Nat) | registers (core : Nat)
  deriving DecidableEq, Repr

/-- An entry of a die's error log (18 R320); registers have no physical address. -/
structure LogEntry where
  pa   : Option Nat
  part : LogUnit
  kind : LogKind
  deriving DecidableEq, Repr

/-- The control processor's run of the routine of a DIE.RESET (24 R397): the offset of its next instruction and the registers that it
uses. -/
structure Routine where
  pc  : Nat
  s11 : Word
  s12 : Word
  s13 : Word
  s14 : Word
  deriving DecidableEq, Repr

/-- A compute die: its control registers (24 R395), partition (22 R377), event log (18 R320, 24 R399) and heat (23 R392,
R393), temperatures in eighths of a degree: the hottest and each sensor's. -/
structure Die where
  state     : DieState
  cmd       : BitVec 4
  busy      : Bool
  ue        : Bool
  stray     : BitVec 16
  strayLogged : Bool
  wblines   : BitVec 24
  /-- the DIE.RESET command whose sequence runs (24 R397): its source and SEQ -/
  resetting : Option (BitVec 16 × Word)
  routine   : Option Routine
  part      : Fin 4
  /-- its partition has stopped, and no DIE.RESET of the die has ended since (18 R319) -/
  closed    : Bool
  logSeq    : Word
  errLog    : List LogEntry
  temp      : Int
  sensors   : List Int
  band      : Nat
  tripped   : Bool
  rails     : List Nat
  deriving DecidableEq, Repr

/-- A kernel table entry (23 R385). -/
structure Kernel where
  entry    : Word
  argSize  : BitVec 32
  argAlign : BitVec 32
  half     : Bool
  fork     : Bool
  barriers : Nat
  hash     : Nat
  windows  : Nat
  deriving DecidableEq, Repr

/-- A loaded image (23 R386): its handle, digest, text section, tables. -/
structure Image where
  handle  : Word
  digest  : List Byte
  textVa  : Word
  textLen : Nat
  kernels : List Kernel
  stops   : List StopEntry
  deriving DecidableEq, Repr

/-- A launch record (20 R343). -/
structure Launch where
  image    : Word
  entry    : BitVec 32
  size     : BitVec 16
  half     : Bool
  fork     : Bool
  det      : Bool
  prio     : Nat
  classL   : Bool
  barriers : Nat
  domain   : Bool
  argBlock : Word
  saveBase : Word
  ptroot   : BitVec 36
  asid     : BitVec 16
  part     : Nat
  place    : BitVec 4
  tvec     : BitVec 62
  wdlimit  : BitVec 48
  rsbase   : BitVec 61
  rslimit  : BitVec 61
  deriving DecidableEq, Repr

/-- Where a gang stands (20 R342, R346 to R351). -/
inductive GangState
  | queued | resident | stopping | stopped
  deriving DecidableEq, Repr

/-- Who launched a gang: a LAUNCH command, by source and SEQ, or a node of a replay (20 R354). -/
inductive Origin
  | command (source : BitVec 16) (seq : Word)
  | node (replay : Nat) (index : Nat)
  deriving DecidableEq, Repr

/-- A gang (20 R344 to R351): its record, kernel and stop table, queue place, and why it ends, with the halting hart's HARTIDX,
TCAUSE, TRAPPC, TVAL and TVSTART for status 0x08. -/
structure Gang where
  id       : BitVec 32
  launch   : Launch
  kernel   : Kernel
  textVa   : Word
  stops    : List StopEntry
  origin   : Origin
  state    : GangState
  prio     : Nat
  passes   : Nat
  /-- placement order, from which "most recently placed" is read (20 R349) -/
  placed   : Nat
  /-- HARTIDs by HARTIDX, fixed at the first placement -/
  cores    : List (BitVec 13)
  /-- of a candidate, while its victims stop (20 R349): the halves of cores that are reserved for it, the victims, and the pool blocks that
  each hart of a victim frees -/
  reserved : List (BitVec 13)
  victims  : List (BitVec 32)
  room     : List (BitVec 13 × Nat)
  ending   : Option Nat
  halt     : List Word
  deriving DecidableEq, Repr

/-- A node of a graph (20 R353). -/
structure Node where
  launch : Launch
  params : List Byte
  deps   : List Nat
  deriving DecidableEq, Repr

/-- A graph definition (20 R353). -/
structure Graph where
  id     : BitVec 32
  source : BitVec 16
  total  : Nat
  nodes  : List Node
  deriving DecidableEq, Repr

/-- How far a node of a replay is (20 R354). -/
inductive NodeState
  | waiting | queued | ended (status : Nat) | skipped
  deriving DecidableEq, Repr

/-- A replay: its graph, its command, the snapshot of its nodes, and the first failed node (20 R354). -/
structure Replay where
  id     : Nat
  graph  : BitVec 32
  source : BitVec 16
  seq    : Word
  nodes  : List Node
  states : List NodeState
  failed : Option (Nat × Nat)
  deriving DecidableEq, Repr

/-- The root bound to a partition and an ASID (21 R365). -/
structure BoundRoot where
  part : Nat
  asid : BitVec 16
  root : BitVec 36
  deriving DecidableEq, Repr

/-- The loaded policy (23 R387), and the SHA-384 of its object. -/
structure Policy where
  version : BitVec 32
  pkg     : Nat
  grants  : List (BitVec 256)
  tags    : List Byte
  commands : BitVec 32
  watts   : Nat
  keys    : List (List Byte)
  digest  : List Byte
  deriving DecidableEq, Repr

/-- A command accepted and not completed (20 R340, R341): `done` holds STATUS and RESULT once its effects have ended, `policy` the
policy that its completion message puts in force, and whether it raises the fused minimum (23 R387). -/
structure Command where
  opcode : BitVec 16
  source : BitVec 16
  seq    : Word
  done   : Option (Nat × List Byte)
  policy : Option (Policy × Bool)
  deriving DecidableEq, Repr

/-- A port of the hub (22 R374). -/
structure Port where
  up    : Bool
  lanes : BitVec 8
  retry : BitVec 16
  far   : BitVec 8
  deriving DecidableEq, Repr

/-- What leaves the package: a message of 20 R339, a reply to a host access (21 R365), to another package (04 R91), to a
side-band request (22 R379) or of a port register (22 R374). -/
inductive Out
  | message (m : Msg)
  | hostReply (source : BitVec 16) (error : Bool) (data : List Byte)
  | peerReply (pkg : Fin 8) (error : Bool) (data : List Byte)
  | peerFlit (port : Fin 9) (gang : BitVec 32)
  | hostAccess (write : Bool) (pa size : Nat) (data : List Byte)
  | sideband (tag : Byte) (values : List Int) (live : Bool)
  | sidebandLog (tag : Byte) (log : List Msg)
  | sidebandRefused (tag : Byte)
  | portValue (port : Fin 9) (value : Word)
  deriving DecidableEq, Repr

/-- A host transfer longer than 8 bytes (05 R122): the request, the units that are to be made, what the units read gave, by address, and
whether a unit has failed. -/
structure Transfer where
  /-- messages of its source that the link holds and that came before it (20 R340) -/
  behind : Nat
  write  : Bool
  req    : HostReq
  todo   : List (Word × Nat)
  got    : List (Word × List Byte)
  failed : Bool
  deriving DecidableEq, Repr

/-- The supply and the boot (23 R381, 22 R380). -/
structure Supply where
  up      : Bool
  failed  : Option Nat
  rom     : Word
  minimum : BitVec 32
  deriving DecidableEq, Repr

/-- The power controller (23 R390, R391): the kettle in millijoules, the current limit in tenths of a watt, the side-band limit
in watts, the last measured package power, and the cap step of each core that is not at step 0. -/
structure Power where
  kettle : Nat
  limit  : Nat
  side   : Option Nat
  watts  : Nat
  steps  : List (Nat × Nat)
  /-- the hub's eight sensors, in eighths of a degree (23 R392) -/
  hub    : List Int
  deriving DecidableEq, Repr

/-- The control processor (20). -/
structure Control where
  expected : List (BitVec 16 × Word)
  held     : List Msg
  commands : List Command
  seq      : Word
  /-- the next SEQ of each hart's source 0x4000 + HARTID that is not at 0 (05 R123, 18 R325) -/
  hartSeq  : List (Nat × Word)
  images   : List Image
  nextImage : Word
  gangs    : List Gang
  nextGang : BitVec 32
  placements : Nat
  lastPlaced : List (Nat × Nat × BitVec 32)
  graphs   : List Graph
  replays  : List Replay
  nextReplay : Nat
  roots    : List BoundRoot
  policy   : Policy
  /-- something asks for a dispatch round (20 R346) -/
  round    : Bool
  deriving DecidableEq, Repr

/-- The state of the package and of the harts placed on it. -/
structure State where
  /-- the hart whose instruction runs -/
  hart     : Hart
  others   : List Hart
  /-- memory by physical address, in canonical form; an unlisted byte is zero (23 R381) -/
  mem      : List Host.Cell
  /-- 8-byte units of memory in uncorrectable error (18 R318) -/
  poison   : List Nat
  dirty    : List DirtyLine
  /-- writes that have not performed, in the order in which they came to their level (05 R98) -/
  writes   : List PendingWrite
  /-- lines that scalar L1s, stash windows and other packages hold, most recent first (04 R82, R83, R86) -/
  copies   : List (Holder × Nat)
  /-- lines that home slices hold, most recent first, and those that the keep hint retains there (04 R90, 09 R212) -/
  slices   : List Nat
  retained : List Nat
  tlb      : List TlbEntry
  icache   : List FetchLine
  /-- lines of each core's lookahead area, most recent first (04 R85) -/
  lookahead : List (Nat × Nat)
  /-- lines of each lead L1, most recent first (01 R17) -/
  leadL1   : List (Nat × Nat)
  /-- marks of each core's slice table, most recent first (01 R13) -/
  slice    : List (Nat × Word)
  dies     : Vector Die 4
  /-- this package's number, and the package number of every member of the domain (22 R375) -/
  pkg      : Fin 8
  members  : List (Fin 8)
  ports    : Vector Port 9
  control  : Control
  supply   : Supply
  power    : Power
  /-- the management controller's event log, oldest first (22 R380) -/
  eventLog : List Msg
  outbox   : List Out
  /-- host transfers whose units are not all made -/
  transfers : List Transfer
  /-- events that the outside has raised and the model has not taken -/
  inputs   : List Instr
  /-- which of the enabled moves come next; any list is a possible one, and after its end the moves are taken in turn (log 4) -/
  choices  : List Nat
  /-- steps since the last turn that 02 R49 guarantees, and the number of the next one -/
  idle     : Nat
  turn     : Nat
  /-- the hart of each split core that issued to the lanes last (02 R41) -/
  lanes    : List (Nat × BitVec 13)
  fresh    : Nat
  tick     : Nat
  deriving DecidableEq, Repr

/-! ## Reset -/

/-- Every shadow register unknown, nothing recorded (01 R12). -/
def Lead.reset : Lead :=
  { mode := .idle, pc := 0, s := Vector.replicate 32 0, v := Vector.replicate 32 0, k := Vector.replicate 8 0, vl := 0,
    vrows := 1, vtype := 0x8000, rowstr := 0, knownS := 0, knownV := 0, knownK := 0, shapeKnown := false, stack := [],
    buffer := [], prefetch := [], fetched := none }

/-- The live masks of a class P stop (19 R330). -/
def StopEntry.allLive : StopEntry := { offset := 0, sregs := -1, vregs := -1, tiles := -1, handles := -1 }

def Preempt.none : Preempt := { pending := .none, runOn := .none, fell := false, serves := false, classL := false, live := StopEntry.allLive }
def Counter.zero : Counter := { err := false, ecode := 0, count := 0, fail := 0 }
def Claim.free : Claim :=
  { claimed := false, fail := false, spillBase := 0, spillCap := 0, size := 0, kw := false, vw := false, flags := 0, used := 0, spilled := 0, unread := [],
    buckets := [] }
def Shape.reset : Shape :=
  { vl := 0, vrows := 1, vtype := 0x8000, vstart := 0, rowstr := 0, width := 16, forked := false, half := false, split := false,
    granted := 16 }
def Ecc.none : Ecc := { s := 0, v := 0, k := 0, t := 0, h := 0, w := [] }
def Priv.reset : Priv :=
  { tvec := 0, tcause := 0, trappc := 0, tval := 0, tvstart := 0, trap := false, plevel := false, level := false, tscratch := 0,
    ptroot := 0, asid := 0, partid := 0, maxdist := 8192, leadOn := true, vdirty := 0, adirty := 0, wdlimit := 0, wdcount := 0,
    rsbase := 0, rslimit := 0 }

/-- A hart before any launch: the reset values of 02 and 18, and the values that log 3 names where a launch sets them. -/
def Hart.reset : Hart :=
  { pc := 0, ir := 0, s := Vector.replicate 32 0, v := Vector.replicate 32 0, k := Vector.replicate 8 0,
    acc := Vector.replicate 8 0, shape := Shape.reset, fcsr := 0, mxflags := 0, leadOn := true, det := false,
    ident := { hartid := 0, gangid := 0, gangsize := 0, hartidx := 0 }, started := false, cycles := 0,
    rs := { entries := [], depth := 0, rsp := 0 }, matrix := none, cc := Vector.replicate 16 Counter.zero, engine := [],
    windows := Vector.replicate 8 { base := 0, len := 0 }, claims := Vector.replicate 4 Claim.free, vstp := [], vstpRun := 0,
    queue := [], stalled := false, taken := [], begun := false, lanes := [], lanesCut := none, reads := [], sources := [],
    since := 0, spun := false, traps := 0, strip := 0,
    barrier := Vector.replicate 4 { arrivals := 0, pending := false }, gbarWait := 0,
    service := { replies := [], unanswered := [], child := [] }, priv := Priv.reset, watchdog := false, preempt := Preempt.none,
    declared := { barriers := 0, hash := 0, windows := 0, fork := false }, launched := true, resume := none, status := .vacant,
    ecc := Ecc.none, lead := Lead.reset, lastWriter := [] }

def Die.reset : Die :=
  { state := .run, cmd := 0, busy := false, ue := false, stray := 0, strayLogged := true, wblines := 0, resetting := none,
    routine := none, part := 0, closed := false, logSeq := 0, errLog := [], temp := 200, sensors := List.replicate 64 200, band := 0, tripped := false, rails := [] }

/-- The rails of a die, one a voltage domain of 01 R9, at a temperature (23 R389). -/
def railsAt (d : Nat) (t : Int) : List Nat := [0, 1, 2].map fun r => Config.railVoltage d r t
/-- A die after reset, its rails set for its temperature. -/
def Die.booted (d : Nat) (x : Die) : Die := { x with rails := railsAt d x.temp }

/-- The default policy (23 R387): host sources 0x00 to 0xFF have partition 0, every command is granted, 4,000 W, no keys. -/
def Policy.default : Policy :=
  { version := 0, pkg := 0, grants := [-1, 0, 0, 0], tags := [0, 0, 0, 0], commands := -1, watts := 4000, keys := [], digest := [] }

def Control.reset : Control :=
  { expected := [], held := [], commands := [], seq := 0, hartSeq := [], images := [], nextImage := 1, gangs := [], nextGang := 1, placements := 0,
    lastPlaced := [], graphs := [], replays := [], nextReplay := 0, roots := [], policy := Policy.default, round := false }

/-- The package after reset: booted under the default policy, memory zero, nothing launched. -/
def State.reset : State :=
  { hart := Hart.reset, others := [], mem := [], poison := [], dirty := [], writes := [], copies := [], slices := [], retained := [], tlb := [], icache := [], lookahead := [], leadL1 := [], slice := [],
    dies := #v[Die.booted 0 Die.reset, Die.booted 1 Die.reset, Die.booted 2 Die.reset, Die.booted 3 Die.reset], pkg := 0, members := [0],
    ports := Vector.replicate 9 { up := false, lanes := 0, retry := 0, far := 0 }, control := Control.reset,
    supply := { up := true, failed := none, rom := 0, minimum := 0 },
    power := { kettle := 3000000, limit := 48000, side := none, watts := 0, steps := [], hub := List.replicate 8 200 }, eventLog := [], outbox := [],
    transfers := [], inputs := [], choices := [], idle := 0, turn := 0, lanes := [], fresh := 0, tick := 0 }

end Sys2Proof.Machine
end

