-- ==== Sys2Proof/Machine/Bits.lean ====
section
/-! DEFINITION. Bit fields, sign extension, byte order, elements of a vector register and small list helpers. -/

namespace Sys2Proof.Machine

/-- Bits `lo` to `lo + w - 1` of a number. -/
def bitsAt (x lo w : Nat) : Nat := x / 2 ^ lo % 2 ^ w

/-- Bit `i` of a number. -/
def bitAt (x i : Nat) : Bool := x / 2 ^ i % 2 == 1

/-- The two's complement value of the low `w` bits of a number. -/
def signedOf (w x : Nat) : Int :=
  let y := x % 2 ^ w
  if y < 2 ^ (w - 1) then (y : Int) else (y : Int) - (2 ^ w : Nat)

/-- The low `w` bits of an integer, as a number. -/
def wrapTo (w : Nat) (i : Int) : Nat := (i % ((2 ^ w : Nat) : Int)).toNat

/-- Sign-extend the low `w` bits of a number to a word. -/
def sextTo (w x : Nat) : Word := BitVec.ofInt 64 (signedOf w x)

/-- Sign-extend an immediate (06 R127). -/
def sext16 (i : BitVec 16) : Word := i.signExtend 64
/-- Zero-extend an immediate (06 R127). -/
def zext16 (i : BitVec 16) : Word := i.zeroExtend 64

/-- The number of a Boolean bit. -/
def bit (b : Bool) : Nat := if b then 1 else 0
/-- The word of a comparison (07 R161). -/
def boolWord (b : Bool) : Word := if b then 1 else 0

/-- A number from its bytes, the least significant first (00 R2). -/
def leNat : List Byte → Nat
  | [] => 0
  | b :: bs => b.toNat + 256 * leNat bs

/-- The `n` bytes of a number, the least significant first. -/
def leBytes : Nat → Nat → List Byte
  | 0, _ => []
  | n + 1, x => BitVec.ofNat 8 x :: leBytes n (x / 256)

/-- `n` bytes of a list at an offset; beyond its end they are zero. -/
def sliceBytes (bs : List Byte) (off n : Nat) : List Byte :=
  let t := (bs.drop off).take n
  t ++ List.replicate (n - t.length) 0

/-- The number at an offset of a list of bytes. -/
def leAt (bs : List Byte) (off n : Nat) : Nat := leNat ((bs.drop off).take n)

/-- The numbers 0 to n - 1. -/
def upTo : Nat → List Nat
  | 0 => []
  | n + 1 => upTo n ++ [n]

/-- Whether every byte is zero. -/
def allZero (bs : List Byte) : Bool := bs.all (· == 0)

/-- The number of one bits among the low `w` bits of a number. -/
def popCount : Nat → Nat → Nat
  | 0, _ => 0
  | w + 1, x => x % 2 + popCount w (x / 2)

/-- The number of zero bits above the highest one bit among the low `w` bits. -/
def leadingZeros : Nat → Nat → Nat
  | 0, _ => 0
  | w + 1, x => if bitAt x w then 0 else 1 + leadingZeros w x

/-- The number of zero bits below the lowest one bit among the low `w` bits. -/
def trailingZeros : Nat → Nat → Nat
  | 0, _ => 0
  | w + 1, x => if x % 2 == 1 then 0 else 1 + trailingZeros w (x / 2)

/-- The low `w` bits in reverse order. -/
def reverseBits : Nat → Nat → Nat
  | 0, _ => 0
  | w + 1, x => x % 2 * 2 ^ w + reverseBits w (x / 2)

/-- The `w`-bit element `i` of a register: bits `w * i` to `w * i + w - 1` (02 R30). -/
def elemAt (v : VBits) (w i : Nat) : Nat := v.toNat / 2 ^ (w * i) % 2 ^ w

/-- A register with its `w`-bit element `i` replaced. -/
def withElem (v : VBits) (w i x : Nat) : VBits :=
  let low := v.toNat % 2 ^ (w * i)
  let high := v.toNat / 2 ^ (w * (i + 1))
  BitVec.ofNat 8192 (low + (x % 2 ^ w) * 2 ^ (w * i) + high * 2 ^ (w * (i + 1)))

/-- Bit `i` of a mask register. -/
def maskBit (k : VBits) (i : Nat) : Bool := k.getLsbD i

/-- A mask register with bit `i` replaced. -/
def withMaskBit (k : VBits) (i : Nat) (b : Bool) : VBits := withElem k 1 i (bit b)

/-- The bytes of a register. -/
def regBytes (v : VBits) : List Byte := leBytes 1024 v.toNat
/-- The register of its bytes. -/
def regOfBytes (bs : List Byte) : VBits := BitVec.ofNat 8192 (leNat bs)

/-- The least integer square root: the greatest `r` with `r * r ≤ n` (08 R192, 07 R165), by bits from the top. -/
def isqrtLoop : Nat → Nat → Nat → Nat
  | 0, _, r => r
  | k + 1, n, r =>
    let c := r + 2 ^ k
    isqrtLoop k n (if c * c ≤ n then c else r)
def isqrt (n : Nat) : Nat := isqrtLoop (Nat.log2 n / 2 + 1) n 0

/-- Replace the element at an index of a list; a list too short is unchanged. -/
def setAt {α : Type} : List α → Nat → α → List α
  | [], _, _ => []
  | _ :: xs, 0, y => y :: xs
  | x :: xs, n + 1, y => x :: setAt xs n y

/-- Replace the value at a key of a list in ascending key order, or insert it. -/
def insertKey {α : Type} (n : Nat) (x : α) : List (Nat × α) → List (Nat × α)
  | [] => [(n, x)]
  | (m, y) :: r => if n < m then (n, x) :: (m, y) :: r else if n = m then (n, x) :: r else (m, y) :: insertKey n x r

/-- The value at a key. -/
def lookupKey {α : Type} (n : Nat) : List (Nat × α) → Option α
  | [] => none
  | (m, y) :: r => if m = n then some y else lookupKey n r

/-- Stable insertion sort by an order on keys, least first. -/
def insertBy {α : Type} (le : α → α → Bool) (x : α) : List α → List α
  | [] => [x]
  | y :: r => if le x y then x :: y :: r else y :: insertBy le x r
def sortBy {α : Type} (le : α → α → Bool) : List α → List α
  | [] => []
  | x :: r => insertBy le x (sortBy le r)

/-- A list without its later repeats. -/
def distinct {α : Type} [DecidableEq α] : List α → List α
  | [] => []
  | x :: r => x :: (distinct r).filter (· ≠ x)

end Sys2Proof.Machine
end

