-- ==== Sys2Proof/Machine/Memory.lean ====
section
/-! DEFINITION. Memory as a list of physical address and byte pairs in one canonical form (04 R77), and the bytes and
little-endian numbers read from and written to it.  An unlisted byte is zero (23 R381). -/

namespace Sys2Proof.Machine

/-- Physical memory: the bytes that are not zero, addresses strictly rising. -/
abbrev Memory := List Host.Cell

namespace Memory

/-- The byte at an address. -/
def get : Memory → Nat → Byte
  | [], _ => 0
  | (a, b) :: m, x => if a = x then b else get m x

/-- Put a cell before the first cell of a higher address. -/
def place (c : Host.Cell) : Memory → Memory
  | [] => [c]
  | d :: m => if c.1 < d.1 then c :: d :: m else d :: place c m

/-- Memory with one byte replaced. -/
def set (m : Memory) (a : Nat) (b : Byte) : Memory :=
  let m' := m.filter fun c => c.1 ≠ a
  if b = 0 then m' else place (a, b) m'

/-- Whether addresses rise strictly from `lo` and no byte is zero. -/
def sortedFrom : Nat → Memory → Bool
  | _, [] => true
  | lo, (a, b) :: m => decide (lo ≤ a) && (b != 0) && sortedFrom (a + 1) m

/-- The canonical form. -/
def wf (m : Memory) : Bool := sortedFrom 0 m

/-- The `n` bytes from an address. -/
def readBytes (m : Memory) : Nat → Nat → List Byte
  | _, 0 => []
  | a, n + 1 => get m a :: readBytes m (a + 1) n

/-- Memory with bytes written from an address. -/
def writeBytes (m : Memory) (a : Nat) : List Byte → Memory
  | [] => m
  | b :: bs => writeBytes (set m a b) (a + 1) bs

/-- The little-endian number of `n` bytes. -/
def read (m : Memory) (a n : Nat) : Nat := leNat (readBytes m a n)

/-- Memory with the low `n` bytes of a number written. -/
def write (m : Memory) (a n x : Nat) : Memory := writeBytes m a (leBytes n x)

end Memory

end Sys2Proof.Machine
end

