-- ==== Sys2Proof/Machine/Message.lean ====
section
/-! DEFINITION. Messages that leave the package (20 R339): event records of the dies (18 R320, 24 R399), records of harts (18
R325) and of the control processor, and the management controller's copy of the event log (22 R380). -/

namespace Sys2Proof.Machine

/-- A die of this package by number, and a state with one replaced. -/
def dieAt (s : State) (d : Nat) : Die := s.dies[Fin.ofNat 4 d]
def State.setDie (s : State) (d : Nat) (x : Die) : State := { s with dies := s.dies.set (Fin.ofNat 4 d) x }

/-- A message of a source with its SEQ and body (20 R339). -/
def message (opcode source : Nat) (seq : Word) (body : List Byte) : Msg :=
  { opcode := BitVec.ofNat 16 opcode, source := BitVec.ofNat 16 source, length := BitVec.ofNat 32 body.length, seq := seq,
    zero := 0, body := body }

/-- Send to the host. -/
def State.emit (s : State) (o : Out) : State := { s with outbox := s.outbox ++ [o] }

/-- Keep an entry in the management controller's log, the last 1,024 (22 R380). -/
def keepLog (log : List Msg) (m : Msg) : List Msg :=
  let l := log ++ [m]
  l.drop (l.length - Config.sideBandLogEntries)

/-- The body of an event record of a die: CODE, zero, VALUE (24 R399). -/
def recordBody (code value : Nat) : List Byte := leBytes 4 code ++ leBytes 4 0 ++ leBytes 8 value

/-- An event record of die `d`'s source (18 R320, 24 R399), to the host and to the management controller. -/
def State.dieRecord (s : State) (d code value : Nat) : State :=
  let x := dieAt s d
  let m := message 0x4001 (0x1000 + d) x.logSeq (recordBody code value)
  let s := s.setDie d { x with logSeq := x.logSeq + 1 }
  { s with outbox := s.outbox ++ [.message m], eventLog := keepLog s.eventLog m }

/-- A message of the control processor, source 0x2000, with its own next SEQ (20 R341). -/
def State.controlRecord (s : State) (opcode : Nat) (body : List Byte) : State :=
  let m := message opcode 0x2000 s.control.seq body
  { s with outbox := s.outbox ++ [.message m], control := { s.control with seq := s.control.seq + 1 } }

/-- Count an error reply given for die `d`, and record the first after a FENCE (24 R395, R399). -/
def State.noteStray (s : State) (d pa : Nat) : State :=
  let x := dieAt s d
  let n := if x.stray.toNat = 0xFFFF then x.stray else x.stray + 1
  let s := s.setDie d { x with stray := n, strayLogged := true }
  if x.strayLogged then s else s.dieRecord d 0x210 pa

/-! ## The error log (18 R320) -/

/-- Add an entry to a die's error log, delivered as an event record whose code and value the manual leaves open (log 26). -/
def State.logEntry (s : State) (d : Nat) (e : LogEntry) : State :=
  let x := dieAt s d
  let t := s.setDie d { x with errLog := x.errLog ++ [e] }
  ({ t with fresh := s.fresh + 2 }).dieRecord d (Config.freeNat s.fresh) (Config.freeNat (s.fresh + 1))

end Sys2Proof.Machine
end

