-- ==== Sys2Proof/Machine/Ops.lean ====
section
/-! DEFINITION. The named operations over registers and harts that every meaning goes through; the causes of traps; taking a
trap, halting and returning from a handler (18 R309, R310, R313, R314). -/

namespace Sys2Proof.Machine

/-! ## Registers -/

/-- A state with its current hart changed. -/
def State.withHart (s : State) (f : Hart → Hart) : State := { s with hart := f s.hart }

/-- Read a scalar register; s0 reads zero (07 R160). -/
def State.getS (s : State) (r : SReg) : Word := if r = 0 then 0 else s.hart.s[r]

/-- Write a scalar register; a write to s0 is discarded (07 R160).  A write of a whole register replaces an erroneous value (log 18). -/
def State.setS (s : State) (r : SReg) (x : Word) : State :=
  if r = 0 then s
  else
    { s with hart := { s.hart with s := s.hart.s.set r x
                                   ecc := { s.hart.ecc with s := s.hart.ecc.s &&& ~~~(1#32 <<< r.val) } } }

/-- Read a vector register. -/
def State.getV (s : State) (r : VReg) : VBits := s.hart.v[r]

/-- Write a vector register, setting its bit of VDIRTY (18 R308). -/
def State.setV (s : State) (r : VReg) (x : VBits) : State :=
  { s with hart := { s.hart with v := s.hart.v.set r x
                                 priv := { s.hart.priv with vdirty := s.hart.priv.vdirty ||| 1#32 <<< r.val }
                                 ecc := { s.hart.ecc with v := s.hart.ecc.v &&& ~~~(1#32 <<< r.val) } } }

/-- Read a mask register; k0 reads all ones (06 R151). -/
def State.getK (s : State) (r : MReg) : VBits := if r = 0 then -1 else s.hart.k[r]

/-- Write a mask register; nothing writes k0 (00 R6). -/
def State.setK (s : State) (r : MReg) (x : VBits) : State :=
  if r = 0 then s
  else
    { s with hart := { s.hart with k := s.hart.k.set r x
                                   ecc := { s.hart.ecc with k := s.hart.ecc.k &&& ~~~(1#8 <<< r.val) } } }

/-- Read an accumulator tile. -/
def State.getAcc (s : State) (t : Tile) : TileBits := s.hart.acc[t]

/-- Write an accumulator tile, setting its bit of ADIRTY (18 R308). -/
def State.setAcc (s : State) (t : Tile) (x : TileBits) : State :=
  { s with hart := { s.hart with acc := s.hart.acc.set t x
                                 priv := { s.hart.priv with adirty := s.hart.priv.adirty ||| 1#8 <<< t.val }
                                 ecc := { s.hart.ecc with t := s.hart.ecc.t &&& ~~~(1#8 <<< t.val) } } }

/-- A completion counter, and a state with one replaced. -/
def State.getCC (s : State) (c : CReg) : Counter := s.hart.cc[c]
def State.setCC (s : State) (c : CReg) (x : Counter) : State := { s with hart := { s.hart with cc := s.hart.cc.set c x } }

/-- A hash claim, and a state with one replaced. -/
def State.getClaim (s : State) (h : Handle) : Claim := s.hart.claims[h]
def State.setClaim (s : State) (h : Handle) (x : Claim) : State := { s with hart := { s.hart with claims := s.hart.claims.set h x } }

/-- A stash window, and a state with one replaced. -/
def State.getWindow (s : State) (w : WinId) : Window := s.hart.windows[w]
def State.setWindow (s : State) (w : WinId) (x : Window) : State :=
  { s with hart := { s.hart with windows := s.hart.windows.set w x } }

/-- The next instruction. -/
def State.setPc (s : State) (x : Word) : State := { s with hart := { s.hart with pc := x } }
def State.advance (s : State) : State := s.setPc (s.hart.pc + 4)

/-- The address `PC + 4 × offset` (06 R127). -/
def relative (pc off : Word) : Word := pc + off <<< 2

/-- VSTART from a row and a column (02 R28). -/
def packStart (row col : Nat) : BitVec 15 := BitVec.ofNat 15 (row % 8 * 4096 + col % 4096)
def State.setStart (s : State) (x : BitVec 15) : State :=
  { s with hart := { s.hart with shape := { s.hart.shape with vstart := x } } }
def Shape.startRow (p : Shape) : Nat := p.vstart.toNat / 4096
def Shape.startCol (p : Shape) : Nat := p.vstart.toNat % 4096

/-- OR flags into FCSR.FFLAGS, bits 7:3 (03 R61). -/
def State.orFlags (s : State) (f : BitVec 5) : State :=
  { s with hart := { s.hart with fcsr := s.hart.fcsr ||| (f.zeroExtend 8) <<< 3 } }
/-- OR flags into MXFLAGS (03 R74). -/
def State.orMx (s : State) (f : BitVec 2) : State := { s with hart := { s.hart with mxflags := s.hart.mxflags ||| f } }

/-- The die and the core of a hart, and the number that names its core in the package (02 R44). -/
def Ident.die (i : Ident) : Nat := i.hartid.toNat / 256 % 4
def Ident.core (i : Ident) : Nat := i.hartid.toNat / 2 % 128
def Ident.coreKey (i : Ident) : Nat := i.hartid.toNat / 2

/-- The hart stands inside an instruction that must end before it stops: instructions are queued, or a VAMO has applied some of its
lanes. -/
def Hart.amidst (h : Hart) : Bool := !h.queue.isEmpty || h.lanesCut.isSome

/-- The current hart and all others. -/
def State.harts (s : State) : List Hart := s.hart :: s.others
/-- A state with a function applied to every hart. -/
def State.mapHarts (s : State) (f : Hart → Hart) : State := { s with hart := f s.hart, others := s.others.map f }

/-- Whether a hart holds lanes: it is placed, and has not stopped, halted or exited (02 R45). -/
def Hart.resident (h : Hart) : Bool :=
  match h.status with
  | .running | .waiting _ => true
  | _ => false

/-- The hart has been launched and has not exited. -/
def Hart.alive (h : Hart) : Bool :=
  match h.status with
  | .vacant | .exited => false
  | _ => true

/-- The other hart of the current hart's core, if the core is split (02 R39, R41). -/
def State.partner (s : State) : Option Hart :=
  s.others.find? fun h => h.resident && h.ident.coreKey == s.hart.ident.coreKey && h.ident.hartid != s.hart.ident.hartid

/-- The child that the current hart forked, if it has not retired (02 R40). -/
def State.child (s : State) : Option Hart :=
  s.others.find? fun h => h.alive && !h.launched && h.ident.gangid == s.hart.ident.gangid
    && h.ident.hartidx == s.hart.ident.hartidx

/-! ## The lead (01 R12, R23) -/

/-- Both enable bits are 1 (01 R12). -/
def Hart.leadEnabled (h : Hart) : Bool := h.leadOn && h.priv.leadOn

/-- Fork the lead from the trail: scalar, mask and shape copies known, vector copies unknown (01 R12).  The mask copies are those that the
lanes hold, also where queued instructions have still to write them: the model's choice (log 73).  The prefetches of the old context
that have not returned are dropped with its delay buffer: the manual speaks of the buffer only, and that is the model's choice (log 13). -/
def Hart.forkLead (h : Hart) : Hart :=
  if h.leadEnabled then
    { h with lead := { mode := .running, pc := h.pc, s := h.s, v := Vector.replicate 32 0, k := h.k, vl := h.shape.vl,
                       vrows := h.shape.vrows, vtype := h.shape.vtype, rowstr := h.shape.rowstr, knownS := -1, knownV := 0,
                       knownK := -1, shapeKnown := true, stack := h.rs.entries, buffer := [], prefetch := [], fetched := none } }
  else { h with lead := Lead.reset }

/-- Discard the lead context and flush its delay buffer (01 R23). -/
def Hart.dropLead (h : Hart) : Hart := { h with lead := Lead.reset }

/-! ## Physical addresses (04 R77) -/

def paAper (pa : Nat) : Bool := bitAt pa 51
def paRegion (pa : Nat) : Nat := bitsAt pa 47 4
def paPkg (pa : Nat) : Nat := bitsAt pa 44 3
def paDie (pa : Nat) : Nat := bitsAt pa 42 2
def paOff (pa : Nat) : Nat := bitsAt pa 0 42
def paLine (pa : Nat) : Nat := pa / Config.lineBytes

/-- The address names populated memory of some package (04 R77). -/
def paPopulated (pa : Nat) : Bool := decide (pa < 2 ^ 47) && decide (paOff pa < Config.dieBytes)

/-- The home slice of a physical address: the exclusive or of the six-bit fields of its line address (04 R89). -/
def homeSlice (pa : Nat) : Nat :=
  let line := bitsAt pa 7 35
  (upTo 6).foldl (fun x j => x ^^^ bitsAt line (6 * j) 6) 0

/-- Log an error at a physical address of this package: in its slice, where that holds the line, else in a stack of its die, which the
manual does not name (18 R320). -/
def State.logMemory (s : State) (pa : Nat) (k : LogKind) : State :=
  if !(paPopulated pa && paPkg pa == s.pkg.val) then s
  else if s.slices.contains (paLine pa) then s.logEntry (paDie pa) { pa := some pa, part := .slice (homeSlice pa), kind := k }
  else ({ s with fresh := s.fresh + 1 }).logEntry (paDie pa) { pa := some pa, part := .hbm (Config.freeNat s.fresh % 2), kind := k }

/-! ## Causes of traps (18 R309) -/

inductive Cause
  | illegalInstruction | illegalConfiguration | misaligned | notPresent | permission | cellStore | cellKind | cellAlignment
  | badHandle | engineError | busError | memoryError | returnStackSpill | supervisorCall | breakpoint | watchdog
  | preemptionRequest | privilegedInstruction
  deriving DecidableEq, Repr

def Cause.code : Cause → BitVec 8
  | .illegalInstruction => 0x01 | .illegalConfiguration => 0x02 | .misaligned => 0x03 | .notPresent => 0x04
  | .permission => 0x05 | .cellStore => 0x06 | .cellKind => 0x07 | .cellAlignment => 0x08 | .badHandle => 0x09
  | .engineError => 0x0A | .busError => 0x0B | .memoryError => 0x0C | .returnStackSpill => 0x0D | .supervisorCall => 0x0E
  | .breakpoint => 0x0F | .watchdog => 0x10 | .preemptionRequest => 0x11 | .privilegedInstruction => 0x12

/-- What a trap records (18 R310).  `ret` is the address of R309 where it is not the PC; `noWord` marks a trap of a word that is
no instruction, which no queue takes; `pa` is the physical address of a unit in error. -/
structure Trap where
  cause : Cause
  tval  : Word
  loc   : BitVec 2
  walk  : Bool
  async : Bool
  ret   : Option Word
  noWord : Bool
  pa    : Option Nat
  deriving DecidableEq, Repr

/-- A synchronous trap of a cause at the PC. -/
def Trap.of (c : Cause) (v : Word) : Trap := { cause := c, tval := v, loc := 0, walk := false, async := false, ret := none, noWord := false, pa := none }

/-- Whether an instruction word passes through the vector instruction queue, as TCAUSE.VEC shows it (18 R309): majors 0x30 to
0x3C and 0x3E, and SMAP, SUNMAP and SWB. -/
def vecWord (w : BitVec 32) : Bool :=
  let op := w.toNat / 67108864
  let fn := w.toNat % 256
  (decide (48 ≤ op) && decide (op ≤ 60)) || op == 62 || (op == 61 && decide (8 ≤ fn) && decide (fn ≤ 10))

/-! ## Halting (18 R327, R313; 19 R331) -/

/-- Every hart of a gang stops with no trap and no save; its engine commands are abandoned (19 R331, 24 R397).  What its vector queue holds is discarded; its
writes that are outstanding may still perform, until the gang ends (log 15). -/
def Hart.stopNoSave (g : BitVec 32) (h : Hart) : Hart :=
  if h.ident.gangid = g && h.resident then { h with status := .stopped, engine := [], queue := [], stalled := false, lead := Lead.reset } else h

/-- The gangs with the first reason for the end of gang `g` recorded (20 R351). -/
def endGang (g : BitVec 32) (status : Nat) (halt : List Word) (gs : List Gang) : List Gang :=
  gs.map fun x => if x.id = g && x.ending.isNone then { x with ending := some status, halt := halt } else x

/-- The current hart halts for good; the other harts of its gang stop, and the control processor ends the gang with status 0x08
(18 R327, 19 R331).  `second` is the second trap's cause and PC of a double trap (18 R313). -/
def State.halt (s : State) (second : List Word) : State :=
  let h := s.hart
  let g := h.ident.gangid
  let record : List Word :=
    [h.ident.hartidx.zeroExtend 64, h.priv.tcause.zeroExtend 64, h.priv.trappc ++ 0#2, h.priv.tval, h.priv.tvstart.zeroExtend 64]
  { s with hart := { h with status := .halted, lead := Lead.reset }
           others := s.others.map (Hart.stopNoSave g)
           control := { s.control with gangs := endGang g 8 (record ++ second) s.control.gangs } }

/-! ## Taking a trap and returning from it -/

/-- Trap entry (18 R310): TCAUSE, TRAPPC, TVAL and TVSTART are written, the hart goes to S level with PSTAT.TRAP = 1, and
continues at TVEC. -/
def State.enterTrap (s : State) (t : Trap) : State :=
  let h := s.hart
  let p := h.priv
  let pc := t.ret.getD h.pc
  let vec := !t.async && !t.noWord && vecWord h.ir
  { s with hart :=
    { h with pc := p.tvec ++ 0#2
             status := .running
             lead := Lead.reset
             taken := []
             begun := false
             spun := false
             traps := h.traps + 1
             shape := { h.shape with vstart := 0 }
             priv := { p with tcause := BitVec.ofBool t.walk ++ t.loc ++ BitVec.ofBool t.async ++ BitVec.ofBool vec ++ t.cause.code
                              trappc := pc.extractLsb' 2 62
                              tval := t.tval
                              tvstart := h.shape.vstart
                              plevel := p.level
                              level := true
                              trap := true
                              wdcount := 0 } } }

/-- An uncorrectable error that an instruction of the hart meets is logged (18 R320): one in memory for its home, by its address, one
in a register, a tile, a window line or a hash region for the hart's core. -/
def State.logTrap (s : State) (t : Trap) : State :=
  let id := s.hart.ident
  if t.cause ≠ .memoryError then s
  else if t.loc = 0 then
    match t.pa with
    | some pa => s.logMemory pa .uncorrectable
    | none => s
  else s.logEntry id.die { pa := t.pa, part := if t.loc = 2 then .tileBuffer id.coreKey else .registers id.coreKey, kind := .uncorrectable }

/-- An engine command of the hart has not completed. -/
def Hart.engineBusy (h : Hart) : Bool := h.engine.any fun c => !c.finished

/-- A wait of the table of 02 R45, which ends the run of a class L request (19 R330); an instruction that is incomplete is none. -/
def WaitKind.listed : WaitKind → Bool
  | .vector | .save | .engines => false
  | .ccwait | .barrier | .join | .exitDrain | .forkDrain | .waitev | .hsig | .queue | .spin => true

/-- A pending request of class L falls back to class P where a condition holds (19 R330). -/
def Preempt.fallBack (p : Preempt) (c : Bool) : Preempt := { p with fell := p.fell || (c && p.pending.isSome && p.runOn.isSome) }

/-- The hart waits at the instruction, which is executed again (02 R45, 18 R312). -/
def State.waitFor (s : State) (k : WaitKind) : State :=
  { s with hart := { s.hart with status := .waiting k, preempt := s.hart.preempt.fallBack k.listed } }

/-- Take a trap; a synchronous trap while PSTAT.TRAP is 1 halts the hart (18 R313), as HALT does once its engine commands have completed
(18 R327): until then it waits at the instruction, which meets the trap again. -/
def State.takeTrap (s : State) (t : Trap) : State :=
  if s.hart.priv.trap && !t.async then
    if s.hart.engineBusy then s.waitFor .engines else (s.logTrap t).halt [t.cause.code.zeroExtend 64, s.hart.pc]
  else (s.logTrap t).enterTrap t

/-- ERET (18 R314): VSTART, the level and the PC are restored, PSTAT.TRAP is cleared, and the lead is forked again. -/
def State.returnFromTrap (s : State) : State :=
  let h := s.hart
  let p := h.priv
  let h' : Hart :=
    { h with pc := p.trappc ++ 0#2
             shape := { h.shape with vstart := p.tvstart }
             priv := { p with level := p.plevel, trap := false } }
  { s with hart := h'.forkLead }

/-! ## Meanings with several steps -/

/-- Why a meaning ends before its end: a trap, a wait, an event that cannot happen, or a stop of the hart in its midst. -/
inductive Stop
  | trap (t : Trap)
  | wait (k : WaitKind)
  | fault (f : Fault)
  | ended
  deriving DecidableEq, Repr

/-- A meaning that reads and changes the state; what it has done when it stops stays done (02 R35). -/
abbrev M := EStateM Stop State

/-- The outcome of one step. -/
abbrev Out1 := Host.Outcome State Fault Refusal

/-- The outcome of a meaning: a trap is taken, a wait leaves the hart at the instruction. -/
def finish : EStateM.Result Stop State Unit → Out1
  | .ok _ s => .next s
  | .error (.trap t) s => .next (s.takeTrap t)
  | .error (.wait k) s => .next (s.waitFor k)
  | .error (.fault f) _ => .fault f
  | .error .ended s => .next s

def run (m : M Unit) (s : State) : Out1 := finish (m s)

def raise {α : Type} (c : Cause) (v : Word) : M α := throw (.trap (Trap.of c v))
def waitOn {α : Type} (k : WaitKind) : M α := throw (.wait k)
def notEnabled {α : Type} : M α := throw (.fault .eventNotEnabled)
/-- A trap whose TVAL is the instruction word (18 R309). -/
def raiseWord {α : Type} (c : Cause) : M α := do raise c ((← get).hart.ir.zeroExtend 64)
def illegalConfig {α : Type} : M α := raiseWord .illegalConfiguration
/-- Memory Error of a register, hash region or tile (18 R318). -/
def memoryError {α : Type} (loc : BitVec 2) (v : Word) : M α := throw (.trap { Trap.of .memoryError v with loc := loc })

/-- Require a condition, or raise a cause with the instruction word. -/
def need_ (c : Bool) (x : Cause) : M Unit := if c then pure () else raiseWord x
def needConfig (c : Bool) : M Unit := if c then pure () else illegalConfig

/-- A fresh count for a free value. -/
def freshCount : M Nat := fun s => .ok s.fresh { s with fresh := s.fresh + 1 }
def freshBit : M Bool := do return Config.freeBit (← freshCount)
def freshNat : M Nat := do return Config.freeNat (← freshCount)
def freshWord : M Word := do return Config.freeWord (← freshCount)

/-- A list in a free order (log 10). -/
def shuffle {α : Type} : Nat → List α → M (List α)
  | 0, l => return l
  | n + 1, l => do
    let i := (← freshNat) % l.length
    match l[i]? with
    | none => return l
    | some x => return x :: (← shuffle n (l.eraseIdx i))

/-- Whether a scalar register is in uncorrectable error (18 R318). -/
def State.badS (s : State) (r : SReg) : Bool := r != 0 && s.hart.ecc.s.getLsbD r.val
def State.badV (s : State) (r : VReg) : Bool := s.hart.ecc.v.getLsbD r.val
def State.badK (s : State) (r : MReg) : Bool := r != 0 && s.hart.ecc.k.getLsbD r.val
def State.badT (s : State) (t : Tile) : Bool := s.hart.ecc.t.getLsbD t.val

/-- Memory Error of a register (18 R318): LOC 1, TVAL 0. -/
def Trap.register : Trap := { Trap.of .memoryError 0 with loc := 1 }

/-- Read a scalar, vector or mask register as an operand; one in error raises Memory Error (18 R318). -/
def readS (r : SReg) : M Word := do
  let s ← get
  if s.badS r then throw (.trap Trap.register) else return s.getS r
def readV (r : VReg) : M VBits := do
  let s ← get
  if s.badV r then throw (.trap Trap.register) else return s.getV r
def readK (r : MReg) : M VBits := do
  let s ← get
  if s.badK r then throw (.trap Trap.register) else return s.getK r
def readT (t : Tile) : M TileBits := do
  let s ← get
  if s.badT t then memoryError 3 0 else return s.getAcc t

def writeS (r : SReg) (x : Word) : M Unit := modify fun s => s.setS r x
def writeV (r : VReg) (x : VBits) : M Unit := modify fun s => s.setV r x
def writeK (r : MReg) (x : VBits) : M Unit := modify fun s => s.setK r x
def writeT (t : Tile) (x : TileBits) : M Unit := modify fun s => s.setAcc t x
/-- A write of part of a register or tile, of which `bad` says that it is in uncorrectable error: whether the rest still is, the manual does
not say, and a free bit answers (log 18). -/
def writePart (bad : State → Bool) (mark : Ecc → Ecc) (f : State → State) : M Unit := do
  let was := bad (← get)
  modify f
  if was then
    if ← freshBit then modify fun s => s.withHart fun h => { h with ecc := mark h.ecc }
/-- A write of part of a tile (log 18). -/
def changeT (t : Tile) (f : TileBits → TileBits) : M Unit :=
  writePart (fun s => s.badT t) (fun e => { e with t := e.t ||| 1#8 <<< t.val }) fun s => s.setAcc t (f (s.getAcc t))
/-- The instruction completes: the PC moves on. -/
def retire : M Unit := modify State.advance

/-- Run an action and answer the trap that ends it, if one does; what it did stays done. -/
def attempt {α : Type} (m : M α) : M (Except Trap α) := fun s =>
  match m s with
  | .ok a s' => .ok (.ok a) s'
  | .error (.trap t) s' => .ok (.error t) s'
  | .error e s' => .error e s'

/-- Run an action on each element of a list in turn. -/
def each {α : Type} (f : α → M Unit) : List α → M Unit
  | [] => pure ()
  | x :: xs => do f x; each f xs

/-- Run an action on each element of a list in turn, keeping the answers. -/
def collect {α β : Type} (f : α → M β) : List α → M (List β)
  | [] => pure []
  | x :: xs => do
    let y ← f x
    let ys ← collect f xs
    return y :: ys

/-! ## Shared forms of scalar meanings -/

/-- A scalar instruction that computes sD from sA (07 R160). -/
def scalar1 (f : Word → Word) (d a : SReg) (s : State) : Out1 :=
  if s.badS a then .next (s.takeTrap Trap.register) else .next ((s.setS d (f (s.getS a))).advance)

/-- A scalar instruction that computes sD from sA and sB (07 R160). -/
def scalar2 (f : Word → Word → Word) (d a b : SReg) (s : State) : Out1 :=
  if s.badS a || s.badS b then .next (s.takeTrap Trap.register)
  else .next ((s.setS d (f (s.getS a) (s.getS b))).advance)

end Sys2Proof.Machine
end

