-- ==== Sys2Proof/Machine/Float.lean ====
section
/-! DEFINITION. Number formats, exact values, rounding and its flags, conversions, minimum and maximum, square root and
division, canonical groups (03), all on exact dyadic numbers. -/

namespace Sys2Proof.Machine

/-! ## Flags (03 R61): NV, DZ, OF, UF, NX from bit 4 down -/

abbrev Flags := BitVec 5
def fNone : Flags := 0
def fNV : Flags := 0b10000
def fDZ : Flags := 0b01000
def fOF : Flags := 0b00100
def fUF : Flags := 0b00010
def fNX : Flags := 0b00001
def flagIf (b : Bool) (f : Flags) : Flags := if b then f else 0

/-! ## Formats (03 R52) -/

inductive FpFmt
  | fp64 | fp32 | fp16 | bf16 | e4m3 | e5m2 | e2m1
  deriving DecidableEq, Repr

/-- Width in bits, fraction bits and bias. -/
def FpFmt.bits : FpFmt → Nat
  | .fp64 => 64 | .fp32 => 32 | .fp16 => 16 | .bf16 => 16 | .e4m3 => 8 | .e5m2 => 8 | .e2m1 => 4
def FpFmt.frac : FpFmt → Nat
  | .fp64 => 52 | .fp32 => 23 | .fp16 => 10 | .bf16 => 7 | .e4m3 => 3 | .e5m2 => 2 | .e2m1 => 1
def FpFmt.bias : FpFmt → Int
  | .fp64 => 1023 | .fp32 => 127 | .fp16 => 15 | .bf16 => 127 | .e4m3 => 7 | .e5m2 => 15 | .e2m1 => 1
def FpFmt.ebits (f : FpFmt) : Nat := f.bits - 1 - f.frac
/-- An exponent field of all ones holds infinities and NaNs. -/
def FpFmt.ieee : FpFmt → Bool
  | .e4m3 | .e2m1 => false
  | _ => true
def FpFmt.emin (f : FpFmt) : Int := 1 - f.bias
/-- The exponent of the largest finite value. -/
def FpFmt.emax (f : FpFmt) : Int := (2 ^ f.ebits : Nat) - (if f.ieee then 2 else 1) - f.bias
/-- The significand of the largest finite value, `frac + 1` bits. -/
def FpFmt.maxSig (f : FpFmt) : Nat := if f = .e4m3 then 14 else 2 ^ (f.frac + 1) - 1
def FpFmt.signBit (f : FpFmt) : Nat := 2 ^ (f.bits - 1)
/-- The encoding of the largest finite value. -/
def FpFmt.maxCode (f : FpFmt) : Nat :=
  (f.emax + f.bias).toNat * 2 ^ f.frac + (f.maxSig - 2 ^ f.frac)
/-- The canonical NaN (03 R52); E2M1 has none, and takes +0 (03 R59). -/
def FpFmt.nan : FpFmt → Nat
  | .fp64 => 0x7FF8000000000000 | .fp32 => 0x7FC00000 | .fp16 => 0x7E00 | .bf16 => 0x7FC0 | .e4m3 => 0x7F | .e5m2 => 0x7E
  | .e2m1 => 0
def FpFmt.inf (f : FpFmt) : Nat := (2 ^ f.ebits - 1) * 2 ^ f.frac

/-! ## Exact values -/

/-- An exact value: a NaN, a signed infinity, a signed zero, or (−1)^neg × m × 2^e with m > 0. -/
inductive Num
  | nan (signalling : Bool)
  | inf (neg : Bool)
  | zero (neg : Bool)
  | fin (neg : Bool) (m : Nat) (e : Int)
  deriving DecidableEq, Repr

/-- The value of a sign, a magnitude and an exponent. -/
def Num.ofParts (neg : Bool) (m : Nat) (e : Int) : Num := if m = 0 then .zero neg else .fin neg m e
/-- The value of an integer times a power of two; zero is +0. -/
def Num.ofInt (i : Int) (e : Int) : Num := Num.ofParts (decide (i < 0)) i.natAbs e

/-- The value of an encoding (03 R52, R53). -/
def decodeFp (f : FpFmt) (x : Nat) : Num :=
  let neg := bitAt x (f.bits - 1)
  let e := bitsAt x f.frac f.ebits
  let m := bitsAt x 0 f.frac
  if f.ieee && e == 2 ^ f.ebits - 1 then
    if m = 0 then .inf neg else .nan (!bitAt m (f.frac - 1))
  else if f = .e4m3 && e == 15 && m == 7 then .nan false
  else if e = 0 then Num.ofParts neg m (f.emin - f.frac)
  else .fin neg (2 ^ f.frac + m) ((e : Int) - f.bias - f.frac)

/-- The value of an E8M0 scale (03 R55). -/
def decodeE8m0 (x : Nat) : Num := if x % 256 = 255 then .nan false else .fin false 1 ((x % 256 : Nat) - 127)

def Num.neg : Num → Num
  | .nan q => .nan q
  | .inf s => .inf (!s)
  | .zero s => .zero (!s)
  | .fin s m e => .fin (!s) m e

def Num.isNaN : Num → Bool
  | .nan _ => true
  | _ => false
def Num.isSig : Num → Bool
  | .nan true => true
  | _ => false
def Num.isInf : Num → Bool
  | .inf _ => true
  | _ => false
def Num.sign : Num → Bool
  | .nan _ => false
  | .inf s | .zero s | .fin s _ _ => s

/-- A value times a power of two. -/
def Num.scale (n : Int) : Num → Num
  | .fin s m e => .fin s m (e + n)
  | x => x

/-! ## Rounding (03 R57 to R60) -/

inductive Rounding
  | rne | rtz | rdn | rup | rmm
  | dit (i : Nat)
  deriving DecidableEq, Repr

/-- The 6-bit reversal of the dither table (03 R63). -/
def bitrev6 (i : Nat) : Nat := reverseBits 6 i

/-- Whether a magnitude `lo + r / 2^sh` quanta, 0 ≤ r < 2^sh, rounds up (03 R58, R63). -/
def roundsUp (md : Rounding) (neg : Bool) (lo r sh : Nat) : Bool :=
  match md with
  | .rtz => false
  | .rdn => neg && r != 0
  | .rup => !neg && r != 0
  | .rne => decide (2 ^ sh < 2 * r) || (2 * r == 2 ^ sh && lo % 2 == 1)
  | .rmm => decide (2 ^ sh ≤ 2 * r)
  | .dit i => decide (128 * 2 ^ sh ≤ 128 * r + (2 * bitrev6 i + 1) * 2 ^ sh)

/-- m × 2^e in quanta of 2^qe: the whole quanta after rounding, and whether it was inexact.  A value far below the quantum
is taken as one part in 2^16 of it, which rounds alike in every mode. -/
def toQuanta (md : Rounding) (neg : Bool) (m : Nat) (e qe : Int) : Nat × Bool :=
  if qe ≤ e then (m * 2 ^ (e - qe).toNat, false)
  else
    let sh := (qe - e).toNat
    if Nat.log2 m + 16 < sh then (bit (roundsUp md neg 0 1 16), true)
    else
      let lo := m / 2 ^ sh
      let r := m % 2 ^ sh
      (lo + bit (roundsUp md neg lo r sh), r != 0)

/-- The encoding of a rounding overflow and its flags (03 R59). -/
def overflowCode (f : FpFmt) (md : Rounding) (sat neg : Bool) : Nat :=
  let sg := if neg then f.signBit else 0
  match f with
  | .e4m3 => if sat then sg + f.maxCode else f.nan
  | .e5m2 => if sat then sg + f.maxCode else f.nan
  | .e2m1 => sg + f.maxCode
  | _ =>
    match md with
    | .rne | .rmm => sg + f.inf
    | .rtz | .dit _ => sg + f.maxCode
    | .rdn => if neg then sg + f.inf else f.maxCode
    | .rup => if neg then sg + f.maxCode else f.inf

/-- The encoding of `y` quanta of 2^qe, at most `frac + 1` bits or a carry out of them (03 R52). -/
def encodeQuanta (f : FpFmt) (neg : Bool) (y : Nat) (qe : Int) : Nat :=
  let sg := if neg then f.signBit else 0
  let (y, qe) := if 2 ^ (f.frac + 1) ≤ y then (y / 2, qe + 1) else (y, qe)
  if y < 2 ^ f.frac then sg + y
  else sg + (qe + f.frac + f.bias).toNat * 2 ^ f.frac + (y - 2 ^ f.frac)

/-- The rounded magnitude passes the largest finite value (03 R58). -/
def passesMax (f : FpFmt) (y : Nat) (qe : Int) : Bool :=
  let ly : Int := Nat.log2 y + qe
  let t := f.emax - f.frac
  y != 0 && (decide (f.emax < ly) ||
    (ly == f.emax && decide (f.maxSig < if t ≤ qe then y * 2 ^ (qe - t).toNat else y / 2 ^ (t - qe).toNat)))

/-- `round_to` of 03 R58: the encoding of an exact value in a floating-point format, and the flags. -/
def roundTo (f : FpFmt) (md : Rounding) (sat : Bool) (x : Num) : Nat × Flags :=
  match x with
  | .nan _ => (f.nan, flagIf (f == .e2m1) fNV)
  | .zero neg => (if neg then f.signBit else 0, 0)
  | .inf neg =>
    let sg := if neg then f.signBit else 0
    match f with
    | .e4m3 => (if sat then sg + f.maxCode else f.nan, fNV)
    | .e2m1 => (sg + f.maxCode, fNV)
    | .e5m2 => (sg + f.inf, 0)
    | _ => (sg + f.inf, 0)
  | .fin neg m e =>
    let lg : Int := Nat.log2 m + e
    let qe := max lg f.emin - f.frac
    let (y, nx) := toQuanta md neg m e qe
    if passesMax f y qe then (overflowCode f md sat neg, fOF ||| fNX ||| flagIf (nx && decide (lg < f.emin)) fUF)
    else (encodeQuanta f neg y qe, flagIf nx fNX ||| flagIf (nx && decide (lg < f.emin)) fUF)

/-- `round_int` of 03 R60 to a signed or unsigned width. -/
def roundInt (signed : Bool) (w : Nat) (md : Rounding) (x : Num) : Nat × Flags :=
  let lo : Int := if signed then -(2 ^ (w - 1) : Nat) else 0
  let hi : Int := (2 ^ (if signed then w - 1 else w) : Nat) - 1
  match x with
  | .nan _ => (0, fNV)
  | .zero _ => (0, 0)
  | .inf neg => (wrapTo w (if neg then lo else hi), fNV)
  | .fin neg m e =>
    if 2000 < (Nat.log2 m : Int) + e then (wrapTo w (if neg then lo else hi), fNV)
    else
      let (y, nx) := toQuanta md neg m e 0
      let i : Int := if neg then -(y : Int) else y
      if i < lo then (wrapTo w lo, fNV)
      else if hi < i then (wrapTo w hi, fNV)
      else (wrapTo w i, flagIf nx fNX)

/-- Conversion to E8M0 (03 R55): the mode is ignored. -/
def roundE8m0 (x : Num) : Nat × Flags :=
  match x with
  | .fin _ m e =>
    let lg : Int := Nat.log2 m + e
    let pow2 := m == 2 ^ Nat.log2 m
    if 127 < lg then (254, fOF ||| fNX)
    else if lg < -127 then (0, fUF ||| fNX)
    else ((lg + 127).toNat, flagIf (!pow2) fNX)
  | _ => (255, fNV)

/-! ## Operations -/

/-- NV for the signalling NaNs among the operands (03 R53). -/
def sigFlags (xs : List Num) : Flags := flagIf (xs.any Num.isSig) fNV

/-- The exact sum of two finite values, as an integer over a common exponent. -/
def addFin (n1 : Bool) (m1 : Nat) (e1 : Int) (n2 : Bool) (m2 : Nat) (e2 : Int) : Int × Int :=
  let e := min e1 e2
  let a : Int := m1 * 2 ^ (e1 - e).toNat
  let b : Int := m2 * 2 ^ (e2 - e).toNat
  ((if n1 then -a else a) + (if n2 then -b else b), e)

/-- The exact sum and its invalid flag; an exact zero of opposite values is +0, under RDN −0 (03 R53). -/
def addNum (rdn : Bool) (x y : Num) : Num × Flags :=
  match x, y with
  | .nan a, .nan b => (.nan false, flagIf (a || b) fNV)
  | .nan a, _ => (.nan false, flagIf a fNV)
  | _, .nan b => (.nan false, flagIf b fNV)
  | .inf a, .inf b => if a = b then (.inf a, 0) else (.nan false, fNV)
  | .inf a, _ => (.inf a, 0)
  | _, .inf b => (.inf b, 0)
  | .zero a, .zero b => (.zero (if a = b then a else rdn), 0)
  | .zero _, y => (y, 0)
  | x, .zero _ => (x, 0)
  | .fin n1 m1 e1, .fin n2 m2 e2 =>
    let (i, e) := addFin n1 m1 e1 n2 m2 e2
    if i = 0 then (.zero rdn, 0) else (Num.ofInt i e, 0)

/-- The exact product and its invalid flag. -/
def mulNum (x y : Num) : Num × Flags :=
  match x, y with
  | .nan a, .nan b => (.nan false, flagIf (a || b) fNV)
  | .nan a, _ => (.nan false, flagIf a fNV)
  | _, .nan b => (.nan false, flagIf b fNV)
  | .inf _, .zero _ => (.nan false, fNV)
  | .zero _, .inf _ => (.nan false, fNV)
  | .inf a, y => (.inf (a ^^ y.sign), 0)
  | x, .inf b => (.inf (x.sign ^^ b), 0)
  | .zero a, y => (.zero (a ^^ y.sign), 0)
  | x, .zero b => (.zero (x.sign ^^ b), 0)
  | .fin n1 m1 e1, .fin n2 m2 e2 => (.fin (n1 ^^ n2) (m1 * m2) (e1 + e2), 0)

/-- The quotient to 128 bits below the dividend's last with a sticky bit below them, which rounds as the exact quotient does. -/
def divFin (m1 : Nat) (e1 : Int) (m2 : Nat) (e2 : Int) : Nat × Int :=
  let n := m1 * 2 ^ 128
  (2 * (n / m2) + bit (n % m2 != 0), e1 - e2 - 129)

def divNum (x y : Num) : Num × Flags :=
  match x, y with
  | .nan a, .nan b => (.nan false, flagIf (a || b) fNV)
  | .nan a, _ => (.nan false, flagIf a fNV)
  | _, .nan b => (.nan false, flagIf b fNV)
  | .inf _, .inf _ => (.nan false, fNV)
  | .zero _, .zero _ => (.nan false, fNV)
  | .inf a, y => (.inf (a ^^ y.sign), 0)
  | x, .inf b => (.zero (x.sign ^^ b), 0)
  | .zero a, y => (.zero (a ^^ y.sign), 0)
  | .fin n _ _, .zero b => (.inf (n ^^ b), fDZ)
  | .fin n1 m1 e1, .fin n2 m2 e2 =>
    let (m, e) := divFin m1 e1 m2 e2
    (.fin (n1 ^^ n2) m e, 0)

/-- The square root with 64 bits below the root and a sticky bit; the root of −0 is −0. -/
def sqrtNum (x : Num) : Num × Flags :=
  match x with
  | .nan a => (.nan false, flagIf a fNV)
  | .zero n => (.zero n, 0)
  | .inf false => (.inf false, 0)
  | .inf true => (.nan false, fNV)
  | .fin true _ _ => (.nan false, fNV)
  | .fin false m e =>
    let (m, e) := if e % 2 = 0 then (m, e) else (2 * m, e - 1)
    let n := m * 2 ^ 128
    let r := isqrt n
    (.fin false (2 * r + bit (r * r != n)) (e / 2 - 65), 0)

/-- The exact x × y + z, with 0 × ∞ invalid whatever z is (07 R167). -/
def fmaNum (rdn : Bool) (x y z : Num) : Num × Flags :=
  let (p, f) := mulNum x y
  let (t, g) := addNum rdn p z
  (t, f ||| g)

/-- Order of two values that are not NaN; zeros are equal. -/
def Num.lt (x y : Num) : Bool :=
  match x, y with
  | .nan _, _ => false
  | _, .nan _ => false
  | .inf a, .inf b => a && !b
  | .inf a, _ => a
  | _, .inf b => !b
  | .zero _, .zero _ => false
  | .zero _, .fin n _ _ => !n
  | .fin n _ _, .zero _ => n
  | .fin n1 m1 e1, .fin n2 m2 e2 => decide ((addFin n1 m1 e1 (!n2) m2 e2).1 < 0)

def Num.eqv (x y : Num) : Bool := !x.isNaN && !y.isNaN && !x.lt y && !y.lt x

/-- minimumNumber, and maximumNumber, of two encodings with −0 below +0 (03 R53). -/
def minMaxCode (f : FpFmt) (isMax : Bool) (a b : Nat) : Nat × Flags :=
  let x := decodeFp f a
  let y := decodeFp f b
  let fl := sigFlags [x, y]
  let less := x.lt y || (x.eqv y && x.sign && !y.sign)
  if x.isNaN && y.isNaN then (f.nan, fl)
  else if x.isNaN then (b, fl)
  else if y.isNaN then (a, fl)
  else (if less == isMax then b else a, fl)

/-- A value rounded to a format, with the flags it already earned. -/
def rounded (f : FpFmt) (md : Rounding) (r : Num × Flags) : Nat × Flags :=
  let (c, g) := roundTo f md true r.1
  (c, r.2 ||| g)

def isRdn (md : Rounding) : Bool := md == .rdn

/-- The arithmetic of one format on encodings (07 R165, 08 R192). -/
def fpAdd (f : FpFmt) (md : Rounding) (a b : Nat) : Nat × Flags :=
  rounded f md (addNum (isRdn md) (decodeFp f a) (decodeFp f b))
def fpSub (f : FpFmt) (md : Rounding) (a b : Nat) : Nat × Flags :=
  rounded f md (addNum (isRdn md) (decodeFp f a) (decodeFp f b).neg)
def fpMul (f : FpFmt) (md : Rounding) (a b : Nat) : Nat × Flags := rounded f md (mulNum (decodeFp f a) (decodeFp f b))
def fpDiv (f : FpFmt) (md : Rounding) (a b : Nat) : Nat × Flags := rounded f md (divNum (decodeFp f a) (decodeFp f b))
def fpSqrt (f : FpFmt) (md : Rounding) (a : Nat) : Nat × Flags := rounded f md (sqrtNum (decodeFp f a))
/-- A multiply-add with the product and the addend negated or not (07 R167). -/
def fpFma (f : FpFmt) (md : Rounding) (np nc : Bool) (a b c : Nat) : Nat × Flags :=
  let x := decodeFp f a
  let z := decodeFp f c
  rounded f md (fmaNum (isRdn md) (if np then x.neg else x) (decodeFp f b) (if nc then z.neg else z))

/-- Sign operations on encodings: of b, of its complement, or the exclusive or (07 R165). -/
def fpSign (f : FpFmt) (sgn : Bool → Bool → Bool) (a b : Nat) : Nat :=
  a % f.signBit + (if sgn (bitAt a (f.bits - 1)) (bitAt b (f.bits - 1)) then f.signBit else 0)

/-- FCLASS (07 R166): the kind in bits 2:0, the encoded sign in bit 3, finite and nonzero in bit 4. -/
def fpClass (f : FpFmt) (a : Nat) : Nat :=
  let sg := if bitAt a (f.bits - 1) then 8 else 0
  match decodeFp f a with
  | .zero _ => sg
  | .fin _ _ _ => sg + 16 + (if bitsAt a f.frac f.ebits = 0 then 1 else 2)
  | .inf _ => sg + 3
  | .nan false => sg + 4
  | .nan true => sg + 5

/-- Equality is quiet; less and less-or-equal are invalid on any NaN where `loud`. -/
def fpCompare (f : FpFmt) (loud : Bool) (rel : Num → Num → Bool) (a b : Nat) : Bool × Flags :=
  let x := decodeFp f a
  let y := decodeFp f b
  if x.isNaN || y.isNaN then (false, if loud then fNV else sigFlags [x, y]) else (rel x y, 0)

def relEq (x y : Num) : Bool := x.eqv y
def relLt (x y : Num) : Bool := x.lt y
def relLe (x y : Num) : Bool := x.lt y || x.eqv y

/-- A conversion between floating-point formats: a signalling NaN sets NV (03 R53). -/
def fpConvert (src dst : FpFmt) (md : Rounding) (sat : Bool) (a : Nat) : Nat × Flags :=
  let x := decodeFp src a
  let (c, g) := roundTo dst md sat x
  (c, sigFlags [x] ||| g)

/-! ## Canonical groups (03 R69 to R71) -/

/-- One level of the pairwise tree. -/
def pairUp {α : Type} (op : α → α → α) : List α → List α
  | x :: y :: r => op x y :: pairUp op r
  | r => r

/-- The balanced tree of 64 values: six levels (03 R70). -/
def groupTree {α : Type} (op : α → α → α) (xs : List α) : List α :=
  pairUp op (pairUp op (pairUp op (pairUp op (pairUp op (pairUp op xs)))))

/-- One step of `group_scan` at distance `k`: position p ≥ k becomes op of positions p − k and p. -/
def scanStep {α : Type} (op : α → α → α) (k : Nat) (xs : List α) : List α :=
  xs.take k ++ List.zipWith op xs (xs.drop k)

/-- The six steps of `group_scan` before the carry (03 R70). -/
def scanTree {α : Type} (op : α → α → α) (xs : List α) : List α :=
  scanStep op 32 (scanStep op 16 (scanStep op 8 (scanStep op 4 (scanStep op 2 (scanStep op 1 xs)))))

end Sys2Proof.Machine
end

