-- ==== Sys2Proof/Machine/Cells.lean ====
section
/-! DEFINITION. Anvil cells: layout, the cell add and the converting read (03 R67, R68; 11 R251, R253). -/

namespace Sys2Proof.Machine

/-- A cell (03 R67). -/
structure Cell where
  acc     : Int
  wrap    : Int
  adds    : Nat
  nan     : Bool
  pinf    : Bool
  ninf    : Bool
  range   : Bool
  inexact : Bool
  sat     : Bool
  deriving DecidableEq, Repr

/-- The cell of 64 bytes. -/
def Cell.ofBytes (bs : List Byte) : Cell :=
  let n := leNat bs
  let st := bitsAt n 496 8
  { acc := signedOf 448 n, wrap := signedOf 16 (bitsAt n 448 16), adds := bitsAt n 464 32, nan := bitAt st 0,
    pinf := bitAt st 1, ninf := bitAt st 2, range := bitAt st 3, inexact := bitAt st 4, sat := bitAt st 5 }

/-- The 64 bytes of a cell. -/
def Cell.bytes (c : Cell) : List Byte :=
  leBytes 64 (wrapTo 448 c.acc + wrapTo 16 c.wrap * 2 ^ 448 + c.adds * 2 ^ 464
    + (bit c.nan + 2 * bit c.pinf + 4 * bit c.ninf + 8 * bit c.range + 16 * bit c.inexact + 32 * bit c.sat) * 2 ^ 496)

/-- The value formats of cell adds. -/
def cellFmtFp : CellFmt → FpFmt
  | .f32 => .fp32 | .bf16 => .bf16 | .f16 => .fp16 | .f64 => .fp64

/-- u = x / 2^E0 rounded to an integer, ties to even, and whether it changed (11 R251). -/
def cellUnits (e0 : Int) (neg : Bool) (m : Nat) (e : Int) : Int × Bool :=
  let (y, nx) := toQuanta .rne neg m e e0
  (if neg then -(y : Int) else y, nx)

/-- The accumulation of a whole number of units (11 R251). -/
def Cell.accumulate (c : Cell) (u : Int) : Cell :=
  let t := c.acc + u
  let half : Int := (2 ^ 447 : Nat)
  let full : Int := (2 ^ 448 : Nat)
  let w : Int := if half ≤ t then 1 else if t < -half then -1 else 0
  let c := { c with acc := t - w * full }
  if c.sat then c
  else if (c.wrap + w).natAbs ≤ 32767 then { c with wrap := c.wrap + w }
  else { c with sat := true }

/-- `cell_add` of 11 R251: `wide` is CELL64, with window base `e0`. -/
def Cell.add (c : Cell) (wide : Bool) (e0 : Int) (x : Num) : Cell :=
  let c := { c with adds := min (c.adds + 1) 0xFFFFFFFF }
  match x with
  | .nan _ => { c with nan := true }
  | .inf false => { c with pinf := true }
  | .inf true => { c with ninf := true }
  | .zero _ => c
  | .fin neg m e =>
    if wide && decide (e0 + 446 ≤ Nat.log2 m + e) then { c with range := true }
    else
      let (u, nx) := cellUnits e0 neg m e
      ({ c with inexact := c.inexact || (wide && nx) }).accumulate u

/-- `cell_read` of 11 R253: the encoding in FP32 or FP64, and OF and NX where it overflows. -/
def Cell.read (c : Cell) (wide : Bool) (e0 : Int) : Nat × Flags :=
  let f := if wide then FpFmt.fp64 else FpFmt.fp32
  if c.nan || (c.pinf && c.ninf) || c.sat || c.range then (f.nan, 0)
  else if c.pinf then (f.inf, 0)
  else if c.ninf then (f.signBit + f.inf, 0)
  else
    let v := c.acc + c.wrap * (2 ^ 448 : Nat)
    let (y, fl) := roundTo f .rne true (Num.ofInt v e0)
    (y, fl &&& fOF ||| (if fl &&& fOF = 0 then 0 else fNX))

/-- The bytes that CWRAW writes: those of the source with bits 7:6 of byte 62 and byte 63 zero (11 R257). -/
def cellRaw (bs : List Byte) : List Byte := leBytes 64 (leNat bs % 2 ^ 502)

/-- The read width of a cell page kind (11 R250). -/
def cellWidth (kind : Nat) : Nat := if kind = 3 then 8 else 4
/-- E0 of a cell page (03 R68). -/
def cellBase (kind : Nat) (e0 : Int) : Int := if kind = 3 then e0 else -149

end Sys2Proof.Machine
end

