-- ==== Sys2Proof/Machine/Physical.lean ====
section
/-! DEFINITION. Writes that their homes have accepted and that have not performed: bytes as a
view sees them (05 R102 to R104), a write that performs, and writes that come to a level of visibility (05 R98). -/

namespace Sys2Proof.Machine

/-- Some 8-byte unit of the bytes is in uncorrectable error (18 R318). -/
def State.badUnits (s : State) (pa n : Nat) : Bool :=
  s.poison.any fun u => decide (pa / 8 ≤ u) && decide (u ≤ (pa + n - 1) / 8)

/-- An uncorrectable error that a reader of the bytes meets is logged, by the address of its unit (18 R320). -/
def State.logBad (s : State) (pa n : Nat) : State :=
  match s.poison.find? fun u => decide (pa / 8 ≤ u) && decide (u ≤ (pa + n - 1) / 8) with
  | some u => s.logMemory (8 * u) .uncorrectable
  | none => s

/-! ## Writes that have not performed (05 R98, R101 to R107) -/

def Level.num : Level → Nat
  | .stream => 0 | .hart => 1 | .core => 2 | .die => 3 | .package => 4 | .domain => 5 | .home => 6
/-- The farther of two levels. -/
def Level.max (a b : Level) : Level := if a.num < b.num then b else a

/-- Bytes that a write covers. -/
def PendingWrite.len (w : PendingWrite) : Nat :=
  match w.op with
  | .store d => d.length
  | .cellAdd .. => 64
def PendingWrite.core (w : PendingWrite) : Nat := w.owner.toNat / 2
def PendingWrite.die (w : PendingWrite) : Nat := w.owner.toNat / 256 % 4
/-- The hart that made the write; a core may have been given to another gang since. -/
def PendingWrite.isOf (w : PendingWrite) (h : Ident) : Bool := w.owner == h.hartid && w.gang == h.gangid
def PendingWrite.overlaps (w : PendingWrite) (pa n : Nat) : Bool := decide (w.pa < pa + n) && decide (pa < w.pa + w.len)
/-- The byte that a store gives an address. -/
def PendingWrite.byteAt (w : PendingWrite) (a : Nat) : Option Byte :=
  match w.op with
  | .store d => if w.pa ≤ a then d[a - w.pa]? else none
  | .cellAdd .. => none

/-- The agents for whose accesses a write may be owed: those of a die, the control processor, other packages, and the host (05 R98). -/
inductive Asker
  | die (d : Nat) | control | peer | host
  deriving DecidableEq, Repr

/-- The write has performed at a scope whose instance holds the agent (05 R98). -/
def PendingWrite.owedTo (w : PendingWrite) : Asker → Bool
  | .die d => w.level == .domain || w.level == .package || (w.level == .die && w.die == d)
  | .control => w.level == .domain || w.level == .package
  | .peer => w.level == .domain
  | .host => false

/-- Whose writes an access sees beside those that have performed and those owed to its die: no others, those that its core sees, those
that its hart's engine transfers see, or those of one stream of its hart as well (05 R98, R102 to R104). -/
inductive View
  | home | core | engine | stream (st : Stream)
  deriving DecidableEq, Repr

/-- The write is seen by a view of a hart. -/
def PendingWrite.seenBy (w : PendingWrite) (h : Ident) (v : View) : Bool :=
  let near := decide (Level.core.num ≤ w.level.num) && w.core == h.coreKey
  w.owedTo (.die h.die) || match v with
    | .home => false
    | .core => near
    | .engine => near || (w.level == .hart && w.isOf h)
    | .stream st => near || (w.level == .hart && w.isOf h) || (w.level == .stream && w.isOf h && w.stream == st)

/-- The writes of a list in the order in which they reach the home where they meet: the farther they have come, the sooner. -/
def commitOrder (ws : List PendingWrite) : List PendingWrite :=
  [Level.domain, .package, .die, .core, .hart, .stream].flatMap fun t => ws.filter fun w => w.level == t

/-- The byte at an address as a view gives it: the latest write's, else memory's. -/
def seenByte (mem : Memory) : List PendingWrite → Nat → Byte
  | [], a => Memory.get mem a
  | w :: ws, a =>
    if ws.any fun x => (x.byteAt a).isSome then seenByte mem ws a else (w.byteAt a).getD (Memory.get mem a)

/-- The writes that a view of the current hart sees, in order. -/
def State.seen (s : State) (v : View) : List PendingWrite := commitOrder (s.writes.filter fun w => w.seenBy s.hart.ident v)
/-- The byte at a physical address in a view of the current hart. -/
def State.byte (s : State) (v : View) (a : Nat) : Byte := seenByte s.mem (s.seen v) a
/-- The `n` bytes at a physical address in a view of the current hart. -/
def State.bytes (s : State) (v : View) (pa : Nat) : Nat → List Byte
  | 0 => []
  | n + 1 => s.byte v pa :: s.bytes v (pa + 1) n

/-! ## Writes that perform (04 R82, R85; 05 R102) -/

/-- The units that a write of `n` bytes covers whole lose their error (18 R318). -/
def clearUnits (poison : List Nat) (pa n : Nat) : List Nat :=
  poison.filter fun u => !(decide (pa ≤ 8 * u) && decide (8 * u + 8 ≤ pa + n))

/-- Mark a line modified, in its slice or in a cache. -/
def markDirty (d : List DirtyLine) (line : Nat) (holder : Option Holder) : List DirtyLine :=
  { line := line, holder := holder } :: d.filter fun x => x.line ≠ line

/-- Put an element first in a list that is kept by use. -/
def touch {α : Type} [BEq α] (x : α) (l : List α) : List α := x :: l.filter fun y => !(y == x)

/-- Keep at most `n` of the elements that a condition picks, the first ones. -/
def keepFirst {α : Type} (p : α → Bool) : Nat → List α → List α
  | _, [] => []
  | n, x :: xs => if p x then (match n with
      | 0 => keepFirst p 0 xs
      | n + 1 => x :: keepFirst p n xs)
    else x :: keepFirst p n xs

/-- Put an element first in a list that is kept by use, or with the stream hint last (09 R212). -/
def placeBy {α : Type} [BEq α] (hint : VHint) (x : α) (l : List α) : List α :=
  if hint = .stream then (l.filter fun y => !(y == x)) ++ [x] else touch x l

/-- The only copy of a line in a scalar L1, a window or another package is the holder's, if there is one. -/
def soleCopy (line : Nat) (holder : Option Holder) (l : List (Holder × Nat)) : List (Holder × Nat) :=
  let rest := l.filter fun x => x.2 ≠ line
  match holder with
  | some h => (h, line) :: rest
  | none => rest

/-- A write performs at its home: memory takes the bytes and every other copy of the line goes, but that of the lookahead area of
the core `keep`, which is updated in place (04 R85). -/
def State.perform (s : State) (keep : Option Nat) (holder : Option Holder) (pa : Nat) (bs : List Byte) : State :=
  { s with mem := Memory.writeBytes s.mem pa bs
           poison := clearUnits s.poison pa bs.length
           dirty := markDirty s.dirty (paLine pa) holder
           copies := soleCopy (paLine pa) holder s.copies
           slices := touch (paLine pa) s.slices
           leadL1 := s.leadL1.filter fun x => x.2 ≠ paLine pa
           lookahead := s.lookahead.filter fun x => x.2 ≠ paLine pa || some x.1 = keep }

/-- Lines of a home slice: 6 MiB (04 R90), of which the keep hint retains up to a quarter (09 R212). -/
def sliceLines : Nat := 49152
/-- The home slice that a line goes to, in its die and package. -/
def lineSlice (line : Nat) : Nat × Nat := (line * Config.lineBytes / 2 ^ 42, homeSlice (line * Config.lineBytes))

/-- The home slice holds a line, placed by a hint (04 R90, 09 R212). -/
def State.atSlice (s : State) (hint : VHint) (line : Nat) : State :=
  { s with slices := placeBy hint line s.slices
           retained := if hint = .keep then keepFirst (fun l => lineSlice l == lineSlice line) (sliceLines / 4) (touch line s.retained)
             else s.retained }

/-- The line that a write has gone to is placed by its hint, in the cache that took it and in its slice (09 R212). -/
def State.placed (s : State) (hint : VHint) (holder : Option Holder) (keep : Option Nat) (line : Nat) : State :=
  let s := s.atSlice hint line
  { s with copies := match holder with
             | some h => if s.copies.contains (h, line) then placeBy hint (h, line) s.copies else s.copies
             | none => s.copies
           lookahead := match keep with
             | some c => if s.lookahead.contains (c, line) then placeBy hint (c, line) s.lookahead else s.lookahead
             | none => s.lookahead }

/-- The 64 bytes of a cell after an add (11 R255). -/
def cellAdded (bs : List Byte) (f : CellFmt) (wide : Bool) (e0 : Int) (x : Nat) : List Byte :=
  ((Cell.ofBytes bs).add wide (if wide then e0 else -149) (decodeFp (cellFmtFp f) x)).bytes

/-- An outstanding write performs.  A cell add clears no error of its cell (11 R259). -/
def State.performWrite (s : State) (w : PendingWrite) : State :=
  match w.op with
  | .store d =>
    let keep := if w.stream = .vector then some w.core else none
    (s.perform keep w.holder w.pa d).placed w.hint w.holder keep (paLine w.pa)
  | .cellAdd f wide e0 x =>
    { s.perform none none w.pa (cellAdded (Memory.readBytes s.mem w.pa 64) f wide e0 x) with poison := s.poison }

/-- Outstanding writes perform in turn. -/
def State.performAll (s : State) (ws : List PendingWrite) : State := ws.foldl State.performWrite s

/-! ## Writes that come to a level (05 R101, R104, R107) -/

def PendingWrite.isAdd (w : PendingWrite) : Bool :=
  match w.op with
  | .store _ => false
  | .cellAdd .. => true
/-- Cell adds of one strip are made in any order, to one cell too: the adds of one VCADD are unordered (05 R119), and the model does not
tell those of the instructions of a strip apart (log 37). -/
def PendingWrite.merges (x y : PendingWrite) : Bool := x.isAdd && y.isAdd && x.owner == y.owner && x.gang == y.gang && x.strip == y.strip

/-- The two streams and the engines of the hart of a write, and its gang, as an identity. -/
def PendingWrite.ident (w : PendingWrite) : Ident := { hartid := w.owner, gangid := w.gang, gangsize := 0, hartidx := 0 }

/-- The level that `x` must reach before `y` comes to level `t`: the same where `x` is seen before `y` and overlaps it, and the core
where `y` is a vector write that leaves its stream and `x` is one of an earlier strip. -/
def PendingWrite.due (x y : PendingWrite) (t : Level) : Level :=
  if t.num ≤ y.level.num then .stream
  else if x.seenBy y.ident (.stream y.stream) && x.overlaps y.pa y.len && !x.merges y then t
  else if y.level == .stream && x.isOf y.ident && x.stream == .vector && y.stream == .vector && decide (x.strip < y.strip) then .core
  else .stream

/-- The level to which each write of a list in commit order comes, where those that `f` picks come to `t`. -/
def raiseTargets (f : PendingWrite → Bool) (t : Level) : List PendingWrite → List (PendingWrite × Level)
  | [] => []
  | x :: xs =>
    let r := raiseTargets f t xs
    (x, r.foldl (fun u y => u.max (x.due y.1 y.2)) (x.level.max (if f x && x.early == 0 then t else .stream))) :: r

/-- The writes of a core that `f` picks come to a level, and with them those that must come before them; nothing changes where all have
come so far. -/
def State.raiseOn (s : State) (core : Nat) (f : PendingWrite → Bool) (t : Level) : State :=
  let here (w : PendingWrite) : Bool := w.core == core
  let ts := raiseTargets f t (commitOrder (s.writes.filter here))
  let moves (x : PendingWrite × Level) : Bool := decide (x.1.level.num < x.2.num)
  let stay := (ts.filter fun x => !moves x).map Prod.fst
  let moved := (ts.filter fun x => moves x && x.2 != Level.home).map fun x => { x.1 with level := x.2 }
  if ts.any moves then
    ({ s with writes := (s.writes.filter fun w => !here w) ++ stay ++ moved }).performAll
      ((ts.filter fun x => moves x && x.2 == Level.home).map Prod.fst)
  else s

/-- Writes of the current hart's core that `f` picks come to a level. -/
def State.raise (s : State) (f : PendingWrite → Bool) (t : Level) : State := s.raiseOn s.hart.ident.coreKey f t
def raiseM (f : PendingWrite → Bool) (t : Level) : M Unit := modify fun s => s.raise f t

/-- The current hart's writes. -/
def State.mine (s : State) (w : PendingWrite) : Bool := w.isOf s.hart.ident

/-- Every outstanding write of the current hart that a condition picks performs. -/
def State.drain (s : State) (f : PendingWrite → Bool) : State := s.raise (fun w => s.mine w && f w) .home

/-- Every earlier write of the hart performs (05 R112). -/
def drainAll : M Unit := modify fun s => s.drain fun _ => true
/-- Every earlier write of a stream performs (05 R106). -/
def drainStream (st : Stream) : M Unit := modify fun s => s.drain fun w => w.stream == st
/-- Writes that a condition picks, of any core, come to a level. -/
def State.raiseAll (s : State) (f : PendingWrite → Bool) (t : Level) : State :=
  (distinct ((s.writes.filter f).map PendingWrite.core)).foldl (fun s c => s.raiseOn c f t) s
/-- Before an agent reads or writes bytes, the writes to them that are owed to it perform (05 R98, R102). -/
def State.asked (s : State) (a : Asker) (pa n : Nat) : State := s.raiseAll (fun w => w.owedTo a && w.overlaps pa n) .home
/-- The same for the current hart and its engines. -/
def State.askedHere (s : State) (pa n : Nat) : State := s.asked (.die s.hart.ident.die) pa n
def askHome (pa n : Nat) : M Unit := modify fun s => s.askedHere pa n

/-- A write is one that a view of the current hart sees over some bytes. -/
def State.meets (s : State) (v : View) (pa n : Nat) (w : PendingWrite) : Bool := w.seenBy s.hart.ident v && w.overlaps pa n
/-- The writes of a view that overlap the bytes have performed. -/
def State.afterWrites (s : State) (v : View) (pa n : Nat) : State :=
  let s := s.askedHere pa n
  s.raise (s.meets v pa n) .home
/-- The cell adds of a view that overlap the bytes, and the writes owed to its die, have performed. -/
def State.afterAdds (s : State) (v : View) (pa n : Nat) : State :=
  let s := s.askedHere pa n
  s.raise (fun w => w.isAdd && s.meets v pa n w) .home
/-- A write of a view that overlaps the bytes waits in the store buffer. -/
def State.heldOver (s : State) (v : View) (pa n : Nat) : Bool := s.writes.any fun w => s.meets v pa n w && w.early != 0

/-- A store that a condition picks waits in the store buffer of a hart that still runs. -/
def State.heldStore (s : State) (f : PendingWrite → Bool) : Bool :=
  s.writes.any fun w => w.early != 0 && f w && s.harts.any fun h => w.isOf h.ident && h.resident

/-- The writes of a view that overlap the bytes perform, so that what follows at the home comes after them (05 R101); one in the store
buffer is waited for (18 R311). -/
def settle (v : View) (pa n : Nat) : M Unit := do
  if (← get).heldOver v pa n then waitOn .vector
  modify fun s => s.afterWrites v pa n
/-- The cell adds of a view that overlap the bytes perform before the bytes are read (05 R104, 11 R250). -/
def settleAdds (v : View) (pa n : Nat) : M Unit := modify fun s => s.afterAdds v pa n
/-- The vector writes of strips that the hart has closed are seen by its core (05 R107). -/
def State.afterStrips (s : State) : State :=
  s.raise (fun w => s.mine w && w.stream == .vector && decide (w.strip < s.hart.strip)) .core
/-- A vector write that performs at its home comes after the vector writes of earlier strips, which the core sees (05 R107). -/
def sealStrips : M Unit := modify State.afterStrips

/-! ## Reads made ahead (05 R103, R104) -/

/-- The reads that a hart has made ahead and may still use; each serves one access. -/
def earlyReads : Nat := 64

/-- Reads made ahead by the streams named are dropped: what follows them is ordered after something that has happened since. -/
def Hart.dropReads (scalar vector : Bool) (h : Hart) : Hart :=
  { h with reads := h.reads.filter fun r => match r.stream with
      | .scalar => !scalar
      | .vector => !vector }
/-- The acquire half of an operation: every later access of the hart performs after it (05 R113). -/
def acquireHere : M Unit := modify fun s => s.withHart (Hart.dropReads true true)

/-- A stream has written bytes, so that it reads no older value of their units (05 R103, R104). -/
def Hart.dropUnits (st : Stream) (pa n : Nat) (h : Hart) : Hart :=
  { h with reads := h.reads.filter fun r => r.stream != st || decide (r.unit * 8 + 8 ≤ pa) || decide (pa + n ≤ r.unit * 8) }
def dropUnits (st : Stream) (pa n : Nat) : M Unit := modify fun s => s.withHart (Hart.dropUnits st pa n)

/-- The reads made ahead that may serve an access: of its stream and unit, and made after the reads that its address comes from. -/
def Hart.early (h : Hart) (st : Stream) (pa : Nat) : List EarlyRead :=
  if h.det && st == .vector then [] else h.reads.filter fun r => r.stream == st && r.unit == pa / 8 && decide (h.since ≤ r.at_)

/-- What a read of `n` bytes returns: the value that it finds now, or one that its stream has read ahead, by a free choice; older ones then
serve no more. -/
def readValue (st : Stream) (pa n now : Nat) : M Nat := do
  let s ← get
  let used (x : Option EarlyRead) : M Unit := modify fun s => s.withHart fun h =>
    { h with reads := h.reads.filter fun r => r.stream != st || r.unit != pa / 8 || (match x with
        | some y => decide (y.at_ < r.at_)
        | none => false) }
  match s.hart.early st pa with
  | [] =>
    if s.hart.reads ≠ [] then used none
    return now
  | rs =>
    let i := (← freshNat) % (rs.length + 1)
    used rs[i]?
    return match rs[i]? with
      | some r => bitsAt r.value (8 * (pa % 8)) (8 * n)
      | none => now

/-! ## Scopes, fences and releases -/

/-- The level of a scope (05 R98).  Agents beyond the core see a write at one moment (05 R102): a write that has performed at the scope of the
die, the package or the domain performs at its home before an agent of the instance can meet it. -/
def scopeLevel : Scope → Level
  | .hart => .hart
  | .pair => .core
  | .die => .die
  | .package => .package
  | .domain => .domain
  | .system => .home

/-- Writes that the current hart may have read, of its core or owed to its die (05 R112). -/
def State.mayHaveRead (s : State) (w : PendingWrite) : Bool := w.seenBy s.hart.ident .core

/-- Every earlier write of the hart performs at a scope, and at a scope beyond the core, by cumulativity, those that it may have read
(05 R112). -/
def State.released (s : State) (sc : Scope) : State :=
  if (scopeLevel sc).num ≤ Level.core.num then s.raise s.mine (scopeLevel sc)
  else s.raiseAll (fun w => s.mine w || s.mayHaveRead w) (scopeLevel sc)
def releaseAt (sc : Scope) : M Unit := modify fun s => s.released sc

/-- A write waits for a fence of the current hart, before its accesses of a kind, to come to a level. -/
def State.awaitsFence (s : State) (kind : Fence → Bool) (t : Level) (w : PendingWrite) : Bool :=
  w.fences.any fun f => f.owner == s.hart.ident.hartid && f.gang == s.hart.ident.gangid && kind f && f.reach == t
/-- What FENCEs ask before an access of a kind is done (05 R106). -/
def State.afterFences (s : State) (kind : Fence → Bool) : State :=
  [Level.hart, .core, .die, .package, .domain, .home].foldl (fun s t => s.raiseAll (s.awaitsFence kind t) t) s
def obeyFences (kind : Fence → Bool) : M Unit := modify fun s => s.afterFences kind
def obeyScalar : M Unit := obeyFences Fence.scalar
def obeyVector : M Unit := obeyFences Fence.vector
def obeyEngine : M Unit := obeyFences Fence.engine

end Sys2Proof.Machine
end

