-- ==== Sys2Proof/Machine/Caches.lean ====
section
/-! DEFINITION. The caches that hold data lines: the error log and the stop of a partition (18 R319, R320), write-back and recall of
modified copies (04 R82, R83, R87, R90), and the copies that scalar L1s, stash windows and lookahead areas take (04 R83 to R88). -/

namespace Sys2Proof.Machine

/-! ## The error log and the stop of a partition -/

def logError (pa : Nat) (k : LogKind) : M Unit := modify fun s => s.logMemory pa k

/-- A gang of a stopped partition ends with status 0x0A (20 R351). -/
def endPart (p : Nat) (gs : List Gang) : List Gang :=
  gs.map fun g => if g.launch.part = p && g.ending.isNone then { g with ending := some 0x0A } else g

/-- A hart of a partition stops with no trap and no save. -/
def Hart.stopPart (p : Nat) (h : Hart) : Hart := if h.priv.partid.toNat = p then h.stopNoSave h.ident.gangid else h

/-- A partition stops: its harts stop at once, its gangs end, and its memory answers no more (18 R319). -/
def State.stopPartition (s : State) (p : Nat) : State :=
  let s := s.mapHarts (Hart.stopPart p)
  { s with control := { s.control with gangs := endPart p s.control.gangs }
           dies := s.dies.map fun d => if d.part.val = p then { d with closed := true } else d }

/-- An uncorrectable error met while a modified line is written back (18 R319). -/
def lostLine (line : Nat) : M Unit := do
  let pa := line * Config.lineBytes
  logError pa .uncorrectable
  let s ← get
  if paPkg pa = s.pkg.val then set (s.stopPartition (dieAt s (paDie pa)).part.val)

/-- A line in memory is in uncorrectable error. -/
def State.badLine (s : State) (line : Nat) : Bool := s.badUnits (line * Config.lineBytes) Config.lineBytes

/-! ## Write-back and recall (04 R82, R87, R90) -/

/-- A unit of a virtual line of the hart's windows is in uncorrectable error. -/
def Hart.badWindowLine (h : Hart) (vline : Nat) : Bool := h.ecc.w.any fun u => u / 16 == vline

/-- A window line that a cache holds is in uncorrectable error. -/
def State.badCopy (s : State) : Holder → Bool
  | .window id _ vline => s.harts.any fun h => h.ident.hartid.toNat == id && h.badWindowLine vline
  | .scalarL1 _ | .remote _ => false

/-- The cache that owns a line. -/
def State.owner (s : State) (line : Nat) : Option Holder := (s.dirty.find? fun x => x.line == line).bind DirtyLine.holder
/-- The modified copy that a cache owns is in uncorrectable error. -/
def State.badHeld (s : State) (line : Nat) : Bool := ((s.owner line).map s.badCopy).getD false

/-- A modified copy in a cache goes to the home slice, which then holds it modified; the cache keeps it. -/
def toHome (line : Nat) : M Unit := do
  let s ← get
  if s.badLine line || s.badHeld line then lostLine line
  else modify fun s => { s with dirty := markDirty s.dirty line none, slices := touch line s.slices }

/-- A modified line goes to HBM. -/
def toHbm (line : Nat) : M Unit := do
  let s ← get
  if s.badLine line || s.badHeld line then lostLine line
  else modify fun s => { s with dirty := s.dirty.filter fun x => x.line ≠ line }

/-- Before a read at the home, a modified copy that another cache holds is recalled (04 R82). -/
def recallLine (mine : Option Holder) (line : Nat) : M Unit := do
  match (← get).owner line with
  | none => pure ()
  | some h => if mine ≠ some h then toHome line

/-- An action of the trail in which the hart may be stopped with its partition: then the instruction goes no further (18 R319). -/
def untilStopped {α : Type} (m : M α) : M α := do
  let before := (← get).hart.resident
  let a ← m
  if before && !(← get).hart.resident then throw .ended
  return a

/-! ## Copies (04 R83, R86) -/

/-- The caches hold a copy. -/
def State.holds (s : State) (h : Holder) (line : Nat) : Bool := s.copies.contains (h, line)

/-- A copy leaves a cache, written back if it is modified. -/
def dropCopy (x : Holder × Nat) : M Unit := do
  if (← get).owner x.2 = some x.1 then toHome x.2
  modify fun s => { s with copies := s.copies.filter (· ≠ x) }

/-- Lines of a scalar L1: 64 KiB (04 R83). -/
def scalarL1Lines : Nat := 512

/-- A cache takes a copy through the home slice, placed by a hint (09 R212); a scalar L1 that is full replaces its least recently used
one. -/
def install (hint : VHint) (h : Holder) (line : Nat) : M Unit := do
  modify fun s => { s.atSlice hint line with copies := placeBy hint (h, line) s.copies }
  match ((← get).copies.filter fun x => x.1 == h).drop scalarL1Lines with
  | [] => pure ()
  | xs => match h with
    | .scalarL1 _ => each dropCopy xs
    | _ => pure ()

/-- The home slice holds a line (04 R90). -/
def atSlice (hint : VHint) (line : Nat) : M Unit := modify fun s => s.atSlice hint line

/-! ## Stash windows (04 R86, R88) -/

def Window.holds (w : Window) (va : Word) : Bool :=
  decide (w.base.toNat ≤ va.toNat) && decide (va.toNat < w.base.toNat + w.len)

/-- The window of a hart that an address lies in, as the holder of the address's line. -/
def Hart.windowAt (h : Hart) (va : Word) : Option Holder :=
  ((upTo 8).find? fun i => h.windows[Fin.ofNat 8 i].holds va).map fun i => .window h.ident.hartid.toNat i (va.toNat / 128)

/-- The window that serves an address: one of the hart, or of its partner with the same ASID (04 R88). -/
def State.windowAt (s : State) (va : Word) : Option Holder :=
  (s.hart.windowAt va).or (s.partner.bind fun h => if h.priv.asid == s.hart.priv.asid then h.windowAt va else none)
def State.inWindow (s : State) (va : Word) : Bool := (s.windowAt va).isSome

/-! ## The lookahead area (04 R84, R85) -/

/-- Lines that the lookahead area of a core holds: 512 KiB. -/
def lookaheadLines : Nat := 4096

/-- Put a line of a core at the end of use of the lookahead area, or with the stream hint at the other end (09 R212); the least
recently used line leaves. -/
def addLookahead (hint : VHint) (core line : Nat) (l : List (Nat × Nat)) : List (Nat × Nat) :=
  let rest := l.filter (· ≠ (core, line))
  if hint = .stream then
    let mine := (rest.filter fun x => x.1 = core).take (lookaheadLines - 1)
    rest.filter (fun x => x.1 ≠ core || mine.contains x) ++ [(core, line)]
  else keepFirst (fun x => x.1 == core) lookaheadLines ((core, line) :: rest)

/-- A line that the area holds is used. -/
def State.useLookahead (s : State) (hint : VHint) (line : Nat) : State :=
  let core := s.hart.ident.coreKey
  if s.lookahead.contains (core, line) then { s with lookahead := addLookahead hint core line s.lookahead } else s

end Sys2Proof.Machine
end

