-- ==== Sys2Proof/Machine/Translate.lean ====
section
/-! DEFINITION. Who reaches a physical address (04 R91; 22 R372 to R378; 24 R396), page-table walks, cached
translations, permission and the A and D bits (21). -/

namespace Sys2Proof.Machine

/-- Who makes an access: the table root and ASID it translates with, its partition, its level, the die it starts from (4 is the hub)
and the core whose TLB it uses, and what its walks see of writes that have not performed (21 R361, R364). -/
structure Ctx where
  root : Nat
  asid : BitVec 16
  part : Nat
  sup  : Bool
  die  : Nat
  core : Option Nat
  view : View
  deriving DecidableEq, Repr

/-! ## Routes and replies -/

/-- A port to another package is up (22 R375). -/
def State.portTo (s : State) (p : Nat) : Bool :=
  s.ports.toList.tail.any fun x => x.up && x.far.toNat == p

/-- A die is held in reset: it forwards no traffic (22 R372).  One whose reset has failed counts as held: the model's choice (log 81). -/
def State.inReset (s : State) (d : Nat) : Bool :=
  match (dieAt s d).state with
  | .reset | .failed => true
  | .run | .fenced | .quiesced | .flushed | .selfref | .trained => false

/-- The dies that a request passes on its first and on its fallback route from die to die; 4 is the hub (22 R371, R372). -/
def routes (a b : Nat) : List (List Nat) :=
  match min a b, max a b with
  | 0, 3 => [[1], [2]]
  | 1, 2 => [[0], [3]]
  | 2, 4 => [[0], [1, 3]]
  | 3, 4 => [[1], [0, 2]]
  | _, _ => [[]]

/-- A request finds a route whose dies forward it (22 R372). -/
def State.routed (s : State) (a b : Nat) : Bool := (routes a b).any fun r => r.all fun d => !s.inReset d

/-- Whether an access of a context to memory is answered, or draws an error reply: the address has a home (04 R77), a route leads
there (22 R372), the home die is of the partition (22 R378), is admitted (24 R396) and its partition has not stopped (18 R319), or
the package is reached by a port that is up (22 R375).  `held` says that a copy outside the die serves it (24 R396). -/
def State.reaches (s : State) (c : Ctx) (held : Bool) (pa : Nat) : Bool :=
  paPopulated pa &&
    if paPkg pa == s.pkg.val then
      let d := dieAt s (paDie pa)
      d.part.val == c.part && !d.closed
        && ((d.state == .run && s.routed c.die (paDie pa)) || ((d.state == .run || d.state == .fenced || d.state == .quiesced) && held))
    else held || (s.members.any (fun m => m.val == paPkg pa) && s.portTo (paPkg pa) && s.routed c.die 4)

/-- The port that carries a line to another package: the only one to it, or one of two by PA[7] (22 R375). -/
def State.portFor (s : State) (pa : Nat) : Option (Fin 9) :=
  let xs := ((upTo 8).map fun i => Fin.ofNat 9 (i + 1)).filter fun (x : Fin 9) => s.ports[x].up && s.ports[x].far.toNat == paPkg pa
  xs[(bitsAt pa 7 1) % xs.length]?

/-- The outside has raised the loss of the port that carries a line: requests may be outstanding on it when it goes down. -/
def State.portFailing (s : State) (pa : Nat) : Bool :=
  paPkg pa != s.pkg.val && s.inputs.any fun i => match i with
    | .portDown x _ => x != 0 && s.portFor pa == some x
    | _ => false

/-- A write on its way to its home.  One that is outstanding on a port that goes down draws an error reply, and has performed or has
not (22 R375). -/
def outstandingAs (t : Trap) (pa : Nat) (w : State → State) : M Unit := do
  if (← get).portFailing pa then
    if ← freshBit then
      if ← freshBit then modify w
      throw (.trap t)
def outstanding (pa : Nat) (va : Word) (w : State → State) : M Unit := outstandingAs (Trap.of .busError va) pa w

/-- Record an error reply for a die of this package (24 R395). -/
def State.noteReply (s : State) (pa : Nat) : State :=
  if paPopulated pa && paPkg pa == s.pkg.val then s.noteStray (paDie pa) pa else s

/-! ## Page table entries (21 R359) -/

def pteV (e : Word) : Bool := e.getLsbD 0
def pteLeaf (e : Word) : Bool := e.getLsbD 1
def pteKind (e : Word) : Nat := bitsAt e.toNat 2 2
def pteR (e : Word) : Bool := e.getLsbD 4
def pteW (e : Word) : Bool := e.getLsbD 5
def pteX (e : Word) : Bool := e.getLsbD 6
def pteU (e : Word) : Bool := e.getLsbD 7
def pteRaw (e : Word) : Bool := e.getLsbD 8
def pteG (e : Word) : Bool := e.getLsbD 9
def pteA (e : Word) : Bool := e.getLsbD 10
def pteD (e : Word) : Bool := e.getLsbD 11
/-- PA[51:16] of an entry, as a byte address. -/
def ptePa (e : Word) : Nat := bitsAt e.toNat 16 36 * 65536
def pteE0 (e : Word) : Int := signedOf 11 (bitsAt e.toNat 52 11)

def kindData : Nat := 0
def kindDev : Nat := 1
def kindCell32 : Nat := 2
def kindCell64 : Nat := 3

/-- A malformed entry of a level (21 R360). -/
def pteMalformed (lvl : Nat) (e : Word) : Bool :=
  let n := e.toNat
  bitAt n 63 || bitsAt n 12 4 != 0
    || (pteLeaf e && lvl == 1) || (!pteLeaf e && lvl == 3)
    || (!pteLeaf e && (bitsAt n 52 11 != 0 || bitsAt n 2 10 != 0))
    || (pteLeaf e && lvl == 2 && bitsAt n 16 13 != 0)
    || (pteLeaf e && pteW e && !pteR e)
    || (pteLeaf e && bitsAt n 52 11 != 0 && pteKind e != kindCell64)
    || (pteLeaf e && pteRaw e && (pteKind e == kindData || pteKind e == kindDev))
    || (pteLeaf e && pteX e && pteKind e != kindData)

/-- A canonical address (04 R75). -/
def canonical (va : Word) : Bool :=
  let t := bitsAt va.toNat 54 10
  t == 0 || t == 1023

/-- A leaf found by a walk: its value, its address, whether it is a 512 MiB block (21 R358). -/
structure Leaf where
  pte : Word
  at_ : Nat
  big : Bool
  deriving DecidableEq, Repr

/-- The physical address a leaf gives a virtual address (21 R361). -/
def Leaf.target (l : Leaf) (va : Word) : Nat :=
  ptePa l.pte + (if l.big then bitsAt va.toNat 0 29 else bitsAt va.toNat 0 16)

/-! ## Walks (21 R361) -/

/-- A failure of a walk read: WALK is set and TVAL is the physical address of the entry. -/
def walkTrap (x : Cause) (pa : Nat) : Trap := { Trap.of x (BitVec.ofNat 64 pa) with walk := true, pa := some pa }

/-- One walk read as the home gives it after the writes that the access it serves must see (21 R361): a failure is Bus Error or Memory
Error. -/
def State.walkRead (s : State) (c : Ctx) (pa : Nat) : Except Trap Word :=
  if !s.reaches c false pa then .error (walkTrap .busError pa)
  else if s.badUnits pa 8 then .error (walkTrap .memoryError pa)
  else .ok (BitVec.ofNat 64 (leNat (s.bytes c.view pa 8)))

/-- The address of the entry of level `3 - n` in a table. -/
def entryAddr (table n : Nat) (va : Word) : Nat := table + 8 * bitsAt va.toNat (16 + 13 * n) 13

/-- The walk of 21 R361 from a table of a level, through the tables in memory; `n` levels are left. -/
def State.walkFrom (s : State) (c : Ctx) (va : Word) : Nat → Nat → Except Trap Leaf
  | 0, _ => .error (Trap.of .notPresent va)
  | n + 1, table =>
    let lvl := 3 - n
    let at_ := entryAddr table n va
    match s.walkRead c at_ with
    | .error t => .error t
    | .ok e =>
      if !pteV e || pteMalformed lvl e then .error (Trap.of .notPresent va)
      else if pteLeaf e then .ok { pte := e, at_ := at_, big := lvl == 2 }
      else s.walkFrom c va n (ptePa e)

/-- The walk of a canonical address (21 R361). -/
def State.walk (s : State) (c : Ctx) (va : Word) : Except Trap Leaf := s.walkFrom c va 3 c.root

/-! ## Cached translations (21 R366) -/

def TlbEntry.leaf (e : TlbEntry) : Leaf := { pte := e.pte, at_ := e.at_, big := e.lvl == 2 }
/-- The bytes that an entry of a level spans. -/
def levelSpan (lvl : Nat) : Nat := if lvl = 1 then 2 ^ 42 else if lvl = 2 then 2 ^ 29 else 65536

/-- The cached entry may serve the address: it is in the die's cache or in the core's TLB. -/
def TlbEntry.serves (e : TlbEntry) (c : Ctx) (va : Word) : Bool :=
  (match e.core with
    | none => e.die == c.die
    | some k => c.core == some k)
    && (e.asid == c.asid || (pteLeaf e.pte && pteG e.pte)) && va.toNat / levelSpan e.lvl == e.base / levelSpan e.lvl

/-- Cached leaves for the address. -/
def State.cached (s : State) (c : Ctx) (va : Word) : List Leaf :=
  (s.tlb.filter fun e => pteLeaf e.pte && e.serves c va).map TlbEntry.leaf
/-- Cached table entries of a level for the address. -/
def State.cachedTables (s : State) (c : Ctx) (lvl : Nat) (va : Word) : List Word :=
  (s.tlb.filter fun e => !pteLeaf e.pte && e.lvl == lvl && e.serves c va).map TlbEntry.pte

/-- Entries of a pair TLB and of a die's translation cache (21 R367). -/
def tlbEntries : Nat := 1024
def dieCacheEntries : Nat := 16384

/-- Cache an entry that a walk found in the TLB of the core, or, without one, in the cache of the die. -/
def State.cacheIn (s : State) (core : Option Nat) (c : Ctx) (va : Word) (lvl at_ : Nat) (e : Word) : State :=
  let x : TlbEntry := { die := c.die, core := core, asid := c.asid, base := va.toNat, lvl := lvl, pte := e, at_ := at_ }
  if s.tlb.any fun y => y.core == core && y.die == c.die && y.serves c va && y.pte == e && y.lvl == lvl && y.at_ == at_ then s
  else { s with tlb := keepFirst (fun y => y.core == core && y.die == c.die) (if core.isSome then tlbEntries else dieCacheEntries) (x :: s.tlb) }

/-- Cache an entry where the manual lets it be: in the die's cache, and a leaf in the pair's TLB too.  The hub caches none. -/
def State.fillEntry (s : State) (c : Ctx) (va : Word) (lvl at_ : Nat) (e : Word) : State :=
  if 4 ≤ c.die then s
  else
    let s := s.cacheIn none c va lvl at_ e
    if c.core.isSome && pteLeaf e then s.cacheIn c.core c va lvl at_ e else s

/-- A walk that no access of the trail needs fills the caches with each entry that it finds (01 R17; 21 R366). -/
def State.fillFrom (s : State) (c : Ctx) (va : Word) : Nat → Nat → State
  | 0, _ => s
  | n + 1, table =>
    let lvl := 3 - n
    let at_ := entryAddr table n va
    match s.walkRead c at_ with
    | .error _ => s
    | .ok e =>
      if !pteV e || pteMalformed lvl e then s
      else
        let s := s.fillEntry c va lvl at_ e
        if pteLeaf e then s else s.fillFrom c va n (ptePa e)
def State.fillWalkOf (s : State) (c : Ctx) (va : Word) : State := if canonical va then s.fillFrom c va 3 c.root else s

/-- One of a value and the cached ones that differ from it, by a free choice. -/
def chooseEntry {α : Type} [DecidableEq α] (x : Option α) (stale : List α) : M (Option α) :=
  match stale.filter fun y => some y ≠ x with
  | [] => pure x
  | ys => do
    let n ← freshNat
    return match ys[n % (ys.length + 1)]? with
      | some y => some y
      | none => x

/-- An error reply to a walk read is counted for its die (24 R395). -/
def noteWalk (t : Trap) : M Unit :=
  if t.cause == .busError then modify fun s => s.noteReply t.tval.toNat else pure ()

/-- Read an entry for a walk, at its home, where the writes to it that the access must see have performed (21 R361); another package may
refuse the read (22 R378). -/
def readEntry (c : Ctx) (pa : Nat) : M Word := do
  let s ← get
  match s.walkRead c pa with
  | .error t =>
    noteWalk t
    throw (.trap t)
  | .ok e =>
    if paPkg pa ≠ s.pkg.val then
      if ← freshBit then throw (.trap (walkTrap .busError pa))
    untilStopped (recallLine none (paLine pa))
    settle c.view pa 8
    return e

/-- Memory's entry of a walk's level, where it is good. -/
def State.goodEntry (s : State) (c : Ctx) (lvl pa : Nat) : Option Word :=
  match s.walkRead c pa with
  | .ok e => if pteV e && !pteMalformed lvl e then some e else none
  | .error _ => none

/-- The entry of a walk's level: a table entry that a cache holds, or what a read of memory gives. -/
def walkEntry (c : Ctx) (va : Word) (lvl pa : Nat) : M Word := do
  let s ← get
  let mem := s.goodEntry c lvl pa
  let x ← chooseEntry mem (s.cachedTables c lvl va)
  let e ← match (if x = mem then none else x) with
    | some e => pure e
    | none => readEntry c pa
  if !pteV e || pteMalformed lvl e then throw (.trap (Trap.of .notPresent va))
  modify fun s => s.fillEntry c va lvl pa e
  return e

/-- A walk of the hardware: through table entries in memory or in the die's cache, filling the caches. -/
def walkThrough (c : Ctx) (va : Word) : Nat → Nat → M Leaf
  | 0, _ => throw (.trap (Trap.of .notPresent va))
  | n + 1, table => do
    let lvl := 3 - n
    let at_ := entryAddr table n va
    let e ← walkEntry c va lvl at_
    if pteLeaf e then return { pte := e, at_ := at_, big := lvl == 2 } else walkThrough c va n (ptePa e)

/-- The leaf that translates an address: one that a cache holds or what a walk finds, by a free choice where both are there. -/
def findLeaf (c : Ctx) (va : Word) : M Leaf := do
  let s ← get
  match s.cached c va with
  | [] => walkThrough c va 3 c.root
  | ls =>
    let mem := match s.walk c va with
      | .ok l => some l
      | .error _ => none
    match ← chooseEntry mem ls with
    | some l => if ls.contains l then return l else walkThrough c va 3 c.root
    | none => walkThrough c va 3 c.root

/-! ## Permission (21 R362) -/

/-- What an access needs of its leaf; `add` is R on a page that is no cell page, which an FP atomic add needs (07 R171). -/
structure Needs where
  r   : Bool
  w   : Bool
  x   : Bool
  raw : Bool
  add : Bool
  deriving DecidableEq, Repr

def Needs.load : Needs := ⟨true, false, false, false, false⟩
def Needs.store : Needs := ⟨false, true, false, false, false⟩
def Needs.rmw : Needs := ⟨true, true, false, false, false⟩
def Needs.fetch : Needs := ⟨false, false, true, false, false⟩
def Needs.rawStore : Needs := ⟨false, true, false, true, false⟩
def Needs.addRmw : Needs := ⟨false, true, false, false, true⟩

/-- The leaf permits the access (21 R362). -/
def permits (c : Ctx) (n : Needs) (e : Word) : Bool :=
  (!n.r || pteR e) && (!n.w || pteW e) && (!n.x || pteX e) && (!n.raw || pteRaw e) && (!n.add || decide (2 ≤ pteKind e) || pteR e) && (c.sup || pteU e)
    && !(n.x && c.sup && pteU e)

/-! ## A and D (21 R363) -/

/-- The entry in memory is still the one that served the translation: the same PA, KIND, V and LEAF (21 R363). -/
def sameLeaf (a b : Word) : Bool :=
  ptePa a == ptePa b && pteKind a == pteKind b && pteV a == pteV b && pteLeaf a == pteLeaf b

/-- The copy of A, or of D for a write, is 0 (21 R363). -/
def lacksBits (e : Word) (write : Bool) : Bool := !pteA e || (write && !pteD e)

/-- The bits of an entry that an access must set: A where its copy is 0, and D for a write where its copy is 0. -/
def missingBits (e : Word) (write : Bool) : Word := (if pteA e then 0 else 0x400) ||| (if write && !pteD e then 0x800 else 0)

/-- OR bits into the entry at its home and into the cached copies (21 R363). -/
def State.setAccessed (s : State) (l : Leaf) (bits : Word) : State :=
  let e := BitVec.ofNat 64 (Memory.read s.mem l.at_ 8) ||| bits
  let s := s.perform none none l.at_ (leBytes 8 e.toNat)
  { s with tlb := s.tlb.map fun t => if t.at_ = l.at_ && t.pte = l.pte then { t with pte := t.pte ||| bits } else t }

/-- The walker's OR of the missing bits, made at the entry's home; the entry draws an error reply or is in error as a walk read does, and
an OR that is outstanding on a port that goes down has performed or has not (22 R375).  Answers whether the entry still serves. -/
def orBits (c : Ctx) (l : Leaf) (write : Bool) : M Bool := do
  let e ← readEntry c l.at_
  let ok := sameLeaf e l.pte
  if ok then
    outstandingAs (walkTrap .busError l.at_) l.at_ fun s => s.setAccessed l (missingBits l.pte write)
    modify fun s => s.setAccessed l (missingBits l.pte write)
  return ok

/-! ## One translated address -/

/-- Where an access goes: the physical address, the page kind and E0. -/
structure Place where
  pa   : Nat
  kind : Nat
  e0   : Int
  deriving DecidableEq, Repr

def Leaf.place (l : Leaf) (va : Word) : Place := { pa := l.target va, kind := pteKind l.pte, e0 := pteE0 l.pte }

/-- Permission, then the kind check that the access states (21 R362). -/
def checkLeaf (c : Ctx) (n : Needs) (kindOk : Place → Option Cause) (va : Word) (l : Leaf) : M Unit := do
  if !permits c n l.pte then raise .permission va
  match kindOk (l.place va) with
  | some x => raise x va
  | none => pure ()

/-- Set the missing bits of a leaf that an access has passed; where the entry has changed, translate again (21 R363).  The second walk
reads the leaf as its home holds it, so its OR finds it the same. -/
def markUsed (c : Ctx) (n : Needs) (kindOk : Place → Option Cause) (va : Word) (l : Leaf) : M Place := do
  if !lacksBits l.pte n.w then return l.place va
  if ← orBits c l n.w then return l.place va
  let l' ← walkThrough c va 3 c.root
  checkLeaf c n kindOk va l'
  if lacksBits l'.pte n.w then
    let _ ← orBits c l' n.w
  return l'.place va

/-- Translate one access of `size` bytes: alignment, canonical form, presence, permission and kind, in that order (06 R151);
then A and D are set (21 R363). -/
def translate (c : Ctx) (n : Needs) (kindOk : Place → Option Cause) (size : Nat) (va : Word) : M Place := do
  if va.toNat % size ≠ 0 then raise .misaligned va
  if !canonical va then raise .notPresent va
  let l ← findLeaf c va
  checkLeaf c n kindOk va l
  markUsed c n kindOk va l

/-- Translate with no A or D update and no kind of its own (04 R85, 18 R323): a probe that answers nothing where it fails. -/
def State.probe (s : State) (c : Ctx) (n : Needs) (va : Word) : Option Place :=
  if !canonical va then none
  else
    match s.walk c va with
    | .error _ => none
    | .ok l => if permits c n l.pte then some (l.place va) else none

/-- The context of the trail's accesses of a stream, and of its fetches, which see what their core sees (07 R175; 21 R364). -/
def Hart.ctx (h : Hart) (view : View) : Ctx :=
  { root := h.priv.ptroot.toNat * 65536, asid := h.priv.asid, part := h.priv.partid.toNat, sup := h.priv.level,
    die := h.ident.die, core := some h.ident.coreKey, view := view }
/-- The context of the lead and the windows: U level, and performed writes only (21 R364). -/
def Hart.ctxU (h : Hart) : Ctx := { h.ctx .home with sup := false }
/-- The context of the engines: U level, and what they see of the hart's writes (05 R98; 21 R364). -/
def Hart.ctxE (h : Hart) : Ctx := { h.ctx .engine with sup := false }
def scalarCtx : M Ctx := do return (← get).hart.ctx (.stream .scalar)
def vectorCtx : M Ctx := do return (← get).hart.ctx (.stream .vector)
def fetchCtx : M Ctx := do return (← get).hart.ctx .core
def userCtx : M Ctx := do return (← get).hart.ctxU
def engineCtx : M Ctx := do return (← get).hart.ctxE

end Sys2Proof.Machine
end

