-- ==== Sys2Proof/Machine/Access.lean ====
section
/-! DEFINITION. Accesses: error replies and uncorrectable data (18 R317, R318), the hub's apertures (22 R373), the interlock
table (05 R109), the scalar and vector loads and stores, and instruction fetch (07 R175). -/

namespace Sys2Proof.Machine

/-- Under HARTMODE.DET every earlier access has performed before a vector access performs (02 R43). -/
def orderDet : M Unit := do if (← get).hart.det then drainAll

/-! ## Replies -/

/-- The home answers an access to memory, or it draws an error reply: Bus Error (18 R317).  A copy outside the home's die serves it
where `held` says so (24 R396).  Another package's own policy may refuse it, by a free choice (22 R378). -/
def reply (c : Ctx) (held : Bool) (pa : Nat) (va : Word) : M Unit := do
  let s ← get
  if !s.reaches c held pa then
    modify fun s => s.noteReply pa
    raise .busError va
  if paPkg pa != s.pkg.val && !held then
    if ← freshBit then raise .busError va

/-- Memory Error of a unit of memory: LOC 0, TVAL the address (18 R318). -/
def raiseData {α : Type} (pa : Nat) (va : Word) : M α := throw (.trap { Trap.of .memoryError va with pa := some pa })

/-- Bytes in uncorrectable error: Memory Error (18 R318). -/
def wholeData (pa n : Nat) (va : Word) : M Unit := do
  if (← get).badUnits pa n then raiseData pa va

/-- Some unit of the bytes is in uncorrectable error, as a view gives it: one that a write in the view covers whole is not. -/
def State.badSeen (s : State) (v : View) (pa n : Nat) : Bool :=
  s.poison.any fun u => decide (pa / 8 ≤ u) && decide (u ≤ (pa + n - 1) / 8)
    && !(s.seen v).any fun w => !w.isAdd && decide (w.pa ≤ 8 * u) && decide (8 * u + 8 ≤ w.pa + w.len)
/-- Bytes that a view gives in uncorrectable error: Memory Error (18 R318). -/
def wholeSeen (v : View) (pa n : Nat) (va : Word) : M Unit := do
  if (← get).badSeen v pa n then raiseData pa va

/-- A write that covers only part of a unit in error raises Memory Error and writes nothing to it (18 R318). -/
def wholeUnits (pa n : Nat) (va : Word) : M Unit := do
  if (clearUnits (← get).poison pa n).any (fun u => decide (pa / 8 ≤ u) && decide (u ≤ (pa + n - 1) / 8)) then
    raiseData pa va

/-- A write performs at its home. -/
def homeWrite (pa : Nat) (va : Word) (w : State → State) : M Unit := do
  outstanding pa va w
  modify w

/-! ## The hub's apertures (22 R373, R374) -/

/-- PORTSTAT as a read returns it. -/
def Port.value (p : Port) : Word :=
  BitVec.ofNat 64 (p.far.toNat * 2 ^ 32 + p.retry.toNat * 2 ^ 16 + p.lanes.toNat * 2 ^ 8 + bit p.up)

/-- The port whose register lies at a physical address. -/
def portOf (pa : Nat) : Option (Fin 9) :=
  let off := bitsAt pa 0 47
  if off % 256 = 0 && off / 256 < 9 then some (Fin.ofNat 9 (off / 256)) else none

/-- Read PORTSTAT of a port: RETRY is cleared by the read (22 R374). -/
def State.clearRetry (s : State) (p : Fin 9) : State := { s with ports := s.ports.set p { s.ports[p] with retry := 0 } }

/-- A DEV read of an aperture, which lies at the hub (22 R372): the host window gives a free value, a port register its value; the rest
is an error reply.  RETRY is cleared by a read that holds it: the manual does not say what a read of fewer than 4 bytes does, and the model
leaves it (log 72). -/
def hubRead (c : Ctx) (pa n : Nat) (va : Word) : M Nat := do
  let s ← get
  if !s.routed c.die 4 then raise .busError va
  if paRegion pa = 0 then
    if !s.ports[0].up then raise .busError va
    if ← freshBit then raise .busError va
    modify fun s => s.emit (.hostAccess false (bitsAt pa 0 47) n [])
    return (← freshWord).toNat % 2 ^ (8 * n)
  else if paRegion pa = 1 then
    match portOf pa with
    | some p =>
      if 4 ≤ n then set (s.clearRetry p)
      return s.ports[p].value.toNat % 2 ^ (8 * n)
    | none => raise .busError va
  else raise .busError va

/-- A DEV write of an aperture: the host window alone takes writes. -/
def hubWrite (c : Ctx) (pa n x : Nat) (va : Word) : M Unit := do
  let s ← get
  if !s.routed c.die 4 then raise .busError va
  if paRegion pa = 0 then
    if !s.ports[0].up then raise .busError va
    if ← freshBit then raise .busError va
    modify fun s => s.emit (.hostAccess true (bitsAt pa 0 47) n (leBytes n x))
  else raise .busError va

/-! ## The interlock table (05 R109) -/

/-- The smallest line-aligned range of bytes. -/
def lineRange (base : Word) (len : Nat) (write : Bool) : Range :=
  let lo := base.toNat / 128 * 128
  let hi := (base.toNat + len + 127) / 128 * 128
  { base := BitVec.ofNat 64 lo, len := hi - lo, write := write }

def Range.overlaps (r : Range) (base : Word) (len : Nat) : Bool :=
  decide (r.base.toNat < base.toNat + len) && decide (base.toNat < r.base.toNat + r.len)

/-- Two ranges overlap and one of them writes. -/
def Range.conflicts (r : Range) (base : Word) (len : Nat) (write : Bool) : Bool :=
  r.overlaps base len && (r.write || write)

/-- The entries of the current hart's commands in flight. -/
def State.entries (s : State) : List Range := (s.hart.engine.filter fun c => !c.finished).flatMap fun c => c.ranges

/-- A vector access that meets an entry waits for the command (05 R109). -/
def interlock (va : Word) (n : Nat) (write : Bool) : M Unit := do
  if (← get).entries.any fun r => r.conflicts va n write then waitOn .vector

/-! ## Stash windows (04 R86, R88) -/

/-- What a trail vector access to a DATA line goes through: a window line, and whether a copy in the window or, for a load, in the
lookahead area serves it.  A window line is filled under its hart's translation at U level (21 R364); without one the access takes the
path outside. -/
def State.vectorPath (s : State) (c : Ctx) (load : Bool) (va : Word) (p : Place) : Option Holder × Bool :=
  match s.windowAt va with
  | some h =>
    if s.holds h (paLine p.pa) then (some h, true)
    else (if !c.sup || s.probe { c with sup := false } Needs.load va == some p then some h else none, false)
  | none => (none, load && s.lookahead.contains (s.hart.ident.coreKey, paLine p.pa))
def vectorPath (c : Ctx) (load : Bool) (va : Word) (p : Place) : M (Option Holder × Bool) := do return (← get).vectorPath c load va p

/-- A unit of a window line in uncorrectable error. -/
def State.badWindowUnit (s : State) (h : Holder) (va : Word) : Bool :=
  match h with
  | .window id _ _ => s.harts.any fun g => g.ident.hartid.toNat == id && g.ecc.w.contains (va.toNat / 8)
  | .scalarL1 _ | .remote _ => false

/-- Memory Error of a window line: LOC 2, TVAL its address (18 R318). -/
def windowData (h : Option Holder) (pa : Nat) (va : Word) : M Unit := do
  match h with
  | none => pure ()
  | some x => if (← get).badWindowUnit x va then throw (.trap { Trap.of .memoryError (va &&& ~~~127) with loc := 2, pa := some pa })

/-- A write of a whole unit of a window line clears its error. -/
def clearWindowUnit (h : Option Holder) (va : Word) (n : Nat) : M Unit := do
  match h with
  | some (.window id _ _) =>
    if n = 8 then
      modify fun s => s.mapHarts fun g =>
        if g.ident.hartid.toNat = id then { g with ecc := { g.ecc with w := g.ecc.w.filter fun u => u ≠ va.toNat / 8 } } else g
  | _ => pure ()

/-- A line is read through a cache, or at the home: a modified copy elsewhere is recalled, and the cache takes the line. -/
def readLine (hint : VHint) (h : Option Holder) (pa : Nat) : M Unit := do
  untilStopped (recallLine h (paLine pa))
  match h with
  | some h => untilStopped (install hint h (paLine pa))
  | none =>
    atSlice hint (paLine pa)
    modify fun s => s.useLookahead hint (paLine pa)

/-! ## Scalar accesses (07 R168) -/

/-- The kind rule of a load: a cell page gives only the page's read width at a cell base (11 R254). -/
def loadKind (n : Nat) (p : Place) : Option Cause :=
  if p.kind < 2 then none else if n = cellWidth p.kind && p.pa % 64 = 0 then none else some .cellAlignment

/-- The kind rule of a store: none to a cell page (07 R168). -/
def storeKind (p : Place) : Option Cause := if p.kind < 2 then none else some .cellStore

/-- The kind rule of vector accesses and atomics adds: no DEV page (04 R78). -/
def notDev (f : Place → Option Cause) (p : Place) : Option Cause := if p.kind = 1 then some .permission else f p

/-- The bytes of the cell at a place, read at its home after the writes to it that the hart's view shows (11 R253; 05 R103, R104). -/
def rawCell (c : Ctx) (p : Place) (va : Word) : M (List Byte) := do
  reply c false p.pa va
  wholeData p.pa 64 va
  settle c.view p.pa 64
  readLine .normal none p.pa
  return Memory.readBytes (← get).mem p.pa 64
def readCell (c : Ctx) (p : Place) (va : Word) : M Cell := do return Cell.ofBytes (← rawCell c p va)

/-- A converting read (11 R253). -/
def convertCell (c : Ctx) (p : Place) (va : Word) : M (Nat × Flags) := do
  return (← readCell c p va).read (p.kind == 3) (cellBase p.kind p.e0)

/-- The scalar L1 of the hart's core. -/
def State.l1 (s : State) : Holder := .scalarL1 s.hart.ident.coreKey

/-- Read `n` bytes of a DATA line through the scalar L1 (04 R81, R83). -/
def l1Read (c : Ctx) (p : Place) (n : Nat) (va : Word) : M Nat := do
  let s ← get
  reply c (s.holds s.l1 (paLine p.pa)) p.pa va
  wholeSeen c.view p.pa n va
  readLine .normal (some s.l1) p.pa
  settleAdds c.view p.pa n
  readValue .scalar p.pa n (leNat ((← get).bytes c.view p.pa n))

/-- A queued vector instruction makes memory accesses, so that it is confirmed only when it completes (18 R311): majors 0x38 to 0x3A and
0x3E. -/
def unsureWord (w : BitVec 32) : Bool :=
  let op := w.toNat / 67108864
  op == 56 || op == 57 || op == 58 || op == 62
def QueueEntry.unsure (e : QueueEntry) : Bool := unsureWord e.word
/-- The number of queued instructions up to the last unconfirmed one. -/
def Hart.unsure (h : Hart) : Nat := (h.queue.reverse.dropWhile fun e => !e.unsure).length

/-- A DEV access waits until the vector instructions before it are confirmed (18 R311). -/
def devWaits : M Unit := do if (← get).hart.unsure ≠ 0 then waitOn .vector

/-- A scalar load of `n` bytes: the number, and the flags of a converting read (07 R168). -/
def scalarLoad (va : Word) (n : Nat) : M (Nat × Flags) := do
  obeyScalar
  let c ← scalarCtx
  let p ← translate c Needs.load (loadKind n) n va
  if p.kind = 1 then devWaits
  if p.kind = 1 && paAper p.pa then
    return (← hubRead c p.pa n va, 0)
  else if p.kind = 0 then return (← l1Read c p n va, 0)
  else if p.kind = 1 then
    reply c false p.pa va
    wholeSeen c.view p.pa n va
    readLine .normal none p.pa
    askHome p.pa n
    return (leNat ((← get).bytes c.view p.pa n), 0)
  else convertCell c p va

/-- Bytes that an acquire has read at an address from a write that only its own stream sees become seen by both streams, so that no later
access of the hart reads an older value (05 R113, R115). -/
def State.acquired (s : State) (c : Ctx) (va : Word) (n : Nat) : State :=
  match s.probe c Needs.load va with
  | some p => s.raise (fun w => w.level == .stream && s.meets c.view p.pa n w) .hart
  | none => s

/-- An acquire load (07 R169). -/
def acquireLoad (va : Word) (n : Nat) : M (Nat × Flags) := do
  let r ← scalarLoad va n
  let c ← scalarCtx
  modify fun s => s.acquired c va n
  acquireHere
  return r

/-- A write that the current hart makes now.  A scalar store waits in the store buffer while vector instructions before it are queued
(18 R311). -/
def State.writeOf (s : State) (st : Stream) (holder : Option Holder) (hint : VHint) (pa : Nat) (op : WriteOp) : PendingWrite :=
  { owner := s.hart.ident.hartid, gang := s.hart.ident.gangid, stream := st, strip := s.hart.strip, level := .stream,
    early := if st = .scalar then s.hart.unsure else 0, holder := holder, hint := hint, pa := pa, op := op, fences := [] }

/-- A write performs at its home after the writes to its bytes that its stream sees and those that are owed, and a vector write after
those of earlier strips (05 R101, R104, R107). -/
def State.performInTurn (s : State) (w : PendingWrite) : State :=
  let s := if w.stream = .vector then s.afterStrips else s
  (s.afterWrites (.stream w.stream) w.pa w.len).performWrite w

/-- A write performs at its home at once; one to bytes that the store buffer holds waits (18 R311). -/
def performNow (w : PendingWrite) (va : Word) : M Unit := do
  dropUnits w.stream w.pa w.len
  if (← get).heldOver (.stream w.stream) w.pa w.len then waitOn .vector
  homeWrite w.pa va fun s => s.performInTurn w

/-- A write that its home has accepted performs later.  It performs at once where it clears a unit in error (18 R318), and a vector
write does under HARTMODE.DET (02 R43).  The writes to its bytes that are owed to its die perform before it. -/
def accept (w : PendingWrite) : M Unit := do
  dropUnits w.stream w.pa w.len
  let s ← get
  if (s.badUnits w.pa w.len && w.early == 0) || (s.hart.det && w.stream == .vector) then
    modify fun s => s.performInTurn w
  else modify fun s => let s := s.askedHere w.pa w.len; { s with writes := s.writes ++ [w] }

/-- Hand a write of the current hart to its home; another cache's modified copy is recalled (04 R82). -/
def post (st : Stream) (holder : Option Holder) (pa : Nat) (va : Word) (op : WriteOp) : M Unit := do
  untilStopped (recallLine holder (paLine pa))
  let w := (← get).writeOf st holder .normal pa op
  outstanding pa va fun s => if w.early = 0 then s.performInTurn w else s
  accept w

/-- Where a scalar store goes and its checks; the rest is `f` for memory that is not DEV. -/
def storeTo (va : Word) (n x : Nat) (before : M Unit) : M Unit := do
  obeyScalar
  let c ← scalarCtx
  let p ← translate c Needs.store storeKind n va
  if p.kind = 1 then devWaits
  if p.kind = 1 && paAper p.pa then
    before
    hubWrite c p.pa n x va
  else
    let s ← get
    reply c (p.kind == 0 && s.owner (paLine p.pa) == some s.l1) p.pa va
    wholeUnits p.pa n va
    before
    if p.kind = 1 then performNow (s.writeOf .scalar none .normal p.pa (.store (leBytes n x))) va
    else post .scalar (some s.l1) p.pa va (.store (leBytes n x))

/-- A scalar store of the low `n` bytes of a number (07 R168). -/
def scalarStore (va : Word) (n x : Nat) : M Unit := storeTo va n x (pure ())

/-- A release store is made after every earlier access of the hart has performed at its scope (05 R112). -/
def releaseStore (sc : Scope) (va : Word) (n x : Nat) : M Unit := storeTo va n x (releaseAt sc)

/-! ## Vector accesses (09 R207 to R210) -/

/-- A vector load of `n` bytes of a DATA line (04 R81). -/
def dataLoad (hint : VHint) (c : Ctx) (p : Place) (va : Word) (n : Nat) : M Nat := do
  let (h, held) ← vectorPath c true va p
  reply c held p.pa va
  windowData h p.pa va
  wholeSeen c.view p.pa n va
  readLine hint h p.pa
  settleAdds c.view p.pa n
  readValue .vector p.pa n (leNat ((← get).bytes c.view p.pa n))

/-- A vector element load of `n` bytes. -/
def vectorLoad (hint : VHint) (va : Word) (n : Nat) : M (Nat × Flags) := do
  obeyVector
  let c ← vectorCtx
  let p ← translate c Needs.load (notDev (loadKind n)) n va
  interlock va n false
  orderDet
  if p.kind = 0 then return (← dataLoad hint c p va n, 0) else convertCell c p va

/-- The checks of a vector store of the low `n` bytes of a number, and the write that it makes (09 R208, R209). -/
def storeReady (hint : VHint) (va : Word) (n x : Nat) : M PendingWrite := do
  obeyVector
  let c ← vectorCtx
  let p ← translate c Needs.store (notDev storeKind) n va
  interlock va n true
  orderDet
  let (h, _) ← vectorPath c false va p
  let s ← get
  reply c (h.isSome && s.owner (paLine p.pa) == h) p.pa va
  if n ≠ 8 then windowData h p.pa va
  wholeUnits p.pa n va
  untilStopped (recallLine h (paLine p.pa))
  return s.writeOf .vector h hint p.pa (.store (leBytes n x))

/-- A write that has passed its checks is accepted. -/
def storeDone (va : Word) (w : PendingWrite) : M Unit := do
  clearWindowUnit w.holder va w.len
  accept w

/-- A vector element store of the low `n` bytes of a number (09 R209). -/
def vectorStore (hint : VHint) (va : Word) (n x : Nat) : M Unit := do
  let w ← storeReady hint va n x
  outstanding w.pa va fun s => s.performInTurn w
  storeDone va w

/-! ## Instruction fetch (07 R174, R175) -/

/-- Words of the address that the core's instruction cache holds. -/
def State.fetched (s : State) (va : Word) : List (BitVec 32) :=
  (s.icache.filter fun l => l.core == s.hart.ident.coreKey && l.gang == s.hart.ident.gangid && l.asid == s.hart.priv.asid && l.va == va).map FetchLine.word

/-- The word that a fetch returns: memory's, or a cached one that differs from it by a free choice (07 R175). -/
def chooseWord (va : Word) (m : BitVec 32) : M (BitVec 32) := do
  let s ← get
  match (s.fetched va).filter (· ≠ m) with
  | [] => return m
  | ws =>
    let n ← freshNat
    return (ws[n % (ws.length + 1)]?).getD m

/-- Words of an instruction cache: 64 KiB (01 R8). -/
def icacheWords : Nat := 16384

/-- The instruction cache of the core takes a word of an address. -/
def State.cacheWord (s : State) (va : Word) (w : BitVec 32) : State :=
  let core := s.hart.ident.coreKey
  let l : FetchLine := { core := core, gang := s.hart.ident.gangid, asid := s.hart.priv.asid, va := va, word := w }
  { s with icache := keepFirst (fun x => x.core == core) icacheWords (touch l s.icache) }

/-- Fetch the instruction word at the PC.  A failure is raised at the target: TRAPPC and TVAL are the address (07 R174). -/
def fetch : M (BitVec 32) := do
  let c ← fetchCtx
  let va := (← get).hart.pc
  let p ← translate c Needs.fetch (fun _ => none) 4 va
  reply c ((← get).fetched va != []) p.pa va
  wholeData p.pa 4 va
  untilStopped (recallLine none (paLine p.pa))
  atSlice .normal (paLine p.pa)
  settleAdds c.view p.pa 4
  let s ← get
  let m := BitVec.ofNat 32 (leNat (s.bytes c.view p.pa 4))
  let w ← chooseWord va m
  if (s.fetched va).contains w then return w
  modify fun s => s.cacheWord va w
  return w

end Sys2Proof.Machine
end

