-- ==== Sys2Proof/Machine/Operands.lean ====
section
/-! DEFINITION. The operand forms of vector instructions: VTYPE, the grant, the configuration checks, elements of groups, masks
and the sweep (02 R27 to R36; 06 R128, R129, R151; 08 R186, R187). -/

namespace Sys2Proof.Machine

/-! ## VTYPE (02 R27) -/

def vtVill (w : Word) : Bool := w.getLsbD 15
def vtSewCode (w : Word) : Nat := bitsAt w.toNat 0 3
def vtGroup (w : Word) : Nat := 2 ^ bitsAt w.toNat 3 2
def vtBlk (w : Word) : Nat := 16 * 2 ^ bitsAt w.toNat 5 2
def vtFk (w : Word) : Nat := bitsAt w.toNat 7 2
/-- SEW in bits. -/
def vtSew (w : Word) : Nat := 8 * 2 ^ vtSewCode w

/-- The value with VILL alone. -/
def vtIllegal : Word := 0x8000

/-- A written value that R27 marks legal. -/
def vtLegal (w : Word) : Bool :=
  let fk := vtFk w
  decide (w.toNat < 512) && decide (vtSewCode w < 4) && bitsAt w.toNat 5 2 != 3
    && (fk == 0 || (fk == 1 && decide (vtSewCode w < 2)))

/-- What VTYPE becomes when a value is written (02 R27). -/
def vtWrite (w : Word) : Word := if vtLegal w then w else vtIllegal

def Shape.sew (p : Shape) : Nat := vtSew p.vtype
def Shape.group (p : Shape) : Nat := vtGroup p.vtype
/-- The register size in bits for the lane mode (02 R29, 06 R129). -/
def Shape.regBits (p : Shape) : Nat := if p.split then 4096 else 8192
def Shape.vlmax (p : Shape) : Nat := p.regBits / p.sew

/-! ## The grant (02 R31) -/

def grantVl (split : Bool) (width : Nat) (req sew : Nat) : Nat :=
  if req ≤ 64 then req
  else
    let g := min req (min ((if split then 4096 else 8192) / sew) (width * 512 / sew))
    max (g - g % 64) 64

def grantRows (rq g : Nat) : Nat := min (max rq 1) g

/-! ## Configuration checks (02 R32) -/

/-- The second operand's group, if it is one. -/
def src2Groups : Src2 → List VReg
  | .vv b => [b]
  | _ => []

/-- Every number is a multiple of G. -/
def aligned (g : Nat) (rs : List VReg) : Bool := rs.all fun r => r.val % g == 0

/-- The snapshot and the groups satisfy R32. -/
def Shape.usable (p : Shape) (elementWise : Bool) (rs : List VReg) : Bool :=
  !vtVill p.vtype && aligned p.group rs && decide (p.vl ≤ p.vlmax) && decide (p.vrows ≤ p.group)
    && (elementWise || p.vstart == 0)

def theShape : M Shape := do return (← get).hart.shape

/-- Illegal Configuration of a vector instruction, at position (0, 0) (02 R32, 06 R151). -/
def vectorConfig {α : Type} : M α := do
  modify fun s => s.setStart 0
  illegalConfig
def needVector (c : Bool) : M Unit := if c then pure () else vectorConfig

/-- The checks of R32, and the further condition of the instruction (06 R150 step 3). -/
def checkShape (elementWise : Bool) (rs : List VReg) (further : Shape → Bool) : M Shape := do
  let p ← theShape
  needVector (p.usable elementWise rs && further p)
  return p

/-- Two groups of `g` registers share a register. -/
def groupsMeet (g : Nat) (a b : VReg) : Bool := decide (a.val < b.val + g) && decide (b.val < a.val + g)

/-- The three conditions of R187 for a wider width `w`, a destination and the sources read at a different width. -/
def twoWidths (p : Shape) (w : Nat) (d : VReg) (other : List VReg) : Bool :=
  decide (w ≤ 64) && decide (p.vl * w ≤ p.regBits) && other.all fun r => !groupsMeet p.group d r

/-- The condition of R129 for an index width. -/
def indexFits (p : Shape) (iw : Nat) : Bool := decide (p.vl * iw ≤ p.regBits)

/-! ## Elements and masks (06 R151) -/

/-- Register `row` of a group. -/
def rowReg (r : VReg) (row : Nat) : VReg := Fin.ofNat 32 (r.val + row)

def readElem (r : VReg) (w row col : Nat) : M Nat := do return elemAt (← readV (rowReg r row)) w col
/-- An old destination element: not an operand, so it takes no Memory Error. -/
def oldElem (r : VReg) (w row col : Nat) : M Nat := do return elemAt ((← get).getV (rowReg r row)) w col
/-- Write one element; the rest of a register in error may stay so (log 18). -/
def writeElem (r : VReg) (w row col x : Nat) : M Unit :=
  let q := rowReg r row
  writePart (fun s => s.badV q) (fun e => { e with v := e.v ||| 1#32 <<< q.val }) fun s => s.setV q (withElem (s.getV q) w col x)

/-- Bit `row × 1024 + col` of a mask register; k0 is all ones. -/
def readMask (k : MReg) (row col : Nat) : M Bool := do
  if k = 0 then return true
  return maskBit (← readK k) (row * 1024 + col)
/-- Write one mask bit; the rest of a register in error may stay so (log 18). -/
def writeMask (k : MReg) (row col : Nat) (b : Bool) : M Unit :=
  writePart (fun s => s.badK k) (fun e => { e with k := e.k ||| 1#8 <<< k.val }) fun s => s.setK k (withMaskBit (s.getK k) (row * 1024 + col) b)

/-- The second operand at a position (08 R186). -/
def readSrc2 (b : Src2) (w row col : Nat) : M Nat :=
  match b with
  | .vv r => readElem r w row col
  | .vs r => do return (← readS r).toNat % 2 ^ w
  | .vi i => return wrapTo w i.toInt

/-- An index at a position, and whether it is the null index of its width (04 R94, 06 R129). -/
def readIndex (r : VReg) (iw row col : Nat) : M (Nat × Bool) := do
  let x ← readElem r iw row col
  return (x, iw ≥ 32 && x == 2 ^ iw - 1)

/-! ## The sweep (02 R33 to R35) -/

/-- The positions of a shape from (r, c) on, in sweep order. -/
def positionsFrom (vl vrows r c : Nat) : List (Nat × Nat) :=
  (upTo vrows).flatMap fun row =>
    if row < r then []
    else ((upTo vl).filter fun col => row ≠ r || c ≤ col).map fun col => (row, col)

def Shape.positions (p : Shape) : List (Nat × Nat) := positionsFrom p.vl p.vrows p.startRow p.startCol
def Shape.allPositions (p : Shape) : List (Nat × Nat) := positionsFrom p.vl p.vrows 0 0

/-- A part of an instruction that stops, stops with VSTART at its position (02 R35). -/
def atPosition {α : Type} (row col : Nat) (m : M α) : M α := fun s =>
  match m s with
  | .ok a s' => .ok a s'
  | .error e s' => .error e (s'.setStart (packStart row col))

/-- Apply a function at each active position of the sweep from VSTART on. -/
def sweep (p : Shape) (k : MReg) (f : Nat → Nat → M Unit) : M Unit :=
  each (fun x => atPosition x.1 x.2 do if ← readMask k x.1 x.2 then f x.1 x.2) p.positions

/-- A vector instruction completes: VSTART is 0, the PC moves on. -/
def State.completed (s : State) : State := ((s.setStart 0).withHart fun h => { h with taken := [], begun := false }).advance
def completeVector : M Unit := modify State.completed

/-- Mask bits of all positions of the shape, false where inactive. -/
def activeMask (p : Shape) (k : MReg) : M (Nat → Nat → Bool) := do
  if k = 0 then return fun row col => decide (row < p.vrows) && decide (col < p.vl)
  let m ← readK k
  return fun row col => decide (row < p.vrows) && decide (col < p.vl) && maskBit m (row * 1024 + col)

end Sys2Proof.Machine
end

