-- ==== Sys2Proof/Machine/Flags.lean ====
section
/-! DEFINITION. Rounding modes in force, FCSR and MXFLAGS, and the flags that a result earns (03 R57, R61, R62, R74). -/

namespace Sys2Proof.Machine

/-- The mode of FCSR.FRM, if it holds one (03 R57). -/
def frmRounding (frm : Nat) : Option Rounding :=
  match frm with
  | 0 => some .rne
  | 1 => some .rtz
  | 2 => some .rdn
  | 3 => some .rup
  | 4 => some .rmm
  | _ => none

/-- FCSR.FRM, bits 2:0 (03 R61). -/
def State.frm (s : State) : Nat := s.hart.fcsr.toNat % 8

/-- The dynamic mode; FRM of 101, 110 or 111 raises Illegal Instruction (06 R150 step 6). -/
def dynamicRounding : M Rounding := do
  match frmRounding (← get).frm with
  | some m => return m
  | none => raiseWord .illegalInstruction

/-- The mode that an instruction names; DIT takes its table index from the position (03 R63). -/
def roundingOf (m : Rm) : M Rounding :=
  match m with
  | .rne => return .rne
  | .rtz => return .rtz
  | .rdn => return .rdn
  | .rup => return .rup
  | .rmm => return .rmm
  | .dit => return .dit 0
  | .dyn => dynamicRounding

/-- The dither index of a position (03 R63). -/
def atDither (m : Rounding) (row col : Nat) : Rounding :=
  match m with
  | .dit _ => .dit ((col + 7 * row) % 64)
  | m => m

/-- OR flags into FCSR.FFLAGS. -/
def raiseFlags (f : Flags) : M Unit := modify fun s => s.orFlags f
def raiseMx (f : BitVec 2) : M Unit := modify fun s => s.orMx f

/-- MXFLAGS.MXINV and MXFLAGS.MDUP (03 R74). -/
def mxInv : BitVec 2 := 2
def mxDup : BitVec 2 := 1

/-- The element format fmt(SEW, FK) of 08 R186; SEW 8 has one only for VCVT. -/
def elementFormat (vtype : Word) : FpFmt :=
  match vtSewCode vtype, vtFk vtype with
  | 3, _ => .fp64
  | 2, _ => .fp32
  | 1, 0 => .fp16
  | 1, _ => .bf16
  | _, 0 => .e4m3
  | _, _ => .e5m2

/-- A flag-earning result written at a position. -/
def writeRounded (r : VReg) (w row col : Nat) (x : Nat × Flags) : M Unit := do
  writeElem r w row col x.1
  raiseFlags x.2

end Sys2Proof.Machine
end

