-- ==== Sys2Proof/Machine/Alu.lean ====
section
/-! DEFINITION. The integer instructions of the majors ALU, the immediate forms and MULDIV (07 R161 to R163). -/

namespace Sys2Proof.Machine

/-! ## Results -/

/-- sB[5:0], a shift amount. -/
def shAmt (b : Word) : Nat := b.toNat % 64
def wSll (a b : Word) : Word := a <<< shAmt b
def wSrl (a b : Word) : Word := a >>> shAmt b
def wSra (a b : Word) : Word := a.sshiftRight (shAmt b)
def wRor (a b : Word) : Word := a.rotateRight (shAmt b)
def wMin (a b : Word) : Word := if a.slt b then a else b
def wMax (a b : Word) : Word := if a.slt b then b else a
def wMinu (a b : Word) : Word := if a.ult b then a else b
def wMaxu (a b : Word) : Word := if a.ult b then b else a
def wClz (a : Word) : Word := BitVec.ofNat 64 (leadingZeros 64 a.toNat)
def wCtz (a : Word) : Word := BitVec.ofNat 64 (trailingZeros 64 a.toNat)
def wPopc (a : Word) : Word := BitVec.ofNat 64 (popCount 64 a.toNat)
def wBrev (a : Word) : Word := BitVec.ofNat 64 (reverseBits 64 a.toNat)

/-- The high 64 bits of an exact product. -/
def wHigh (x : Int) : Word := BitVec.ofInt 64 (x / (2 ^ 64 : Nat))
def wMulh (a b : Word) : Word := wHigh (a.toInt * b.toInt)
def wMulhu (a b : Word) : Word := wHigh ((a.toNat : Int) * b.toNat)
def wMulhsu (a b : Word) : Word := wHigh (a.toInt * (b.toNat : Int))

/-- The most positive and most negative words. -/
def wMost : Word := 0x7FFFFFFFFFFFFFFF
def wLeast : Word := 0x8000000000000000

/-- DIV truncates toward zero and saturates (07 R163). -/
def wDiv (a b : Word) : Word :=
  if b = 0 then (if a.slt 0 then wLeast else wMost)
  else if a = wLeast && b = -1 then wMost
  else BitVec.ofInt 64 (a.toInt.tdiv b.toInt)
def wDivu (a b : Word) : Word := if b = 0 then -1 else a / b
/-- REM has the sign of sA, and is 0 where DIV saturates. -/
def wRem (a b : Word) : Word :=
  if b = 0 || (a = wLeast && b = -1) then 0 else BitVec.ofInt 64 (a.toInt.tmod b.toInt)
def wRemu (a b : Word) : Word := if b = 0 then 0 else a % b

/-! ## ALU (07 R161) -/

/-- ADD. -/
def execAdd (d a b : SReg) (s : State) : Out1 := scalar2 (fun x y => x + y) d a b s
/-- SUB. -/
def execSub (d a b : SReg) (s : State) : Out1 := scalar2 (fun x y => x - y) d a b s
/-- AND. -/
def execAnd (d a b : SReg) (s : State) : Out1 := scalar2 (fun x y => x &&& y) d a b s
/-- OR. -/
def execOr (d a b : SReg) (s : State) : Out1 := scalar2 (fun x y => x ||| y) d a b s
/-- XOR. -/
def execXor (d a b : SReg) (s : State) : Out1 := scalar2 (fun x y => x ^^^ y) d a b s
/-- ANDN. -/
def execAndn (d a b : SReg) (s : State) : Out1 := scalar2 (fun x y => x &&& ~~~y) d a b s
/-- SLL. -/
def execSll (d a b : SReg) (s : State) : Out1 := scalar2 (wSll) d a b s
/-- SRL. -/
def execSrl (d a b : SReg) (s : State) : Out1 := scalar2 (wSrl) d a b s
/-- SRA. -/
def execSra (d a b : SReg) (s : State) : Out1 := scalar2 (wSra) d a b s
/-- ROR. -/
def execRor (d a b : SReg) (s : State) : Out1 := scalar2 (wRor) d a b s
/-- SLT. -/
def execSlt (d a b : SReg) (s : State) : Out1 := scalar2 (fun x y => boolWord (x.slt y)) d a b s
/-- SLTU. -/
def execSltu (d a b : SReg) (s : State) : Out1 := scalar2 (fun x y => boolWord (x.ult y)) d a b s
/-- MIN. -/
def execMin (d a b : SReg) (s : State) : Out1 := scalar2 (wMin) d a b s
/-- MAX. -/
def execMax (d a b : SReg) (s : State) : Out1 := scalar2 (wMax) d a b s
/-- MINU. -/
def execMinu (d a b : SReg) (s : State) : Out1 := scalar2 (wMinu) d a b s
/-- MAXU. -/
def execMaxu (d a b : SReg) (s : State) : Out1 := scalar2 (wMaxu) d a b s
/-- CLZ. -/
def execClz (d a : SReg) (s : State) : Out1 := scalar1 (wClz) d a s
/-- CTZ. -/
def execCtz (d a : SReg) (s : State) : Out1 := scalar1 (wCtz) d a s
/-- POPC. -/
def execPopc (d a : SReg) (s : State) : Out1 := scalar1 (wPopc) d a s
/-- BREV. -/
def execBrev (d a : SReg) (s : State) : Out1 := scalar1 (wBrev) d a s
/-- SEXTB. -/
def execSextb (d a : SReg) (s : State) : Out1 := scalar1 (fun x => sextTo 8 x.toNat) d a s
/-- SEXTH. -/
def execSexth (d a : SReg) (s : State) : Out1 := scalar1 (fun x => sextTo 16 x.toNat) d a s
/-- SEXTW. -/
def execSextw (d a : SReg) (s : State) : Out1 := scalar1 (fun x => sextTo 32 x.toNat) d a s
/-- ZEXTW. -/
def execZextw (d a : SReg) (s : State) : Out1 := scalar1 (fun x => BitVec.ofNat 64 (x.toNat % 2 ^ 32)) d a s

/-! ## Immediate forms (07 R162) -/

/-- ADDI. -/
def execAddi (d a : SReg) (i : BitVec 16) (s : State) : Out1 := scalar1 (fun x => x + sext16 i) d a s
/-- ANDI. -/
def execAndi (d a : SReg) (i : BitVec 16) (s : State) : Out1 := scalar1 (fun x => x &&& sext16 i) d a s
/-- ORI. -/
def execOri (d a : SReg) (i : BitVec 16) (s : State) : Out1 := scalar1 (fun x => x ||| zext16 i) d a s
/-- XORI. -/
def execXori (d a : SReg) (i : BitVec 16) (s : State) : Out1 := scalar1 (fun x => x ^^^ zext16 i) d a s
/-- SLLI. -/
def execSlli (d a : SReg) (n : Fin 64) (s : State) : Out1 := scalar1 (fun x => x <<< n.val) d a s
/-- SRLI. -/
def execSrli (d a : SReg) (n : Fin 64) (s : State) : Out1 := scalar1 (fun x => x >>> n.val) d a s
/-- SRAI. -/
def execSrai (d a : SReg) (n : Fin 64) (s : State) : Out1 := scalar1 (fun x => x.sshiftRight n.val) d a s
/-- RORI. -/
def execRori (d a : SReg) (n : Fin 64) (s : State) : Out1 := scalar1 (fun x => x.rotateRight n.val) d a s
/-- SLTI. -/
def execSlti (d a : SReg) (i : BitVec 16) (s : State) : Out1 := scalar1 (fun x => boolWord (x.slt (sext16 i))) d a s
/-- SLTIU. -/
def execSltiu (d a : SReg) (i : BitVec 16) (s : State) : Out1 := scalar1 (fun x => boolWord (x.ult (sext16 i))) d a s
/-- LUI. -/
def execLui (d : SReg) (i : BitVec 16) (s : State) : Out1 := .next ((s.setS d (sext16 i <<< 16)).advance)
/-- ADDPC. -/
def execAddpc (d : SReg) (i : BitVec 16) (s : State) : Out1 := .next ((s.setS d (relative s.hart.pc (sext16 i))).advance)

/-! ## MULDIV (07 R163) -/

/-- MUL. -/
def execMul (d a b : SReg) (s : State) : Out1 := scalar2 (fun x y => x * y) d a b s
/-- MULH. -/
def execMulh (d a b : SReg) (s : State) : Out1 := scalar2 (wMulh) d a b s
/-- MULHU. -/
def execMulhu (d a b : SReg) (s : State) : Out1 := scalar2 (wMulhu) d a b s
/-- MULHSU. -/
def execMulhsu (d a b : SReg) (s : State) : Out1 := scalar2 (wMulhsu) d a b s
/-- DIV. -/
def execDiv (d a b : SReg) (s : State) : Out1 := scalar2 (wDiv) d a b s
/-- DIVU. -/
def execDivu (d a b : SReg) (s : State) : Out1 := scalar2 (wDivu) d a b s
/-- REM. -/
def execRem (d a b : SReg) (s : State) : Out1 := scalar2 (wRem) d a b s
/-- REMU. -/
def execRemu (d a b : SReg) (s : State) : Out1 := scalar2 (wRemu) d a b s

end Sys2Proof.Machine
end

