-- ==== Sys2Proof/Machine/FloatScalar.lean ====
section
/-! DEFINITION. Scalar floating point: FPS and FMAS (07 R164 to R167). -/

namespace Sys2Proof.Machine

/-- The format of a width. -/
def widthFmt : FWidth → FpFmt
  | .single => .fp32 | .double => .fp64

/-- The operand encoding in a register: FP32 is bits 31:0 (07 R164). -/
def widthCode (w : FWidth) (x : Word) : Nat := x.toNat % 2 ^ (widthFmt w).bits

/-- Write a result and OR its flags; FP32 results have zero above bit 31 (07 R164). -/
def finishFp (d : SReg) (r : Nat × Flags) : M Unit := do
  writeS d (BitVec.ofNat 64 r.1)
  raiseFlags r.2
  retire

/-- A rounding instruction of one operand. -/
def fps1 (m : Rm) (d a : SReg) (f : Rounding → Word → Nat × Flags) : M Unit := do
  let md ← roundingOf m
  finishFp d (f md (← readS a))

/-- A rounding instruction of two operands. -/
def fps2 (w : FWidth) (m : Rm) (d a b : SReg) (f : FpFmt → Rounding → Nat → Nat → Nat × Flags) : M Unit := do
  let md ← roundingOf m
  let x ← readS a
  let y ← readS b
  finishFp d (f (widthFmt w) md (widthCode w x) (widthCode w y))

/-- An instruction of two operands that rounds nothing. -/
def fpsBits (w : FWidth) (d a b : SReg) (f : FpFmt → Nat → Nat → Nat × Flags) : M Unit := do
  let x ← readS a
  let y ← readS b
  finishFp d (f (widthFmt w) (widthCode w x) (widthCode w y))

/-- FADD (07 R165). -/
def execFadd (w : FWidth) (m : Rm) (d a b : SReg) (s : State) : Out1 := run (fps2 w m d a b fpAdd) s
/-- FSUB (07 R165). -/
def execFsub (w : FWidth) (m : Rm) (d a b : SReg) (s : State) : Out1 := run (fps2 w m d a b fpSub) s
/-- FMUL (07 R165). -/
def execFmul (w : FWidth) (m : Rm) (d a b : SReg) (s : State) : Out1 := run (fps2 w m d a b fpMul) s
/-- FDIV (07 R165). -/
def execFdiv (w : FWidth) (m : Rm) (d a b : SReg) (s : State) : Out1 := run (fps2 w m d a b fpDiv) s
/-- FSQRT (07 R165). -/
def execFsqrt (w : FWidth) (m : Rm) (d a : SReg) (s : State) : Out1 :=
  run (fps1 m d a fun md x => fpSqrt (widthFmt w) md (widthCode w x)) s
/-- FMIN (07 R165). -/
def execFmin (w : FWidth) (d a b : SReg) (s : State) : Out1 :=
  run (fpsBits w d a b (fun t x y => minMaxCode t false x y)) s
/-- FMAX (07 R165). -/
def execFmax (w : FWidth) (d a b : SReg) (s : State) : Out1 :=
  run (fpsBits w d a b (fun t x y => minMaxCode t true x y)) s
/-- FCOPYS (07 R165). -/
def execFcopys (w : FWidth) (d a b : SReg) (s : State) : Out1 :=
  run (fpsBits w d a b (fun t x y => (fpSign t (fun _ q => q) x y, 0))) s
/-- FCOPYNS (07 R165). -/
def execFcopyns (w : FWidth) (d a b : SReg) (s : State) : Out1 :=
  run (fpsBits w d a b (fun t x y => (fpSign t (fun _ q => !q) x y, 0))) s
/-- FXORS (07 R165). -/
def execFxors (w : FWidth) (d a b : SReg) (s : State) : Out1 :=
  run (fpsBits w d a b (fun t x y => (fpSign t (fun p q => p ^^ q) x y, 0))) s
/-- FEQ (07 R165). -/
def execFeq (w : FWidth) (d a b : SReg) (s : State) : Out1 :=
  run (fpsBits w d a b (fun t x y => let r := fpCompare t false relEq x y; (bit r.1, r.2))) s
/-- FLT (07 R165). -/
def execFlt (w : FWidth) (d a b : SReg) (s : State) : Out1 :=
  run (fpsBits w d a b (fun t x y => let r := fpCompare t true relLt x y; (bit r.1, r.2))) s
/-- FLE (07 R165). -/
def execFle (w : FWidth) (d a b : SReg) (s : State) : Out1 :=
  run (fpsBits w d a b (fun t x y => let r := fpCompare t true relLe x y; (bit r.1, r.2))) s
/-- FCLASS (07 R166). -/
def execFclass (w : FWidth) (d a : SReg) (s : State) : Out1 :=
  run (do finishFp d (fpClass (widthFmt w) (widthCode w (← readS a)), 0)) s
/-- FCVTFI (07 R165). -/
def execFcvtfi (w : FWidth) (m : Rm) (d a : SReg) (s : State) : Out1 :=
  run (fps1 m d a (fun md x => roundInt true 64 md (decodeFp (widthFmt w) (widthCode w x)))) s
/-- FCVTFU (07 R165). -/
def execFcvtfu (w : FWidth) (m : Rm) (d a : SReg) (s : State) : Out1 :=
  run (fps1 m d a (fun md x => roundInt false 64 md (decodeFp (widthFmt w) (widthCode w x)))) s
/-- FCVTIF (07 R165). -/
def execFcvtif (w : FWidth) (m : Rm) (d a : SReg) (s : State) : Out1 :=
  run (fps1 m d a (fun md x => roundTo (widthFmt w) md true (Num.ofInt x.toInt 0))) s
/-- FCVTUF (07 R165). -/
def execFcvtuf (w : FWidth) (m : Rm) (d a : SReg) (s : State) : Out1 :=
  run (fps1 m d a (fun md x => roundTo (widthFmt w) md true (Num.ofInt x.toNat 0))) s
/-- The other scalar width. -/
def otherWidth : FWidth → FWidth
  | .single => .double | .double => .single
/-- FCVTFF (07 R165): from the other width. -/
def execFcvtff (w : FWidth) (m : Rm) (d a : SReg) (s : State) : Out1 :=
  run (fps1 m d a fun md x => fpConvert (widthFmt (otherWidth w)) (widthFmt w) md true (widthCode (otherWidth w) x)) s

/-- The fused forms (07 R167): the product and the addend negated or not. -/
def fmas (np nc : Bool) (w : FWidth) (m : Rm) (d a b c : SReg) : M Unit := do
  let md ← roundingOf m
  let x ← readS a
  let y ← readS b
  let z ← readS c
  finishFp d (fpFma (widthFmt w) md np nc (widthCode w x) (widthCode w y) (widthCode w z))

/-- FMADD (07 R167). -/
def execFmadd (w : FWidth) (m : Rm) (d a b c : SReg) (s : State) : Out1 := run (fmas false false w m d a b c) s
/-- FMSUB (07 R167). -/
def execFmsub (w : FWidth) (m : Rm) (d a b c : SReg) (s : State) : Out1 := run (fmas false true w m d a b c) s
/-- FNMADD (07 R167). -/
def execFnmadd (w : FWidth) (m : Rm) (d a b c : SReg) (s : State) : Out1 := run (fmas true true w m d a b c) s
/-- FNMSUB (07 R167). -/
def execFnmsub (w : FWidth) (m : Rm) (d a b c : SReg) (s : State) : Out1 := run (fmas true false w m d a b c) s

end Sys2Proof.Machine
end

