-- ==== Sys2Proof/Machine/LoadStore.lean ====
section
/-! DEFINITION. Scalar memory instructions: loads, stores, LDSYNC, AMO and PREF (07 R168 to R172). -/

namespace Sys2Proof.Machine

/-! ## Loads and stores (07 R168, R169) -/

/-- Extend the low `8 n` bits of a number to a word. -/
def extend (signed : Bool) (n x : Nat) : Word := if signed then sextTo (8 * n) x else BitVec.ofNat 64 (x % 2 ^ (8 * n))

/-- A load of `n` bytes to sD; a converting read ORs its flags (11 R253). -/
def loadTo (signed : Bool) (n : Nat) (d : SReg) (va : Word) : M Unit := do
  let x ← scalarLoad va n
  writeS d (extend signed n x.1)
  raiseFlags x.2
  retire

/-- A load at sA plus a displacement. -/
def loadAt (signed : Bool) (n : Nat) (d a : SReg) (i : BitVec 16) : M Unit := do loadTo signed n d ((← readS a) + sext16 i)

/-- A store of the low `n` bytes of sD at sA plus a displacement. -/
def storeAt (n : Nat) (d a : SReg) (i : BitVec 16) : M Unit := do
  let x ← readS d
  scalarStore ((← readS a) + sext16 i) n x.toNat
  retire

/-- An acquire load of `n` bytes at sA: reads are made in program order, so no later access is made before it (05 R113). -/
def loadAcquire (n : Nat) (signed : Bool) (d a : SReg) : M Unit := do
  let x ← acquireLoad (← readS a) n
  writeS d (extend signed n x.1)
  raiseFlags x.2
  retire

/-- A release store of the low `n` bytes of sD at sA (05 R112). -/
def storeRelease (sc : Scope) (n : Nat) (d a : SReg) : M Unit := do
  let x ← readS d
  releaseStore sc (← readS a) n x.toNat
  retire

/-- LDB. -/
def execLdb (d a : SReg) (i : BitVec 16) (s : State) : Out1 := run (loadAt true 1 d a i) s
/-- LDBU. -/
def execLdbu (d a : SReg) (i : BitVec 16) (s : State) : Out1 := run (loadAt false 1 d a i) s
/-- LDH. -/
def execLdh (d a : SReg) (i : BitVec 16) (s : State) : Out1 := run (loadAt true 2 d a i) s
/-- LDHU. -/
def execLdhu (d a : SReg) (i : BitVec 16) (s : State) : Out1 := run (loadAt false 2 d a i) s
/-- LDW. -/
def execLdw (d a : SReg) (i : BitVec 16) (s : State) : Out1 := run (loadAt true 4 d a i) s
/-- LDWU. -/
def execLdwu (d a : SReg) (i : BitVec 16) (s : State) : Out1 := run (loadAt false 4 d a i) s
/-- LDD. -/
def execLdd (d a : SReg) (i : BitVec 16) (s : State) : Out1 := run (loadAt false 8 d a i) s
/-- STB. -/
def execStb (d a : SReg) (i : BitVec 16) (s : State) : Out1 := run (storeAt 1 d a i) s
/-- STH. -/
def execSth (d a : SReg) (i : BitVec 16) (s : State) : Out1 := run (storeAt 2 d a i) s
/-- STW. -/
def execStw (d a : SReg) (i : BitVec 16) (s : State) : Out1 := run (storeAt 4 d a i) s
/-- STD. -/
def execStd (d a : SReg) (i : BitVec 16) (s : State) : Out1 := run (storeAt 8 d a i) s
/-- LDAQ.W.  An acquire of any scope holds back every later access of the hart. -/
def execLdaqW (_sc : Scope) (d a : SReg) (s : State) : Out1 := run (loadAcquire 4 true d a) s
/-- LDAQ.D. -/
def execLdaqD (_sc : Scope) (d a : SReg) (s : State) : Out1 := run (loadAcquire 8 false d a) s
/-- STRL.W. -/
def execStrlW (sc : Scope) (d a : SReg) (s : State) : Out1 := run (storeRelease sc 4 d a) s
/-- STRL.D. -/
def execStrlD (sc : Scope) (d a : SReg) (s : State) : Out1 := run (storeRelease sc 8 d a) s

/-! ## AMO (07 R170, R171) -/

/-- Bytes of an AMO. -/
def awBytes : AWidth → Nat
  | .word => 4
  | .dword => 8

/-- The orders that make an AMO a release (05 R112), and those that make it an acquire (05 R113). -/
def isRelease : Order → Bool
  | .release | .acqRel => true
  | _ => false
def isAcquire : Order → Bool
  | .acquire | .acqRel => true
  | _ => false
/-- The acquire half of an operation of an order. -/
def acquireBy (o : Order) : M Unit := if isAcquire o then acquireHere else pure ()

/-- The new value of an integer AMO of `w` bits, from the old value and the operand. -/
def pickBy (c : Bool) (old x : Nat) : Nat := if c then old else x
def amoAdd (w old x : Nat) : Nat := (old + x) % 2 ^ w
def amoMin (w old x : Nat) : Nat := pickBy (decide (signedOf w old ≤ signedOf w x)) old x
def amoMax (w old x : Nat) : Nat := pickBy (decide (signedOf w x ≤ signedOf w old)) old x

/-- The kind rule of an AMO that is no FADD: no DEV page, no cell page. -/
def amoKind (p : Place) : Option Cause := if p.kind = 1 then some .permission else if p.kind < 2 then none else some .cellStore

/-- The kind rule of AMO FADD (07 R171). -/
def faddKind (w : AWidth) (p : Place) : Option Cause :=
  if p.kind = 1 then some .permission
  else if p.kind = 0 then none
  else if cellWidth p.kind ≠ awBytes w then some .cellKind
  else if p.pa % 64 ≠ 0 then some .cellAlignment
  else none

/-- What the earlier accesses of the hart have done before a scalar read-modify-write of `n` bytes performs: with the release order
bits every one has performed at the scope (05 R112), and in any case the writes to those bytes that the hart sees have (05 R101). -/
def beforeAmo (sc : Scope) (o : Order) (c : Ctx) (pa n : Nat) : M Unit := do
  if isRelease o then releaseAt sc
  settle c.view pa n

/-- An atomic read-modify-write of `n` bytes at a place: the old value (05 R101).  It is made in the scalar L1 where that holds the line,
and at the home otherwise (07 R170). -/
def rmwAt (sc : Scope) (o : Order) (c : Ctx) (p : Place) (n : Nat) (va : Word) (f : Nat → Nat) : M Nat := do
  let s ← get
  let here := if s.holds s.l1 (paLine p.pa) then some s.l1 else none
  reply c (here.isSome && s.owner (paLine p.pa) == here) p.pa va
  wholeData p.pa n va
  untilStopped (recallLine here (paLine p.pa))
  beforeAmo sc o c p.pa n
  dropUnits .scalar p.pa n
  let old := Memory.read (← get).mem p.pa n
  homeWrite p.pa va fun s => s.perform none here p.pa (leBytes n (f old))
  acquireBy o
  return old

/-- The value an AMO returns: the old word sign-extended, or the old doubleword. -/
def amoResult (w : AWidth) (old : Nat) : Word := extend (w == .word) (awBytes w) old

/-- An AMO on a DATA page; the operation takes the width in bits, the old value, the operand and sD. -/
def amo (sc : Scope) (o : Order) (w : AWidth) (d a b : SReg) (f : Nat → Nat → Nat → Nat → Nat) : M Unit := do
  let n := awBytes w
  let va ← readS a
  let x := (← readS b).toNat % 2 ^ (8 * n)
  let e ← get
  obeyScalar
  let c ← scalarCtx
  let p ← translate c Needs.rmw amoKind n va
  let old ← rmwAt sc o c p n va fun old => f (8 * n) old x ((e.getS d).toNat % 2 ^ (8 * n))
  writeS d (amoResult w old)
  retire

/-- AMOADD. -/
def execAmoadd (sc : Scope) (o : Order) (w : AWidth) (d a b : SReg) (s : State) : Out1 :=
  run (amo sc o w d a b (fun w old x _ => amoAdd w old x)) s
/-- AMOAND. -/
def execAmoand (sc : Scope) (o : Order) (w : AWidth) (d a b : SReg) (s : State) : Out1 :=
  run (amo sc o w d a b (fun _ old x _ => old &&& x)) s
/-- AMOOR. -/
def execAmoor (sc : Scope) (o : Order) (w : AWidth) (d a b : SReg) (s : State) : Out1 :=
  run (amo sc o w d a b (fun _ old x _ => old ||| x)) s
/-- AMOXOR. -/
def execAmoxor (sc : Scope) (o : Order) (w : AWidth) (d a b : SReg) (s : State) : Out1 :=
  run (amo sc o w d a b (fun _ old x _ => old ^^^ x)) s
/-- AMOMIN. -/
def execAmomin (sc : Scope) (o : Order) (w : AWidth) (d a b : SReg) (s : State) : Out1 :=
  run (amo sc o w d a b (fun w old x _ => amoMin w old x)) s
/-- AMOMAX. -/
def execAmomax (sc : Scope) (o : Order) (w : AWidth) (d a b : SReg) (s : State) : Out1 :=
  run (amo sc o w d a b (fun w old x _ => amoMax w old x)) s
/-- AMOMINU. -/
def execAmominu (sc : Scope) (o : Order) (w : AWidth) (d a b : SReg) (s : State) : Out1 :=
  run (amo sc o w d a b (fun _ old x _ => Nat.min old x)) s
/-- AMOMAXU. -/
def execAmomaxu (sc : Scope) (o : Order) (w : AWidth) (d a b : SReg) (s : State) : Out1 :=
  run (amo sc o w d a b (fun _ old x _ => Nat.max old x)) s
/-- AMOSWAP. -/
def execAmoswap (sc : Scope) (o : Order) (w : AWidth) (d a b : SReg) (s : State) : Out1 :=
  run (amo sc o w d a b (fun _ _ x _ => x)) s
/-- AMOCAS: sD is an operand, and a failed compare writes the old value back. -/
def execAmocas (sc : Scope) (o : Order) (w : AWidth) (d a b : SReg) (s : State) : Out1 :=
  run (do
    let _ ← readS d
    amo sc o w d a b fun _ old x e => if old = e then x else old) s

/-- The floating-point format of an AMO's width. -/
def awFmt : AWidth → FpFmt
  | .word => .fp32
  | .dword => .fp64

/-- The value format of a cell add of AMOFADD. -/
def awCell : AWidth → CellFmt
  | .word => .f32
  | .dword => .f64

/-- AMOFADD: an add rounded RNE on a DATA page, a cell add on a cell page (07 R171). -/
def execAmofadd (sc : Scope) (o : Order) (w : AWidth) (d a b : SReg) (s : State) : Out1 :=
  run (do
    let n := awBytes w
    let f := awFmt w
    let va ← readS a
    let x := (← readS b).toNat % 2 ^ (8 * n)
    obeyScalar
    let c ← scalarCtx
    let p ← translate c Needs.addRmw (faddKind w) n va
    if p.kind = 0 then
      let old ← rmwAt sc o c p n va fun old => (fpAdd f .rne old x).1
      writeS d (amoResult w old)
      raiseFlags (fpAdd f .rne old x).2
    else
      reply c false p.pa va
      wholeData p.pa 64 va
      if isRelease o then releaseAt sc
      performNow ((← get).writeOf .scalar none .normal p.pa (.cellAdd (awCell w) (p.kind == 3) p.e0 x)) va
      acquireBy o
      writeS d 0
    retire) s

/-! ## PREF (07 R172) -/

/-- Make a copy of the line at an address by `put`, or drop the request, in every case of 01 R16.  A line in uncorrectable error is logged
by its home and not copied (01 R17).  `put` is told the stash window that the address lies in. -/
def prefetchLine (c : Ctx) (put : Option Holder → Nat → M Unit) (va : Word) : M Unit := do
  let s ← get
  match s.probe c Needs.load va with
  | none => pure ()
  | some p =>
    if p.kind ≠ 0 then pure ()
    else if !s.reaches c false p.pa then pure ()
    else
      match s.poison.find? fun u => u / 16 == paLine p.pa with
      | some u => logError (8 * u) .uncorrectable
      | none =>
        untilStopped (recallLine none (paLine p.pa))
        put (s.windowAt va) (paLine p.pa)

/-- A line comes into the lookahead area of the hart's core through its home slice. -/
def intoLookahead (hint : VHint) (line : Nat) : M Unit := do
  atSlice hint line
  modify fun s => { s with lookahead := addLookahead hint s.hart.ident.coreKey line s.lookahead }

/-- Where PREF puts its line, by its hint; the lookahead area takes no line of a stash window (04 R85). -/
def prefInto : PrefHint → Option Holder → Nat → M Unit
  | .scalarL1, _, line => do untilStopped (install .normal (← get).l1 line)
  | .lookahead, none, line => intoLookahead .normal line
  | .lookahead, some _, _ => pure ()
  | .homeSlice, _, line => atSlice .normal line

/-- PREF. -/
def execPref (h : PrefHint) (a : SReg) (i : BitVec 16) (s : State) : Out1 :=
  run (do
    let va := (← readS a) + sext16 i
    prefetchLine (← scalarCtx) (prefInto h) va
    retire) s

end Sys2Proof.Machine
end

