-- ==== Sys2Proof/Machine/Branch.lean ====
section
/-! DEFINITION. Branches, jumps and the return stack (07 R173 to R178). -/

namespace Sys2Proof.Machine

/-! ## Conditional branches (07 R173) -/

/-- Continue at PC + 4 × the displacement where the condition holds. -/
def branchIf (c : Word → Word → Bool) (d a : SReg) (i : BitVec 16) (s : State) : Out1 :=
  if s.badS d || s.badS a then .next (s.takeTrap Trap.register)
  else if c (s.getS d) (s.getS a) then .next (s.setPc (relative s.hart.pc (sext16 i)))
  else .next s.advance

/-- BEQ. -/
def execBeq (d a : SReg) (i : BitVec 16) (s : State) : Out1 := branchIf (fun x y => x == y) d a i s
/-- BNE. -/
def execBne (d a : SReg) (i : BitVec 16) (s : State) : Out1 := branchIf (fun x y => x != y) d a i s
/-- BLT. -/
def execBlt (d a : SReg) (i : BitVec 16) (s : State) : Out1 := branchIf (fun x y => x.slt y) d a i s
/-- BGE. -/
def execBge (d a : SReg) (i : BitVec 16) (s : State) : Out1 := branchIf (fun x y => !x.slt y) d a i s
/-- BLTU. -/
def execBltu (d a : SReg) (i : BitVec 16) (s : State) : Out1 := branchIf (fun x y => x.ult y) d a i s
/-- BGEU. -/
def execBgeu (d a : SReg) (i : BitVec 16) (s : State) : Out1 := branchIf (fun x y => !x.ult y) d a i s

/-! ## The return stack (07 R177) -/

/-- The address of a spill slot. -/
def slotAddr (slot : BitVec 61) : Word := slot ++ 0#3

/-- Only a DATA page holds spilled entries. -/
def dataOnly (p : Place) : Option Cause := if p.kind = 0 then none else some .permission

/-- The slot lies outside the bounds in force (18 R308). -/
def Priv.outside (p : Priv) (slot : BitVec 61) : Bool :=
  p.rslimit != 0 && (slot.ult p.rsbase || !slot.ult p.rslimit)

/-- The check of one spill or fill slot: its failure is Return-Stack Spill, but for an error met by the walk. -/
def spillCheck (n : Needs) (slot : BitVec 61) : M Place := do
  let s ← get
  let va := slotAddr slot
  if s.hart.priv.outside slot then raise .returnStackSpill va
  match ← attempt (translate (s.hart.ctx (.stream .scalar)) n dataOnly 8 va) with
  | .ok p => return p
  | .error t => if t.walk then throw (.trap t) else raise .returnStackSpill va

/-- The eight slots from one on. -/
def eightSlots (slot : BitVec 61) : List (BitVec 61) := (upTo 8).map fun j => slot + BitVec.ofNat 61 j

/-- Every access of a spill or fill is answered before any takes effect: an error reply leaves no word written. -/
def spillReply (read : Bool) (x : BitVec 61 × Place) : M Unit := do
  let s ← get
  let va := slotAddr x.1
  let mine := if read then s.holds s.l1 (paLine x.2.pa) else s.owner (paLine x.2.pa) == some s.l1
  reply (← scalarCtx) mine x.2.pa va
  if read then wholeSeen (.stream .scalar) x.2.pa 8 va
  else if s.portFailing x.2.pa then
    if ← freshBit then raise .busError va
  untilStopped (recallLine (some s.l1) (paLine x.2.pa))

def setStack (f : RetStack → RetStack) : M Unit := modify fun s => s.withHart fun h => { h with rs := f h.rs }

/-- Spill the oldest eight entries. -/
def spill : M Unit := do
  let r := (← get).hart.rs
  let slots := eightSlots r.rsp
  let places ← collect (spillCheck Needs.store) slots
  each (spillReply false) (slots.zip places)
  each (fun x => do
    let s ← get
    accept (s.writeOf .scalar (some s.l1) .normal x.1.pa (.store (leBytes 8 x.2.toNat)))) (places.zip (r.entries.take 8))
  setStack fun r => { r with rsp := r.rsp + 8, entries := r.entries.drop 8 }

/-- Fill eight entries. -/
def fill8 : M Unit := do
  let r := (← get).hart.rs
  let slots := eightSlots (r.rsp - 8)
  let places ← collect (spillCheck Needs.load) slots
  each (spillReply true) (slots.zip places)
  let xs ← collect (fun p => do
    readLine .normal (some (← get).l1) p.pa
    settleAdds (.stream .scalar) p.pa 8
    return BitVec.ofNat 64 (← readValue .scalar p.pa 8 (leNat ((← get).bytes (.stream .scalar) p.pa 8)))) places
  setStack fun r => { r with rsp := r.rsp - 8, entries := xs }

/-- Push a return address. -/
def push (x : Word) : M Unit := do
  if (← get).hart.rs.entries.length = Config.returnStackEntries then
    obeyScalar
    spill
  setStack fun r => { r with entries := r.entries ++ [x], depth := r.depth + 1 }

/-- Pop a return address; an empty stack raises Return-Stack Spill with TVAL 0. -/
def pop : M Word := do
  if (← get).hart.rs.depth = 0 then raise .returnStackSpill 0
  if (← get).hart.rs.entries = [] then
    obeyScalar
    fill8
  let t := (← get).hart.rs.entries.getLast?.getD 0
  setStack fun r => { r with entries := r.entries.dropLast, depth := r.depth - 1 }
  return t

/-! ## Jumps -/

def goTo (t : Word) : M Unit := modify fun s => s.setPc t
def sext26 (i : BitVec 26) : Word := i.signExtend 64

/-- A register target; bits 1:0 raise Misaligned before any effect. -/
def target (a : SReg) : M Word := do
  let t ← readS a
  if t.toNat % 4 ≠ 0 then raise .misaligned t
  return t

/-- CALL. -/
def execCall (i : BitVec 26) (s : State) : Out1 :=
  run (do
    push (s.hart.pc + 4)
    goTo (relative s.hart.pc (sext26 i))) s
/-- JMP. -/
def execJmp (i : BitVec 26) (s : State) : Out1 := .next (s.setPc (relative s.hart.pc (sext26 i)))
/-- JALR. -/
def execJalr (d a : SReg) (s : State) : Out1 :=
  run (do
    let t ← target a
    writeS d (s.hart.pc + 4)
    goTo t) s
/-- CALLR. -/
def execCallr (a : SReg) (s : State) : Out1 :=
  run (do
    let t ← target a
    push (s.hart.pc + 4)
    goTo t) s
/-- RET. -/
def execRet (s : State) : Out1 := run (do goTo (← pop)) s
/-- JR. -/
def execJr (a : SReg) (s : State) : Out1 := run (do goTo (← target a)) s

end Sys2Proof.Machine
end

