-- ==== Sys2Proof/Machine/SysUser.lean ====
section
/-! DEFINITION. The user system instructions: FENCE, SPIN, LEADHOLD, SVC, BRK, RDSR, WRSR (07 R179 to R182) and the barrier
instructions (11 R261 to R263).  FORK, JOIN and EXIT are in Fork.lean. -/

namespace Sys2Proof.Machine

/-! ## Ordering and hints (07 R179, R180) -/

def noStreams (x : StreamSet) : Bool := !x.s && !x.v && !x.e

/-- The write is of a kind in P, or one of another hart that the hart may have read: it counts where the scope reaches beyond the core
(05 R106). -/
def State.fenced (s : State) (p : StreamSet) (t : Level) (w : PendingWrite) : Bool :=
  if s.mine w then (match w.stream with
    | .scalar => p.s
    | .vector => p.v)
  else decide (Level.core.num < t.num) && s.mayHaveRead w

/-- The fence stands behind each earlier write of a kind in P: a later access of a kind in Q brings it to the scope first. -/
def State.addFence (s : State) (p q : StreamSet) (t : Level) : State :=
  let f : Fence := { owner := s.hart.ident.hartid, gang := s.hart.ident.gangid, scalar := q.s, vector := q.v, engine := q.e, reach := t }
  { s with writes := s.writes.map fun w => if s.fenced p t w then { w with fences := f :: w.fences } else w }

/-- FENCE (05 R106): accesses of the kinds in Q use no read made before it, and writes of the kinds in P come to the scope before them;
E in P waits for the hart's commands.  An empty Q orders nothing, and then E in P waits for none: the model's choice (log 70). -/
def execFence (p q : StreamSet) (sc : Scope) (s : State) : Out1 :=
  run (do
    if !noStreams p && !noStreams q then
      if p.e then
        if (← get).hart.engineBusy then waitOn .engines
      modify fun s => (s.addFence p q (scopeLevel sc)).withHart (Hart.dropReads q.s q.v)
    retire) s

/-- SPIN (07 R180): no effect on architectural state; the hart is Waiting at it until its next turn (02 R45, R49). -/
def execSpin (s : State) : Out1 :=
  if s.hart.spun then .next ((s.withHart fun h => { h with spun := false }).advance)
  else .next ((s.withHart fun h => { h with spun := true }).waitFor .spin)
/-- LEADHOLD (07 R180): no effect at the trail. -/
def execLeadhold (s : State) : Out1 := .next s.advance

/-! ## Calls to the handler (07 R181) -/

/-- SVC: Supervisor Call with the service number, returning after it. -/
def execSvc (n : Fin 32) (s : State) : Out1 :=
  .next (s.takeTrap { Trap.of .supervisorCall (BitVec.ofNat 64 n.val) with ret := some (s.hart.pc + 4) })
/-- BRK: Breakpoint at the BRK. -/
def execBrk (s : State) : Out1 := .next (s.takeTrap (Trap.of .breakpoint 0))

/-! ## State registers (07 R182, 06 R137) -/

/-- LANEPART (02 R38). -/
def Shape.lanepart (p : Shape) : Nat := bit p.split + 2 * bit p.half + 4 * bit p.forked
/-- HARTMODE (02 R42). -/
def Hart.mode (h : Hart) : Nat := bit h.det + 2 * bit h.leadOn
/-- RSDEPTH (07 R176). -/
def RetStack.depthReg (r : RetStack) : Nat := r.entries.length % 32 * 2 ^ 32 + r.depth.toNat

/-- What RDSR returns (07 R182). -/
def Hart.userReg (h : Hart) : UReg → Word
  | .vl => BitVec.ofNat 64 h.shape.vl
  | .vrows => BitVec.ofNat 64 h.shape.vrows
  | .vtype => h.shape.vtype
  | .vstart => h.shape.vstart.zeroExtend 64
  | .rowstr => h.shape.rowstr
  | .vlcap => BitVec.ofNat 64 h.shape.width
  | .lanepart => BitVec.ofNat 64 h.shape.lanepart
  | .fcsr => h.fcsr.zeroExtend 64
  | .mxflags => h.mxflags.zeroExtend 64
  | .hartmode => BitVec.ofNat 64 h.mode
  | .hartid => h.ident.hartid.zeroExtend 64
  | .gangid => h.ident.gangid.zeroExtend 64
  | .gangsize => h.ident.gangsize.zeroExtend 64
  | .hartidx => h.ident.hartidx.zeroExtend 64
  | .cycles => h.cycles
  | .rsp => slotAddr h.rs.rsp
  | .rsdepth => BitVec.ofNat 64 h.rs.depthReg

/-- Write the RW fields of a user register; the lead follows the two enable bits (01 R12, R23). -/
def Hart.writeUser (h : Hart) (x : Word) : UReg → Option Hart
  | .vstart => some { h with shape := { h.shape with vstart := x.setWidth 15 } }
  | .rowstr => some { h with shape := { h.shape with rowstr := x } }
  | .fcsr => some { h with fcsr := x.setWidth 8 }
  | .mxflags => some { h with mxflags := x.setWidth 2 }
  | .hartmode =>
    let h' := { h with det := x.getLsbD 0, leadOn := x.getLsbD 1 }
    some (if h'.leadEnabled then h' else h'.dropLead)
  | .rsp => some { h with rs := { h.rs with rsp := x.extractLsb' 3 61 } }
  | _ => none

/-- RDSR. -/
def execRdsr (d : SReg) (r : UReg) (s : State) : Out1 := .next ((s.setS d (s.hart.userReg r)).advance)

/-- WRSR; a register with no RW field is Illegal Instruction (06 R137), which the decoder finds already. -/
def execWrsr (r : UReg) (d : SReg) (s : State) : Out1 :=
  run (do
    match s.hart.writeUser (← readS d) r with
    | none => raiseWord .illegalInstruction
    | some h =>
      set { s with hart := h }
      retire) s

/-! ## Barriers (11 R261 to R263) -/

/-- A participant has arrived at the episode of a count of arrivals, or has exited (11 R263). -/
def Hart.reached (x : Fin 4) (n : BitVec 32) (h : Hart) : Bool :=
  h.status == .exited || !(h.barrier[x].arrivals - n).msb

/-- The participants of a gang's barriers on this package (11 R261). -/
def State.participants (s : State) (g : BitVec 32) : List Hart := s.harts.filter fun h => h.launched && h.ident.gangid == g

/-- Every participant here has reached the episode. -/
def State.episodeHere (s : State) (g : BitVec 32) (x : Fin 4) (n : BitVec 32) : Bool :=
  (s.participants g).all fun h => h.reached x n

/-- The episode completes: participants in other packages have arrived by a free choice. -/
def episodeDone (x : Fin 4) : M Bool := do
  let s ← get
  let h := s.hart
  if !s.episodeHere h.ident.gangid x h.barrier[x].arrivals then return false
  if (s.participants h.ident.gangid).length < h.ident.gangsize.toNat then freshBit else return true

def setBarrier (x : Fin 4) (f : Barrier → Barrier) : M Unit :=
  modify fun s => s.withHart fun h => { h with barrier := h.barrier.set x (f h.barrier[x]) }
def setGbarWait (x : Fin 4) (b : Bool) : M Unit :=
  modify fun s => s.withHart fun h =>
    { h with gbarWait := if b then h.gbarWait ||| 1#4 <<< x.val else h.gbarWait &&& ~~~(1#4 <<< x.val) }

/-- The index is declared and the hart is a participant. -/
def barrierIndex (x : Fin 4) : M Unit := do
  let h := (← get).hart
  needConfig (h.launched && decide (x.val < h.declared.barriers))

/-- Gang scope: the narrowest of DIE, PACKAGE and DOMAIN that holds every hart of the gang (05 R116). -/
def State.gangScope (s : State) : Scope :=
  let hs := s.participants s.hart.ident.gangid
  if hs.length < s.hart.ident.gangsize.toNat then .domain
  else if hs.all fun h => h.ident.die == s.hart.ident.die then .die else .package

/-- Arrive, with a release at gang scope (05 R116). -/
def arrive (x : Fin 4) (pend : Bool) : M Unit := do
  releaseAt (← get).gangScope
  setBarrier x fun b => { arrivals := b.arrivals + 1, pending := pend }

/-- GBAR: an arrival already made is not made again. -/
def execGbar (x : Fin 4) (s : State) : Out1 :=
  run (do
    barrierIndex x
    if !s.hart.gbarWait.getLsbD x.val then
      needConfig (!s.hart.barrier[x].pending)
      arrive x false
      setGbarWait x true
    if ← episodeDone x then
      acquireHere
      setGbarWait x false
      retire
    else waitOn .barrier) s

/-- GBARA. -/
def execGbara (x : Fin 4) (s : State) : Out1 :=
  run (do
    barrierIndex x
    needConfig (!s.hart.barrier[x].pending)
    arrive x true
    retire) s

/-- GBARW. -/
def execGbarw (x : Fin 4) (s : State) : Out1 :=
  run (do
    barrierIndex x
    if s.hart.barrier[x].pending then
      if ← episodeDone x then
        acquireHere
        setBarrier x fun b => { b with pending := false }
      else waitOn .barrier
    retire) s

end Sys2Proof.Machine
end

