-- ==== Sys2Proof/Machine/VConfig.lean ====
section
/-! DEFINITION. The configuration instructions SETVL, SETVLX, SETVLI, SETTYPE and SETROWS (02 R31, R37; 08 R189). -/

namespace Sys2Proof.Machine

/-- A length-setting instruction closes the strip: the pending VSTP entries of the strip go (02 R37, 09 R217). -/
def closeStrip : M Unit :=
  modify fun s => s.withHart fun h => { h with strip := h.strip + 1, vstp := [], vstpRun := 0 }

/-- The VLCAP value of the grant that the lead recorded for this instruction with the same request (01 R20). -/
def Hart.recordedWidth (h : Hart) (req rows vtype : Word) : Option Nat :=
  match h.lead.buffer with
  | .grant pc q r t w _ _ :: _ => if pc = h.pc && q = req && r = rows && t = vtype then some w else none
  | _ => none

/-- The grant of a request under a VTYPE and a VLCAP value (02 R31): with VILL it is 0 columns and 1 row. -/
def Shape.grant (p : Shape) (width : Nat) (vtype req rows : Word) : Nat × Nat :=
  if vtVill vtype then (0, 1)
  else (grantVl p.split width req.toNat (vtSew vtype), grantRows rows.toNat (vtGroup vtype))

def setShape (f : Shape → Shape) : M Unit := modify fun s => s.withHart fun h => { h with shape := f h.shape }

/-- SETVL, SETVLX and SETVLI: VTYPE, then VL and VROWS, then sD. -/
def setLength (d : SReg) (vtype req rows : Word) : M Unit := do
  let h := (← get).hart
  let width := (h.recordedWidth req rows vtype).getD h.shape.width
  let g := h.shape.grant width vtype req rows
  setShape fun p => { p with vtype := vtype, vl := g.1, vrows := g.2, granted := width }
  closeStrip
  writeS d (BitVec.ofNat 64 g.1)
  retire

/-- SETVL. -/
def execSetvl (d a b : SReg) (s : State) : Out1 :=
  run (do
    let req ← readS a
    setLength d s.hart.shape.vtype req (← readS b)) s
/-- SETVLX: the requested rows are G. -/
def execSetvlx (d a b : SReg) (s : State) : Out1 :=
  run (do
    let req ← readS a
    let t := vtWrite (← readS b)
    setLength d t req (BitVec.ofNat 64 (vtGroup t))) s
/-- SETVLI. -/
def execSetvli (d a : SReg) (r : Fin 8) (v : BitVec 9) (s : State) : Out1 :=
  run (do
    let req ← readS a
    setLength d (vtWrite (v.zeroExtend 64)) req (BitVec.ofNat 64 (r.val + 1))) s
/-- SETTYPE: VL and VROWS stay, and no strip closes. -/
def execSettype (d a : SReg) (s : State) : Out1 :=
  run (do
    let t := vtWrite (← readS a)
    setShape fun p => { p with vtype := t }
    writeS d t
    retire) s
/-- SETROWS: VL stays, but under VILL the grant is 0 columns and 1 row. -/
def execSetrows (d a : SReg) (s : State) : Out1 :=
  run (do
    let rows ← readS a
    let p := s.hart.shape
    let g := p.grant p.width p.vtype 0 rows
    setShape fun p => { p with vl := if vtVill p.vtype then 0 else p.vl, vrows := g.2 }
    closeStrip
    writeS d (BitVec.ofNat 64 g.2)
    retire) s

end Sys2Proof.Machine
end

