-- ==== Sys2Proof/Machine/VAlu.lean ====
section
/-! DEFINITION. Integer vector arithmetic: major VALU (08 R190, R191). -/

namespace Sys2Proof.Machine

/-- An element-wise instruction: the checks, the rounding mode where one is read, the sweep (08 R186). -/
def elementWise (k : MReg) (rs : List VReg) (further : Shape → Bool) (mode : M Rounding)
    (f : Shape → Rounding → Nat → Nat → M Unit) : M Unit := do
  let p ← checkShape true rs further
  let md ← mode
  sweep p k (f p md)
  completeVector

/-- The mode of an instruction that rounds nothing. -/
def noMode : M Rounding := return .rne

/-- An integer operation of width SEW on a and the second operand. -/
def vint (d a : VReg) (b : Src2) (k : MReg) (f : Nat → Nat → Nat → Nat) : M Unit :=
  elementWise k (d :: a :: src2Groups b) (fun _ => true) noMode fun p _ row col => do
    let w := p.sew
    let x ← readElem a w row col
    let y ← readSrc2 b w row col
    writeElem d w row col (f w x y)

/-- An integer operation on a alone. -/
def vint1 (d a : VReg) (k : MReg) (f : Nat → Nat → Nat) : M Unit :=
  elementWise k [d, a] (fun _ => true) noMode fun p _ row col => do
    writeElem d p.sew row col (f p.sew (← readElem a p.sew row col))

/-- A widening integer operation to 2·SEW (08 R187). -/
def vwide (d a : VReg) (b : Src2) (k : MReg) (f : Int → Int → Int) : M Unit :=
  elementWise k (d :: a :: src2Groups b) (fun p => twoWidths p (2 * p.sew) d (a :: src2Groups b)) noMode
    fun p _ row col => do
      let w := p.sew
      let x ← readElem a w row col
      let y ← readSrc2 b w row col
      writeElem d (2 * w) row col (wrapTo (2 * w) (f (signedOf w x) (signedOf w y)))

/-- Clamp an integer to a range. -/
def clampInt (lo hi x : Int) : Int := if x < lo then lo else if hi < x then hi else x
/-- Clamp to the signed range of a width. -/
def clampSigned (w : Nat) (x : Int) : Nat := wrapTo w (clampInt (-(2 ^ (w - 1) : Nat)) ((2 ^ (w - 1) : Nat) - 1) x)

/-- Signed division and remainder at a width (08 R190, 07 R163). -/
def divAt (w a b : Nat) : Nat :=
  let x := signedOf w a
  let y := signedOf w b
  if y = 0 then (if x < 0 then 2 ^ (w - 1) else 2 ^ (w - 1) - 1) else clampSigned w (x.tdiv y)
def remAt (w a b : Nat) : Nat :=
  let x := signedOf w a
  let y := signedOf w b
  if y = 0 then 0 else wrapTo w (x.tmod y)

/-- VADD. -/
def execVadd (d a : VReg) (b : Src2) (k : MReg) (s : State) : Out1 := run (vint d a b k (fun _ x y => x + y)) s
/-- VSUB. -/
def execVsub (d a : VReg) (b : Src2) (k : MReg) (s : State) : Out1 := run (vint d a b k (fun w x y => x + 2 ^ w - y)) s
/-- VRSUB. -/
def execVrsub (d a : VReg) (b : Src2) (k : MReg) (s : State) : Out1 := run (vint d a b k (fun w x y => y + 2 ^ w - x)) s
/-- VMUL. -/
def execVmul (d a : VReg) (b : Src2) (k : MReg) (s : State) : Out1 := run (vint d a b k (fun _ x y => x * y)) s
/-- VMULH. -/
def execVmulh (d a : VReg) (b : Src2) (k : MReg) (s : State) : Out1 := run (vint d a b k (fun w x y => wrapTo w (signedOf w x * signedOf w y / (2 ^ w : Nat)))) s
/-- VMULHU. -/
def execVmulhu (d a : VReg) (b : Src2) (k : MReg) (s : State) : Out1 := run (vint d a b k (fun w x y => x * y / 2 ^ w)) s
/-- VMACC: vD is an operand. -/
def execVmacc (d a : VReg) (b : Src2) (k : MReg) (s : State) : Out1 :=
  run (elementWise k (d :: a :: src2Groups b) (fun _ => true) noMode fun p _ row col => do
    let w := p.sew
    let x ← readElem a w row col
    let y ← readSrc2 b w row col
    writeElem d w row col ((← readElem d w row col) + x * y)) s
/-- VMIN. -/
def execVmin (d a : VReg) (b : Src2) (k : MReg) (s : State) : Out1 := run (vint d a b k (fun w x y => pickBy (decide (signedOf w x ≤ signedOf w y)) x y)) s
/-- VMAX. -/
def execVmax (d a : VReg) (b : Src2) (k : MReg) (s : State) : Out1 := run (vint d a b k (fun w x y => pickBy (decide (signedOf w y ≤ signedOf w x)) x y)) s
/-- VMINU. -/
def execVminu (d a : VReg) (b : Src2) (k : MReg) (s : State) : Out1 := run (vint d a b k (fun _ x y => Nat.min x y)) s
/-- VMAXU. -/
def execVmaxu (d a : VReg) (b : Src2) (k : MReg) (s : State) : Out1 := run (vint d a b k (fun _ x y => Nat.max x y)) s
/-- VAND. -/
def execVand (d a : VReg) (b : Src2) (k : MReg) (s : State) : Out1 := run (vint d a b k (fun _ x y => x &&& y)) s
/-- VOR. -/
def execVor (d a : VReg) (b : Src2) (k : MReg) (s : State) : Out1 := run (vint d a b k (fun _ x y => x ||| y)) s
/-- VXOR. -/
def execVxor (d a : VReg) (b : Src2) (k : MReg) (s : State) : Out1 := run (vint d a b k (fun _ x y => x ^^^ y)) s
/-- VSLL. -/
def execVsll (d a : VReg) (b : Src2) (k : MReg) (s : State) : Out1 := run (vint d a b k (fun w x y => x * 2 ^ (y % w))) s
/-- VSRL. -/
def execVsrl (d a : VReg) (b : Src2) (k : MReg) (s : State) : Out1 := run (vint d a b k (fun w x y => x / 2 ^ (y % w))) s
/-- VSRA. -/
def execVsra (d a : VReg) (b : Src2) (k : MReg) (s : State) : Out1 := run (vint d a b k (fun w x y => wrapTo w (signedOf w x / (2 ^ (y % w) : Nat)))) s
/-- VSADD. -/
def execVsadd (d a : VReg) (b : Src2) (k : MReg) (s : State) : Out1 := run (vint d a b k (fun w x y => clampSigned w (signedOf w x + signedOf w y))) s
/-- VSADDU. -/
def execVsaddu (d a : VReg) (b : Src2) (k : MReg) (s : State) : Out1 := run (vint d a b k (fun w x y => Nat.min (x + y) (2 ^ w - 1))) s
/-- VSSUB. -/
def execVssub (d a : VReg) (b : Src2) (k : MReg) (s : State) : Out1 := run (vint d a b k (fun w x y => clampSigned w (signedOf w x - signedOf w y))) s
/-- VSSUBU. -/
def execVssubu (d a : VReg) (b : Src2) (k : MReg) (s : State) : Out1 := run (vint d a b k (fun _ x y => x - y)) s
/-- VCLZ. -/
def execVclz (d a : VReg) (k : MReg) (s : State) : Out1 := run (vint1 d a k leadingZeros) s
/-- VPOPC. -/
def execVpopc (d a : VReg) (k : MReg) (s : State) : Out1 := run (vint1 d a k popCount) s
/-- VWADD. -/
def execVwadd (d a : VReg) (b : Src2) (k : MReg) (s : State) : Out1 := run (vwide d a b k (fun x y => x + y)) s
/-- VWMUL. -/
def execVwmul (d a : VReg) (b : Src2) (k : MReg) (s : State) : Out1 := run (vwide d a b k (fun x y => x * y)) s
/-- VNSHR: a is read at 2·SEW, shifted with sign fill and clamped. -/
def execVnshr (d a : VReg) (b : Src2) (k : MReg) (s : State) : Out1 :=
  run (elementWise k (d :: a :: src2Groups b) (fun p => twoWidths p (2 * p.sew) d [a]) noMode fun p _ row col => do
    let w := p.sew
    let x ← readElem a (2 * w) row col
    let y ← readSrc2 b w row col
    writeElem d w row col (clampSigned w (signedOf (2 * w) x / (2 ^ (y % (2 * w)) : Nat)))) s
/-- VMERGE: every position from VSTART on takes b where the mask bit is 1, else a (08 R191). -/
def execVmerge (d a : VReg) (b : Src2) (k : MReg) (s : State) : Out1 :=
  run (do
    let p ← checkShape true (d :: a :: src2Groups b) fun _ => true
    let w := p.sew
    each (fun x => atPosition x.1 x.2 do
      let v ← if ← readMask k x.1 x.2 then readSrc2 b w x.1 x.2 else readElem a w x.1 x.2
      writeElem d w x.1 x.2 v) p.positions
    completeVector) s
/-- VID. -/
def execVid (d : VReg) (k : MReg) (s : State) : Out1 :=
  run (elementWise k [d] (fun _ => true) noMode fun p _ row col => writeElem d p.sew row col col) s
/-- VMV. -/
def execVmv (d : VReg) (b : Src2) (k : MReg) (s : State) : Out1 :=
  run (elementWise k (d :: src2Groups b) (fun _ => true) noMode fun p _ row col => do
    writeElem d p.sew row col (← readSrc2 b p.sew row col)) s
/-- VDIV. -/
def execVdiv (d a : VReg) (b : Src2) (k : MReg) (s : State) : Out1 := run (vint d a b k divAt) s
/-- VREM. -/
def execVrem (d a : VReg) (b : Src2) (k : MReg) (s : State) : Out1 := run (vint d a b k remAt) s

end Sys2Proof.Machine
end

