-- ==== Sys2Proof/Machine/VFpu.lean ====
section
/-! DEFINITION. Floating-point vector arithmetic: majors VFPU and VFMA (08 R192 to R194). -/

namespace Sys2Proof.Machine

/-- A floating-point instruction needs SEW 16 or more (08 R186). -/
def fpShape (p : Shape) : Bool := decide (1 ≤ vtSewCode p.vtype)
def Shape.fmt (p : Shape) : FpFmt := elementFormat p.vtype

/-- The wide format (08 R192). -/
def wideFormat : FpFmt → FpFmt
  | .fp32 => .fp64
  | _ => .fp32

/-- A floating-point operation on a and the second operand. -/
def vfp (mode : M Rounding) (d a : VReg) (b : Src2) (k : MReg) (f : FpFmt → Rounding → Nat → Nat → Nat × Flags) : M Unit :=
  elementWise k (d :: a :: src2Groups b) fpShape mode fun p md row col => do
    let w := p.sew
    let x ← readElem a w row col
    let y ← readSrc2 b w row col
    writeRounded d w row col (f p.fmt md x y)

/-- A floating-point operation on a alone. -/
def vfp1 (mode : M Rounding) (d a : VReg) (k : MReg) (f : FpFmt → Rounding → Nat → Nat × Flags) : M Unit :=
  elementWise k [d, a] fpShape mode fun p md row col => do
    writeRounded d p.sew row col (f p.fmt md (← readElem a p.sew row col))

/-- A widening floating-point operation (08 R187, R192). -/
def vfwide (d a : VReg) (b : Src2) (k : MReg) (f : Rounding → Num → Num → Num × Flags) : M Unit :=
  elementWise k (d :: a :: src2Groups b)
    (fun p => fpShape p && twoWidths p (2 * p.sew) d (a :: src2Groups b)) dynamicRounding fun p md row col => do
      let w := p.sew
      let x ← readElem a w row col
      let y ← readSrc2 b w row col
      writeRounded d (2 * w) row col (rounded (wideFormat p.fmt) md (f md (decodeFp p.fmt x) (decodeFp p.fmt y)))

/-! ## Estimates (08 R193) -/

/-- The integer nearest to y, from floor(2y). -/
def halfUp (twice : Nat) : Nat := (twice + 1) / 2
def freceTable (i : Nat) : Nat := halfUp (2 ^ 25 / (8192 + 2 * i + 1))
/-- 2048 / √u with u = N / 4096. -/
def frsqeTable (i : Nat) : Nat := halfUp (isqrt (2 ^ 36 / ((4097 + 2 * (i % 2048)) * 2 ^ (i / 2048))))

/-- floor((m − 1) × 2^n) for a magnitude of integer significand `x`, normalised to 1 ≤ m < 2. -/
def fracBits (n x : Nat) : Nat := x * 2 ^ n / 2 ^ Nat.log2 x - 2 ^ n

def frece (f : FpFmt) (a : Nat) : Nat × Flags :=
  match decodeFp f a with
  | .nan q => (f.nan, flagIf q fNV)
  | .inf neg => (if neg then f.signBit else 0, 0)
  | .zero neg => ((if neg then f.signBit else 0) + f.inf, fDZ)
  | .fin neg m e => roundTo f .rne true (.fin neg (freceTable (fracBits 12 m)) (-11 - (Nat.log2 m + e)))

def frsqe (f : FpFmt) (a : Nat) : Nat × Flags :=
  match decodeFp f a with
  | .nan q => (f.nan, flagIf q fNV)
  | .zero neg => ((if neg then f.signBit else 0) + f.inf, fDZ)
  | .inf false => (0, 0)
  | .inf true => (f.nan, fNV)
  | .fin true _ _ => (f.nan, fNV)
  | .fin false m e =>
    let l : Int := Nat.log2 m + e
    let p := l % 2
    roundTo f .rne true (.fin false (frsqeTable (p.toNat * 2048 + fracBits 11 m)) (-11 - (l - p) / 2))

/-! ## Exponents -/

/-- VFSCALE: a × 2^n. -/
def fscale (f : FpFmt) (md : Rounding) (a : Nat) (n : Int) : Nat × Flags :=
  let x := decodeFp f a
  rounded f md (x.scale n, sigFlags [x])

/-- VFEXPO, at SEW bits. -/
def fexpo (f : FpFmt) (a : Nat) : Nat × Flags :=
  let w := f.bits
  match decodeFp f a with
  | .nan q => (2 ^ (w - 1) - 1, flagIf q fNV)
  | .inf _ => (2 ^ (w - 1) - 1, 0)
  | .zero _ => (2 ^ (w - 1), 0)
  | .fin _ m e => (wrapTo w (Nat.log2 m + e), 0)

/-! ## VFPU -/

/-- VFADD. -/
def execVfadd (d a : VReg) (b : Src2) (k : MReg) (s : State) : Out1 := run (vfp dynamicRounding d a b k (fpAdd)) s
/-- VFSUB. -/
def execVfsub (d a : VReg) (b : Src2) (k : MReg) (s : State) : Out1 := run (vfp dynamicRounding d a b k (fpSub)) s
/-- VFMUL. -/
def execVfmul (d a : VReg) (b : Src2) (k : MReg) (s : State) : Out1 := run (vfp dynamicRounding d a b k (fpMul)) s
/-- VFDIV. -/
def execVfdiv (d a : VReg) (b : Src2) (k : MReg) (s : State) : Out1 := run (vfp dynamicRounding d a b k (fpDiv)) s
/-- VFSQRT. -/
def execVfsqrt (d a : VReg) (k : MReg) (s : State) : Out1 := run (vfp1 dynamicRounding d a k fpSqrt) s
/-- VFRSQE (08 R193). -/
def execVfrsqe (d a : VReg) (k : MReg) (s : State) : Out1 := run (vfp1 noMode d a k fun f _ x => frsqe f x) s
/-- VFRECE (08 R193). -/
def execVfrece (d a : VReg) (k : MReg) (s : State) : Out1 := run (vfp1 noMode d a k fun f _ x => frece f x) s
/-- VFMIN. -/
def execVfmin (d a : VReg) (b : Src2) (k : MReg) (s : State) : Out1 := run (vfp noMode d a b k (fun f _ x y => minMaxCode f false x y)) s
/-- VFMAX. -/
def execVfmax (d a : VReg) (b : Src2) (k : MReg) (s : State) : Out1 := run (vfp noMode d a b k (fun f _ x y => minMaxCode f true x y)) s
/-- VFCOPYS. -/
def execVfcopys (d a : VReg) (b : Src2) (k : MReg) (s : State) : Out1 := run (vfp noMode d a b k (fun f _ x y => (fpSign f (fun _ q => q) x y, 0))) s
/-- VFCOPYNS. -/
def execVfcopyns (d a : VReg) (b : Src2) (k : MReg) (s : State) : Out1 := run (vfp noMode d a b k (fun f _ x y => (fpSign f (fun _ q => !q) x y, 0))) s
/-- VFXORS. -/
def execVfxors (d a : VReg) (b : Src2) (k : MReg) (s : State) : Out1 := run (vfp noMode d a b k (fun f _ x y => (fpSign f (fun p q => p ^^ q) x y, 0))) s
/-- VFSCALE. -/
def execVfscale (d a : VReg) (b : Src2) (k : MReg) (s : State) : Out1 := run (vfp dynamicRounding d a b k (fun f md x y => fscale f md x (signedOf f.bits y))) s
/-- VFEXPO. -/
def execVfexpo (d a : VReg) (k : MReg) (s : State) : Out1 := run (vfp1 noMode d a k fun f _ x => fexpo f x) s
/-- VFCLASS. -/
def execVfclass (d a : VReg) (k : MReg) (s : State) : Out1 := run (vfp1 noMode d a k fun f _ x => (fpClass f x, 0)) s
/-- VFWADD. -/
def execVfwadd (d a : VReg) (b : Src2) (k : MReg) (s : State) : Out1 :=
  run (vfwide d a b k fun md x y => addNum (isRdn md) x y) s
/-- VFWMUL. -/
def execVfwmul (d a : VReg) (b : Src2) (k : MReg) (s : State) : Out1 := run (vfwide d a b k fun _ x y => mulNum x y) s

/-! ## VFMA (08 R194) -/

/-- The fused forms of width SEW: the product and the addend negated or not. -/
def vfused (np nc : Bool) (d a b c : VReg) (k : MReg) : M Unit :=
  elementWise k [d, a, b, c] fpShape dynamicRounding fun p md row col => do
    let w := p.sew
    let x ← readElem a w row col
    let y ← readElem b w row col
    let z ← readElem c w row col
    writeRounded d w row col (fpFma p.fmt md np nc x y z)

/-- VFMA. -/
def execVfma (d a b c : VReg) (k : MReg) (s : State) : Out1 := run (vfused false false d a b c k) s
/-- VFMS. -/
def execVfms (d a b c : VReg) (k : MReg) (s : State) : Out1 := run (vfused false true d a b c k) s
/-- VFNMA. -/
def execVfnma (d a b c : VReg) (k : MReg) (s : State) : Out1 := run (vfused true true d a b c k) s
/-- VFNMS. -/
def execVfnms (d a b c : VReg) (k : MReg) (s : State) : Out1 := run (vfused true false d a b c k) s
/-- VFWMA: vC and vD have the wide width. -/
def execVfwma (d a b c : VReg) (k : MReg) (s : State) : Out1 :=
  run (elementWise k [d, a, b, c] (fun p => fpShape p && twoWidths p (2 * p.sew) d [a, b]) dynamicRounding
    fun p md row col => do
      let w := p.sew
      let f := p.fmt
      let x ← readElem a w row col
      let y ← readElem b w row col
      let z ← readElem c (2 * w) row col
      let g := wideFormat f
      writeRounded d (2 * w) row col (rounded g md (fmaNum (isRdn md) (decodeFp f x) (decodeFp f y) (decodeFp g z)))) s
/-- VIMAC. -/
def execVimac (d a b c : VReg) (k : MReg) (s : State) : Out1 :=
  run (elementWise k [d, a, b, c] (fun _ => true) noMode fun p _ row col => do
    let w := p.sew
    let x ← readElem a w row col
    let y ← readElem b w row col
    writeElem d w row col (x * y + (← readElem c w row col))) s

end Sys2Proof.Machine
end

