-- ==== Sys2Proof/Machine/VMask.lean ====
section
/-! DEFINITION. Compares and mask instructions: major VMASK (08 R188, R195, R196). -/

namespace Sys2Proof.Machine

/-! ## Compares (08 R195) -/

/-- An integer compare to a mask register. -/
def vcmp (j : MReg) (a : VReg) (b : Src2) (k : MReg) (f : Nat → Nat → Nat → Bool) : M Unit :=
  elementWise k (a :: src2Groups b) (fun _ => true) noMode fun p _ row col => do
    let w := p.sew
    let x ← readElem a w row col
    let y ← readSrc2 b w row col
    writeMask j row col (f w x y)

/-- A floating-point compare to a mask register. -/
def vfcmp (j : MReg) (a : VReg) (b : Src2) (k : MReg) (f : FpFmt → Nat → Nat → Bool × Flags) : M Unit :=
  elementWise k (a :: src2Groups b) fpShape noMode fun p _ row col => do
    let w := p.sew
    let x ← readElem a w row col
    let r := f p.fmt x (← readSrc2 b w row col)
    writeMask j row col r.1
    raiseFlags r.2

/-- Unordered: either operand is a NaN. -/
def fpUnordered (f : FpFmt) (a b : Nat) : Bool × Flags :=
  let x := decodeFp f a
  let y := decodeFp f b
  (x.isNaN || y.isNaN, sigFlags [x, y])

/-- VCMP.EQ. -/
def execVcmpEq (j : MReg) (a : VReg) (b : Src2) (k : MReg) (s : State) : Out1 := run (vcmp j a b k (fun _ x y => x == y)) s
/-- VCMP.NE. -/
def execVcmpNe (j : MReg) (a : VReg) (b : Src2) (k : MReg) (s : State) : Out1 := run (vcmp j a b k (fun _ x y => x != y)) s
/-- VCMP.LT. -/
def execVcmpLt (j : MReg) (a : VReg) (b : Src2) (k : MReg) (s : State) : Out1 := run (vcmp j a b k (fun w x y => decide (signedOf w x < signedOf w y))) s
/-- VCMP.LE. -/
def execVcmpLe (j : MReg) (a : VReg) (b : Src2) (k : MReg) (s : State) : Out1 := run (vcmp j a b k (fun w x y => decide (signedOf w x ≤ signedOf w y))) s
/-- VCMP.LTU. -/
def execVcmpLtu (j : MReg) (a : VReg) (b : Src2) (k : MReg) (s : State) : Out1 := run (vcmp j a b k (fun _ x y => decide (x < y))) s
/-- VCMP.LEU. -/
def execVcmpLeu (j : MReg) (a : VReg) (b : Src2) (k : MReg) (s : State) : Out1 := run (vcmp j a b k (fun _ x y => decide (x ≤ y))) s
/-- VFCMP.EQ. -/
def execVfcmpEq (j : MReg) (a : VReg) (b : Src2) (k : MReg) (s : State) : Out1 := run (vfcmp j a b k (fun f x y => fpCompare f false relEq x y)) s
/-- VFCMP.LT. -/
def execVfcmpLt (j : MReg) (a : VReg) (b : Src2) (k : MReg) (s : State) : Out1 := run (vfcmp j a b k (fun f x y => fpCompare f true relLt x y)) s
/-- VFCMP.LE. -/
def execVfcmpLe (j : MReg) (a : VReg) (b : Src2) (k : MReg) (s : State) : Out1 := run (vfcmp j a b k (fun f x y => fpCompare f true relLe x y)) s
/-- VFCMP.UN. -/
def execVfcmpUn (j : MReg) (a : VReg) (b : Src2) (k : MReg) (s : State) : Out1 := run (vfcmp j a b k (fpUnordered)) s

/-! ## Mask operations (08 R196) -/

/-- Bit of a mask register at a position, k0 reading all ones. -/
def kBit (x : MReg) (row col : Nat) : M Bool := readMask x row col

/-- A bitwise operation on two mask registers. -/
def klogic (j x y k : MReg) (f : Bool → Bool → Bool) : M Unit :=
  elementWise k [] (fun _ => true) noMode fun _ _ row col => do
    let p ← kBit x row col
    writeMask j row col (f p (← kBit y row col))

/-- The bits of a mask register, and which positions are active: a source bit is 0 where inactive (08 R188). -/
def sourceBits (p : Shape) (x k : MReg) : M ((Nat → Nat → Bool) × (Nat → Nat → Bool)) := do
  let act ← activeMask p k
  let m ← readK x
  return (fun row col => act row col && maskBit m (row * 1024 + col), act)

/-- Exclusive prefix OR of a row. -/
def prefixOr : Bool → List Bool → List Bool
  | _, [] => []
  | acc, b :: bs => acc :: prefixOr (acc || b) bs
/-- Inclusive prefix OR of a row. -/
def prefixOrIn : Bool → List Bool → List Bool
  | _, [] => []
  | acc, b :: bs => (acc || b) :: prefixOrIn (acc || b) bs

/-- An instruction that maps the source bits of each row, not element-wise. -/
def kscan (j x k : MReg) (f : List Bool → List Bool) : M Unit := do
  let p ← checkShape false [] fun _ => true
  let (src, act) ← sourceBits p x k
  each (fun row =>
    each (fun z => if act row z.1 then writeMask j row z.1 z.2 else pure ())
      ((upTo p.vl).zip (f ((upTo p.vl).map (src row))))) (upTo p.vrows)
  completeVector

/-- KAND. -/
def execKand (j x y k : MReg) (s : State) : Out1 := run (klogic j x y k fun p q => p && q) s
/-- KOR. -/
def execKor (j x y k : MReg) (s : State) : Out1 := run (klogic j x y k fun p q => p || q) s
/-- KXOR. -/
def execKxor (j x y k : MReg) (s : State) : Out1 := run (klogic j x y k fun p q => p ^^ q) s
/-- KANDN. -/
def execKandn (j x y k : MReg) (s : State) : Out1 := run (klogic j x y k fun p q => p && !q) s
/-- KPREX. -/
def execKprex (j x k : MReg) (s : State) : Out1 := run (kscan j x k (prefixOr false)) s
/-- KPRIN. -/
def execKprin (j x k : MReg) (s : State) : Out1 := run (kscan j x k (prefixOrIn false)) s
/-- KSUFIN. -/
def execKsufin (j x k : MReg) (s : State) : Out1 :=
  run (kscan j x k fun l => (prefixOrIn false l.reverse).reverse) s

/-- The active positions in sweep order where the source bit is 1. -/
def setPositions (p : Shape) (src : Nat → Nat → Bool) : List (Nat × Nat) := p.allPositions.filter fun x => src x.1 x.2

/-- KPOPC. -/
def execKpopc (d : SReg) (x k : MReg) (s : State) : Out1 :=
  run (do
    let p ← checkShape false [] fun _ => true
    let (src, _) ← sourceBits p x k
    writeS d (BitVec.ofNat 64 (setPositions p src).length)
    completeVector) s
/-- KFIRST. -/
def execKfirst (d : SReg) (x k : MReg) (s : State) : Out1 :=
  run (do
    let p ← checkShape false [] fun _ => true
    let (src, _) ← sourceBits p x k
    writeS d (match setPositions p src with
      | [] => -1
      | y :: _ => BitVec.ofNat 64 (y.1 * 1024 + y.2))
    completeVector) s
/-- KMOV. -/
def execKmov (j x k : MReg) (s : State) : Out1 :=
  run (elementWise k [] (fun _ => true) noMode fun _ _ row col => do writeMask j row col (← kBit x row col)) s
/-- KTOV. -/
def execKtov (d : VReg) (x k : MReg) (s : State) : Out1 :=
  run (elementWise k [d] (fun _ => true) noMode fun p _ row col => do
    writeElem d p.sew row col (bit (← kBit x row col))) s
/-- VTOK. -/
def execVtok (j : MReg) (a : VReg) (k : MReg) (s : State) : Out1 :=
  run (elementWise k [a] (fun _ => true) noMode fun p _ row col => do
    writeMask j row col ((← readElem a p.sew row col) != 0)) s
/-- KSET. -/
def execKset (j k : MReg) (s : State) : Out1 :=
  run (elementWise k [] (fun _ => true) noMode fun _ _ row col => writeMask j row col true) s

end Sys2Proof.Machine
end

