-- ==== Sys2Proof/Machine/VXform.lean ====
section
/-! DEFINITION. Conversion, reductions, scans and selection: major VXFORM (08 R197 to R201; 03 R69 to R71). -/

namespace Sys2Proof.Machine

/-! ## VCVT (08 R197) -/

/-- What a format code converts to (03 R56). -/
inductive CvtDst
  | float (f : FpFmt)
  | int (signed : Bool) (w : Nat)
  | scale
  | none
  deriving DecidableEq, Repr

def cvtDst : Fmt → CvtDst
  | .fp64 => .float .fp64 | .fp32 => .float .fp32 | .fp16 => .float .fp16 | .bf16 => .float .bf16 | .e4m3 => .float .e4m3
  | .e5m2 => .float .e5m2 | .e2m1 => .float .e2m1
  | .int8 => .int true 8 | .uint8 => .int false 8 | .int16 => .int true 16 | .uint16 => .int false 16
  | .int32 => .int true 32 | .uint32 => .int false 32 | .int64 => .int true 64 | .uint64 => .int false 64
  | .e8m0 => .scale
  | .mxE4m3 | .mxE5m2 | .mxE2m1 => .none

def CvtDst.width : CvtDst → Nat
  | .float f => f.bits
  | .int _ w => w
  | .scale => 8
  | .none => 8

/-- The mode in which a conversion rounds; E8M0 ignores it. -/
def cvtMode (t : CvtDst) (m : Rm) : M Rounding :=
  match t with
  | .scale => return .rne
  | _ => roundingOf m

/-- One conversion: of an element of a floating-point format, or in the integer form of a signed integer. -/
def cvtElem (t : CvtDst) (src : FpFmt) (sat : Bool) (md : Rounding) (x : Nat) : Nat × Flags :=
  match t with
  | .float f => if f = src then roundTo f md sat (Num.ofInt (signedOf src.bits x) 0) else fpConvert src f md sat x
  | .int sg w => roundInt sg w md (decodeFp src x)
  | .scale => roundE8m0 (decodeFp src x)
  | .none => (0, 0)

/-- The destination width obeys R187 where it is not SEW. -/
def cvtFits (t : CvtDst) (d a : VReg) (p : Shape) : Bool :=
  t.width == p.sew || twoWidths p (max t.width p.sew) d [a]

/-- VCVT; a code that is no conversion is Illegal Instruction, which the decoder finds already. -/
def execVcvt (c : Fmt) (m : Rm) (sat : Bool) (d a : VReg) (k : MReg) (s : State) : Out1 :=
  run (do
    let t := cvtDst c
    need_ (t != .none) .illegalInstruction
    elementWise k [d, a] (cvtFits t d a) (cvtMode t m) fun p md row col => do
      let x ← readElem a p.sew row col
      writeRounded d t.width row col (cvtElem t p.fmt sat (atDither md row col) x)) s

/-! ## Reductions (03 R69 to R71; 08 R198) -/

/-- A value of a canonical group with the flags of the operations that made it. -/
abbrev Val := Nat × Flags

/-- The 64 values of a group of a row: the identity where a position takes no part.  A register in error is met with VSTART 0 (log 68). -/
def groupValues (p : Shape) (b : VReg) (act : Nat → Nat → Bool) (ident : Nat) (row g : Nat) : M (List Val) :=
  collect (fun i => do
    let col := 64 * g + i
    if col < p.vl && act row col then return (← readElem b p.sew row col, 0) else return (ident, 0)) (upTo 64)

/-- `group_sum`. -/
def groupSum (op : Val → Val → Val) (xs : List Val) : Val := (groupTree op xs).headD (0, 0)

/-- The groups of a row. -/
def Shape.groupsOf (p : Shape) : List Nat := upTo ((p.vl + 63) / 64)

/-- Combine groups left to right. -/
def reduceGroups (p : Shape) (b : VReg) (act : Nat → Nat → Bool) (ident : Nat) (op : Val → Val → Val) (row : Nat) :
    List Nat → Val → M Val
  | [], t => return t
  | g :: gs, t => do
    let xs ← groupValues p b act ident row g
    reduceGroups p b act ident op row gs (op t (groupSum op xs))

/-- `row_reduce`. -/
def rowReduce (p : Shape) (b : VReg) (act : Nat → Nat → Bool) (ident : Nat) (op : Val → Val → Val) (seed : Val) (row : Nat) : M Val :=
  reduceGroups p b act ident op row p.groupsOf seed

/-- Rows chained in order. -/
def chainRows (f : Val → Nat → M Val) : List Nat → Val → M Val
  | [], t => return t
  | row :: rows, t => do chainRows f rows (← f t row)

/-- A reduction: identity and operation from the shape and the mode, an integer operation or not. -/
def reduce (t : RedDst) (b : VReg) (k : MReg) (further : Shape → Bool) (mode : M Rounding) (isInt : Bool)
    (ident : Shape → Nat) (op : Shape → Rounding → Val → Val → Val) : M Unit := do
  let groups := match t with
    | .scalar _ _ => [b]
    | .perRow d => [d, b]
  let p ← checkShape false groups further
  let md ← mode
  let act ← activeMask p k
  let w := p.sew
  let one := rowReduce p b act (ident p) (op p md)
  match t with
  | .scalar d a =>
    let r ← chainRows one (upTo p.vrows) ((← readS a).toNat % 2 ^ w, 0)
    writeS d (if isInt then sextTo w r.1 else BitVec.ofNat 64 r.1)
    raiseFlags r.2
  | .perRow d =>
    let rs ← collect (fun row => do one (← readElem d w row 0, 0) row) (upTo p.vrows)
    each (fun x => writeRounded d w x.1 0 x.2) ((upTo p.vrows).zip rs)
  completeVector

/-- An integer operation on values. -/
def intOp (f : Nat → Nat → Nat → Nat) (p : Shape) (_ : Rounding) (x y : Val) : Val := (f p.sew x.1 y.1 % 2 ^ p.sew, x.2 ||| y.2)
/-- A floating-point operation on values. -/
def fpOp (f : FpFmt → Rounding → Nat → Nat → Nat × Flags) (p : Shape) (md : Rounding) (x y : Val) : Val :=
  let r := f p.fmt md x.1 y.1
  (r.1, x.2 ||| y.2 ||| r.2)

/-- −0.0, the identity of a floating-point sum. -/
def negZero (p : Shape) : Nat := 2 ^ (p.sew - 1)
def sumOp (_ x y : Nat) : Nat := x + y
def maxOp (w x y : Nat) : Nat := pickBy (decide (signedOf w y ≤ signedOf w x)) x y
def minOp (w x y : Nat) : Nat := pickBy (decide (signedOf w x ≤ signedOf w y)) x y
def fmaxOp (f : FpFmt) (_ : Rounding) (x y : Nat) : Nat × Flags := minMaxCode f true x y
def fminOp (f : FpFmt) (_ : Rounding) (x y : Nat) : Nat × Flags := minMaxCode f false x y

/-- VREDSUM. -/
def execVredsum (t : RedDst) (b : VReg) (k : MReg) (s : State) : Out1 :=
  run (reduce t b k (fun _ => true) noMode true (fun _ => 0) (intOp sumOp)) s
/-- VREDMAX. -/
def execVredmax (t : RedDst) (b : VReg) (k : MReg) (s : State) : Out1 :=
  run (reduce t b k (fun _ => true) noMode true (fun p => 2 ^ (p.sew - 1)) (intOp maxOp)) s
/-- VREDMIN. -/
def execVredmin (t : RedDst) (b : VReg) (k : MReg) (s : State) : Out1 :=
  run (reduce t b k (fun _ => true) noMode true (fun p => 2 ^ (p.sew - 1) - 1) (intOp minOp)) s
/-- VREDAND. -/
def execVredand (t : RedDst) (b : VReg) (k : MReg) (s : State) : Out1 :=
  run (reduce t b k (fun _ => true) noMode true (fun p => 2 ^ p.sew - 1) (intOp fun _ x y => x &&& y)) s
/-- VREDOR. -/
def execVredor (t : RedDst) (b : VReg) (k : MReg) (s : State) : Out1 :=
  run (reduce t b k (fun _ => true) noMode true (fun _ => 0) (intOp fun _ x y => x ||| y)) s
/-- VREDXOR. -/
def execVredxor (t : RedDst) (b : VReg) (k : MReg) (s : State) : Out1 :=
  run (reduce t b k (fun _ => true) noMode true (fun _ => 0) (intOp fun _ x y => x ^^^ y)) s
/-- VFREDSUM. -/
def execVfredsum (t : RedDst) (b : VReg) (k : MReg) (s : State) : Out1 :=
  run (reduce t b k fpShape dynamicRounding false (negZero) (fpOp fpAdd)) s
/-- VFREDMAX. -/
def execVfredmax (t : RedDst) (b : VReg) (k : MReg) (s : State) : Out1 :=
  run (reduce t b k fpShape noMode false (fun p => p.fmt.signBit + p.fmt.inf) (fpOp fmaxOp)) s
/-- VFREDMIN. -/
def execVfredmin (t : RedDst) (b : VReg) (k : MReg) (s : State) : Out1 :=
  run (reduce t b k fpShape noMode false (fun p => p.fmt.inf) (fpOp fminOp)) s

/-! ## Scans (03 R70, 08 R199) -/

/-- The prefixes of the groups of a row, with the columns they belong to. -/
def scanGroups (p : Shape) (b : VReg) (act : Nat → Nat → Bool) (ident : Nat) (op : Val → Val → Val) (row : Nat) :
    List Nat → Val → M (List (Nat × Val))
  | [], _ => return []
  | g :: gs, carry => do
    let ys := (scanTree op (← groupValues p b act ident row g)).map (op carry)
    let rest ← scanGroups p b act ident op row gs (ys.getLastD carry)
    return ((upTo 64).map fun i => 64 * g + i).zip ys ++ rest

/-- A scan; the flags are those of the operations that make an active position's prefix. -/
def scan (d : VReg) (a : SReg) (b : VReg) (k : MReg) (further : Shape → Bool) (mode : M Rounding) (ident : Shape → Nat)
    (op : Shape → Rounding → Val → Val → Val) : M Unit := do
  let p ← checkShape false [d, b] further
  let md ← mode
  let act ← activeMask p k
  let w := p.sew
  let seed : Val := ((← readS a).toNat % 2 ^ w, 0)
  let rows ← collect (fun row => do
    let ys ← scanGroups p b act (ident p) (op p md) row p.groupsOf seed
    return (ys.filter fun y => act row y.1).map fun y => (row, y.1, y.2)) (upTo p.vrows)
  each (fun y => writeRounded d w y.1 y.2.1 y.2.2) rows.flatten
  completeVector

/-- VSCAN. -/
def execVscan (d : VReg) (a : SReg) (b : VReg) (k : MReg) (s : State) : Out1 :=
  run (scan d a b k (fun _ => true) noMode (fun _ => 0) (intOp sumOp)) s
/-- VFSCAN. -/
def execVfscan (d : VReg) (a : SReg) (b : VReg) (k : MReg) (s : State) : Out1 :=
  run (scan d a b k fpShape dynamicRounding negZero (fpOp fpAdd)) s

/-! ## Selection (08 R200, R201) -/

/-- The selected columns of a row. -/
def selectedCols (p : Shape) (act : Nat → Nat → Bool) (row : Nat) : List Nat := (upTo p.vl).filter (act row)

/-- Copy elements between columns of a row, all sources read before any destination is written.  A register in error is met with VSTART 0
(log 68). -/
def moveElems (p : Shape) (d a : VReg) (moves : Nat → List (Nat × Nat)) : M Unit := do
  let rows ← collect (fun row => collect (fun x => do
    return (row, x.2, ← readElem a p.sew row x.1)) (moves row)) (upTo p.vrows)
  each (fun y => writeElem d p.sew y.1 y.2.1 y.2.2) rows.flatten
  completeVector

/-- VCOMPRESS. -/
def execVcompress (d a : VReg) (k : MReg) (s : State) : Out1 :=
  run (do
    let p ← checkShape false [d, a] fun _ => true
    let act ← activeMask p k
    moveElems p d a fun row => let cs := selectedCols p act row; cs.zip (upTo cs.length)) s
/-- VEXPAND. -/
def execVexpand (d a : VReg) (k : MReg) (s : State) : Out1 :=
  run (do
    let p ← checkShape false [d, a] fun _ => true
    let act ← activeMask p k
    moveElems p d a fun row => let cs := selectedCols p act row; (upTo cs.length).zip cs) s

/-- Keys in numeric order, −0 below +0. -/
def keyOrder (f : FpFmt) (x : Nat) : Int := if bitAt x (f.bits - 1) then -(x % f.signBit : Nat) - 1 else x

/-- VTOPK. -/
def execVtopk (d a : VReg) (b : SReg) (k : MReg) (s : State) : Out1 :=
  run (do
    let p ← checkShape false [d, a] fun p => decide (2 ≤ vtSewCode p.vtype) && p.vrows == 1 && decide (d.val ≤ 30)
    let act ← activeMask p k
    let f := p.fmt
    let w := p.sew
    let want := min (← readS b).toNat p.vl
    let keys ← collect (fun col => do return (← readElem a w 0 col, col)) (selectedCols p act 0)
    let cand := sortBy (fun x y => decide (keyOrder f y.1 ≤ keyOrder f x.1)) (keys.filter fun x => !(decodeFp f x.1).isNaN)
    let found := cand.take want
    let pad := List.replicate (want - found.length) (f.signBit + f.inf, 2 ^ w - 1)
    let e : VReg := Fin.ofNat 32 (d.val + 1)
    each (fun x => do
      writeElem d w 0 x.1 x.2.1
      writeElem e w 0 x.1 x.2.2) ((upTo want).zip (found ++ pad))
    raiseFlags (sigFlags (keys.map fun x => decodeFp f x.1))
    writeS b (BitVec.ofNat 64 found.length)
    completeVector) s

end Sys2Proof.Machine
end

