-- ==== Sys2Proof/Machine/VPerm.lean ====
section
/-! DEFINITION. Moving elements: major VPERM (08 R202). -/

namespace Sys2Proof.Machine

/-- Give each active position of the destination a value, or leave it; all sources are read first.  A source register in error is met with
VSTART 0, as the instruction is not element-wise: the model's choice (log 68). -/
def permute (d : VReg) (rs : List VReg) (k : MReg) (f : Shape → Nat → Nat → M (Option Nat)) : M Unit := do
  let p ← checkShape false (d :: rs) fun _ => true
  let act ← activeMask p k
  let xs ← collect (fun x => do return (x, ← f p x.1 x.2)) (p.allPositions.filter fun x => act x.1 x.2)
  each (fun y => match y.2 with
    | some v => writeElem d p.sew y.1.1 y.1.2 v
    | none => pure ()) xs
  completeVector

/-- The amount of a slide: sB unsigned, or the immediate. -/
def slideAmount (b : Src2) : M Nat :=
  match b with
  | .vs r => do return (← readS r).toNat
  | .vi i => return i.toNat
  | .vv _ => raiseWord .illegalInstruction

/-- VSLIDEUP. -/
def execVslideup (d a : VReg) (b : Src2) (k : MReg) (s : State) : Out1 :=
  run (permute d [a] k fun p row col => do
    let n ← slideAmount b
    if n ≤ col then return some (← readElem a p.sew row (col - n)) else return none) s
/-- VSLIDEDN. -/
def execVslidedn (d a : VReg) (b : Src2) (k : MReg) (s : State) : Out1 :=
  run (permute d [a] k fun p row col => do
    let n ← slideAmount b
    if col + n < p.vl then return some (← readElem a p.sew row (col + n)) else return some 0) s
/-- VPERM. -/
def execVperm (d a b : VReg) (k : MReg) (s : State) : Out1 :=
  run (permute d [a, b] k fun p row col => do
    let i ← readElem b p.sew row col
    if i < p.vl then return some (← readElem a p.sew row i) else return some 0) s

/-- The flat position that sB names, if it is in range and active. -/
def flatPosition (p : Shape) (act : Nat → Nat → Bool) (x : Word) : Option (Nat × Nat) :=
  let row := x.toNat / 1024
  let col := x.toNat % 1024
  if row < p.vrows && col < p.vl && act row col then some (row, col) else none

/-- VEXTR. -/
def execVextr (d : SReg) (a : VReg) (b : SReg) (k : MReg) (s : State) : Out1 :=
  run (do
    let p ← checkShape false [a] fun _ => true
    let act ← activeMask p k
    match flatPosition p act (← readS b) with
    | some x => writeS d (BitVec.ofNat 64 (← readElem a p.sew x.1 x.2))
    | none => writeS d 0
    completeVector) s
/-- VINS. -/
def execVins (d : VReg) (a b : SReg) (k : MReg) (s : State) : Out1 :=
  run (do
    let p ← checkShape false [d] fun _ => true
    let act ← activeMask p k
    let v ← readS a
    match flatPosition p act (← readS b) with
    | some x => writeElem d p.sew x.1 x.2 v.toNat
    | none => pure ()
    completeVector) s
/-- VIOTA. -/
def execViota (d : VReg) (x k : MReg) (s : State) : Out1 :=
  run (permute d [] k fun p row col => do
    let (src, _) ← sourceBits p x k
    return some ((upTo col).filter (src row)).length) s
/-- VROWBC. -/
def execVrowbc (d a : VReg) (b : SReg) (k : MReg) (s : State) : Out1 :=
  run (permute d [a] k fun p _ col => do
    let r ← readS b
    if r.toNat < p.vrows then return some (← readElem a p.sew r.toNat col) else return some 0) s

end Sys2Proof.Machine
end

