-- ==== Sys2Proof/Machine/VMem.lean ====
section
/-! DEFINITION. Vector loads and stores: the majors VLD and VST (09 R204 to R219). -/

namespace Sys2Proof.Machine

/-! ## Addresses (09 R205) -/

/-- The bits and bytes of a memory element width. -/
def ewBits : EWidth → Nat
  | .w8 => 8 | .w16 => 16 | .w32 => 32 | .w64 => 64
def ewBytes (e : EWidth) : Nat := ewBits e / 8

/-- The base of a row. -/
def rowBase (p : Shape) (base : Word) (row : Nat) : Word := base + BitVec.ofNat 64 row * p.rowstr
/-- The address of column or index `i` in steps of `n` bytes. -/
def stepAddr (b : Word) (i n : Nat) : Word := b + BitVec.ofNat 64 i * BitVec.ofNat 64 n
def unitAddr (p : Shape) (base : Word) (e : EWidth) (row col : Nat) : Word := stepAddr (rowBase p base row) col (ewBytes e)
def strideAddr (p : Shape) (base stride : Word) (row col : Nat) : Word := rowBase p base row + BitVec.ofNat 64 col * stride

/-- The index width of an indexed mode (06 R144). -/
def xBits (h : XHint) : Nat := if h.wide then 64 else 32

/-! ## Positions (09 R206, R207) -/

/-- The element that a load of width EW gives at SEW. -/
def extendElem (signed : Bool) (ew sew x : Nat) : Nat := if signed then wrapTo sew (signedOf ew x) else x

/-- A load's value comes to an element. -/
def putElem (d : VReg) (e : EWidth) (x : Bool) (p : Shape) (row col : Nat) (r : Nat × Flags) : M Unit := do
  writeElem d p.sew row col (extendElem x (ewBits e) p.sew r.1)
  raiseFlags r.2

/-- Store the low EW bits of an element. -/
def storeElem (hint : VHint) (d : VReg) (e : EWidth) (p : Shape) (va : Word) (row col : Nat) : M Unit := do
  vectorStore hint va (ewBytes e) ((← readElem d p.sew row col) % 2 ^ ewBits e)

/-- EW is at most SEW (06 R144). -/
def ewFits (e : EWidth) (p : Shape) : Bool := decide (ewBits e ≤ p.sew)

/-- A store mode whose addresses come from scalars. -/
def vdirect (groups : List VReg) (k : MReg) (e : EWidth) (f : Shape → Nat → Nat → M Unit) : M Unit :=
  elementWise k groups (ewFits e) noMode fun p _ => f p

/-- Clear the mask bit of a position, where a mask register is named (04 R94). -/
def clearMask (k : MReg) (row col : Nat) : M Unit := if k = 0 then pure () else writeMask k row col false

/-- A position of an indexed mode: the null index makes no access (04 R94). -/
def atIndex (k : MReg) (b : VReg) (iw : Nat) (row col : Nat) (null : M Unit) (f : Nat → M Unit) : M Unit := do
  let (i, isNull) ← readIndex b iw row col
  if isNull then
    null
    clearMask k row col
  else f i

/-! ## Loads (09 R207, 05 R109) -/

/-- The code of a position, as VSTART holds it. -/
def startCode (row col : Nat) : Nat := row * 4096 + col

/-- The value at an address for a position: read ahead while the instruction waited, or read now. -/
def loadOnce (hint : VHint) (va : Word) (n row col : Nat) : M (Nat × Flags) := do
  match (← get).hart.taken.find? fun x => x.1 == startCode row col with
  | some x => return x.2
  | none => vectorLoad hint va n

/-- Run an action and answer whether it ended well; what it did stays done. -/
def succeeds {α : Type} (m : M α) : M (Option α) := fun s =>
  match m s with
  | .ok a s' => .ok (some a) s'
  | .error .ended s' => .error .ended s'
  | .error _ s' => .ok none s'

/-- A load position: its address, or none at a null index. -/
abbrev AddrOf := Nat → Nat → M (Option Word)

/-- A value that has been read for the code of a position. -/
def take (code : Nat) (r : Nat × Flags) : M Unit :=
  modify fun s => s.withHart fun h => { h with taken := (code, r) :: h.taken.filter fun y => y.1 ≠ code }

/-- A read behind a position that waits may be made now, but under DET, where accesses perform in sweep order (02 R43; 05 R109); where it
fails, it fails in its turn. -/
def ahead (code : Nat) (load : M (Nat × Flags)) : M Unit := do
  if (← get).hart.det then return
  if (← get).hart.taken.any fun x => x.1 == code then return
  if !(← freshBit) then return
  match ← succeeds load with
  | some r => take code r
  | none => pure ()

/-- A position behind one that waits may read now. -/
def readAhead (addr : AddrOf) (hint : VHint) (n : Nat) (x : Nat × Nat) : M Unit := do
  match ← succeeds (addr x.1 x.2) with
  | some (some va) => ahead (startCode x.1 x.2) (loadOnce hint va n x.1 x.2)
  | _ => pure ()

/-- An action, and another that is done where it waits for an engine command (05 R109). -/
def meanwhile {α : Type} (m : M α) (rest : M Unit) : M α := fun s =>
  match m s with
  | .ok a s' => .ok a s'
  | .error (.wait k) s' =>
    match rest s' with
    | .ok _ s'' => .error (.wait k) s''
    | .error e s'' => .error e s''
  | .error e s' => .error e s'

/-- An action on the positions in turn; where one waits, `rest` is done for those behind it. -/
def eachElse (f rest : Nat × Nat → M Unit) : List (Nat × Nat) → M Unit
  | [] => pure ()
  | x :: xs => do
    meanwhile (f x) (each rest xs)
    eachElse f rest xs

/-- An element-wise load of active positions from VSTART on; `null` is what a null index does. -/
def loadSweep (p : Shape) (k : MReg) (addr : AddrOf) (hint : VHint) (n : Nat) (null : Nat → Nat → M Unit)
    (put : Nat → Nat → Nat × Flags → M Unit) : M Unit :=
  eachElse
    (fun x => atPosition x.1 x.2 do
      if ← readMask k x.1 x.2 then
        match ← addr x.1 x.2 with
        | none => null x.1 x.2
        | some va => put x.1 x.2 (← loadOnce hint va n x.1 x.2))
    (fun x => do
      match ← succeeds (readMask k x.1 x.2) with
      | some true => readAhead addr hint n x
      | _ => pure ())
    p.positions

/-- The placement hint of an indexed mode. -/
def xHint (h : XHint) : VHint := if h.stream then .stream else .normal

/-- The address of a position of a unit-stride and of an indexed mode. -/
def unitOf (p : Shape) (a : SReg) (e : EWidth) : AddrOf := fun row col => do return some (unitAddr p (← readS a) e row col)
def indexOf (p : Shape) (a : SReg) (b : VReg) (iw : Nat) (e : EWidth) : AddrOf := fun row col => do
  let (i, isNull) ← readIndex b iw row col
  if isNull then return none
  return some (stepAddr (rowBase p (← readS a) row) i (ewBytes e))

/-! ## Unit-stride, strided and indexed modes -/

/-- VLD. -/
def execVld (d : VReg) (a : SReg) (k : MReg) (e : EWidth) (x : Bool) (h : VHint) (s : State) : Out1 :=
  run (do
    let p ← checkShape true [d] (ewFits e)
    loadSweep p k (unitOf p a e) h (ewBytes e) (fun _ _ => pure ()) (putElem d e x p)
    completeVector) s
/-- VLDS. -/
def execVlds (d : VReg) (a b : SReg) (k : MReg) (e : EWidth) (x : Bool) (h : VHint) (s : State) : Out1 :=
  run (do
    let p ← checkShape true [d] (ewFits e)
    let addr : AddrOf := fun row col => do
      let base ← readS a
      return some (strideAddr p base (← readS b) row col)
    loadSweep p k addr h (ewBytes e) (fun _ _ => pure ()) (putElem d e x p)
    completeVector) s
/-- VLDX: the destination group shares no register with the index group (09 R213). -/
def execVldx (d : VReg) (a : SReg) (b : VReg) (k : MReg) (e : EWidth) (x : Bool) (h : XHint) (s : State) : Out1 :=
  run (do
    let p ← checkShape true [d, b] fun p => ewFits e p && indexFits p (xBits h) && !groupsMeet p.group d b
    loadSweep p k (indexOf p a b (xBits h) e) (xHint h) (ewBytes e)
      (fun row col => do
        writeElem d p.sew row col 0
        clearMask k row col)
      (putElem d e x p)
    completeVector) s
/-- VST. -/
def execVst (d : VReg) (a : SReg) (k : MReg) (e : EWidth) (h : VHint) (s : State) : Out1 :=
  run (vdirect [d] k e fun p row col => do storeElem h d e p (unitAddr p (← readS a) e row col) row col) s
/-- VSTS. -/
def execVsts (d : VReg) (a b : SReg) (k : MReg) (e : EWidth) (h : VHint) (s : State) : Out1 :=
  run (vdirect [d] k e fun p row col => do
    let base ← readS a
    storeElem h d e p (strideAddr p base (← readS b) row col) row col) s
/-- VSTX. -/
def execVstx (d : VReg) (a : SReg) (b : VReg) (k : MReg) (e : EWidth) (h : XHint) (s : State) : Out1 :=
  run (elementWise k [d, b] (fun p => ewFits e p && indexFits p (xBits h)) noMode fun p _ row col =>
    atIndex k b (xBits h) row col (pure ()) fun i => do
      storeElem (xHint h) d e p (stepAddr (rowBase p (← readS a) row) i (ewBytes e)) row col) s
/-- VLDAQ: nothing later performs before its reads, which perform in sweep order here, and both streams see what it has read (05 R113,
R115; 09 R219). -/
def execVldaq (d : VReg) (a : SReg) (k : MReg) (e : EWidth) (x : Bool) (h : VHint) (s : State) : Out1 :=
  run (do
    let p ← checkShape true [d] (ewFits e)
    loadSweep p k (unitOf p a e) h (ewBytes e) (fun _ _ => pure ()) fun row col r => do
      let c ← vectorCtx
      let va := unitAddr p (← readS a) e row col
      modify fun s => s.acquired c va (ewBytes e)
      putElem d e x p row col r
    acquireHere
    completeVector) s

/-! ## Fault-only-first loads (09 R214) -/

/-- The active positions from VSTART on. -/
def activePositions (p : Shape) (k : MReg) : M (List (Nat × Nat)) := do
  let act ← activeMask p k
  return p.positions.filter fun x => act x.1 x.2

/-- An action on a position of an instruction that has begun: where it waits, VSTART is there, and the instruction goes on from there
as one that has begun. -/
def goesOn {α : Type} (row col : Nat) (m : M α) : M α := fun s =>
  match m s with
  | .ok a s' => .ok a s'
  | .error (.wait k) s' => .error (.wait k) ((s'.setStart (packStart row col)).withHart fun h => { h with begun := true })
  | .error e s' => .error e s'

/-- Load positions until one fails; the mask bits of it and of those after it are cleared, and an uncorrectable error is logged all the same
(18 R320).  Where one waits, `rest` is done for those behind it (05 R109). -/
def loadUntil (k : MReg) (f rest : Nat × Nat → M Unit) : List (Nat × Nat) → M Unit
  | [] => pure ()
  | x :: xs => do
    match ← meanwhile (goesOn x.1 x.2 (attempt (f x))) (each rest xs) with
    | .ok _ => loadUntil k f rest xs
    | .error t =>
      modify fun s => s.logTrap t
      each (fun y => clearMask k y.1 y.2) (x :: xs)

/-- VLDFF: a failure at the first active position traps, a later one shortens the load where a mask is named. -/
def execVldff (d : VReg) (a : SReg) (k : MReg) (e : EWidth) (x : Bool) (h : VHint) (s : State) : Out1 :=
  run (do
    let p ← checkShape true [d] (ewFits e)
    if k = 0 then loadSweep p k (unitOf p a e) h (ewBytes e) (fun _ _ => pure ()) (putElem d e x p)
    else
      let one := fun (y : Nat × Nat) => do
        putElem d e x p y.1 y.2 (← loadOnce h (unitAddr p (← readS a) e y.1 y.2) (ewBytes e) y.1 y.2)
      let rest := readAhead (unitOf p a e) h (ewBytes e)
      let ps ← activePositions p k
      if (← get).hart.begun then loadUntil k one rest ps
      else
        match ps with
        | [] => pure ()
        | y :: ys =>
          meanwhile (atPosition y.1 y.2 (one y)) (each rest ys)
          loadUntil k one rest ys
    completeVector) s

/-! ## Windowed gathers (09 R215) -/

/-- The line of an address, and whether the tile buffer holds it: a window copy where a window serves the address, else the lookahead
area; nothing where the address has no translation. -/
def nearby (va : Word) : M (Option (Nat × Bool)) := do
  let s ← get
  return (s.probe (← vectorCtx) Needs.load va).map fun q =>
    (paLine q.pa, match s.windowAt va with
      | some h => s.holds h (paLine q.pa)
      | none => s.lookahead.contains (s.hart.ident.coreKey, paLine q.pa))

/-- The positions of a VLDW whose index is not null that take part: under DET all, else those whose line the tile buffer holds, and
those of lines that come back within the window, by a free choice for each line.  The answer says too whether the position must return
where it waits. -/
def returned (zs : List ((Nat × Nat) × Word)) : M (List ((Nat × Nat) × Word × Option Bool)) := do
  let det := (← get).hart.det
  let near ← collect (fun (z : (Nat × Nat) × Word) => do return (z, ← nearby z.2)) zs
  let lines := distinct (near.filterMap fun x => x.2.map Prod.fst)
  let come ← collect (fun l => do return (l, ← freshBit)) lines
  return near.map fun x => (x.1.1, x.1.2, match x.2 with
    | some (l, here) => if det || here then some true else if come.contains (l, true) then some false else none
    | none => some det)

/-- What a position that is not the first gives: nothing where it fails, with an uncorrectable error logged (18 R320), or where it waits and
need not return. -/
def outstandingIf {α : Type} (mayWait : Bool) (m : M α) : M (Option α) := fun s =>
  match m s with
  | .ok a s' => .ok (some a) s'
  | .error (.trap t) s' => .ok none (s'.logTrap t)
  | .error (.wait k) s' => if mayWait then .ok none s' else .error (.wait k) s'
  | .error e s' => .error e s'

/-- A stop at a position of an instruction that is never stopped between positions: only a trap gives VSTART (09 R215). -/
def trapAt {α : Type} (row col : Nat) (m : M α) : M α := fun s =>
  match m s with
  | .ok a s' => .ok a s'
  | .error (.trap t) s' => .error (.trap t) (s'.setStart (packStart row col))
  | .error e s' => .error e s'

/-- Ask for the line of an outstanding position as the lead does, at U level (09 R215): into a window that its address lies in, else into
the lookahead area. -/
def askAhead (hint : VHint) (va : Word) : M Unit := do
  prefetchLine (← userCtx) (fun h line => match h with
    | some h => untilStopped (install hint h line)
    | none => intoLookahead hint line) va

/-- The positions up to the first whose index is not null, with its address: those before it, and the rest.  A failure traps at its
position. -/
def firstIndexed (addr : AddrOf) : List (Nat × Nat) → M (List (Nat × Nat) × Option ((Nat × Nat) × Word × List (Nat × Nat)))
  | [] => return ([], none)
  | y :: ys => do
    match ← trapAt y.1 y.2 (addr y.1 y.2) with
    | some va => return ([], some (y, va, ys))
    | none => do
      let (nulls, r) ← firstIndexed addr ys
      return (y :: nulls, r)

/-- VLDW: the first non-null position loads or traps; each other position loads or stays outstanding, and so does one whose index cannot be
read.  Every value is read before any is written, so an instruction that waits has done nothing. -/
def execVldw (d : VReg) (a : SReg) (b : VReg) (k : MReg) (e : EWidth) (x : Bool) (h : XHint) (s : State) : Out1 :=
  run (do
    let iw := xBits h
    let n := ewBytes e
    let p ← checkShape true [d, b] fun p => ewFits e p && indexFits p iw && !groupsMeet p.group d b
    let ps ← activePositions p k
    let addr := indexOf p a b iw e
    let (first, found) ← firstIndexed addr ps
    let (nulls, values) ← match found with
      | none => pure (first, [])
      | some (z, va, ys) => do
        let later ← collect (fun (y : Nat × Nat) => do return (y, ← outstandingIf true (addr y.1 y.2))) ys
        let rest ← returned (later.filterMap fun y => y.2.join.map fun va => (y.1, va))
        let v ← trapAt z.1 z.2 (vectorLoad (xHint h) va n)
        let vs ← collect (fun (y : (Nat × Nat) × Word × Option Bool) => do
          return (y.1, y.2.1, ← match y.2.2 with
            | some must => outstandingIf (!must) (vectorLoad (xHint h) y.2.1 n)
            | none => pure none)) rest
        pure (first ++ (later.filter fun y => y.2 == some none).map Prod.fst, (z, va, some v) :: vs)
    each (fun (y : (Nat × Nat) × Word × Option (Nat × Flags)) =>
      match y.2.2 with
      | some v => do
        putElem d e x p y.1.1 y.1.2 v
        clearMask k y.1.1 y.1.2
      | none => askAhead (xHint h) y.2.1) values
    each (fun (z : Nat × Nat) => do
      writeElem d p.sew z.1 z.2 0
      clearMask k z.1 z.2) nulls
    completeVector) s

/-! ## MX blocks (09 R216) -/

/-- The conditions of R216. -/
def mxShape (x : Bool) (d b : VReg) (p : Shape) : Bool :=
  vtSewCode p.vtype == 0 && !groupsMeet p.group d b && (!x || p.vl % 2 == 0)
    && (p.rowstr.toNat * (1 + bit x)) % vtBlk p.vtype == 0

/-- The blocks of a shape from VSTART on: row and block number. -/
def mxBlocks (p : Shape) : List (Nat × Nat) :=
  let blk := vtBlk p.vtype
  (upTo p.vrows).flatMap fun row =>
    if row < p.startRow then []
    else ((upTo ((p.vl + blk - 1) / blk)).filter fun j => row ≠ p.startRow || decide (p.startCol < (j + 1) * blk)).map fun j => (row, j)

/-- An element code that makes a block invalid (03 R65). -/
def mxBadCode (f : FpFmt) (c : Nat) : Bool :=
  let v := decodeFp f c
  v.isNaN || v.isInf

/-- The columns of a block, and the address that holds a column's code. -/
def mxCols (p : Shape) (j : Nat) : List Nat :=
  let blk := vtBlk p.vtype
  (upTo (min p.vl ((j + 1) * blk) - j * blk)).map fun i => j * blk + i

/-- The address of the scale of a block, and of the byte that holds a column's code. -/
def mxScaleAt (p : Shape) (a b : SReg) (x : Bool) (row j : Nat) : M Word := do
  let scales ← readS b
  let _ ← readS a
  let step : Int := p.rowstr.toInt * (1 + bit x : Nat) / (vtBlk p.vtype : Nat)
  return scales + BitVec.ofInt 64 (row * step) + BitVec.ofNat 64 j
def mxCodeAt (p : Shape) (a : SReg) (x : Bool) (row col : Nat) : M Word := do
  return rowBase p (← readS a) row + BitVec.ofNat 64 (if x then col / 2 else col)

/-- The code under which the scale of a block is read ahead: above those of positions. -/
def scaleCode (row j : Nat) : Nat := 32768 + startCode row j
/-- A byte of a block: read ahead while the instruction waited, or read now. -/
def mxByte (h : VHint) (code : Nat) (addr : M Word) : M (Nat × Flags) := do
  let va ← addr
  match (← get).hart.taken.find? fun x => x.1 == code with
  | some x => return x.2
  | none => vectorLoad h va 1

/-- VLDMX: every position takes part; a block is loaded and checked whole.  Where VSTART stands inside a block, the block is loaded and checked
and its scale written whole, and its elements and mask bits are written from VSTART on: the model's choice (log 69). -/
def execVldmx (d : VReg) (a : SReg) (b : VReg) (k : MReg) (x : Bool) (h : VHint) (s : State) : Out1 :=
  run (do
    let p ← checkShape true [d, b] (mxShape x d b)
    let blk := vtBlk p.vtype
    let f : FpFmt := if x then .e2m1 else p.fmt
    let w := if x then 4 else 8
    eachElse
      (fun y => atPosition y.1 (y.2 * blk) do
        let row := y.1
        let sc := (← mxByte h (scaleCode row y.2) (mxScaleAt p a b x row y.2)).1
        let codes ← collect (fun col => do
          let r := (← mxByte h (startCode row col) (mxCodeAt p a x row col)).1
          return (col, if x then bitsAt r (4 * (col % 2)) 4 else r)) (mxCols p y.2)
        let valid := sc != 255 && !codes.any fun c => mxBadCode f c.2
        writeElem b 8 row y.2 sc
        each (fun c => do
          writeElem d w row c.1 (if valid then c.2 else 0)
          writeMask k row c.1 valid) (codes.filter fun c => row ≠ p.startRow || decide (p.startCol ≤ c.1)))
      (fun y => do
        ahead (scaleCode y.1 y.2) (mxByte h (scaleCode y.1 y.2) (mxScaleAt p a b x y.1 y.2))
        each (fun col => ahead (startCode y.1 col) (mxByte h (startCode y.1 col) (mxCodeAt p a x y.1 col))) (mxCols p y.2))
      (mxBlocks p)
    completeVector) s

/-! ## Pending stores (09 R217, R218) -/

/-- The positions of the entries of a block that are still pending, in sweep order. -/
def VstpBlock.entries (b : VstpBlock) : List (Nat × Nat) :=
  (positionsFrom b.vl b.vrows 0 0).filter fun x => maskBit b.mask (x.1 * 1024 + x.2)

/-- A block that goes on with another from a position on: the VSTP that recorded it has trapped there and is resumed (02 R35). -/
def VstpBlock.resumes (b c : VstpBlock) (start : Nat) : Bool :=
  start != 0 && b.base == c.base && b.rowstr == c.rowstr && b.ew == c.ew && b.vrows == c.vrows && b.vl == c.vl
    && b.entries.all fun x => decide (startCode x.1 x.2 < start)

/-- The address and value of an entry. -/
def VstpBlock.addr (b : VstpBlock) (row col : Nat) : Word :=
  stepAddr (b.base + BitVec.ofNat 64 row * b.rowstr) col (ewBytes b.ew)
def VstpBlock.value (b : VstpBlock) (row col : Nat) : Nat := elemAt (b.data.getD row 0) (ewBits b.ew) col

/-- A block with the entries of another beside its own. -/
def VstpBlock.join (b c : VstpBlock) : VstpBlock :=
  { b with
    mask := b.mask ||| c.mask
    data := (upTo 8).map fun row =>
      (c.entries.filter fun z => z.1 = row).foldl (fun v z => withElem v (ewBits b.ew) z.2 (c.value z.1 z.2)) (b.data.getD row 0) }

/-- Pending entries are recorded: as a block, or with the block that they go on with. -/
def recordBlock (start : Nat) (c : VstpBlock) (bs : List VstpBlock) : List VstpBlock :=
  match bs.getLast? with
  | some b => if b.resumes c start then bs.dropLast ++ [b.join c] else bs ++ [c]
  | none => [c]

/-- Read elements in turn, up to a position that cannot be read, and the stop of that one. -/
def elemsUntil (f : Nat × Nat → M Nat) : List (Nat × Nat) → M (List ((Nat × Nat) × Nat) × Option ((Nat × Nat) × Stop))
  | [] => return ([], none)
  | y :: ys => fun s =>
    match f y s with
    | .error e s' => .ok ([], some (y, e)) s'
    | .ok x s' =>
      match elemsUntil f ys s' with
      | .ok r s'' => .ok ((y, x) :: r.1, r.2) s''
      | .error e s'' => .error e s''

/-- VSTP: record the active positions, their data at EW bits, and what gives their addresses; a strip holds four.  A position whose element
cannot be read traps once those before it are recorded (02 R35; 18 R318). -/
def execVstp (d : VReg) (a : SReg) (k : MReg) (e : EWidth) (_h : VHint) (s : State) : Out1 :=
  run (do
    let p ← checkShape true [d] fun p => ewFits e p && decide (s.hart.vstpRun < 4)
    let ps ← activePositions p k
    let (xs, stop) ← elemsUntil (fun y => do
      let _ ← readS a
      readElem d p.sew y.1 y.2) ps
    let mask := xs.foldl (fun m z => withMaskBit m (z.1.1 * 1024 + z.1.2) true) 0
    let data := (upTo 8).map fun row =>
      (xs.filter fun z => z.1.1 = row).foldl (fun v z => withElem v (ewBits e) z.1.2 z.2) 0
    let c : VstpBlock := { base := s.getS a, rowstr := p.rowstr, ew := e, vrows := p.vrows, vl := p.vl, mask := mask, data := data }
    if stop.isNone || !xs.isEmpty then
      modify fun s => s.withHart fun h => { h with vstp := recordBlock p.vstart.toNat c h.vstp }
    match stop with
    | some (y, e) => atPosition y.1 y.2 (throw e)
    | none =>
      modify fun s => s.withHart fun h => { h with vstpRun := h.vstpRun + 1 }
      completeVector) s

/-- Remove the entry at a position from the head block of the queue. -/
def dropEntry (row col : Nat) : M Unit :=
  modify fun s => s.withHart fun h =>
    { h with vstp := match h.vstp with
        | [] => []
        | b :: bs => { b with mask := withMaskBit b.mask (row * 1024 + col) false } :: bs }

/-- VCOMMIT: entries in order, written where the mask bit is set; R32 does not apply. -/
def execVcommit (k : MReg) (s : State) : Out1 :=
  run (do
    each (fun (b : VstpBlock) => do
      each (fun y => atPosition y.1 y.2 do
        if ← readMask k y.1 y.2 then vectorStore .normal (b.addr y.1 y.2) (ewBytes b.ew) (b.value y.1 y.2)
        dropEntry y.1 y.2) b.entries
      modify fun s => s.withHart fun h => { h with vstp := h.vstp.tail }) s.hart.vstp
    completeVector) s

end Sys2Proof.Machine
end

