-- ==== Sys2Proof/Machine/VAmo.lean ====
section
/-! DEFINITION. Vector atomics: major VAMO (09 R220, R221; 05 R117, R118). -/

namespace Sys2Proof.Machine

/-- The conditions of R220 on the shape. -/
def vamoShape (ret : Bool) (d b : VReg) (p : Shape) : Bool :=
  (vtSewCode p.vtype == 2 || vtSewCode p.vtype == 3) && indexFits p p.sew && (!ret || !groupsMeet p.group d b)

/-- The write of a read-modify-write of `n` bytes by a vector lane: in the window line that takes it, else at the home. -/
def rmwWrite (h : Option Holder) (pa n : Nat) (f : Nat → Nat) (s : State) : State :=
  s.perform (some s.hart.ident.coreKey) h pa (leBytes n (f (Memory.read s.mem pa n)))

/-- What becomes of a position that has passed its checks: a lane, or the error reply of a lost port, which may come with the write done
(22 R375). -/
inductive Checked
  | lane (l : Lane)
  | lost (l : Lane) (va : Word) (written : Bool)
  deriving DecidableEq, Repr

/-- Check one position: translation, the interlock, the window, the reply and the data; `mk` makes its lane. -/
def vamoCheck (p : Shape) (va : Word) (mk : Option Holder → Nat → Lane) : M Checked := do
  let n := p.sew / 8
  obeyVector
  let c ← vectorCtx
  let q ← translate c Needs.rmw amoKind n va
  interlock va n true
  let (h, _) ← vectorPath c false va q
  let s ← get
  reply c (h.isSome && s.owner (paLine q.pa) == h) q.pa va
  windowData h q.pa va
  wholeData q.pa n va
  untilStopped (recallLine h (paLine q.pa))
  let l := mk h q.pa
  if (← get).portFailing q.pa then
    if ← freshBit then return .lost l va (← freshBit)
  return .lane l

/-- Where the lanes of a VAMO end: the position, why, and the lane that has performed although its reply is lost. -/
structure LaneStop where
  row  : Nat
  col  : Nat
  why  : Stop
  done : Option Lane
  deriving DecidableEq, Repr

/-- Check the positions in sweep order: the lanes that pass, and the stop of the first that does not. -/
def vamoLanes (check : Nat × Nat → M (Option Checked)) : List (Nat × Nat) → M (List Lane × Option LaneStop)
  | [] => return ([], none)
  | x :: xs => fun s =>
    match check x s with
    | .error e s' => .ok ([], some { row := x.1, col := x.2, why := e, done := none }) s'
    | .ok (some (.lost l va written)) s' =>
      .ok ([], some { row := x.1, col := x.2, why := .trap (Trap.of .busError va), done := if written then some l else none }) s'
    | .ok l s' =>
      match vamoLanes check xs s' with
      | .ok r s'' => .ok ((match l with
          | some (.lane l) => [l]
          | _ => []) ++ r.1, r.2) s''
      | .error e s'' => .error e s''

/-- Two lanes name one word. -/
def lanesMeet (l : List Lane) : Bool := (distinct (l.map Lane.pa)).length != l.length

/-- Apply one lane: the old value goes to vD with RET (09 R220). -/
def applyLane (ret : Bool) (d : VReg) (p : Shape) (f : Nat → Nat → Nat → Nat × Flags) (l : Lane) : M Unit := do
  let w := p.sew
  let old := Memory.read (← get).mem l.pa (w / 8)
  let r := f w old l.opnd
  dropUnits .vector l.pa (w / 8)
  modify (rmwWrite l.holder l.pa (w / 8) fun x => (f w x l.opnd).1)
  if ret then writeElem d w l.row l.col old
  raiseFlags r.2

/-- What earlier accesses have done before the lanes of a VAMO write (05 R101, R107, R112; 02 R43): under DET all have performed, with
the release order all have at SYSTEM scope, and in any case the vector writes of earlier strips and those to the lanes' words. -/
def beforeLanes (det release : Bool) (pas : List Nat) (n : Nat) : M Unit := do
  if det then drainAll
  if release then releaseAt .system
  sealStrips
  each (fun pa => settle (.stream .vector) pa n) pas

/-- The lanes that a VAMO has checked and not applied, and the position from which on it has checked none; none where it has not begun. -/
def setLanes (l : List Lane) (cut : Option (Nat × Nat)) : M Unit :=
  modify fun s => s.withHart fun h => { h with lanes := l, lanesCut := cut }

/-- The positions of a VAMO that it has not checked. -/
def uncheckedFrom (cut : Option (Nat × Nat)) (ps : List (Nat × Nat)) : List (Nat × Nat) :=
  match cut with
  | none => ps
  | some c => ps.filter fun x => decide (startCode c.1 c.2 ≤ startCode x.1 x.2)

/-- A VAMO; `ordered` where its lanes apply in sweep order whatever HARTMODE.DET holds.  As a part it applies some of its lanes, by a free
choice, and waits with the others, so that other agents may come between any two of them (05 R107, R117, R118). -/
def vamo (part : Bool) (o : Order) (ret ordered : Bool) (d : VReg) (a : SReg) (b : VReg) (k : MReg)
    (f : Nat → Nat → Nat → Nat × Flags) : M Unit := do
  let p ← checkShape true [d, b] (vamoShape ret d b)
  let w := p.sew
  let h := (← get).hart
  let ps ← activePositions p k
  let (found, stop) ← vamoLanes (fun x => do
    let (i, isNull) ← readIndex b w x.1 x.2
    if isNull then
      if ret then writeElem d w x.1 x.2 0
      clearMask k x.1 x.2
      return none
    else
      let base := rowBase p (← readS a) x.1
      let v ← readElem d w x.1 x.2
      return some (← vamoCheck p (stepAddr base i (w / 8)) fun h pa => { row := x.1, col := x.2, holder := h, pa := pa, opnd := v }))
    (uncheckedFrom h.lanesCut ps)
  let lanes := h.lanes ++ found
  let last := stop.bind LaneStop.done
  beforeLanes h.det (isRelease o) ((lanes ++ last.toList).map Lane.pa) (w / 8)
  let order ← if ordered || h.det || !(part || lanesMeet lanes) then pure lanes else shuffle lanes.length lanes
  if part then
    let now := order.take ((← freshNat) % (order.length + 1))
    each (applyLane ret d p f) now
    setLanes (lanes.filter fun l => !now.contains l) (some (match stop with
      | some x => (x.row, x.col)
      | none => (p.vrows, 0)))
    waitOn .vector
  each (applyLane ret d p f) order
  setLanes [] none
  match stop with
  | some x => do
    each (fun (l : Lane) => modify (rmwWrite l.holder l.pa (w / 8) fun y => (f w y l.opnd).1)) x.done.toList
    atPosition x.row x.col (throw x.why)
  | none => do
    acquireBy o
    completeVector

def noFlag (f : Nat → Nat → Nat → Nat) (w old x : Nat) : Nat × Flags := (f w old x, 0)

/-- VAMOFADD's sum, rounded RNE. -/
def faddLane (w old x : Nat) : Nat × Flags := fpAdd (if w = 64 then .fp64 else .fp32) .rne old x

/-- VAMOADD. -/
def execVamoadd (o : Order) (e : Bool) (d : VReg) (a : SReg) (b : VReg) (k : MReg) (s : State) : Out1 :=
  run (vamo false o e false d a b k (noFlag (amoAdd))) s
/-- VAMOAND. -/
def execVamoand (o : Order) (e : Bool) (d : VReg) (a : SReg) (b : VReg) (k : MReg) (s : State) : Out1 :=
  run (vamo false o e false d a b k (noFlag (fun _ old x => old &&& x))) s
/-- VAMOOR. -/
def execVamoor (o : Order) (e : Bool) (d : VReg) (a : SReg) (b : VReg) (k : MReg) (s : State) : Out1 :=
  run (vamo false o e false d a b k (noFlag (fun _ old x => old ||| x))) s
/-- VAMOXOR. -/
def execVamoxor (o : Order) (e : Bool) (d : VReg) (a : SReg) (b : VReg) (k : MReg) (s : State) : Out1 :=
  run (vamo false o e false d a b k (noFlag (fun _ old x => old ^^^ x))) s
/-- VAMOMIN. -/
def execVamomin (o : Order) (e : Bool) (d : VReg) (a : SReg) (b : VReg) (k : MReg) (s : State) : Out1 :=
  run (vamo false o e false d a b k (noFlag (amoMin))) s
/-- VAMOMAX. -/
def execVamomax (o : Order) (e : Bool) (d : VReg) (a : SReg) (b : VReg) (k : MReg) (s : State) : Out1 :=
  run (vamo false o e false d a b k (noFlag (amoMax))) s
/-- VAMOMINU. -/
def execVamominu (o : Order) (e : Bool) (d : VReg) (a : SReg) (b : VReg) (k : MReg) (s : State) : Out1 :=
  run (vamo false o e false d a b k (noFlag (fun _ old x => Nat.min old x))) s
/-- VAMOMAXU. -/
def execVamomaxu (o : Order) (e : Bool) (d : VReg) (a : SReg) (b : VReg) (k : MReg) (s : State) : Out1 :=
  run (vamo false o e false d a b k (noFlag (fun _ old x => Nat.max old x))) s
/-- VAMOSWAP. -/
def execVamoswap (o : Order) (e : Bool) (d : VReg) (a : SReg) (b : VReg) (k : MReg) (s : State) : Out1 :=
  run (vamo false o e false d a b k (noFlag (fun _ _ x => x))) s
/-- VAMOFADD: ascending lane order but with RA. -/
def execVamofadd (o : Order) (r : Bool) (e : Bool) (d : VReg) (a : SReg) (b : VReg) (k : MReg) (s : State) : Out1 :=
  run (vamo false o e (!r) d a b k faddLane) s

/-- A part of a VAMO. -/
def vamoPart : Instr → Option (M Unit)
  | .vamoadd o e d a b k => some (vamo true o e false d a b k (noFlag (amoAdd)))
  | .vamoand o e d a b k => some (vamo true o e false d a b k (noFlag (fun _ old x => old &&& x)))
  | .vamoor o e d a b k => some (vamo true o e false d a b k (noFlag (fun _ old x => old ||| x)))
  | .vamoxor o e d a b k => some (vamo true o e false d a b k (noFlag (fun _ old x => old ^^^ x)))
  | .vamomin o e d a b k => some (vamo true o e false d a b k (noFlag (amoMin)))
  | .vamomax o e d a b k => some (vamo true o e false d a b k (noFlag (amoMax)))
  | .vamominu o e d a b k => some (vamo true o e false d a b k (noFlag (fun _ old x => Nat.min old x)))
  | .vamomaxu o e d a b k => some (vamo true o e false d a b k (noFlag (fun _ old x => Nat.max old x)))
  | .vamoswap o e d a b k => some (vamo true o e false d a b k (noFlag (fun _ _ x => x)))
  | .vamofadd o r e d a b k => some (vamo true o e (!r) d a b k faddLane)
  | _ => none

end Sys2Proof.Machine
end

