-- ==== Sys2Proof/Machine/CellInstr.lean ====
section
/-! DEFINITION. The cell instructions CADD, VCADD, CRAW and CWRAW (11 R255 to R259). -/

namespace Sys2Proof.Machine

/-- The bits of a value format and the page kind it goes to (11 R255). -/
def cellFmtBits : CellFmt → Nat
  | .f32 => 32 | .bf16 => 16 | .f16 => 16 | .f64 => 64
def cellFmtKind : CellFmt → Nat
  | .f64 => kindCell64
  | _ => kindCell32

/-- The kind rule of a cell add, and of CRAW and CWRAW (11 R259). -/
def addKind (f : CellFmt) (p : Place) : Option Cause := if p.kind = cellFmtKind f then none else some .cellKind
def rawKind (p : Place) : Option Cause := if 2 ≤ p.kind then none else some .cellKind

/-- A write to a cell goes to its home: under DET it performs at once after every earlier access (02 R43). -/
def postCell (pa : Nat) (va : Word) (op : WriteOp) : M Unit := do
  orderDet
  post .vector none pa va op

/-- One cell add at an address. -/
def cellAddAt (f : CellFmt) (va : Word) (x : Nat) : M Unit := do
  obeyVector
  let c ← vectorCtx
  let p ← translate c Needs.store (addKind f) 64 va
  interlock va 64 true
  reply c false p.pa va
  wholeData p.pa 64 va
  postCell p.pa va (.cellAdd f (p.kind == 3) p.e0 x)

/-- CADD: no shape register is used, and a trap leaves VSTART (11 R256). -/
def execCadd (f : CellFmt) (a b : SReg) (s : State) : Out1 :=
  run (do
    let va ← readS a
    cellAddAt f va ((← readS b).toNat % 2 ^ cellFmtBits f)
    completeVector) s

/-- VCADD. -/
def execVcadd (f : CellFmt) (d : VReg) (a : SReg) (b : VReg) (k : MReg) (s : State) : Out1 :=
  let iw := if f = .f64 then 64 else 32
  run (elementWise k [d, b] (fun p => p.sew == cellFmtBits f && indexFits p iw) noMode fun p _ row col =>
    atIndex k b iw row col (pure ()) fun i => do
      let x ← readElem d p.sew row col
      cellAddAt f (stepAddr (rowBase p (← readS a) row) i 64) x) s

/-- The shape of CRAW and CWRAW: whole cells. -/
def rawShape (p : Shape) : Bool := vtSewCode p.vtype == 3 && p.vl % 8 == 0 && p.startCol % 8 == 0

/-- An instruction on the active cells from VSTART on: a cell is active by the mask bit of its first element.  Where one waits, `rest` is
done for those behind it (05 R109). -/
def eachCell (d : VReg) (a : SReg) (k : MReg) (f rest : Nat → Nat → Word → M Unit) : M Unit := do
  let p ← checkShape true [d] rawShape
  let one (g : Nat → Nat → Word → M Unit) (x : Nat × Nat) : M Unit := do
    if ← readMask k x.1 x.2 then g x.1 x.2 (stepAddr (rowBase p (← readS a) x.1) (x.2 / 8) 64)
  eachElse (fun x => atPosition x.1 x.2 (one f x))
    (fun x => do
      let _ ← succeeds (one rest x))
    (p.positions.filter fun x => x.2 % 8 == 0)
  completeVector

/-- The 64 raw bytes of a cell, as a number. -/
def rawLoad (va : Word) : M (Nat × Flags) := do
  obeyVector
  let c ← vectorCtx
  let p ← translate c Needs.load rawKind 64 va
  interlock va 64 false
  orderDet
  return (leNat (← rawCell c p va), 0)

/-- The cell of a position: read ahead while the instruction waited, or read now. -/
def cellOnce (va : Word) (row col : Nat) : M (Nat × Flags) := do
  match (← get).hart.taken.find? fun x => x.1 == startCode row col with
  | some x => return x.2
  | none => rawLoad va

/-- CRAW: the 64 raw bytes of a cell to eight elements. -/
def execCraw (d : VReg) (a : SReg) (k : MReg) (s : State) : Out1 :=
  run (eachCell d a k
    (fun row col va => do
      let n := (← cellOnce va row col).1
      each (fun i => writeElem d 64 row (col + i) (bitsAt n (64 * i) 64)) (upTo 8))
    fun row col va => ahead (startCode row col) (cellOnce va row col)) s

/-- CWRAW: the cell's bytes from eight elements, with the unused bits zero (11 R257). -/
def execCwraw (d : VReg) (a : SReg) (k : MReg) (s : State) : Out1 :=
  run (eachCell d a k
    (fun row col va => do
      let xs ← collect (fun i => do return leBytes 8 (← readElem d 64 row (col + i))) (upTo 8)
      obeyVector
      let c ← vectorCtx
      let p ← translate c Needs.rawStore rawKind 64 va
      interlock va 64 true
      reply c false p.pa va
      postCell p.pa va (.store (cellRaw xs.flatten)))
    fun _ _ _ => pure ()) s

end Sys2Proof.Machine
end

