-- ==== Sys2Proof/Machine/Matrix.lean ====
section
/-! DEFINITION. Accumulator tiles, matrix mode and the register-fed outer products: MBEGIN, MEND, MZERO, MPROD, MPRODN,
MPRODS, MRD and MWR (10 R224 to R233; 03 R65, R72, R73). -/

namespace Sys2Proof.Machine

/-! ## Tiles (10 R224) -/

/-- The element bits of a view, and its side. -/
def viewBits (wide : Bool) : Nat := if wide then 64 else 32
def viewSide (wide : Bool) : Nat := if wide then 32 else 64

/-- Tile row `i`: 256 bytes. -/
def tileRow (t : TileBits) (i : Nat) : Nat := t.toNat / 2 ^ (2048 * i) % 2 ^ 2048
def tileElem (t : TileBits) (wide : Bool) (i j : Nat) : Nat := bitsAt (tileRow t i) (viewBits wide * j) (viewBits wide)

/-- A number from elements of `w` bits, the first lowest. -/
def packElems (w : Nat) : List Nat → Nat
  | [] => 0
  | x :: xs => x % 2 ^ w + 2 ^ w * packElems w xs

/-- A tile whose view holds the elements of a function; the bytes outside the view stay. -/
def tileOf (t : TileBits) (wide : Bool) (f : Nat → Nat → Nat) : TileBits :=
  let n := viewSide wide
  let rows := (upTo n).map fun i => packElems (viewBits wide) ((upTo n).map (f i))
  BitVec.ofNat 131072 (packElems 2048 rows + t.toNat / 2 ^ (2048 * n) * 2 ^ (2048 * n))

/-- A tile with one element replaced. -/
def withTileElem (t : TileBits) (wide : Bool) (i j x : Nat) : TileBits :=
  let w := viewBits wide
  let at_ := 2048 * i + w * j
  let n := t.toNat
  BitVec.ofNat 131072 (n % 2 ^ at_ + x % 2 ^ w * 2 ^ at_ + n / 2 ^ (at_ + w) * 2 ^ (at_ + w))

/-- Give every element of a view a new value, keeping the flags. -/
def mapTile (t : TileBits) (wide : Bool) (f : Nat → Nat → Nat → Nat × Flags) : TileBits × Flags :=
  let n := viewSide wide
  let rows := (upTo n).map fun i => (upTo n).map fun j => f i j (tileElem t wide i j)
  (BitVec.ofNat 131072 (packElems 2048 (rows.map fun r => packElems (viewBits wide) (r.map Prod.fst))
      + t.toNat / 2 ^ (2048 * n) * 2 ^ (2048 * n)),
   rows.foldl (fun a r => r.foldl (fun b x => b ||| x.2) a) 0)

/-- A tile index valid in the lane mode (10 R225). -/
def tileValid (p : Shape) (t : Tile) : Bool := !(p.split && decide (4 ≤ t.val))

/-! ## Matrix pairs (10 R226) -/

structure MatPair where
  depth : Nat
  wide  : Bool
  int   : Bool
  mx    : Bool
  deriving DecidableEq, Repr

/-- MVL and T. -/
def MatPair.side (m : MatPair) : Nat := viewSide m.wide

def isFp8 : Fmt → Bool
  | .e4m3 | .e5m2 => true
  | _ => false
def isMxFp8 : Fmt → Bool
  | .mxE4m3 | .mxE5m2 => true
  | _ => false

/-- The pair of two formats, if they are one. -/
def matPair (a b : Fmt) : Option MatPair :=
  if isFp8 a && isFp8 b then some ⟨4, false, false, false⟩
  else if isMxFp8 a && isMxFp8 b then some ⟨4, false, false, true⟩
  else if a ≠ b then none
  else
    match a with
    | .fp64 => some ⟨1, true, false, false⟩
    | .fp32 => some ⟨1, false, false, false⟩
    | .fp16 => some ⟨2, false, false, false⟩
    | .bf16 => some ⟨2, false, false, false⟩
    | .int8 => some ⟨4, false, true, false⟩
    | .e2m1 => some ⟨8, false, false, false⟩
    | .mxE2m1 => some ⟨8, false, false, true⟩
    | _ => none

/-- The element format of an operand format. -/
def matFmt : Fmt → FpFmt
  | .fp64 => .fp64 | .fp32 => .fp32 | .fp16 => .fp16 | .bf16 => .bf16
  | .e4m3 => .e4m3 | .mxE4m3 => .e4m3 | .e5m2 => .e5m2 | .mxE5m2 => .e5m2
  | _ => .e2m1
/-- The bits of an operand element. -/
def matBits : Fmt → Nat
  | .int8 => 8
  | f => (matFmt f).bits

/-! ## One step (03 R65, R72, R73) -/

/-- An operand element: its value, or none where its block is invalid. -/
abbrev Opnd := Option Num

/-- A term of the exact sum; an invalid block contributes zero.  The manual gives that zero no sign: it is +0 whatever the other operand's
sign, so that an accumulator of -0 becomes +0 (DESIGN CHOICE, log 67). -/
def matTerm (neg : Bool) (x y : Opnd) : Num × Flags :=
  match x, y with
  | some x, some y =>
    let (p, f) := mulNum x y
    (if neg then p.neg else p, f)
  | _, _ => (.zero false, 0)

/-- The NV flag of adding values in turn: opposite infinities meet before any NaN (03 R73). -/
def opposed : Option Bool → List Num → Flags
  | _, [] => 0
  | sofar, x :: xs =>
    if x.isNaN then 0
    else if !x.isInf then opposed sofar xs
    else if sofar == some (!x.sign) then fNV
    else opposed (some x.sign) xs

/-- The exact sum of values in turn: NaN if one is, NaN with NV for opposite infinities, an infinity, else the sum. -/
def sumNums (xs : List Num) : Num × Flags :=
  let fl := sigFlags xs ||| opposed none xs
  if xs.any Num.isNaN then (.nan false, fl)
  else
    let infs := xs.filter Num.isInf
    if infs.any Num.sign && infs.any (fun x => !x.sign) then (.nan false, fl)
    else (xs.foldl (fun a x => (addNum false a x).1) (.zero true), fl)

/-- One step of a floating-point element: the exact sum, rounded once. -/
def stepFp (wide : Bool) (acc : Nat) (ts : List (Num × Flags)) : Nat × Flags :=
  let f : FpFmt := if wide then .fp64 else .fp32
  let (t, fl) := sumNums (decodeFp f acc :: ts.map Prod.fst)
  let (y, g) := roundTo f .rne true t
  (y, ts.foldl (fun a x => a ||| x.2) (fl ||| g))

/-- One step of an INT8 element, modulo 2^32. -/
def stepInt (acc : Nat) (ts : List Int) : Nat := wrapTo 32 (ts.foldl (fun a x => a + x) acc)

/-! ## Operands in registers -/

/-- The block of element `e` is valid (03 R65): its scale is no NaN and its codes are finite. -/
def blockValid (f : Fmt) (blk : Nat) (codes : List Nat) (scale : Nat) (b : Nat) : Bool :=
  scale != 255 && !((codes.drop (b * blk)).take blk).any (mxBadCode (matFmt f))

/-- The codes of an operand: MVL × d elements of bytes 0 to 255. -/
def operandCodes (f : Fmt) (n : Nat) (v : VBits) : List Nat := (upTo n).map fun e => elemAt v (matBits f) e

/-- The value of element `e` of an operand, with its E8M0 scale for MX. -/
def operandAt (f : Fmt) (mx : Bool) (blk : Nat) (codes : List Nat) (scales : Nat → Nat) (e : Nat) : Opnd :=
  let x := decodeFp (matFmt f) (codes.getD e 0)
  if !mx then some x
  else
    let s := scales (e / blk)
    if blockValid f blk codes s (e / blk) then some (x.scale ((s : Int) - 127)) else none

/-! ## Tiles and engine commands in flight (10 R229) -/

/-- The named tiles of an MTGEMM control word (10 R242). -/
def gemmTiles (ctl : Nat) : List Nat :=
  (upTo (2 ^ bitsAt ctl 11 2 * 2 ^ bitsAt ctl 13 2)).map fun i => bitsAt ctl 8 3 + i

/-- The tiles a command writes, and the tiles it reads. -/
def EngineCmd.tilesWritten (c : EngineCmd) : List Nat :=
  match c.op with
  | .mld t _ _ _ => [t]
  | .mtgemm => if c.accepted then (match c.failure with
      | some (1, _) => []
      | _ => gemmTiles (leAt c.desc 0x38 8)) else upTo 8
  | _ => []
def EngineCmd.tilesRead (c : EngineCmd) : List Nat :=
  match c.op with
  | .mst t _ _ _ => [t]
  | _ => []

/-- A reader of a tile waits for the commands that write it; a writer waits for those that read it too. -/
def waitTile (t : Tile) (write : Bool) : M Unit := do
  let cs := (← get).hart.engine.filter fun c => !c.finished
  if cs.any (fun c => c.tilesWritten.contains t.val || (write && c.tilesRead.contains t.val)) then waitOn .vector

/-! ## Matrix mode (10 R227) -/

def setMatrix (m : Option (Fmt × Fmt)) : M Unit := modify fun s => s.withHart fun h => { h with matrix := m }

/-- The matrix state word. -/
def matrixWord : Option (Fmt × Fmt) → Word
  | none => 0
  | some (a, b) => BitVec.ofNat 64 (256 + 16 * b.code + a.code)

/-- The pair of formats of a code word, if it is a matrix pair. -/
def pairOfCodes (a b : Nat) : Option (Fmt × Fmt × MatPair) :=
  match Fmt.ofCode a, Fmt.ofCode b with
  | .ok f, .ok g => (matPair f g).map fun m => (f, g, m)
  | _, _ => none

/-- MBEGIN. -/
def execMbegin (d a : SReg) (s : State) : Out1 :=
  run (do
    let x := (s.getS a).toNat
    match pairOfCodes (bitsAt x 0 4) (bitsAt x 4 4) with
    | some (f, g, _) =>
      needVector (decide (x < 512))
      let _ ← readS a
      writeS d (matrixWord s.hart.matrix)
      setMatrix (some (f, g))
    | none => vectorConfig
    completeVector) s
/-- MEND. -/
def execMend (s : State) : Out1 :=
  run (do
    setMatrix none
    completeVector) s

/-! ## Outer products (10 R230 to R232) -/

/-- MZERO: no shape register is used. -/
def execMzero (t : Tile) (s : State) : Out1 :=
  run (do
    needVector (tileValid (← theShape) t)
    waitTile t true
    writeT t 0
    completeVector) s

/-- The shape checks of the outer products, the formats of matrix mode, and the tile. -/
def productShape (t : Tile) (mx : Bool) : M (Shape × Fmt × Fmt × MatPair) := do
  let p ← checkShape false [] fun p => tileValid p t
  match (← get).hart.matrix with
  | none => vectorConfig
  | some (f, g) =>
    match matPair f g with
    | none => vectorConfig
    | some m =>
      needVector (m.mx == mx)
      return (p, f, g, m)

/-- One k-step on a tile, over the active rows; `as` and `bs` give the values of elements of vA and vB. -/
def productStep (t : Tile) (m : MatPair) (neg : Bool) (k : VBits) (as_ bs : Nat → Opnd) (ai bi : Nat → Int) : M Unit := do
  let old ← readT t
  let d := m.depth
  let (new, fl) :=
    mapTile old m.wide fun i j x =>
      if !maskBit k i then (x, 0)
      else if m.int then
        (stepInt x ((upTo d).map fun q =>
          let z := ai (i * d + q) * bi (j * d + q)
          if neg then -z else z), 0)
      else stepFp m.wide x ((upTo d).map fun q => matTerm neg (as_ (i * d + q)) (bs (j * d + q)))
  if (upTo m.side).any (maskBit k) then writeT t new
  raiseFlags fl

/-- MPROD and MPRODN. -/
def mprodWith (neg : Bool) (t : Tile) (a b : VReg) (k : MReg) : M Unit := do
  let (_, f, g, m) ← productShape t false
  waitTile t true
  let n := m.side * m.depth
  let xs := operandCodes f n (← readV a)
  let ys := operandCodes g n (← readV b)
  let km ← readK k
  productStep t m neg km (operandAt f false 1 xs fun _ => 0) (operandAt g false 1 ys fun _ => 0)
    (fun e => signedOf 8 (xs.getD e 0)) (fun e => signedOf 8 (ys.getD e 0))
  completeVector

/-- MPROD. -/
def execMprod (t : Tile) (a b : VReg) (k : MReg) (s : State) : Out1 := run (mprodWith false t a b k) s
/-- MPRODN. -/
def execMprodn (t : Tile) (a b : VReg) (k : MReg) (s : State) : Out1 := run (mprodWith true t a b k) s

/-- MPRODS: MX pairs, with the scales of vA in the lower and of vB in the upper half of vD. -/
def execMprods (t : Tile) (d a b : VReg) (k : MReg) (s : State) : Out1 :=
  run (do
    let (p, f, g, m) ← productShape t true
    waitTile t true
    let n := m.side * m.depth
    let blk := vtBlk p.vtype
    let nb := n / blk
    let xs := operandCodes f n (← readV a)
    let ys := operandCodes g n (← readV b)
    let sc ← readV d
    let km ← readK k
    let xa := fun i => elemAt sc 8 i
    let xb := fun i => elemAt sc 8 (nb + i)
    let act := (upTo m.side).filter (maskBit km)
    productStep t m false km (operandAt f true blk xs xa) (operandAt g true blk ys xb) (fun _ => 0) (fun _ => 0)
    let badA := act.any fun i => (upTo m.depth).any fun q =>
      !blockValid f blk xs (xa ((i * m.depth + q) / blk)) ((i * m.depth + q) / blk)
    let badB := !act.isEmpty && (upTo nb).any fun j => !blockValid g blk ys (xb j) j
    if badA || badB then raiseMx mxInv
    completeVector) s

/-! ## Moving tiles (10 R233) -/

/-- The view that SEW selects, and the conditions of R233. -/
def viewOf (p : Shape) : Bool := vtSewCode p.vtype == 3
def moveShape (t : Tile) (base : Nat) (p : Shape) : Bool :=
  tileValid p t && decide (2 ≤ vtSewCode p.vtype) && decide (p.vl ≤ viewSide (viewOf p))
    && decide (base + p.vrows ≤ viewSide (viewOf p))

/-- The tile element of a position: row order, or column order. -/
def tileAt (col : Bool) (base : Nat) (x : Nat × Nat) : Nat × Nat := if col then (x.2, base + x.1) else (base + x.1, x.2)

/-- MRD. -/
def execMrd (t : Tile) (c : Bool) (d : VReg) (a : SReg) (s : State) : Out1 :=
  run (do
    let base := (s.getS a).toNat
    let p ← checkShape false [d] (moveShape t base)
    let _ ← readS a
    waitTile t false
    let x ← readT t
    let wide := viewOf p
    each (fun y => let z := tileAt c base y; writeElem d p.sew y.1 y.2 (tileElem x wide z.1 z.2)) p.allPositions
    completeVector) s
/-- MWR. -/
def execMwr (t : Tile) (c : Bool) (d : VReg) (a : SReg) (s : State) : Out1 :=
  run (do
    let base := (s.getS a).toNat
    let p ← checkShape false [d] (moveShape t base)
    let _ ← readS a
    waitTile t true
    let wide := viewOf p
    let xs ← collect (fun y => do return (tileAt c base y, ← readElem d p.sew y.1 y.2)) p.allPositions
    if !xs.isEmpty then
      changeT t fun x => xs.foldl (fun v y => withTileElem v wide y.1.1 y.1.2 y.2) x
    completeVector) s

end Sys2Proof.Machine
end

