-- ==== Sys2Proof/Machine/WriteBack.lean ====
section
/-! DEFINITION. What a stash window holds and how it is written back and unmapped; claims and the pool (04 R84, R87; 11 R267 to
R269). -/

namespace Sys2Proof.Machine

/-! ## Virtual ranges -/

/-- The 64 KiB pages that overlap a range. -/
def pagesOf (base len : Nat) : List Word :=
  if len = 0 then []
  else (upTo ((base + len - 1) / 65536 - base / 65536 + 1)).map fun i => BitVec.ofNat 64 ((base / 65536 + i) * 65536)

/-- The physical pages that a virtual page has in the caches and in the tables. -/
def State.framesOf (s : State) (c : Ctx) (va : Word) : List Nat :=
  if !canonical va then []
  else
    let walked := match s.walk c va with
      | .ok l => [l]
      | .error _ => []
    (distinct (walked ++ s.cached c va)).map fun l => l.target va

/-! ## Windows (11 R267 to R269) -/

/-- The lines that a window holds. -/
def State.windowLines (s : State) (h : Hart) (w : WinId) : List (Holder × Nat) :=
  s.copies.filter fun x => match x.1 with
    | .window id i _ => id == h.ident.hartid.toNat && i == w.val
    | .scalarL1 _ | .remote _ => false

/-- The hart's vector writes that a window takes perform, so that its lines hold them (11 R267, R268). -/
def State.afterWindow (s : State) (w : WinId) : State :=
  s.raise (fun x => match x.holder with
    | some (.window id i _) => id == s.hart.ident.hartid.toNat && i == w.val
    | _ => false) .home
def settleWindow (w : WinId) : M Unit := modify fun s => s.afterWindow w

/-- The modified lines that a window holds, after the earlier vector writes of the hart that it takes. -/
def State.modifiedIn (s : State) (w : WinId) : List (Holder × Nat) :=
  (s.windowLines s.hart w).filter fun x => s.owner x.2 == some x.1

/-- Drop the lines of a virtual range from the windows of the current hart: their errors go with them. -/
def dropRange (base len : Nat) : M Unit :=
  modify fun s => s.withHart fun h =>
    { h with ecc := { h.ecc with w := h.ecc.w.filter fun u => !(decide (base < 8 * u + 8) && decide (8 * u < base + len)) } }

/-- Write back, drop and unmap a window (11 R267). -/
def unmapWindow (w : WinId) : M Unit := do
  let x := (← get).getWindow w
  if x.len ≠ 0 then
    settleWindow w
    let s ← get
    each (fun y => untilStopped (dropCopy y)) (s.windowLines s.hart w)
    dropRange x.base.toNat x.len
    modify fun s => s.setWindow w { base := 0, len := 0 }

/-- The windows of a hart, by number. -/
def allWindows : List WinId := (upTo 8).map (Fin.ofNat 8)
def allHandles : List Handle := (upTo 4).map (Fin.ofNat 4)

/-- Unmap every window, and release every claim (02 R40, R47). -/
def unmapAll : M Unit := each unmapWindow allWindows
def releaseClaim (h : Handle) : M Unit :=
  modify fun s => (s.setClaim h Claim.free).withHart fun x => { x with ecc := { x.ecc with h := x.ecc.h &&& ~~~(1#4 <<< h.val) } }
def releaseClaims : M Unit := each releaseClaim allHandles

/-! ## The pool (04 R84) -/

/-- The blocks that a hart takes of its core's pool. -/
def Claim.blocks (c : Claim) : Nat := if c.claimed then 2 ^ c.size else 0
def Window.blocks (w : Window) : Nat := (w.len + 65535) / 65536
def Hart.poolUse (h : Hart) : Nat :=
  h.windows.toList.foldl (fun n w => n + w.blocks) (h.claims.toList.foldl (fun n c => n + c.blocks) 0)

/-- The blocks of a core that stops have freed and that are reserved for gangs other than `g` (20 R349). -/
def State.roomReserved (s : State) (g : BitVec 32) (core : Nat) : Nat :=
  s.control.gangs.foldl (fun n x =>
    if x.id = g then n
    else x.room.foldl (fun n y =>
      if y.1.toNat / 2 = core && !s.harts.any (fun h => h.resident && h.ident.hartid == y.1) then n + y.2 else n) n) 0

/-- The blocks in use on the core of the current hart, or reserved there. -/
def State.poolUse (s : State) : Nat :=
  s.hart.poolUse + s.roomReserved s.hart.ident.gangid s.hart.ident.coreKey + match s.partner with
    | some h => h.poolUse
    | none => 0

end Sys2Proof.Machine
end

