-- ==== Sys2Proof/Machine/EngineIssue.lean ====
section
/-! DEFINITION. Engine commands as they issue: MLD, MST, MTGEMM, XCOPY, XFILL, CZERO and HDRAIN, and the instructions on
completion counters, CCWAIT and CCRD (10 R234 to R238; 11 R258; 12 R283).  What a command does then is in EngineRun.lean. -/

namespace Sys2Proof.Machine

/-- A command issues: it waits for its acceptance (10 R236). -/
def issue (op : EngineOp) (c : CReg) (va : Word) : M Unit := do
  modify fun s => s.withHart fun h =>
    { h with engine := h.engine ++ [{ op := op, cc := c, addr := va, accepted := false, finished := false, desc := [], ranges := [],
                                      failure := none, read := [], wrote := [], broke := [], pages := [], pins := [] }] }
  completeVector

/-- MLD and MST: R32 applies, and SEW selects the view (10 R228, R234). -/
def tileMove (mk : Bool → Word → EngineOp) (c : CReg) (t : Tile) (a b : SReg) : M Unit := do
  let p ← checkShape false [] fun p => tileValid p t && decide (2 ≤ vtSewCode p.vtype)
  let va ← readS a
  let stride ← readS b
  issue (mk (viewOf p) stride) c va

/-- MLD. -/
def execMld (c : CReg) (t : Tile) (col : Bool) (a b : SReg) (s : State) : Out1 :=
  run (tileMove (fun wide stride => .mld t.val col wide stride) c t a b) s
/-- MST. -/
def execMst (c : CReg) (t : Tile) (col : Bool) (a b : SReg) (s : State) : Out1 :=
  run (tileMove (fun wide stride => .mst t.val col wide stride) c t a b) s
/-- MTGEMM. -/
def execMtgemm (c : CReg) (a : SReg) (s : State) : Out1 := run (do issue .mtgemm c (← readS a)) s
/-- XCOPY. -/
def execXcopy (c : CReg) (a : SReg) (s : State) : Out1 := run (do issue .xcopy c (← readS a)) s
/-- XFILL. -/
def execXfill (c : CReg) (a : SReg) (s : State) : Out1 := run (do issue .xfill c (← readS a)) s
/-- CZERO. -/
def execCzero (c : CReg) (a b : SReg) (s : State) : Out1 :=
  run (do
    let va ← readS a
    issue (.czero (← readS b)) c va) s

/-- A handle below the declared count (12 R274). -/
def handleDeclared (h : Handle) : M Unit := do needVector (decide (h.val < (← get).hart.declared.hash))
/-- A handle that names a claim, or Bad Handle, which a check before the sweep raises with VSTART 0: the model's choice (log 68). -/
def handleClaimed (h : Handle) : M Claim := do
  let c := (← get).getClaim h
  if !c.claimed then
    modify fun s => s.setStart 0
    raiseWord .badHandle
  return c

/-- HDRAIN. -/
def execHdrain (c : CReg) (a : SReg) (h : Handle) (s : State) : Out1 :=
  run (do
    handleDeclared h
    let _ ← handleClaimed h
    issue (.hdrain h) c (← readS a)) s

/-! ## Completion counters -/

/-- A command has issued and has not been accepted. -/
def Hart.unaccepted (h : Hart) : Bool := h.engine.any fun c => !c.accepted

/-- The 16-bit value of a counter (10 R235). -/
def Counter.value (c : Counter) : Nat := c.count.toNat + 4096 * c.ecode.toNat + 32768 * bit c.err

/-- CCWAIT: the wait of R237, then Engine Error if ERR is set. -/
def execCcwait (c : CReg) (t : Fin 32) (s : State) : Out1 :=
  run (do
    if s.hart.unaccepted then waitOn .ccwait
    let x := s.getCC c
    if t.val ≤ x.count.toNat then waitOn .ccwait
    if x.err then raise .engineError x.fail
    completeVector) s

/-- CCRD: the counter to sA; ERR and ECODE are cleared. -/
def execCcrd (c : CReg) (a : SReg) (s : State) : Out1 :=
  run (do
    if s.hart.unaccepted then waitOn .engines
    let x := s.getCC c
    modify fun s => s.setCC c { x with err := false, ecode := 0 }
    writeS a (BitVec.ofNat 64 x.value)
    completeVector) s

end Sys2Proof.Machine
end

