-- ==== Sys2Proof/Machine/Window.lean ====
section
/-! DEFINITION. Stash windows: SMAP, SUNMAP and SWB (11 R266 to R268; 04 R84, R86, R88). -/

namespace Sys2Proof.Machine

/-- A window id below the declared count (11 R266). -/
def windowDeclared (w : WinId) : M Unit := do needVector (decide (w.val < (← get).hart.declared.windows))

/-- A range that SMAP takes (11 R266). -/
def goodRange (base len : Word) : Bool :=
  base.toNat % 128 == 0 && len.toNat % 128 == 0 && len != 0 && decide (len.toNat ≤ 524288)
    && decide (base.toNat + len.toNat ≤ 2 ^ 64) && canonical base && canonical (base + len - 1)

/-- Two ranges share a byte. -/
def Window.meets (w : Window) (base len : Nat) : Bool :=
  decide (w.base.toNat < base + len) && decide (base < w.base.toNat + w.len) && w.len != 0 && len != 0

/-- The range meets a window of the hart, or of its partner with the same ASID. -/
def State.overlapsWindow (s : State) (base len : Nat) : Bool :=
  s.hart.windows.toList.any (fun w => w.meets base len) ||
    match s.partner with
    | some h => h.priv.asid == s.hart.priv.asid && h.windows.toList.any (fun w => w.meets base len)
    | none => false

/-- The nonzero statuses of R266 that apply. -/
def State.mapRefusals (s : State) (w : WinId) (base len : Word) : List Nat :=
  (if Config.poolBlocks < s.poolUse + (len.toNat + 65535) / 65536 then [1] else [])
    ++ (if (s.getWindow w).len ≠ 0 then [2] else [])
    ++ (if s.overlapsWindow base.toNat len.toNat then [3] else [])
    ++ (if goodRange base len then [] else [4])

/-- The status of an SMAP; where several apply the manual does not say which is written, and one of them is, by a free choice
(log 27). -/
def mapStatus (w : WinId) (base len : Word) : M Nat := do
  match (← get).mapRefusals w base len with
  | [] => return 0
  | [x] => return x
  | xs => return xs.getD ((← freshNat) % xs.length) 4

/-- Lookahead copies of a virtual range leave the core (04 R86). -/
def State.dropLookahead (s : State) (base len : Nat) : State :=
  let frames := (pagesOf base len).flatMap fun page => (s.framesOf s.hart.ctxU page).map fun pa => (page, pa)
  let core := s.hart.ident.coreKey
  { s with lookahead := s.lookahead.filter fun x =>
      !(x.1 == core && frames.any fun f =>
          x.2 / 512 == f.2 / 65536 && decide (base < f.1.toNat + x.2 * 128 % 65536 + 128)
            && decide (f.1.toNat + x.2 * 128 % 65536 < base + len)) }

/-- SMAP. -/
def execSmap (d a b : SReg) (w : WinId) (s : State) : Out1 :=
  run (do
    windowDeclared w
    let base ← readS a
    let len ← readS b
    let st ← mapStatus w base len
    if st = 0 then
      modify fun s => (s.setWindow w { base := base, len := len.toNat }).dropLookahead base.toNat len.toNat
    writeS d (BitVec.ofNat 64 st)
    completeVector) s

/-- SUNMAP. -/
def execSunmap (w : WinId) (s : State) : Out1 :=
  run (do
    windowDeclared w
    unmapWindow w
    completeVector) s

/-- SWB. -/
def execSwb (c : CReg) (w : WinId) (s : State) : Out1 :=
  run (do
    windowDeclared w
    issue (.swb w) c 0) s

end Sys2Proof.Machine
end

