-- ==== Sys2Proof/Machine/Hash.lean ====
section
/-! DEFINITION. Hash tables in the tile buffer: HCLAIM, HREL, HINS, HPROBE, HDEL, HACC and HSTAT (12 R271 to R282). -/

namespace Sys2Proof.Machine

/-! ## Tables (12 R271, R275, R276) -/

/-- Slots of a bucket, buckets of the table, b, and its capacity. -/
def Claim.slots (c : Claim) : Nat := if c.kw || c.vw then 7 else 14
def Claim.logBuckets (c : Claim) : Nat := 9 + c.size
def Claim.numBuckets (c : Claim) : Nat := 2 ^ c.logBuckets
def Claim.capacity (c : Claim) : Nat := c.numBuckets * c.slots
def Claim.keyBits (c : Claim) : Nat := if c.kw then 64 else 32
def Claim.valBits (c : Claim) : Nat := if c.vw then 64 else 32
def Claim.noReuse (c : Claim) : Bool := c.flags.getLsbD 0

/-- A bucket with every slot empty. -/
def Bucket.empty (n : Nat) : Bucket := { live := 0, tomb := 0, spilled := false, slots := List.replicate n (0, 0) }
def Claim.bucket (c : Claim) (j : Nat) : Bucket := (lookupKey j c.buckets).getD (Bucket.empty c.slots)
def Claim.setBucket (c : Claim) (j : Nat) (b : Bucket) : Claim := { c with buckets := insertKey j b c.buckets }

/-- The home bucket of a key (12 R276). -/
def Claim.home (c : Claim) (k : Nat) : Nat := k * 0xA5C394E17B2DF01B % 2 ^ 64 / 2 ^ (64 - c.logBuckets)

/-- The slots of the probe window of a key, in the order they are visited. -/
def Claim.window (c : Claim) (k : Nat) : List (Nat × Nat) :=
  (upTo 4).flatMap fun q => (upTo c.slots).map fun s => ((c.home k + q) % c.numBuckets, s)

def Bucket.isLive (b : Bucket) (s : Nat) : Bool := b.live.getLsbD s
def Bucket.isTomb (b : Bucket) (s : Nat) : Bool := b.tomb.getLsbD s
def Bucket.key (b : Bucket) (s : Nat) : Nat := (b.slots.getD s (0, 0)).1.toNat
def Bucket.value (b : Bucket) (s : Nat) : Nat := (b.slots.getD s (0, 0)).2.toNat

/-- A slot that takes a live entry. -/
def Bucket.put (b : Bucket) (s k v : Nat) : Bucket :=
  { b with live := b.live ||| 1#14 <<< s, tomb := b.tomb &&& ~~~(1#14 <<< s)
           slots := setAt b.slots s (BitVec.ofNat 64 k, BitVec.ofNat 64 v) }
/-- A slot whose entry is deleted: it keeps its bytes. -/
def Bucket.kill (b : Bucket) (s : Nat) : Bucket := { b with live := b.live &&& ~~~(1#14 <<< s), tomb := b.tomb ||| 1#14 <<< s }

/-- The live entries of the resident slots: bucket, slot, key and value. -/
def Claim.resident (c : Claim) : List (Nat × Nat × Nat × Nat) :=
  c.buckets.flatMap fun x => ((upTo c.slots).filter x.2.isLive).map fun s => (x.1, s, x.2.key s, x.2.value s)

/-- The number of live entries, resident and spilled, as far as it is known (12 R282). -/
def Claim.liveCount (c : Claim) : Nat := c.resident.length + c.spilled

/-! ## Spill records (12 R277) -/

/-- The kind rule of a spill read and of HCLAIM's descriptor read: no converting read. -/
def spillKind (p : Place) : Option Cause :=
  if p.kind = 1 then some .permission else if p.kind = 0 then none else some .cellAlignment

/-- An aligned 8-byte vector read that never converts. -/
def plainLoad (va : Word) : M Nat := do
  obeyVector
  let c ← vectorCtx
  let p ← translate c Needs.load spillKind 8 va
  interlock va 8 false
  orderDet
  dataLoad .normal c p va 8

/-- A spill record. -/
structure SpillRec where
  key   : Nat
  value : Nat
  home  : Nat
  state : Nat
  deriving DecidableEq, Repr

def recAddr (c : Claim) (i : Nat) : Word := c.spillBase + BitVec.ofNat 64 (32 * i)

/-- Whether a spill record is live: its state in memory, as the hart's translation at U level finds it; none where it cannot be read. -/
def State.recordLive (s : State) (c : Claim) (i : Nat) : Option Bool :=
  let x := { s.hart.ctx (.stream .vector) with sup := false }
  match s.probe x Needs.load (recAddr c i + 16) with
  | none => none
  | some p =>
    if p.kind ≠ 0 || !s.reaches x false p.pa || s.badUnits p.pa 8 then none
    else some (leNat (s.bytes (.stream .vector) p.pa 8) / 2 ^ 32 == 1)
/-- The number of live records among those of a restored claim that could not be read: one that still cannot be read counts by a free bit
(log 27). -/
def unreadLive (c : Claim) : M Nat := do
  let xs ← collect (fun i => do
    match (← get).recordLive c i with
    | some b => return bit b
    | none => return bit (← freshBit)) c.unread
  return xs.foldl (· + ·) 0

/-- A record from its 32 bytes. -/
def SpillRec.ofWords (a b x : Nat) : SpillRec := { key := a, value := b, home := x % 2 ^ 32, state := x / 2 ^ 32 }

def readRec (c : Claim) (i : Nat) : M SpillRec := do
  let a ← plainLoad (recAddr c i)
  let b ← plainLoad (recAddr c i + 8)
  let x ← plainLoad (recAddr c i + 16)
  let _ ← plainLoad (recAddr c i + 24)
  return SpillRec.ofWords a b x

/-- The four words of a record, with their addresses. -/
def recWords (c : Claim) (i : Nat) (r : SpillRec) : List (Word × Nat) :=
  [(recAddr c i, r.key), (recAddr c i + 8, r.value), (recAddr c i + 16, r.home + r.state * 2 ^ 32), (recAddr c i + 24, 0)]

/-- Write a record: no word is written before every check and reply of the four has succeeded (12 R281). -/
def writeRec (c : Claim) (i : Nat) (r : SpillRec) : M Unit := do
  let ws ← collect (fun (x : Word × Nat) => do
    let w ← storeReady .normal x.1 8 x.2
    outstanding w.pa x.1 fun s => s.performInTurn w
    return (x.1, w)) (recWords c i r)
  each (fun (x : Word × PendingWrite) => storeDone x.1 x.2) ws

/-! ## Finding and placing (12 R280) -/

/-- An entry: a slot, or a spill record with what it holds. -/
inductive Entry
  | slot (j s : Nat)
  | record (i : Nat) (r : SpillRec)
  deriving DecidableEq, Repr

/-- The ordinal of an entry (12 R278). -/
def Claim.ordinal (c : Claim) : Entry → Nat
  | .slot j s => j * c.slots + s
  | .record i _ => c.capacity + i

def Claim.valueOf (c : Claim) : Entry → Nat
  | .slot j s => (c.bucket j).value s
  | .record _ r => r.value

/-- Scan the records from index `i` for a live one of the home bucket and key; `n` are left. -/
def findRec (c : Claim) (k : Nat) : Nat → Nat → M (Option Entry)
  | 0, _ => return none
  | n + 1, i => do
    let r ← readRec c i
    if r.state = 1 ∧ r.home = c.home k ∧ r.key = k then return some (.record i r) else findRec c k n (i + 1)

/-- find(k). -/
def findKey (c : Claim) (k : Nat) : M (Option Entry) :=
  match (c.window k).find? fun x => (c.bucket x.1).isLive x.2 && (c.bucket x.1).key x.2 == k with
  | some x => return some (.slot x.1 x.2)
  | none => if (c.bucket (c.home k)).spilled then findRec c k c.used 0 else return none

/-- place(k, v): the ordinal, or none where the table is full. -/
def placeKey (h : Handle) (k v : Nat) : M (Option Nat) := do
  let c := (← get).getClaim h
  let free := fun (x : Nat × Nat) => !(c.bucket x.1).isLive x.2 && (!(c.bucket x.1).isTomb x.2 || !c.noReuse)
  match (c.window k).find? free with
  | some x =>
    modify fun s => s.setClaim h (c.setBucket x.1 ((c.bucket x.1).put x.2 k v))
    return some (c.ordinal (.slot x.1 x.2))
  | none =>
    if c.used < c.spillCap.toNat then
      let r : SpillRec := { key := k, value := v, home := c.home k, state := 1 }
      writeRec c c.used r
      let b := c.bucket (c.home k)
      modify fun s => s.setClaim h { c.setBucket (c.home k) { b with spilled := true } with used := c.used + 1, spilled := c.spilled + 1 }
      return some (c.ordinal (.record c.used r))
    else
      modify fun s => s.setClaim h { c with fail := true }
      return none

/-- The entry takes a value. -/
def storeValue (h : Handle) (e : Entry) (v : Nat) : M Unit := do
  let c := (← get).getClaim h
  match e with
  | .slot j s => modify fun st => st.setClaim h (c.setBucket j ((c.bucket j).put s ((c.bucket j).key s) v))
  | .record i r => writeRec c i { r with value := v }

/-- The entry is deleted. -/
def deleteEntry (h : Handle) (e : Entry) : M Unit := do
  let c := (← get).getClaim h
  match e with
  | .slot j s => modify fun st => st.setClaim h (c.setBucket j ((c.bucket j).kill s))
  | .record i r =>
    writeRec c i { r with state := 2 }
    modify fun st => st.setClaim h (if c.unread.contains i then { st.getClaim h with unread := c.unread.filter (· ≠ i) }
      else { st.getClaim h with spilled := c.spilled - 1 })

/-! ## Keyed operations (12 R279) -/

/-- The hash region is in uncorrectable error: Memory Error, LOC 2, TVAL 0 (18 R318). -/
def wholeRegion (h : Handle) : M Unit := do
  if (← get).hart.ecc.h.getLsbD h.val then memoryError 2 0

/-- An earlier HDRAIN of the handle has not completed (12 R273, R283). -/
def Hart.draining (x : Hart) (h : Handle) : Bool :=
  x.engine.any fun c => !c.finished && match c.op with
    | .hdrain g => g == h
    | _ => false

def waitDrain (h : Handle) : M Unit := do
  if (← get).hart.draining h then waitOn .vector

/-- The checks of a keyed operation: the shape, the handle, then what depends on the table (06 R150). -/
def keyedShape (rs : List VReg) (h : Handle) (further : Shape → Claim → Bool) : M (Shape × Claim) := do
  let p ← checkShape true rs fun _ => true
  handleDeclared h
  let c ← handleClaimed h
  needVector (p.sew == c.keyBits && further p c)
  waitDrain h
  return (p, c)

/-- The widths in use fit (08 R187). -/
def widthsFit (p : Shape) (ws : List Nat) : Bool := ws.all fun w => decide (p.vl * w ≤ p.regBits)

/-- A keyed operation on each active position. -/
def keyed (rs : List VReg) (h : Handle) (k : MReg) (further : Shape → Claim → Bool) (f : Claim → Nat → Nat → M Unit) : M Unit := do
  let (p, _) ← keyedShape rs h further
  sweep p k fun row col => do
    wholeRegion h
    f ((← get).getClaim h) row col
  completeVector

/-- The conditions of HINS and HACC. -/
def insertShape (d a b : VReg) (p : Shape) (c : Claim) : Bool :=
  widthsFit p [32, c.keyBits, c.valBits] && !groupsMeet p.group d a && !groupsMeet p.group d b

/-- The ordinal of a failed lane. -/
def failedOrdinal : Nat := 0xFFFFFFFF

/-- A lane of HINS or HACC: `acc` is what happens where the key is found. -/
def insertLane (d a b : VReg) (h : Handle) (c : Claim) (row col : Nat) (acc : Entry → Nat → M Unit) : M Unit := do
  let k ← readElem a c.keyBits row col
  let v ← readElem b c.valBits row col
  match ← findKey c k with
  | some e =>
    acc e v
    writeElem d 32 row col (c.ordinal e)
  | none => writeElem d 32 row col ((← placeKey h k v).getD failedOrdinal)

/-- HINS. -/
def execHins (d a b : VReg) (h : Handle) (k : MReg) (s : State) : Out1 :=
  run (keyed [d, a, b] h k (insertShape d a b) fun c row col => insertLane d a b h c row col fun _ _ => pure ()) s

/-- acc(old, new) and its flags (12 R280). -/
def hashAcc (f : HAccOp) (w old new : Nat) : Nat × Flags :=
  match f with
  | .wrap => ((old + new) % 2 ^ w, 0)
  | .f32 => fpAdd .fp32 .rne old new
  | .f64 => fpAdd .fp64 .rne old new
  | .max => (if signedOf w old < signedOf w new then new else old, 0)

/-- The value width that an HACC admits. -/
def accFits (f : HAccOp) (c : Claim) : Bool :=
  match f with
  | .f32 => !c.vw
  | .f64 => c.vw
  | _ => true

/-- HACC. -/
def execHacc (f : HAccOp) (d a b : VReg) (h : Handle) (k : MReg) (s : State) : Out1 :=
  run (keyed [d, a, b] h k (fun p c => insertShape d a b p c && accFits f c) fun c row col =>
    insertLane d a b h c row col fun e v => do
      let r := hashAcc f c.valBits (c.valueOf e) v
      storeValue h e r.1
      raiseFlags r.2) s

/-- HPROBE: the mask keeps the hits. -/
def execHprobe (d a : VReg) (h : Handle) (k : MReg) (s : State) : Out1 :=
  run (keyed [d, a] h k (fun p c => widthsFit p [c.keyBits, c.valBits] && !groupsMeet p.group d a) fun c row col => do
    match ← findKey c (← readElem a c.keyBits row col) with
    | some e => writeElem d c.valBits row col (c.valueOf e)
    | none =>
      writeElem d c.valBits row col 0
      writeMask k row col false) s

/-- HDEL. -/
def execHdel (a : VReg) (h : Handle) (k : MReg) (s : State) : Out1 :=
  run (keyed [a] h k (fun p c => widthsFit p [c.keyBits]) fun c row col => do
    match ← findKey c (← readElem a c.keyBits row col) with
    | some e => deleteEntry h e
    | none => pure ()) s

/-! ## HCLAIM, HREL and HSTAT (12 R272, R273, R282) -/

/-- A claim descriptor as the four words of R271, if it is well formed. -/
def claimOf (a b x y : Nat) : Option Claim :=
  let cap := bitsAt b 0 32
  let ok := decide (cap ≤ 0xFFFFFF) && decide (bitsAt b 32 8 ≤ 4) && decide (bitsAt b 40 8 ≤ 1) && decide (bitsAt b 48 8 ≤ 1)
    && bitsAt b 56 8 == 0 && decide (bitsAt x 0 32 ≤ 1) && bitsAt x 32 32 == 0 && y == 0
    && (cap == 0 || (a % 32 == 0 && canonical (BitVec.ofNat 64 a)))
  if ok then
    some { claimed := true, fail := false, spillBase := BitVec.ofNat 64 a, spillCap := BitVec.ofNat 32 cap, size := bitsAt b 32 8,
           kw := bitAt b 40, vw := bitAt b 48, flags := BitVec.ofNat 32 x, used := 0, spilled := 0, unread := [], buckets := [] }
  else none

/-- HCLAIM: the reads, then the first status that applies of 2, 3, 1. -/
def execHclaim (d a : SReg) (h : Handle) (s : State) : Out1 :=
  run (do
    handleDeclared h
    let ws ← atPosition 0 0 do
      let va ← readS a
      if va.toNat % 32 ≠ 0 then raise .misaligned va
      collect (fun i => plainLoad (va + BitVec.ofNat 64 (8 * i))) (upTo 4)
    waitDrain h
    let status : Nat ←
      if ((← get).getClaim h).claimed then pure 2
      else
        match claimOf (ws.getD 0 0) (ws.getD 1 0) (ws.getD 2 0) (ws.getD 3 0) with
        | none => pure 3
        | some c => do
          if Config.poolBlocks < (← get).poolUse + c.blocks then pure 1
          else
            modify fun s => s.setClaim h c
            pure 0
    writeS d (BitVec.ofNat 64 status)
    completeVector) s

/-- HREL. -/
def execHrel (h : Handle) (s : State) : Out1 :=
  run (do
    handleDeclared h
    waitDrain h
    releaseClaim h
    completeVector) s

/-- HSTAT. -/
def execHstat (d : SReg) (h : Handle) (s : State) : Out1 :=
  run (do
    handleDeclared h
    waitDrain h
    let c := s.getClaim h
    if c.claimed then
      let live := c.liveCount + (← unreadLive c)
      writeS d (BitVec.ofNat 64 (2 ^ 63 + bit c.fail * 2 ^ 62 + c.used % 2 ^ 24 * 2 ^ 32 + live % 2 ^ 32))
    else writeS d 0
    completeVector) s

end Sys2Proof.Machine
end

