-- ==== Sys2Proof/Machine/EngineRun.lean ====
section
/-! DEFINITION. What an engine command does after it issues: the events ENGINE_ACCEPT (10 R236, R239, R241 to R248; 11 R258; 12
R283), its transfers unit by unit while it is in flight (05 R110), and ENGINE_COMPLETE (05 R109, R110; 10 R234, R239, R244, R245),
which makes those that are left. -/

namespace Sys2Proof.Machine

/-! ## Units -/

/-- The ECODE of a failure met by an engine access (10 R239). -/
def ecodeOf : Cause → Nat
  | .notPresent => 3
  | .busError => 5
  | .memoryError => 6
  | _ => 4

/-- A failure: its ECODE and the failing address. -/
abbrev Failure := Nat × Word

/-- An access of an engine: what it gives, or its failure; an uncorrectable error that it meets is logged (18 R320). -/
def engineTry {α : Type} (va : Word) (m : M α) : M (Except Failure α) := do
  match ← attempt m with
  | .ok x => return .ok x
  | .error t => do
    modify fun s => s.logTrap t
    return .error (ecodeOf t.cause, va)

/-- The failure of an operand that is no memory and is in uncorrectable error, which is logged with its location (18 R318, R320); the
manual gives it no failing address (log 26). -/
def operandFailure (bad : Bool) (loc : BitVec 2) : M (List Failure) := do
  if !bad then return []
  modify fun s => s.logTrap { Trap.of .memoryError 0 with loc := loc }
  return [(6, ← freshWord)]

/-- Operands and descriptors lie on DATA pages, cells of CZERO on cell pages (10 R239, R240). -/
def engineKind (p : Place) : Option Cause := if p.kind = 0 then none else some .permission
def zeroKind (p : Place) : Option Cause := if 2 ≤ p.kind then none else some .permission

/-- Change command `n` of the current hart. -/
def withCmd (n : Nat) (f : EngineCmd → EngineCmd) : M Unit :=
  modify fun s => s.withHart fun h => match h.engine[n]? with
    | some c => { h with engine := setAt h.engine n (f c) }
    | none => h

/-- Translate an access of command `n` at U level: each page when the command first reaches it, and again after a TLBINV (21 R364). -/
def engineTranslate (n : Nat) (need : Needs) (kind : Place → Option Cause) (size : Nat) (va : Word) : M Place := do
  let c ← engineCtx
  if va.toNat % size ≠ 0 then raise .misaligned va
  if !canonical va then raise .notPresent va
  let page := va.toNat / 65536
  let known := ((← get).hart.engine[n]?).bind fun x => lookupKey page x.pages
  let l : Leaf ← match known with
    | some (pte, at_, big) => pure { pte := pte, at_ := at_, big := big }
    | none => findLeaf c va
  checkLeaf c need kind va l
  let p ← markUsed c need kind va l
  if p.pa = l.target va then
    withCmd n fun x => { x with pages := insertKey page (l.pte ||| missingBits l.pte need.w, l.at_, l.big) x.pages }
  return p

/-- Read one aligned 8-byte unit for command `n`, as the engines of the hart see it (05 R98, R102, R108). -/
def engineRead (n : Nat) (va : Word) : M (Except Failure Nat) :=
  engineTry va do
    obeyEngine
    let p ← engineTranslate n Needs.load engineKind 8 va
    reply (← engineCtx) false p.pa va
    wholeSeen .engine p.pa 8 va
    untilStopped (recallLine none (paLine p.pa))
    atSlice .normal (paLine p.pa)
    settleAdds .engine p.pa 8
    dropUnits .vector p.pa 8
    return leNat ((← get).bytes .engine p.pa 8)

/-- Where a write of an aligned unit of `size` bytes goes. -/
def engineDest (n : Nat) (kind : Place → Option Cause) (size : Nat) (va : Word) : M (Except Failure Nat) :=
  engineTry va do
    obeyEngine
    let p ← engineTranslate n Needs.store kind size va
    reply (← engineCtx) false p.pa va
    return p.pa

/-- A unit of an engine performs at its home, after the writes to its bytes that the engines of the hart see (05 R98, R104, R110). -/
def enginePerform (pa : Nat) (va : Word) (size x : Nat) : M (Except Failure Unit) :=
  engineTry va do
    untilStopped (recallLine none (paLine pa))
    modify fun s => s.afterWrites .engine pa size
    dropUnits .vector pa size
    homeWrite pa va fun s => s.perform none none pa (leBytes size x)

/-- The failure of a transfer that command `n` has made in flight: whether of a destination, and the unit's number. -/
def EngineCmd.failedAt (c : EngineCmd) (dest : Bool) (i : Nat) : Option Failure :=
  (c.broke.find? fun x => x.1 == dest && x.2.1 == i).map fun x => x.2.2

/-- A unit that a command may have read already, under a number: what it read then, or how that failed, or what it reads now. -/
def engineReadOnce (n : Nat) (early : List (Nat × Nat)) (i : Nat) (va : Word) : M (Except Failure Nat) := do
  match lookupKey i early, ((← get).hart.engine[n]?).bind fun c => c.failedAt false i with
  | some x, _ => return .ok x
  | none, some f => return .error f
  | none, none => engineRead n va

/-- The aligned units that hold a range of bytes. -/
def unitsIn (base : Word) (len : Nat) : List Word :=
  if len = 0 then []
  else
    let off := base.toNat % 8
    (upTo ((off + len + 7) / 8)).map fun i => base - BitVec.ofNat 64 off + BitVec.ofNat 64 (8 * i)

/-- What was read of the units: those that were read, by address, and the failures of the others. -/
def engineUnitsOf (n : Nat) (early : List (Nat × Nat)) (us : List Word) : M (List (Nat × Nat) × List Failure) := do
  let xs ← collect (fun (va : Word) => do return (va.toNat, ← engineReadOnce n early va.toNat va)) us
  return (xs.filterMap fun x => match x.2 with
      | .ok v => some (x.1, v)
      | .error _ => none,
    xs.filterMap fun x => match x.2 with
      | .ok _ => none
      | .error f => some f)

/-- The bytes of a range from the units read; those of a unit that was not are zero. -/
def bytesOf (us : List (Nat × Nat)) (base : Word) (len : Nat) : List Byte :=
  sliceBytes ((unitsIn base len).flatMap fun va => leBytes 8 ((lookupKey va.toNat us).getD 0)) (base.toNat % 8) len

/-- The failure that is recorded: of the least ECODE, and among those any one (10 R239). -/
def firstFailure (fs : List Failure) : M (Option (BitVec 3 × Word)) := do
  match fs with
  | [] => return none
  | f :: _ =>
    let e := fs.foldl (fun m x => min m x.1) f.1
    let xs := fs.filter fun x => x.1 = e
    let i ← if xs.length = 1 then pure 0 else freshNat
    return some (BitVec.ofNat 3 e, (xs.getD (i % xs.length) f).2)

/-! ## Ranges (05 R109) -/

/-- The line range of `rows` rows of `len` bytes at a stride; none where it holds no byte.  One that leaves the 64-bit address space is the
whole of it, so that an XCOPY with such a region is malformed by overlap: the model's choice (log 76). -/
def rowsRange (base : Word) (stride : Int) (rows len : Nat) (write : Bool) : List Range :=
  if rows = 0 ∨ len = 0 then []
  else
    let last : Int := base.toNat + (rows - 1 : Nat) * stride
    let lo := min (base.toNat : Int) last
    let hi := max (base.toNat : Int) last + len
    if lo < 0 ∨ (2 ^ 64 : Nat) < hi then [{ base := 0, len := 2 ^ 64, write := write }]
    else [lineRange (BitVec.ofInt 64 lo) (hi - lo).toNat write]

/-- Two lists of ranges hold a pair that meets, where either writes. -/
def rangesConflict (xs ys : List Range) : Bool := xs.any fun x => ys.any fun y => x.conflicts y.base y.len y.write

def meets (xs ys : List Nat) : Bool := xs.any ys.contains

/-- A command must wait for an earlier one (05 R109, 10 R229). -/
def EngineCmd.blockedBy (c e : EngineCmd) : Bool :=
  !e.finished && (rangesConflict c.ranges e.ranges || meets e.tilesWritten (c.tilesWritten ++ c.tilesRead)
    || meets e.tilesRead c.tilesWritten)

/-! ## MTGEMM descriptors (10 R241 to R243) -/

structure Gemm where
  a    : Word
  b    : Word
  sa   : Nat
  sb   : Nat
  k    : Nat
  m    : Nat
  n    : Nat
  auxA : Word
  auxB : Word
  outl : Word
  ctl  : Nat
  deriving DecidableEq, Repr

def wordAt (d : List Byte) (off : Nat) : Word := BitVec.ofNat 64 (leAt d off 8)

def Gemm.ofBytes (d : List Byte) : Gemm :=
  { a := wordAt d 0, b := wordAt d 8, sa := leAt d 0x10 4, sb := leAt d 0x14 4, k := leAt d 0x18 4, m := leAt d 0x1C 2,
    n := leAt d 0x1E 2, auxA := wordAt d 0x20, auxB := wordAt d 0x28, outl := wordAt d 0x30, ctl := leAt d 0x38 8 }

def Gemm.blk (g : Gemm) : Nat := 16 * 2 ^ bitsAt g.ctl 18 2
def Gemm.hasOutl (g : Gemm) : Bool := bitAt g.ctl 17
def Gemm.sparse (g : Gemm) : Bool := bitAt g.ctl 16
def Gemm.zero (g : Gemm) : Bool := bitAt g.ctl 15
def Gemm.nN (g : Gemm) : Nat := 2 ^ bitsAt g.ctl 13 2
def Gemm.nM (g : Gemm) : Nat := 2 ^ bitsAt g.ctl 11 2
def Gemm.tile0 (g : Gemm) : Nat := bitsAt g.ctl 8 3
def Gemm.pair (g : Gemm) : Option (Fmt × Fmt × MatPair) := pairOfCodes (bitsAt g.ctl 0 4) (bitsAt g.ctl 4 4)
/-- The element size that a base and a stride are multiples of. -/
def elemSize (f : Fmt) : Nat := max 1 (matBits f / 8)

/-- The constraints of R241 to R243, but for the outlier structure. -/
def Gemm.ok (g : Gemm) (split : Bool) : Bool :=
  match g.pair with
  | none => false
  | some (f, h, p) =>
    g.ctl / 2 ^ 20 == 0 && bitsAt g.ctl 18 2 != 3 && (p.mx || bitsAt g.ctl 18 2 == 0)
      && (!g.hasOutl || f == .mxE2m1) && (!g.sparse || (decide (2 ≤ p.depth) && !p.mx))
      && g.a.toNat % elemSize f == 0 && g.sa % elemSize f == 0 && g.b.toNat % elemSize h == 0 && g.sb % elemSize h == 0
      && g.k % p.depth == 0 && (!p.mx || g.k % g.blk == 0) && (!g.sparse || g.k % 8 == 0)
      && decide (g.m ≤ g.nM * p.side) && decide (g.n ≤ g.nN * p.side)
      && (p.mx || g.sparse || g.auxA == 0) && (p.mx || g.auxB == 0)
      && (if g.hasOutl then g.outl != 0 && g.outl.toNat % 4 == 0 else g.outl == 0)
      && decide (g.nM * g.nN ≤ 8) && decide (g.tile0 + g.nM * g.nN ≤ if split then 4 else 8)

/-- Bytes of a row of A, of its scales or metadata, and of a row of B and its scales (10 R244). -/
def Gemm.rowA (g : Gemm) (f : Fmt) : Nat := (if g.sparse then g.k / 2 else g.k) * matBits f / 8
def Gemm.rowB (g : Gemm) (f : Fmt) : Nat := g.k * matBits f / 8
def Gemm.auxRow (g : Gemm) (mx : Bool) : Nat := if g.sparse then g.k / 8 else if mx then g.k / g.blk else 0

/-- The operand ranges (10 R246). -/
def Gemm.ranges (g : Gemm) : List Range :=
  match g.pair with
  | none => []
  | some (f, h, p) =>
    rowsRange g.a g.sa g.m (g.rowA f) false ++ rowsRange g.b g.sb g.n (g.rowB h) false
      ++ rowsRange g.auxA (g.auxRow p.mx) g.m (g.auxRow p.mx) false
      ++ (if p.mx then rowsRange g.auxB (g.k / g.blk) g.n (g.k / g.blk) false else [])

/-! ## Outlier structures (03 R66) -/

/-- The 32-bit entries of a list of bytes. -/
def entries32 (bs : List Byte) (n : Nat) : List Nat := (upTo n).map fun i => leAt bs (4 * i) 4

def ascending (strict : Bool) : List Nat → Bool
  | x :: y :: r => (if strict then decide (x < y) else decide (x ≤ y)) && ascending strict (y :: r)
  | _ => true

/-- The 32-bit entry at an address, from units by address. -/
def entryIn (us : Nat → Option Nat) (addr : Nat) : Option Nat := (us (addr / 8 * 8)).map fun x => bitsAt x (8 * (addr % 8)) 32

/-- The addresses of the row offsets and of the side list. -/
def Gemm.offsetAt (g : Gemm) (i : Nat) : Nat := g.outl.toNat + 4 * i
def Gemm.sideAt (g : Gemm) (e : Nat) : Nat := g.outl.toNat + 4 * (g.m + 1 + e)

/-- The structure keeps R66, as far as its units are known. -/
def outliersOk (g : Gemm) (us : Nat → Option Nat) : Bool :=
  let off (i : Nat) : Option Nat := entryIn us (g.offsetAt i)
  ascending false ((upTo (g.m + 1)).filterMap off) && (upTo g.m).all fun i =>
    match off i, off (i + 1) with
    | some a, some b =>
      let cols := ((upTo (b - a)).filterMap fun e => entryIn us (g.sideAt (a + e))).map (· % 65536)
      ascending true cols && cols.all (· < g.k)
    | _, _ => true

/-- The units of the structure with a side list of `n` entries. -/
def Gemm.outlierUnits (g : Gemm) (n : Nat) : List Word := unitsIn g.outl (4 * (g.m + 1 + n))

/-- Read the structure in full: its units, the failures, and the length of its side list, 0 where that cannot be read. -/
def readOutliers (n : Nat) (g : Gemm) : M (List (Nat × Nat) × List Failure × Nat) := do
  let (table, _) ← engineUnitsOf n [] (unitsIn g.outl (4 * (g.m + 1)))
  let len := (entryIn (fun a => lookupKey a table) (g.offsetAt g.m)).getD 0
  let (all, fs) ← engineUnitsOf n table (g.outlierUnits len)
  return (all, fs, len)

/-! ## XCOPY and XFILL descriptors (10 R247, R248) -/

/-- A 2-D region: base, stride, row length in bytes, rows. -/
structure Region where
  base   : Word
  stride : Word
  len    : Nat
  rows   : Nat
  deriving DecidableEq, Repr

def Region.aligned (r : Region) : Bool := r.base.toNat % 8 == 0 && r.stride.toNat % 8 == 0 && r.len % 8 == 0
def Region.ranges (r : Region) (write : Bool) : List Range := rowsRange r.base r.stride.toInt r.rows r.len write
/-- The units of a region. -/
def Region.units (r : Region) : List Word :=
  (upTo r.rows).flatMap fun i => (upTo (r.len / 8)).map fun u => r.base + BitVec.ofNat 64 i * r.stride + BitVec.ofNat 64 (8 * u)

def copySource (d : List Byte) : Region := { base := wordAt d 0, stride := wordAt d 0x10, len := leAt d 0x20 4, rows := leAt d 0x24 4 }
def copyDest (d : List Byte) : Region := { base := wordAt d 8, stride := wordAt d 0x18, len := leAt d 0x20 4, rows := leAt d 0x24 4 }
def fillDest (d : List Byte) : Region := { base := wordAt d 0, stride := wordAt d 8, len := leAt d 0x18 4, rows := leAt d 0x1C 4 }

def copyOk (d : List Byte) : Bool :=
  let x := copySource d
  let y := copyDest d
  x.aligned && y.aligned && allZero (d.drop 0x28) && !rangesConflict (x.ranges false) (y.ranges true)
def fillOk (d : List Byte) : Bool := (fillDest d).aligned && allZero (d.drop 0x20)

/-! ## Tiles in memory (10 R234) -/

/-- The units of a tile at a base and a stride, in order. -/
def tileRegion (base stride : Word) (wide : Bool) : Region := { base := base, stride := stride, len := 256, rows := viewSide wide }

/-! ## Acceptance -/

/-- The line of a descriptor: a command's read waits for earlier writes to it (10 R246). -/
def descRange (c : EngineCmd) : List Range :=
  match c.op with
  | .mtgemm | .xcopy | .xfill => if c.addr.toNat % 64 = 0 then [lineRange c.addr 64 false] else []
  | _ => []

/-- The ranges, the descriptor, the units read and the failure with which a command is accepted. -/
abbrev Accepted := List Range × List Byte × List (Nat × Nat) × Option (BitVec 3 × Word)

def refuseCmd (e : Nat) (va : Word) : Accepted := ([], [], [], some (BitVec.ofNat 3 e, va))

/-- Read a descriptor, and go on if its address is good. -/
def withDesc (n : Nat) (c : EngineCmd) (f : List Byte → M Accepted) : M Accepted := do
  if c.addr.toNat % 64 ≠ 0 then return refuseCmd 1 c.addr
  let (us, fs) ← engineUnitsOf n [] (unitsIn c.addr 64)
  match ← firstFailure fs with
  | some e => return (descRange c, [], [], some e)
  | none => f (bytesOf us c.addr 64)

/-- ZERO clears the named tiles at acceptance, once earlier commands have finished with them (10 R229, R239). -/
def clearTiles (busy ts : List Nat) : M Unit := do
  if meets ts busy then notEnabled
  each (fun t => writeT (Fin.ofNat 8 t) 0) ts

/-- Acceptance of MTGEMM: the descriptor, and the outlier structure, whose length stands after the descriptor in what is kept. -/
def acceptGemm (n : Nat) (c : EngineCmd) (busy : List Nat) : M Accepted :=
  withDesc n c fun d => do
    let g := Gemm.ofBytes d
    let p := (← get).hart.shape
    let bad : Accepted := (descRange c, d, [], some (1, c.addr))
    if !g.ok p.split then return bad
    let (us, fs, len) ← if g.hasOutl then readOutliers n g else pure ([], [], 0)
    if g.hasOutl && !outliersOk g fun a => lookupKey a us then return bad
    if g.zero then clearTiles busy (gemmTiles g.ctl)
    let extra := if g.hasOutl then rowsRange g.outl 0 1 (4 * (g.m + 1 + len)) false else []
    return (descRange c ++ g.ranges ++ extra, d ++ leBytes 8 len, us, ← firstFailure fs)

def acceptCopy (n : Nat) (c : EngineCmd) : M Accepted :=
  withDesc n c fun d => do
    if copyOk d then return (descRange c ++ (copySource d).ranges false ++ (copyDest d).ranges true, d, [], none)
    else return (descRange c, d, [], some (1, c.addr))
def acceptFill (n : Nat) (c : EngineCmd) : M Accepted :=
  withDesc n c fun d => do
    if fillOk d then return (descRange c ++ (fillDest d).ranges true, d, [], none)
    else return (descRange c, d, [], some (1, c.addr))

def entryBytes (c : Claim) : Nat := if c.slots = 14 then 8 else 16

/-- Acceptance of HDRAIN: the number of live entries gives its write entry (12 R283). -/
def acceptDrain (cmd : EngineCmd) (h : Handle) : M Accepted := do
  let c := (← get).getClaim h
  if cmd.addr.toNat % 8 ≠ 0 then return refuseCmd 2 cmd.addr
  return (rowsRange cmd.addr 0 1 (8 + (c.liveCount + c.unread.length) * entryBytes c) true ++ rowsRange c.spillBase 0 1 (32 * c.used) false, [], [], none)

/-- Acceptance of SWB: the lines of the window that are modified now (11 R268). -/
def acceptSwb (w : WinId) : M Accepted := do
  settleWindow w
  return ([], [], ((← get).modifiedIn w).filterMap fun x => match x.1 with
    | .window _ _ vline => some (vline, x.2)
    | .scalarL1 _ | .remote _ => none, none)

/-- Acceptance of command `n`, while earlier commands hold the tiles `busy`. -/
def acceptOp (n : Nat) (c : EngineCmd) (busy : List Nat) : M Accepted :=
  match c.op with
  | .mtgemm => acceptGemm n c busy
  | .xcopy => acceptCopy n c
  | .xfill => acceptFill n c
  | .czero k =>
    if 2 ^ 24 < k.toNat then return refuseCmd 1 c.addr
    else if c.addr.toNat % 64 ≠ 0 then return refuseCmd 2 c.addr
    else return (rowsRange c.addr 0 1 (64 * k.toNat) true, [], [], none)
  | .mld _ _ w st =>
    if c.addr.toNat % 8 ≠ 0 ∨ st.toNat % 8 ≠ 0 then return refuseCmd 2 c.addr
    else return ((tileRegion c.addr st w).ranges false, [], [], none)
  | .mst _ _ w st =>
    if c.addr.toNat % 8 ≠ 0 ∨ st.toNat % 8 ≠ 0 then return refuseCmd 2 c.addr
    else return ((tileRegion c.addr st w).ranges true, [], [], none)
  | .hdrain h => acceptDrain c h
  | .swb w => acceptSwb w

/-- Entries in use on the current hart's core (05 R109). -/
def Hart.entryCount (h : Hart) : Nat := ((h.engine.filter fun c => !c.finished).flatMap EngineCmd.ranges).length
def State.entryCount (s : State) : Nat :=
  s.hart.entryCount + match s.partner with
    | some h => h.entryCount
    | none => 0

/-- The index of the first command that waits for acceptance. -/
def firstUnaccepted : Nat → List EngineCmd → Option (Nat × EngineCmd)
  | _, [] => none
  | i, c :: r => if c.accepted then firstUnaccepted (i + 1) r else some (i, c)

/-- The ranges that acceptance itself reads: those of a command with an outlier structure. -/
def readAtAccept (c : EngineCmd) (ranges : List Range) (us : List (Nat × Nat)) : List Range :=
  match c.op with
  | .mtgemm => if us.isEmpty then [] else ranges
  | _ => []

/-- ENGINE_ACCEPT: the oldest waiting command of the hart is accepted, after the hart's earlier vector writes have performed at PAIR
scope (05 R108). -/
def execEngineAccept (s : State) : Out1 :=
  run (do
    match firstUnaccepted 0 s.hart.engine with
    | none => notEnabled
    | some (i, c) =>
      let earlier := (s.hart.engine.take i).filter fun e => !e.finished
      if (s.getCC c.cc).count.toNat = 255 then notEnabled
      if rangesConflict (descRange c) (earlier.flatMap EngineCmd.ranges) then notEnabled
      raiseM (fun w => s.mine w && w.stream == .vector) .core
      let (ranges, d, us, failure) ← acceptOp i c (earlier.flatMap fun e => e.tilesWritten ++ e.tilesRead)
      if rangesConflict (readAtAccept c ranges us) (earlier.flatMap EngineCmd.ranges) then notEnabled
      if Config.interlockEntries < (← get).entryCount + ranges.length then notEnabled
      withCmd i fun c => { c with accepted := true, desc := d, ranges := ranges, read := us, failure := failure }
      let x := (← get).getCC c.cc
      modify fun s => s.setCC c.cc { x with count := x.count + 1 }) s

/-! ## Transfers -/

/-- Units that name one place hold one value, so that their order is no matter. -/
def unitsAgree : List (Except Failure Nat × Nat) → Bool
  | [] => true
  | x :: xs => xs.all (fun y => decide (y.2 = x.2) || !sameUnit x.1 y.1) && unitsAgree xs
where
  sameUnit : Except Failure Nat → Except Failure Nat → Bool
    | .ok a, .ok b => a == b
    | _, _ => false

/-- Write units to their places: all of them where no unit fails, else each that passes by a free choice (10 R239).  There is no
order among the units of a command (05 R110): where two name one place with different values, a free one comes last (log 10). -/
def engineWrite (n : Nat) (kind : Place → Option Cause) (size : Nat) (xs : List (Word × Nat)) (given : List Failure) :
    M (List Failure) := do
  let ds ← collect (fun (x : Word × Nat) => do return (x.1, ← engineDest n kind size x.1, x.2)) xs
  let fs := given ++ ds.filterMap fun d => match d.2.1 with
    | .ok _ => none
    | .error f => some f
  let gs ← collect (fun (d : Word × Except Failure Nat × Nat) => do
    match d.2.1 with
    | .ok pa =>
      if fs.isEmpty || (← freshBit) then
        return match ← enginePerform pa d.1 size d.2.2 with
          | .ok _ => []
          | .error f => [f]
      else return []
    | .error _ => return []) (← if unitsAgree (ds.map Prod.snd) then pure ds else shuffle ds.length ds)
  return fs ++ gs.flatten

/-- A list with its numbers. -/
def numbered {α : Type} (xs : List α) : List (Nat × α) := (upTo xs.length).zip xs

/-- Read the units of a region, but for what was read before.  Where rows overlap, a unit is read once for each row that holds it: the
model's choice (log 74). -/
def engineUnits (n : Nat) (early : List (Nat × Nat)) (r : Region) : M (List Nat × List Failure) := do
  let us ← collect (fun (x : Nat × Word) => engineReadOnce n early x.1 x.2) (numbered r.units)
  return (us.map fun u => match u with
      | .ok x => x
      | .error _ => 0,
    us.filterMap fun u => match u with
      | .ok _ => none
      | .error f => some f)

/-- All ones of a view's element (10 R239). -/
def allOnes (wide : Bool) : Nat := 2 ^ viewBits wide - 1

/-- Change a tile by a view: the 32-bit view is the whole tile, the 64-bit view a part (10 R224; log 18). -/
def changeTile (t : Tile) (wide : Bool) (f : TileBits → TileBits) : M Unit :=
  if wide then changeT t f else modify fun s => s.setAcc t (f (s.getAcc t))

/-- Fill a tile's view with all ones. -/
def poisonTile (t : Tile) (wide : Bool) : M Unit := changeTile t wide fun x => tileOf x wide fun _ _ => allOnes wide

/-- The place in memory order of a tile element: row order, or column order (10 R234). -/
def memOrder (col : Bool) (i j : Nat) : Nat × Nat := if col then (j, i) else (i, j)

/-- MLD. -/
def runMld (n : Nat) (c : EngineCmd) (t : Tile) (col wide : Bool) (stride : Word) : M (List Failure) := do
  if c.failure.isSome then
    poisonTile t wide
    return []
  let (xs, fs) ← engineUnits n c.read (tileRegion c.addr stride wide)
  if fs.isEmpty then
    let bytes := packElems 64 xs
    changeTile t wide fun x => tileOf x wide fun i j =>
      let m := memOrder col i j
      bitsAt bytes (2048 * m.1 + viewBits wide * m.2) (viewBits wide)
  else poisonTile t wide
  return fs

/-- The destination units that a command has not written yet. -/
def EngineCmd.left {α : Type} (c : EngineCmd) (xs : List α) : List α :=
  ((numbered xs).filter fun x => !c.wrote.contains x.1 && (c.failedAt true x.1).isNone).map Prod.snd
/-- The failures of destination units that it met in flight. -/
def EngineCmd.lost (c : EngineCmd) : List Failure := (c.broke.filter fun x => x.1).map fun x => x.2.2

/-- The units that MST writes of a tile. -/
def mstUnits (c : EngineCmd) (x : TileBits) (col wide : Bool) (stride : Word) : List (Word × Nat) :=
  let n := viewSide wide
  let rows := (upTo n).map fun i => packElems (viewBits wide) ((upTo n).map fun j => let m := memOrder col i j; tileElem x wide m.1 m.2)
  (tileRegion c.addr stride wide).units.zip (rows.flatMap fun r => (upTo 32).map fun u => bitsAt r (64 * u) 64)

/-- MST: a tile in uncorrectable error is a failing operand, whose address the manual does not give. -/
def runMst (n : Nat) (c : EngineCmd) (t : Tile) (col wide : Bool) (stride : Word) : M (List Failure) := do
  if c.failure.isSome then return []
  let given ← operandFailure ((← get).badT t) 3
  engineWrite n engineKind 8 (c.left (mstUnits c ((← get).getAcc t) col wide stride)) (given ++ c.lost)

/-! ## MTGEMM (10 R244, R245) -/

/-- The values that a command has read of each unit of its operands, by address. -/
abbrev Reads := List (Nat × List Nat)

/-- The units of the operands that the steps use; a command with no element uses none (10 R241). -/
def Gemm.operandUnits (g : Gemm) : List Word :=
  let rows (base : Word) (stride n len : Nat) : List Word :=
    (upTo n).flatMap fun i => unitsIn (base + BitVec.ofNat 64 (i * stride)) len
  match g.pair with
  | none => []
  | some (f, h, p) =>
    if g.k = 0 ∨ g.m = 0 ∨ g.n = 0 then []
    else
      rows g.a g.sa g.m (g.rowA f) ++ rows g.b g.sb g.n (g.rowB h) ++ rows g.auxA (g.auxRow p.mx) g.m (g.auxRow p.mx)
        ++ (if p.mx then rows g.auxB (g.k / g.blk) g.n (g.k / g.blk) else [])

/-- The units that an MTGEMM may read after its acceptance. -/
def gemmUnits (c : EngineCmd) : List Word :=
  let g := Gemm.ofBytes c.desc
  g.operandUnits ++ (if g.hasOutl && !g.operandUnits.isEmpty then g.outlierUnits (leAt c.desc 64 8) else [])

/-- Read what is left of the operands: a unit that has been read may be read once more, by a free choice (10 R244, 04 R93). -/
def readOperands (n : Nat) (c : EngineCmd) : M (Reads × List Failure) := do
  let xs ← collect (fun (a : Nat) => do
    let early := (c.read.filter fun x => x.1 = a).map Prod.snd
    match c.failedAt false a with
    | some f => return (a, early, [f])
    | none =>
      if early.isEmpty || (← freshBit) then
        return match ← engineRead n (BitVec.ofNat 64 a) with
          | .ok v => (a, v :: early, [])
          | .error f => (a, early, [f])
      else return (a, early, [])) (distinct ((gemmUnits c).map BitVec.toNat))
  return (xs.map fun x => (x.1, x.2.1), xs.flatMap fun x => x.2.2)

/-- The value of a unit in one use: one of those that were read (04 R93). -/
def unitFor (count : Nat) (rs : Reads) (use : List Nat) (a : Nat) : Nat :=
  let vs := (lookupKey a rs).getD []
  vs.getD (if vs.length ≤ 1 then 0 else Config.freeUse count (a :: use) % vs.length) 0

/-- Element `e` of `w` bits of an array at an address, from units by address. -/
def elementIn (us : Nat → Nat) (base : Word) (w e : Nat) : Nat :=
  let a := (base + BitVec.ofNat 64 (w * e / 8)).toNat
  bitsAt (us (a / 8 * 8)) (8 * (a % 8) + w * e % 8) w

/-- The stored elements of row `gi` of A that stand at position k: the element itself, or those of the 2:4 group whose metadata
names it (10 R244). -/
def storedAt (g : Gemm) (meta_ : Nat) (k : Nat) : List Nat :=
  if g.sparse then
    let grp := k / 4
    let nib := bitsAt meta_ (4 * grp) 4
    (if nib % 4 = k % 4 then [2 * grp] else []) ++ (if nib / 4 = k % 4 then [2 * grp + 1] else [])
  else [k]

/-- A row of an operand ready for the steps: its values, and whether a block is invalid. -/
structure GemmRow where
  codes : List Nat
  aux   : Nat
  outl  : List (Nat × Nat)
  deriving DecidableEq, Repr

def rowValue (g : Gemm) (f : Fmt) (mx : Bool) (r : GemmRow) (e : Nat) : Opnd :=
  operandAt f mx g.blk r.codes (fun b => bitsAt r.aux (8 * b) 8) e

/-- The block of step `st` is invalid (03 R65); a step lies in one block. -/
def stepInvalid (g : Gemm) (f : Fmt) (d : Nat) (r : GemmRow) (st : Nat) : Bool :=
  let b := st * d / g.blk
  !blockValid f g.blk r.codes (bitsAt r.aux (8 * b) 8) b

/-- A 2:4 group of step `st` names one position twice. -/
def stepDuplicate (g : Gemm) (d : Nat) (r : GemmRow) (st : Nat) : Bool :=
  g.sparse && (upTo d).any fun q =>
    let grp := (st * d + q) / 4
    bitsAt r.aux (4 * grp) 2 == bitsAt r.aux (4 * grp + 2) 2

/-- The values of A at position k, each an exact term. -/
def termsA (g : Gemm) (f : Fmt) (mx : Bool) (r : GemmRow) (k : Nat) : List Opnd :=
  match storedAt g r.aux k with
  | [] => [some (.zero false)]
  | es => es.map (rowValue g f mx r)

/-- The floating-point terms of step `st`, in the order of 03 R73: one for each position, then the outliers, then the duplicates. -/
def stepTerms (g : Gemm) (f h : Fmt) (p : MatPair) (ra rb : GemmRow) (st : Nat) : List (Num × Flags) :=
  let ks := (upTo p.depth).map fun q => st * p.depth + q
  let val := rowValue g h p.mx rb
  let at_ (pick : List Opnd → List Opnd) := ks.flatMap fun k => (pick (termsA g f p.mx ra k)).map fun x => matTerm false x (val k)
  at_ (List.take 1)
    ++ (ra.outl.filter fun o => decide (st * p.depth ≤ o.1) && decide (o.1 < (st + 1) * p.depth)).map (fun o =>
        matTerm false (some (decodeFp .bf16 o.2)) (val o.1))
    ++ at_ (List.drop 1)

/-- The integer products of step `st`. -/
def stepInts (g : Gemm) (p : MatPair) (ra rb : GemmRow) (st : Nat) : List Int :=
  ((upTo p.depth).map fun q => st * p.depth + q).flatMap fun k =>
    (storedAt g ra.aux k).map fun e => signedOf 8 (ra.codes.getD e 0) * signedOf 8 (rb.codes.getD k 0)

/-- A row of an operand from units by address: its codes, and its scales or metadata. -/
def rowFrom (us : Nat → Nat) (f : Fmt) (n : Nat) (base aux : Word) (auxLen : Nat) (outl : List (Nat × Nat)) : GemmRow :=
  { codes := (upTo n).map (elementIn us base (matBits f)), aux := leNat ((upTo auxLen).map fun b => BitVec.ofNat 8 (elementIn us aux 8 b))
    outl := outl }

/-- The side-list entries of row `i`, of a list of `n`: column and value. -/
def outliersOf (g : Gemm) (us : Nat → Nat) (n i : Nat) : List (Nat × Nat) :=
  let off (i : Nat) : Nat := min n (elementIn us g.outl 32 i)
  (upTo (off (i + 1) - off i)).map fun e =>
    let x := elementIn us g.outl 32 (g.m + 1 + off i + e)
    (x % 65536, x / 65536)

/-- The rows of A and B as element (i, j) uses them in a step. -/
def rowsFor (g : Gemm) (f h : Fmt) (p : MatPair) (us : List Nat → Nat → Nat) (outliers i j st : Nat) : GemmRow × GemmRow :=
  let u := us [i, j, st]
  let at_ (base : Word) (stride k : Nat) : Word := base + BitVec.ofNat 64 (k * stride)
  (rowFrom u f (if g.sparse then g.k / 2 else g.k) (at_ g.a g.sa i) (at_ g.auxA (g.auxRow p.mx) i) (g.auxRow p.mx)
      (if g.hasOutl then outliersOf g u outliers i else []),
   rowFrom u h g.k (at_ g.b g.sb j) (at_ g.auxB (g.k / g.blk) j) (if p.mx then g.k / g.blk else 0) [])

/-- An element after all its steps, and the flags; `rows` gives the rows that a step uses. -/
def gemmElem (g : Gemm) (f h : Fmt) (p : MatPair) (rows : Nat → GemmRow × GemmRow) (x : Nat) : Nat × Flags :=
  (upTo (g.k / p.depth)).foldl
    (fun acc st =>
      let r := rows st
      if p.int then (stepInt acc.1 (stepInts g p r.1 r.2 st), acc.2)
      else
        let y := stepFp p.wide acc.1 (stepTerms g f h p r.1 r.2 st)
        (y.1, acc.2 ||| y.2))
    (x, 0)

/-- Some use of an operand meets a condition. -/
def someUse (g : Gemm) (p : MatPair) (c : Nat → Nat → Nat → Bool) : Bool :=
  (upTo g.m).any fun i => (upTo g.n).any fun j => (upTo (g.k / p.depth)).any fun st => c i j st

/-- Give every element of the active regions of the named tiles a new value (10 R245). -/
def eachRegion (g : Gemm) (p : MatPair) (f : Nat → Nat → Nat → Nat × Flags) : M Flags := do
  let T := p.side
  let fl ← collect (fun i => do
    let t : Tile := Fin.ofNat 8 (g.tile0 + i)
    let r0 := i / g.nN * T
    let c0 := i % g.nN * T
    if r0 < g.m ∧ c0 < g.n then
      let old := (← get).getAcc t
      let (new, fl) := mapTile old p.wide fun i j x => if r0 + i < g.m ∧ c0 + j < g.n then f (r0 + i) (c0 + j) x else (x, 0)
      changeT t fun _ => new
      return fl
    else return 0) (upTo (g.nM * g.nN))
  return fl.foldl (fun a b => a ||| b) 0

/-- A named tile whose active elements are operands is in uncorrectable error. -/
def badTiles (g : Gemm) (p : MatPair) (s : State) : Bool :=
  (upTo (g.nM * g.nN)).any fun i =>
    decide (i / g.nN * p.side < g.m) && decide (i % g.nN * p.side < g.n) && s.badT (Fin.ofNat 8 (g.tile0 + i))

/-- Flags that an instruction or a command raises join those of every later instruction. -/
def QueueEntry.withFlags (f : BitVec 8) (e : QueueEntry) : QueueEntry := { e with front := { e.front with fcsr := e.front.fcsr ||| f } }

/-- The flags of a command of the hart: it issued before every instruction that is queued (03 R62). -/
def engineFlags (f : Flags) : M Unit :=
  modify fun s => (s.orFlags f).withHart fun h => { h with queue := h.queue.map (QueueEntry.withFlags (f.zeroExtend 8 <<< 3)) }

/-- MTGEMM.  One whose descriptor cannot be read leaves every tile as it was, since it names none; one whose outlier structure cannot be read
fails after acceptance: the model's choice (log 75). -/
def runGemm (n : Nat) (c : EngineCmd) : M (List Failure) := do
  let g := Gemm.ofBytes c.desc
  match c.failure, g.pair with
  | some (1, _), _ => return []
  | _, none => return []
  | given, some (f, h, p) =>
    if c.desc.isEmpty then return []
    let (rs, fs) ← readOperands n c
    let bad ← operandFailure (decide (g.k ≠ 0) && badTiles g p (← get)) 3
    if given.isNone && (fs ++ bad).isEmpty then
      if g.k ≠ 0 then
        let count ← freshCount
        let rows := rowsFor g f h p (unitFor count rs) (leAt c.desc 64 8)
        let fl ← eachRegion g p fun i j x => gemmElem g f h p (rows i j) x
        engineFlags fl
        if p.mx && someUse g p (fun i j st => stepInvalid g f p.depth (rows i j st).1 st || stepInvalid g h p.depth (rows i j st).2 st) then
          raiseMx mxInv
        if someUse g p fun i j st => stepDuplicate g p.depth (rows i j st).1 st then raiseMx mxDup
    else
      let _ ← eachRegion g p fun _ _ _ => (allOnes p.wide, 0)
    return fs ++ bad

/-! ## The copy engine -/

/-- The units of an XCOPY: number, source and destination. -/
def copyUnits (c : EngineCmd) : List (Nat × Word × Word) := numbered ((copySource c.desc).units.zip (copyDest c.desc).units)

/-- XCOPY. -/
def runCopy (n : Nat) (c : EngineCmd) : M (List Failure) := do
  if c.failure.isSome then return []
  let us ← collect (fun (x : Nat × Word × Word) => do return (x, ← engineReadOnce n c.read x.1 x.2.1)) (c.left (copyUnits c))
  let fs := us.filterMap fun u => match u.2 with
    | .ok _ => none
    | .error f => some f
  engineWrite n engineKind 8 (us.filterMap fun u => match u.2 with
    | .ok x => some (u.1.2.2, x)
    | .error _ => none) (fs ++ c.lost)

/-- The units that XFILL writes. -/
def fillUnits (c : EngineCmd) : List (Word × Nat) := (fillDest c.desc).units.map fun va => (va, leAt c.desc 0x10 8)

/-- XFILL. -/
def runFill (n : Nat) (c : EngineCmd) : M (List Failure) := do
  if c.failure.isSome then return []
  engineWrite n engineKind 8 (c.left (fillUnits c)) c.lost

/-- The cells that CZERO clears. -/
def zeroUnits (c : EngineCmd) (k : Word) : List (Word × Nat) := (upTo k.toNat).map fun i => (c.addr + BitVec.ofNat 64 (64 * i), 0)

/-- CZERO. -/
def runZero (n : Nat) (c : EngineCmd) (k : Word) : M (List Failure) := do
  if c.failure.isSome then return []
  engineWrite n zeroKind 64 (c.left (zeroUnits c k)) c.lost

/-! ## HDRAIN (12 R283) -/

/-- The live entries of a table: home bucket, key and value, in the order of R283. -/
def drainOrder (xs : List (Nat × Nat × Nat)) : List (Word × Word) :=
  (sortBy (fun x y => decide (x.1 < y.1) || (x.1 == y.1 && decide (x.2.1 ≤ y.2.1))) xs).map fun x =>
    (BitVec.ofNat 64 x.2.1, BitVec.ofNat 64 x.2.2)

/-- The units of the spill records that HDRAIN reads. -/
def recordUnits (c : Claim) : List Word := (upTo c.used).flatMap fun i => unitsIn (recAddr c i) 32

/-- The live entries, where every unit of the records has been read. -/
def drained (c : Claim) (us : List (Nat × Nat)) : Option (List (Word × Word)) :=
  if (recordUnits c).all fun va => (lookupKey va.toNat us).isSome then
    let spilled := (upTo c.used).filterMap fun i =>
      let b := bytesOf us (recAddr c i) 32
      let r := SpillRec.ofWords (leAt b 0 8) (leAt b 8 8) (leAt b 16 8)
      if r.state = 1 then some (r.home, r.key, r.value) else none
    some (drainOrder ((c.resident.map fun x => (c.home x.2.2.1, x.2.2.1, x.2.2.2)) ++ spilled))
  else none

/-- The bytes that HDRAIN writes: the count, then the entries laid out as slots; of a table whose records cannot all be read the
model gives the count alone, and the other units keep their old values (log 27). -/
def drainBytes (c : Claim) (xs : Option (List (Word × Word))) : List Byte :=
  leBytes 8 ((xs.map List.length).getD c.liveCount) ++ (xs.getD []).flatMap fun x =>
    if c.slots = 14 then leBytes 4 x.1.toNat ++ leBytes 4 x.2.toNat else leBytes 8 x.1.toNat ++ leBytes 8 x.2.toNat

/-- The units that HDRAIN writes, from what it has read. -/
def drainUnits (cmd : EngineCmd) (c : Claim) (us : List (Nat × Nat)) : List (Word × Nat) :=
  let bs := drainBytes c (drained c us)
  (upTo (bs.length / 8)).map fun i => (cmd.addr + BitVec.ofNat 64 (8 * i), leAt bs (8 * i) 8)

/-- HDRAIN. -/
def runDrain (n : Nat) (cmd : EngineCmd) (h : Handle) : M (List Failure) := do
  if cmd.failure.isSome then return []
  let c := (← get).getClaim h
  let (us, fs) ← engineUnitsOf n cmd.read (recordUnits c)
  let bad ← operandFailure ((← get).hart.ecc.h.getLsbD h.val) 2
  engineWrite n engineKind 8 (cmd.left (drainUnits cmd c us)) (bad ++ fs ++ cmd.lost)

/-! ## SWB (11 R268) -/

/-- SWB: each line that was modified at acceptance and still is goes to its home, and stays in the window; an error reply gives
ECODE 5, a unit in error ECODE 6. -/
def runSwb (c : EngineCmd) (w : WinId) : M (List Failure) := do
  let rs ← collect (fun (l : Nat × Nat) => do
    let s ← get
    let va := BitVec.ofNat 64 (l.1 * 128)
    if s.owner l.2 ≠ some (.window s.hart.ident.hartid.toNat w.val l.1) then return []
    else if !s.reaches s.hart.ctxU false (l.2 * 128) then
      modify fun s => s.noteReply (l.2 * 128)
      return [((5 : Nat), va)]
    else
      let bad := s.badHeld l.2 || s.badLine l.2
      toHome l.2
      return if bad then [(6, va)] else []) c.read
  return rs.flatten

def runOp (n : Nat) (c : EngineCmd) : M (List Failure) :=
  match c.op with
  | .mtgemm => runGemm n c
  | .xcopy => runCopy n c
  | .xfill => runFill n c
  | .czero k => runZero n c k
  | .mld t col w st => runMld n c (Fin.ofNat 8 t) col w st
  | .mst t col w st => runMst n c (Fin.ofNat 8 t) col w st
  | .hdrain h => runDrain n c h
  | .swb w => runSwb c w

/-! ## Transfers of a command in flight (05 R110) -/

/-- The units of operands that a command may read before it completes, with their numbers. -/
def EngineCmd.sources (c : EngineCmd) (s : State) : List (Nat × Word) :=
  match c.op with
  | .xcopy => (copyUnits c).map fun x => (x.1, x.2.1)
  | .mld _ _ wide stride => numbered (tileRegion c.addr stride wide).units
  | .mtgemm => (gemmUnits c).map fun va => (va.toNat, va)
  | .hdrain h => (recordUnits (s.getClaim h)).map fun va => (va.toNat, va)
  | .xfill | .czero _ | .mst .. | .swb _ => []

/-- A unit may be read again, once for each use (04 R93). -/
def EngineCmd.readsAgain (c : EngineCmd) : Bool :=
  match c.op with
  | .mtgemm => true
  | _ => false

/-- The units that a command whose data is at hand may write before it completes, and their number of bytes. -/
def EngineCmd.targets (c : EngineCmd) (s : State) : Nat × List (Word × Nat) :=
  match c.op with
  | .xfill => (8, fillUnits c)
  | .czero n => (64, zeroUnits c n)
  | .mst t col wide stride => (8, if s.badT (Fin.ofNat 8 t) then [] else mstUnits c (s.getAcc (Fin.ofNat 8 t)) col wide stride)
  | .hdrain h =>
    (8, if s.hart.ecc.h.getLsbD h.val || (drained (s.getClaim h) c.read).isNone then [] else drainUnits c (s.getClaim h) c.read)
  | .mtgemm | .xcopy | .mld .. | .swb _ => (8, [])

/-- Write unit `i` of the destination, and note that it is written or how it failed. -/
def writeUnit (n i size : Nat) (va : Word) (x : Nat) : M Unit := do
  let r ← match ← engineDest n (if size = 64 then zeroKind else engineKind) size va with
    | .error f => pure (.error f)
    | .ok pa => enginePerform pa va size x
  withCmd n fun c => match r with
    | .ok _ => { c with wrote := i :: c.wrote }
    | .error f => { c with broke := (true, i, f) :: c.broke }

/-- Lines that the commands of a core may pin (04 R92). -/
def pinBudget : Nat := 16384
/-- The lines that the commands of a core pin. -/
def State.pinned (s : State) (core : Nat) : List Nat :=
  ((s.harts.filter fun h => h.ident.coreKey == core).flatMap fun h => h.engine.filter fun c => !c.finished).flatMap EngineCmd.pins

/-- MTGEMM pins the line that it reads, where its slice accepts the pin and the budget has room (04 R92). -/
def pinLine (n : Nat) (va : Word) : M Unit := do
  let s ← get
  match s.probe s.hart.ctxU Needs.load va with
  | none => pure ()
  | some p =>
    if (s.pinned s.hart.ident.coreKey).length < pinBudget && (← freshBit) then
      withCmd n fun c => { c with pins := touch (paLine p.pa) c.pins }

/-- A command in flight reads a free unit of its operands. -/
def readEarly (n : Nat) (c : EngineCmd) : M Unit := do
  let xs := c.sources (← get)
  let i := (← freshNat) % xs.length
  match xs[i]? with
  | none => pure ()
  | some (k, va) =>
    if (c.readsAgain || (lookupKey k c.read).isNone) && (c.failedAt false k).isNone then
      match ← engineRead n va with
      | .ok x =>
        withCmd n fun c => { c with read := (k, x) :: c.read }
        if c.readsAgain then pinLine n va
      | .error f => withCmd n fun c => { c with broke := (false, k, f) :: c.broke }

/-- A command in flight writes a free unit of its destination; XCOPY reads the source unit first, if it has not. -/
def writeEarly (n : Nat) (c : EngineCmd) : M Unit := do
  let u ← freshNat
  match c.op with
  | .xcopy =>
    let i := u % (copyUnits c).length
    match (copyUnits c)[i]? with
    | none => pure ()
    | some (k, from_, into) =>
      if !c.wrote.contains k && (c.failedAt true k).isNone && (c.failedAt false k).isNone then
        match ← engineReadOnce n c.read k from_ with
        | .error f => withCmd n fun c => { c with broke := (false, k, f) :: c.broke }
        | .ok x => do
          withCmd n fun c => { c with read := (k, x) :: c.read }
          writeUnit n k 8 into x
  | _ =>
    let (bytes, xs) := c.targets (← get)
    let i := u % xs.length
    match xs[i]? with
    | none => pure ()
    | some (va, x) =>
      if !c.wrote.contains i && (c.failedAt true i).isNone then writeUnit n i bytes va x

/-- Command `n` of the hart, accepted and not complete, makes one of its transfers. -/
def engineProgress (n : Nat) (s : State) : Out1 :=
  run (do
    match s.hart.engine[n]? with
    | none => notEnabled
    | some c =>
      if !c.accepted || c.finished || c.failure.isSome || (s.hart.engine.take n).any c.blockedBy then notEnabled
      if ← freshBit then readEarly n c else writeEarly n c) s

/-! ## Completion (05 R110, 10 R235, R236) -/

/-- A finished command is counted down: the first failure since the last clear is kept.  ERR and ECODE appear at this moment, and commands of a
counter are counted down in issue order, so their first failure is the earliest issued one's: the model's choice (log 71). -/
def Counter.countDown (x : Counter) (f : Option (BitVec 3 × Word)) : Counter :=
  let x := { x with count := x.count - 1 }
  match f with
  | none => x
  | some (e, v) => if x.err then x else { x with err := true, ecode := e, fail := v }

/-- Count finished commands down in issue order on their counters; the others stay. -/
def countAll : List CReg → List EngineCmd → Vector Counter 16 → List EngineCmd × Vector Counter 16
  | _, [], cc => ([], cc)
  | held, c :: r, cc =>
    if c.finished && !held.contains c.cc then countAll held r (cc.set c.cc (cc[c.cc].countDown c.failure))
    else
      let (l, cc') := countAll (c.cc :: held) r cc
      (c :: l, cc')

def Hart.countEngine (h : Hart) : Hart :=
  let (l, cc) := countAll [] h.engine h.cc
  { h with engine := l, cc := cc, priv := { h.priv with wdcount := 0 } }

/-- ENGINE_COMPLETE: command `n` of the hart's commands in flight makes its transfers and completes. -/
def execEngineComplete (n : Nat) (s : State) : Out1 :=
  run (do
    match s.hart.engine[n]? with
    | none => notEnabled
    | some c =>
      if !c.accepted || c.finished || (s.hart.engine.take n).any c.blockedBy then notEnabled
      let fs ← runOp n c
      let f ← match c.failure with
        | none => firstFailure fs
        | some (e, v) => if e.toNat ≤ 2 then pure (some (e, v)) else firstFailure ((e.toNat, v) :: fs)
      if !(← get).hart.engine.isEmpty then
        withCmd n fun c => { c with finished := true, failure := f, pins := [] }
        modify fun s => s.withHart Hart.countEngine) s

end Sys2Proof.Machine
end

