-- ==== Sys2Proof/Machine/Fork.lean ====
section
/-! DEFINITION. FORK, JOIN and EXIT (02 R38 to R40, R47), and the lane widths of the cap ladder (23 R390). -/

namespace Sys2Proof.Machine

/-- VLCAP.WIDTH at a step of the cap ladder, for a full-lane or a split hart (23 R390). -/
def capWidth (step : Nat) (split : Bool) : Nat :=
  let full := 16 - 2 * min step 6
  if split then max 4 (full / 2) else full

/-- The cap step of a core. -/
def State.capStep (s : State) (core : Nat) : Nat := (lookupKey core s.power.steps).getD 0
def State.widthFor (s : State) (h : Hart) (split : Bool) : Nat := capWidth (s.capStep h.ident.coreKey) split

/-- VLMAX of a half, for the element width of VTYPE. -/
def Shape.halfMax (p : Shape) : Nat := 4096 / p.sew

/-! ## Contents of registers when a core is split or joined (02 R39, R40) -/

/-- Bytes 0 to 511 of a register, the others zero. -/
def lowHalf (v : VBits) : VBits := v &&& BitVec.ofNat 8192 (2 ^ 4096 - 1)

/-- The mask bits at columns below a bound, the others zero. -/
def lowColumns (n : Nat) (k : VBits) : VBits :=
  k &&& BitVec.ofNat 8192 ((upTo 8).foldl (fun a row => a + (2 ^ n - 1) * 2 ^ (1024 * row)) 0)

/-- The registers that stay with a parent: the lower halves, tiles 0 to 3.  The others read as zero from then on. -/
def Hart.keepHalf (h : Hart) : Hart :=
  { h with v := h.v.map lowHalf, k := h.k.map (lowColumns h.shape.halfMax)
           acc := h.acc.mapIdx fun i t => if i < 4 then t else 0
           priv := { h.priv with vdirty := -1, adirty := h.priv.adirty ||| 0xF0 } }

/-- The parent after a split. -/
def Hart.asParent (h : Hart) (width : Nat) : Hart :=
  let h := h.keepHalf
  { h with shape := { h.shape with vl := min h.shape.vl h.shape.halfMax, split := true, half := false, forked := true, width := width, granted := width } }

/-- The child of a split, with the values of R39; the trap registers start as at launch (log 28). -/
def Hart.asChild (h : Hart) (d : SReg) (pc : Word) (width : Nat) : Hart :=
  { Hart.reset with
    pc := pc, s := if d = 0 then h.s else h.s.set d 1
    shape := { vl := 0, vrows := 1, vtype := h.shape.vtype, vstart := 0, rowstr := h.shape.rowstr, width := width, forked := true,
               half := true, split := true, granted := width }
    fcsr := h.fcsr &&& 7, leadOn := h.leadOn, det := h.det
    ident := { h.ident with hartid := h.ident.hartid ||| 1 }
    rs := { entries := [], depth := 0, rsp := h.rs.rsp }
    priv := { Priv.reset with
              tvec := h.priv.tvec, level := false, ptroot := h.priv.ptroot, asid := h.priv.asid, partid := h.priv.partid
              maxdist := h.priv.maxdist, leadOn := h.priv.leadOn, vdirty := -1, adirty := 0x0F, wdlimit := h.priv.wdlimit
              rsbase := h.priv.rsbase, rslimit := h.priv.rslimit }
    declared := h.declared, launched := false, status := .running }

/-- An engine command in flight names a tile from 4 to 7. -/
def Hart.usesHighTiles (h : Hart) : Bool :=
  h.engine.any fun c => !c.finished && (c.tilesWritten ++ c.tilesRead).any (4 ≤ ·)

/-- FORK. -/
def execFork (d a : SReg) (s : State) : Out1 :=
  run (do
    let pc ← readS a
    if pc.toNat % 4 ≠ 0 then raise .misaligned pc
    let h := s.hart
    if h.shape.split || !h.declared.fork || h.matrix.isSome then
      writeS d (-1)
      retire
    else
      if h.usesHighTiles then waitOn .forkDrain
      releaseAt .pair
      modify fun s =>
        let h := s.hart
        let w := s.widthFor h true
        { s with hart := h.asParent w, others := (h.asChild d pc w).forkLead :: s.others }
      writeS d 0
      retire
      modify fun s => s.withHart Hart.forkLead) s

/-! ## JOIN and EXIT -/

/-- Every completion counter has counted down, and no command waits. -/
def Hart.countersZero (h : Hart) : Bool := h.cc.toList.all (fun c => c.count == 0) && !h.engineBusy

/-- The failure address of the lowest-numbered counter with its error bit (log 29). -/
def Hart.engineFailure (h : Hart) : Option Word := (h.cc.toList.find? fun c => c.err).map Counter.fail

/-- Wait for the counters, and raise Engine Error where one holds its error bit (02 R40, R47). -/
def settleEngines (k : WaitKind) : M Unit := do
  if !(← get).hart.countersZero then waitOn k
  match (← get).hart.engineFailure with
  | some va => raise .engineError va
  | none => pure ()

/-- The pending entries of VSTP are discarded, unwritten (09 R217). -/
def dropPending : M Unit := modify fun s => s.withHart fun h => { h with vstp := [] }

/-- Release the claims, unmap the windows, and perform a release. -/
def releaseAll (sc : Scope) : M Unit := do
  releaseClaims
  unmapAll
  dropPending
  releaseAt sc

/-- The hart ends (02 R45). -/
def endHart : M Unit := modify fun s => s.withHart fun h => { h with status := .exited, lead := Lead.reset }

/-- A child retires (02 R40). -/
def retireChild : M Unit := do
  settleEngines .join
  releaseAll .pair
  endHart

/-- The retired child of the current hart. -/
def State.retired (s : State) : Option Hart :=
  s.others.find? fun x => x.status == .exited && !x.launched && x.ident.gangid == s.hart.ident.gangid && x.ident.hartidx == s.hart.ident.hartidx

/-- The parent takes the whole core again, and its child's flags; its pending VSTP entries go (02 R40, 09 R217). -/
def joinCore : M Unit := do
  let s ← get
  match s.retired with
  | some c =>
    modify fun s =>
      { (s.orFlags (c.fcsr.extractLsb' 3 5)).orMx c.mxflags with
        others := s.others.filter fun x => !(x.status == .exited && !x.launched && x.ident.gangid == s.hart.ident.gangid
          && x.ident.hartidx == s.hart.ident.hartidx) }
  | none => pure ()
  modify fun s => s.withHart fun h =>
    let h := h.keepHalf
    { h with shape := { h.shape with split := false, half := false, forked := false, width := s.widthFor h false, granted := s.widthFor h false } }
  dropPending

/-- A parent waits until its child has retired (02 R40). -/
def waitChild : M Unit := do
  if (← get).child.isSome then waitOn .join

/-- JOIN. -/
def execJoin (s : State) : Out1 :=
  run (do
    needConfig s.hart.matrix.isNone
    if !s.hart.shape.forked then
      dropPending
      retire
    else if !s.hart.launched then retireChild
    else
      waitChild
      joinCore
      retire
      modify fun s => s.withHart Hart.forkLead) s

/-- EXIT: a child's is a JOIN. -/
def execExit (s : State) : Out1 :=
  run (do
    if !s.hart.launched then
      needConfig s.hart.matrix.isNone
      retireChild
    else
      if s.hart.shape.forked then waitChild
      settleEngines .exitDrain
      releaseAll .system
      endHart) s

end Sys2Proof.Machine
end

