-- ==== Sys2Proof/Machine/Priv.lean ====
section
/-! DEFINITION. The privileged instructions but for the context instructions: ERET, TLBINV, CWB, CINV, WAITEV, HSIG, PRDSR, PWRSR
and HALT (18 R305 to R308, R314, R321 to R327; 21 R368, R369). -/

namespace Sys2Proof.Machine

/-- A SYSP word at U level raises Privileged Instruction (18 R303, 06 R150). -/
def privileged : M Unit := do need_ (← get).hart.priv.level .privilegedInstruction

/-- ERET. -/
def execEret (s : State) : Out1 :=
  run (do
    privileged
    modify State.returnFromTrap) s

/-! ## Privileged registers (18 R306 to R308) -/

/-- PSTAT. -/
def Hart.pstat (h : Hart) : Nat :=
  bit h.priv.level + 2 * bit h.priv.plevel + 4 * bit h.priv.trap + 8 * bit h.preempt.pending.isSome
/-- LEADCTL. -/
def Priv.leadctl (p : Priv) : Nat := bit p.leadOn + p.maxdist.toNat * 65536

/-- What PRDSR returns. -/
def Hart.privReg (h : Hart) : PReg → Word
  | .tvec => h.priv.tvec ++ 0#2
  | .tcause => h.priv.tcause.zeroExtend 64
  | .trappc => h.priv.trappc ++ 0#2
  | .tval => h.priv.tval
  | .tvstart => h.priv.tvstart.zeroExtend 64
  | .pstat => BitVec.ofNat 64 h.pstat
  | .tscratch => h.priv.tscratch
  | .ptroot => h.priv.ptroot.zeroExtend 64 <<< 16
  | .asid => h.priv.asid.zeroExtend 64
  | .partid => h.priv.partid.zeroExtend 64
  | .leadctl => BitVec.ofNat 64 h.priv.leadctl
  | .vdirty => h.priv.vdirty.zeroExtend 64
  | .adirty => h.priv.adirty.zeroExtend 64
  | .wdlimit => h.priv.wdlimit.zeroExtend 64
  | .wdcount => h.priv.wdcount.zeroExtend 64
  | .rsbase => slotAddr h.priv.rsbase
  | .rslimit => slotAddr h.priv.rslimit

/-- The privileged registers with the RW fields of one written; none for a register without one. -/
def Priv.write (p : Priv) (x : Word) : PReg → Option Priv
  | .tvec => some { p with tvec := x.extractLsb' 2 62 }
  | .tcause => some { p with tcause := x.setWidth 13 }
  | .trappc => some { p with trappc := x.extractLsb' 2 62 }
  | .tval => some { p with tval := x }
  | .tvstart => some { p with tvstart := x.setWidth 15 }
  | .pstat => some { p with trap := x.getLsbD 2, plevel := x.getLsbD 1 }
  | .tscratch => some { p with tscratch := x }
  | .leadctl => some { p with maxdist := x.extractLsb' 16 14, leadOn := x.getLsbD 0 }
  | .vdirty => some { p with vdirty := x.setWidth 32 }
  | .adirty => some { p with adirty := x.setWidth 8 }
  | .wdlimit => some { p with wdlimit := x.setWidth 48 }
  | .wdcount => some { p with wdcount := x.setWidth 48 }
  | .rsbase => some { p with rsbase := x.extractLsb' 3 61 }
  | .rslimit => some { p with rslimit := x.extractLsb' 3 61 }
  | .ptroot | .asid | .partid => none

/-- The lead goes where an enable bit becomes 0 (01 R23). -/
def Hart.followLead (h : Hart) : Hart := if h.leadEnabled then h else h.dropLead

/-- PRDSR; VDIRTY and ADIRTY wait for engine commands (18 R322). -/
def execPrdsr (d : SReg) (r : PReg) (s : State) : Out1 :=
  run (do
    privileged
    if (r = .vdirty ∨ r = .adirty) ∧ s.hart.engineBusy then waitOn .engines
    writeS d (s.hart.privReg r)
    retire) s

/-- PWRSR; a register with no RW field is Illegal Instruction, which the decoder finds already. -/
def execPwrsr (r : PReg) (d : SReg) (s : State) : Out1 :=
  run (do
    privileged
    match s.hart.priv.write (← readS d) r with
    | none => raiseWord .illegalInstruction
    | some p =>
      modify fun s => s.withHart fun h => Hart.followLead { h with priv := p }
      retire) s

/-! ## Ranges (18 R323, 21 R368) -/

/-- A range that wraps past 2^64 raises Misaligned with TVAL its base. -/
def checkRange (base len : Word) : M Unit := do
  if 2 ^ 64 < base.toNat + len.toNat then raise .misaligned base

/-- The address range of a cached entry meets a range of whole pages. -/
def TlbEntry.inRange (e : TlbEntry) (lo hi : Nat) : Bool :=
  let size := levelSpan e.lvl
  let base := e.base / size * size
  decide (base < hi) && decide (lo < base + size)

/-- TLBINV drops the entry: a tagged leaf or a table entry by its ASID, an untagged leaf with GLOBAL (21 R368, R369). -/
def TlbEntry.dropped (e : TlbEntry) (ctl : Word) (lo hi : Nat) : Bool :=
  e.inRange lo hi && (if pteG e.pte then ctl.getLsbD 16 else ctl.getLsbD 17 || e.asid.toNat == bitsAt ctl.toNat 0 16)

/-- The hart's address space is named by the operand. -/
def asidNamed (ctl : Word) (h : Hart) : Bool := ctl.getLsbD 16 || ctl.getLsbD 17 || h.priv.asid.toNat == bitsAt ctl.toNat 0 16

/-- The lines that the windows of a hart hold in a range. -/
def State.windowLinesIn (s : State) (h : Hart) (lo hi : Nat) : List (Holder × Nat) :=
  s.copies.filter fun x => match x.1 with
    | .window id _ vline => id == h.ident.hartid.toNat && decide (lo < 128 * vline + 128) && decide (128 * vline < hi)
    | .scalarL1 _ | .remote _ => false

/-- Lines of a range leave the windows of the harts that an operand names, written back where they are modified (11 R269). -/
def flushWindows (ctl : Word) (lo hi : Nat) : M Unit := do
  let s ← get
  each (fun (h : Hart) => each dropCopy (s.windowLinesIn h lo hi)) (s.harts.filter (asidNamed ctl))
  modify fun s => s.mapHarts fun h =>
    if asidNamed ctl h then { h with ecc := { h.ecc with w := h.ecc.w.filter fun u => !(decide (lo < 8 * u + 8) && decide (8 * u < hi)) } }
    else h

/-- Every write of the named harts performs: they were translated through entries that go (21 R369). -/
def drainNamed (ctl : Word) : M Unit :=
  modify fun s => (s.harts.filter (asidNamed ctl)).foldl
    (fun (s : State) (h : Hart) => s.raiseOn h.ident.coreKey (fun w => w.isOf h.ident) .home) s

/-- A named hart has a store in its store buffer, translated through entries that go. -/
def State.buffered (s : State) (ctl : Word) : Bool :=
  s.writes.any fun w => w.early != 0 && s.harts.any fun h => asidNamed ctl h && w.isOf h.ident

/-- The pages of an engine command without those whose leaf meets a range, which it translates again (21 R364). -/
def EngineCmd.forget (lo hi : Nat) (c : EngineCmd) : EngineCmd :=
  { c with pages := c.pages.filter fun x =>
      let size := if x.2.2.2 then 2 ^ 29 else 65536
      let base := x.1 * 65536 / size * size
      !(decide (base < hi) && decide (lo < base + size)) }

/-- The cached translations that a TLBINV drops, everywhere in the package (21 R368, R369), and the reads that the named harts have made
ahead. -/
def State.invalidate (s : State) (ctl : Word) (lo hi : Nat) : State :=
  { s with tlb := s.tlb.filter fun e => !e.dropped ctl lo hi }.mapHarts fun h =>
    if asidNamed ctl h then { h with engine := h.engine.map (EngineCmd.forget lo hi) }.dropReads true true else h

/-- The range of TLBINV in whole pages: all addresses where the length is 0. -/
def pageRange (base len : Word) : Nat × Nat :=
  if len = 0 then (0, 2 ^ 64) else (base.toNat / 65536 * 65536, (base.toNat + len.toNat + 65535) / 65536 * 65536)

/-- What a TLBINV does once the accesses before it have performed (21 R369). -/
def invalidateRange (ctl : Word) (lo hi : Nat) : M Unit := do
  drainNamed ctl
  flushWindows ctl lo hi
  modify fun s => s.invalidate ctl lo hi

/-- TLBINV; the format check comes before the operands are read (06 R150). -/
def execTlbinv (d a b : SReg) (s : State) : Out1 :=
  run (do
    privileged
    needConfig ((s.getS d).toNat / 2 ^ 18 == 0)
    let ctl ← readS d
    let base ← readS a
    let len ← readS b
    checkRange base len
    if s.hart.engineBusy || s.buffered ctl then waitOn .engines
    drainAll
    let r := pageRange base len
    untilStopped (invalidateRange ctl r.1 r.2)
    retire) s

/-- The physical pages of a virtual page that CWB writes back: present, no DEV page, in the hart's partition (18 R323). -/
def State.cleanFrames (s : State) (page : Word) : List Nat :=
  let c := s.hart.ctx (.stream .scalar)
  if !canonical page then []
  else
    match s.walk c page with
    | .error _ => []
    | .ok l =>
      let pa := l.target page
      if pteKind l.pte ≠ 1 && paPopulated pa && paPkg pa = s.pkg.val && (dieAt s (paDie pa)).part.val = c.part then [pa] else []

/-- A physical line lies in a range of CWB. -/
def State.cleans (s : State) (base len : Word) (line : Nat) : Bool :=
  (pagesOf base.toNat len.toNat).any fun page => (s.cleanFrames page).any fun pa =>
    let va := page.toNat + line * 128 % 65536
    line / 512 == pa / 65536 && decide (base.toNat < va + 128) && decide (va < base.toNat + len.toNat)

/-- CWB: after the hart's earlier writes have performed at PACKAGE scope, what has performed in the package on the lines goes to HBM. -/
def execCwb (a b : SReg) (s : State) : Out1 :=
  run (do
    privileged
    let base ← readS a
    let len ← readS b
    checkRange base len
    raiseM s.mine .package
    if len ≠ 0 then
      modify fun s => s.raiseAll (fun w => w.owedTo .control && s.cleans base len (paLine w.pa)) .home
      let s ← get
      each (fun (x : DirtyLine) => untilStopped (toHbm x.line)) (s.dirty.filter fun x => s.cleans base len x.line)
    retire) s

/-- The instruction line of an address overlaps a range; an empty range is the whole cache (18 R324). -/
def lineMeets (va base len : Word) : Bool :=
  len == 0 || decide ((va - (base &&& ~~~127)).toNat / 128 ≤ (base.toNat % 128 + len.toNat - 1) / 128)

/-- CINV. -/
def execCinv (a b : SReg) (s : State) : Out1 :=
  run (do
    privileged
    let base ← readS a
    let len ← readS b
    raiseM s.mine .core
    modify fun s => { s with icache := s.icache.filter fun l => !(l.core == s.hart.ident.coreKey && lineMeets l.va base len) }
    retire) s

/-! ## Events and service (18 R325, R326; 20 R356) -/

/-- A code that goes to the control processor. -/
def toControl (code : Nat) : Bool := decide (0x80000000 ≤ code) && decide (code ≤ 0x8000FFFF)

/-- The body of an HSIG record. -/
def signalBody (h : Hart) (code payload : Word) : List Byte :=
  leBytes 4 code.toNat ++ leBytes 4 h.ident.gangid.toNat ++ leBytes 8 payload.toNat ++ leBytes 8 h.ident.hartid.toNat ++ leBytes 8 0

/-- Send a record of the hart's source, with its next SEQ. -/
def State.signal (s : State) (code payload : Word) : State :=
  let h := s.hart
  let id := h.ident.hartid.toNat
  let q := (lookupKey id s.control.hartSeq).getD 0
  let s' := { s with control := { s.control with hartSeq := insertKey id (q + 1) s.control.hartSeq } }
  if toControl (bitsAt code.toNat 0 32) then
    s'.withHart fun h => { h with service := { h.service with unanswered := h.service.unanswered ++ [code.setWidth 32] } }
  else s'.emit (.message (message 0x4002 (0x4000 + id) q (signalBody h code payload)))

/-- HSIG. -/
def execHsig (a b : SReg) (s : State) : Out1 :=
  run (do
    privileged
    let code ← readS a
    let payload ← readS b
    if toControl (bitsAt code.toNat 0 32) && decide (4 ≤ s.hart.service.replies.length + s.hart.service.unanswered.length) then
      waitOn .hsig
    releaseAt .system
    modify fun s => s.signal code payload
    retire) s

/-- WAITEV. -/
def execWaitev (d : SReg) (s : State) : Out1 :=
  run (do
    privileged
    match s.hart.service.replies with
    | x :: xs =>
      modify fun s => s.withHart fun h => { h with service := { h.service with replies := xs } }
      writeS d x
    | [] => if s.hart.preempt.pending.isSome && s.hart.priv.trap then writeS d (-1) else waitOn .waitev
    retire) s

/-- HALT. -/
def execHalt (s : State) : Out1 :=
  run (do
    privileged
    if s.hart.engineBusy then waitOn .engines
    modify fun s => s.halt []) s

end Sys2Proof.Machine
end

