-- ==== Sys2Proof/Machine/Context.lean ====
section
/-! DEFINITION. Saving and restoring a hart: CTXSAVE and CTXLOAD (19 R333 to R338, R401). -/

namespace Sys2Proof.Machine

/-- The bytes of a hart record, and of the save area of a hart (19 R334, 20 R343). -/
def recordBytes : Nat := 0x440000
def saveAreaBytes : Nat := 0x880000

/-- A piece of a record: its offset and its bytes; no piece crosses a 64 KiB page. -/
abbrev Piece := Nat × List Byte

/-- The pieces of at most 64 KiB of a long run of bytes. -/
def chunks : Nat → Nat → List Byte → List Piece
  | 0, _, _ => []
  | n + 1, off, bs => if bs.isEmpty then [] else (off, bs.take 65536) :: chunks n (off + 65536) (bs.drop 65536)

/-! ## Access to the save area (19 R333): at the hart's level, DATA pages only -/

/-- Where a piece goes: its address, and its bytes with their place in memory. -/
def saveDest (base : Word) (p : Piece) : M (Word × Piece) := do
  let va := base + BitVec.ofNat 64 p.1
  let c ← scalarCtx
  let q ← translate c Needs.store dataOnly 8 va
  reply c false q.pa va
  return (va, q.pa, p.2)

/-- The parts of a run of bytes that lie in one line each. -/
def lineParts : Nat → Nat → List Byte → List Piece
  | 0, _, _ => []
  | n + 1, pa, bs =>
    if bs.isEmpty then []
    else (pa, bs.take (Config.lineBytes - pa % Config.lineBytes)) ::
      lineParts n (pa + (Config.lineBytes - pa % Config.lineBytes)) (bs.drop (Config.lineBytes - pa % Config.lineBytes))

/-- The lines of a physical range. -/
def linesOf (pa n : Nat) : List Nat := (upTo ((pa + n - 1) / Config.lineBytes - pa / Config.lineBytes + 1)).map fun i => pa / Config.lineBytes + i

/-- Write bytes at their homes, line by line. -/
def putHome (va : Word) (pa : Nat) (bs : List Byte) : M Unit :=
  each (fun (x : Piece) => do
    recallLine none (paLine x.1)
    askHome x.1 x.2.length
    homeWrite x.1 va fun s => s.perform none none x.1 x.2) (lineParts bs.length pa bs)

/-- Read bytes at their homes. -/
def getHome (pa n : Nat) : M (List Byte) := do
  each (fun l => do
    recallLine none l
    atSlice .normal l) (if n = 0 then [] else linesOf pa n)
  return Memory.readBytes (← get).mem pa n

/-- Write a piece of the save area. -/
def saveWrite (d : Word × Piece) : M Unit := untilStopped (putHome d.1 d.2.1 d.2.2)

/-- Read bytes of the save area. -/
def saveRead (base : Word) (off n : Nat) : M (List Byte) := do
  let va := base + BitVec.ofNat 64 off
  let c ← scalarCtx
  let q ← translate c Needs.load dataOnly 8 va
  reply c false q.pa va
  wholeData q.pa n va
  settle c.view q.pa n
  untilStopped (getHome q.pa n)

/-! ## Hash regions (12 R275) -/

/-- A slot's bytes; an empty slot holds what the pool held, an open value (log 26). -/
def slotBytes (c : Claim) (b : Bucket) (i : Nat) : M (List Byte) := do
  let (x, y) ← if b.isLive i || b.isTomb i then pure (b.slots.getD i (0, 0)) else pure (← freshWord, ← freshWord)
  return if c.slots = 14 then leBytes 4 x.toNat ++ leBytes 4 y.toNat
    else leBytes 8 (x.toNat % 2 ^ c.keyBits) ++ leBytes 8 (y.toNat % 2 ^ c.valBits)

def bucketBytes (c : Claim) (j : Nat) : M (List Byte) := do
  let b := c.bucket j
  let body ← collect (slotBytes c b) (upTo c.slots)
  return leBytes 2 b.live.toNat ++ leBytes 2 b.tomb.toNat ++ leBytes 1 (popCount 14 b.live.toNat) ++ leBytes 1 (bit b.spilled)
    ++ leBytes 10 0 ++ body.flatten

def regionBytes (c : Claim) : M (List Byte) := do return (← collect (bucketBytes c) (upTo c.numBuckets)).flatten

/-- A bucket from its bytes. -/
def bucketOf (c : Claim) (bs : List Byte) : Bucket :=
  { live := BitVec.ofNat 14 (leAt bs 0 2), tomb := BitVec.ofNat 14 (leAt bs 2 2), spilled := bitAt (leAt bs 5 1) 0
    slots := (upTo c.slots).map fun i =>
      if c.slots = 14 then (BitVec.ofNat 64 (leAt bs (16 + 8 * i) 4), BitVec.ofNat 64 (leAt bs (20 + 8 * i) 4))
      else (BitVec.ofNat 64 (leAt bs (16 + 16 * i) 8), BitVec.ofNat 64 (leAt bs (24 + 16 * i) 8)) }

/-- A bucket's bytes keep the layout of R275. -/
def bucketOk (c : Claim) (bs : List Byte) : Bool :=
  let live := leAt bs 0 2
  let tomb := leAt bs 2 2
  decide (live < 2 ^ c.slots) && decide (tomb < 2 ^ c.slots) && live &&& tomb == 0 && leAt bs 4 1 == popCount 14 live
    && decide (leAt bs 5 1 ≤ 1) && leAt bs 6 10 == 0
    && (upTo c.slots).all fun i =>
        c.slots == 14 || (decide (leAt bs (16 + 16 * i) 8 < 2 ^ c.keyBits) && decide (leAt bs (24 + 16 * i) 8 < 2 ^ c.valBits))

/-- The buckets of a region that differ from an empty one. -/
def bucketsOf (c : Claim) (bs : List Byte) : List (Nat × Bucket) :=
  (upTo c.numBuckets).filterMap fun j =>
    let b := bucketOf c (sliceBytes bs (128 * j) 128)
    if b.live = 0 ∧ b.tomb = 0 ∧ !b.spilled then none else some (j, b)

def regionOk (c : Claim) (bs : List Byte) : Bool := (upTo c.numBuckets).all fun j => bucketOk c (sliceBytes bs (128 * j) 128)

/-! ## The fixed part of a record -/

/-- The 32 bytes of a claim; an unclaimed handle is at its reset value. -/
def Claim.bytes (c : Claim) : List Byte :=
  leBytes 8 c.spillBase.toNat ++ leBytes 4 c.spillCap.toNat ++ leBytes 1 c.size ++ leBytes 1 (bit c.kw) ++ leBytes 1 (bit c.vw)
    ++ leBytes 1 (bit c.claimed + 2 * bit c.fail) ++ leBytes 4 c.flags.toNat ++ leBytes 4 c.used ++ leBytes 8 0

def Claim.ofBytes (bs : List Byte) : Claim :=
  { claimed := bitAt (leAt bs 15 1) 0, fail := bitAt (leAt bs 15 1) 1, spillBase := wordAt bs 0, spillCap := BitVec.ofNat 32 (leAt bs 8 4)
    size := leAt bs 12 1, kw := bitAt (leAt bs 13 1) 0, vw := bitAt (leAt bs 14 1) 0, flags := BitVec.ofNat 32 (leAt bs 16 4)
    used := leAt bs 20 4, spilled := 0, unread := [], buckets := [] }

def claimOk (bs : List Byte) : Bool :=
  let c := Claim.ofBytes bs
  decide (leAt bs 13 1 ≤ 1) && decide (leAt bs 14 1 ≤ 1) && decide (leAt bs 15 1 ≤ 3) && leAt bs 24 8 == 0
    && decide (c.size ≤ 4) && decide (c.spillCap.toNat ≤ 0xFFFFFF) && decide (c.flags.toNat ≤ 1) && decide (c.used ≤ c.spillCap.toNat)
    && (!c.claimed || c.spillCap == 0 || (c.spillBase.toNat % 32 == 0 && canonical c.spillBase))

/-- The bytes of a VSTP block; its EW byte is the encoding of EW (log 30). -/
def VstpBlock.bytes (b : VstpBlock) : List Byte :=
  leBytes 8 b.base.toNat ++ leBytes 8 b.rowstr.toNat ++ leBytes 1 b.ew.code ++ leBytes 1 b.vrows ++ leBytes 2 b.vl ++ leBytes 44 0
    ++ regBytes b.mask ++ (upTo 8).flatMap fun i => regBytes (b.data.getD i 0)

def VstpBlock.ofBytes (bs : List Byte) : VstpBlock :=
  { base := wordAt bs 0, rowstr := wordAt bs 8, ew := EWidth.ofCode (leAt bs 16 1), vrows := leAt bs 17 1, vl := leAt bs 18 2
    mask := regOfBytes (sliceBytes bs 0x40 1024), data := (upTo 8).map fun i => regOfBytes (sliceBytes bs (0x440 + 1024 * i) 1024) }

def blockOk (bs : List Byte) : Bool :=
  decide (leAt bs 16 1 ≤ 3) && decide (leAt bs 17 1 ≤ 8) && decide (leAt bs 18 2 ≤ 1024) && leAt bs 20 44 == 0

def VstpBlock.none : VstpBlock := { base := 0, rowstr := 0, ew := .w8, vrows := 0, vl := 0, mask := 0, data := [] }

/-- The blocks of the strip's VSTP instructions in program order: those whose entries are gone have none. -/
def Hart.vstpBlocks (h : Hart) : List VstpBlock := List.replicate (h.vstpRun - h.vstp.length) VstpBlock.none ++ h.vstp

/-- The return-stack part: slots above HW hold open values (log 26). -/
def stackBytes (r : RetStack) : M (List Byte) := do
  let rest ← collect (fun _ => freshWord) (upTo (16 - r.entries.length))
  return (r.entries ++ rest).flatMap fun x => leBytes 8 x.toNat

/-- TRAPPC, TVSTART and PSTAT as a record holds them. -/
structure StopPoint where
  pc    : Word
  start : BitVec 15
  pstat : Nat
  deriving DecidableEq, Repr

/-- What is known of the stop when the record is made: the live masks, whether the stop was at a listed entry, whether a child
record follows, and the old VZERO and AZERO. -/
structure SaveInfo where
  live   : StopEntry
  classL : Bool
  child  : Bool
  vzero  : BitVec 32
  azero  : BitVec 8
  deriving DecidableEq, Repr

/-- VZERO and AZERO of a new record (19 R335). -/
def SaveInfo.newVzero (i : SaveInfo) (h : Hart) : BitVec 32 := ~~~i.live.vregs ||| (i.vzero &&& ~~~h.priv.vdirty)
def SaveInfo.newAzero (i : SaveInfo) (h : Hart) : BitVec 8 := ~~~i.live.tiles ||| (i.azero &&& ~~~h.priv.adirty)

/-- The claim that a record keeps: claimed, and live. -/
def SaveInfo.keeps (i : SaveInfo) (h : Hart) (x : Handle) : Bool := h.claims[x].claimed && i.live.handles.getLsbD x.val

def stopInfo (i : SaveInfo) (h : Hart) : Nat :=
  bit i.classL + 2 * bit i.child + (match h.matrix with
    | none => 0
    | some (f, g) => 4 + 256 * f.code + 4096 * g.code) + 65536

/-- What a record holds of a hart is in no uncorrectable error (18 R318). -/
def recordWhole (i : SaveInfo) (h : Hart) : M Unit := do
  if h.ecc.s &&& i.live.sregs ≠ 0 || h.ecc.v &&& h.priv.vdirty &&& i.live.vregs ≠ 0 || h.ecc.k ≠ 0 then throw (.trap Trap.register)
  if allHandles.any fun x => i.keeps h x && h.ecc.h.getLsbD x.val then memoryError 2 0
  if h.ecc.t &&& h.priv.adirty &&& i.live.tiles ≠ 0 then memoryError 3 0

/-- The pieces of a hart's record (19 R334, R335). -/
def recordPieces (i : SaveInfo) (h : Hart) (p : StopPoint) : M (List Piece) := do
  recordWhole i h
  let stack ← stackBytes h.rs
  let words := fun (l : List Nat) => l.flatMap (leBytes 8)
  let head : List Piece :=
    [(0, leBytes 8 (stopInfo i h)),
     (8, leBytes 4 i.live.vregs.toNat ++ leBytes 4 (i.newVzero h).toNat),
     (0x10, leBytes 1 i.live.tiles.toNat ++ leBytes 1 (i.newAzero h).toNat ++ leBytes 1 i.live.handles.toNat ++ leBytes 1 h.vstpRun ++ leBytes 4 0),
     (0x18, words [h.shape.vl, h.shape.vrows, h.shape.vtype.toNat, h.shape.rowstr.toNat, h.fcsr.toNat, h.mxflags.toNat, h.mode,
        h.cycles.toNat, (slotAddr h.rs.rsp).toNat, h.rs.depthReg]),
     (0x68, words [(h.privReg .tvec).toNat, h.priv.tcause.toNat, p.pc.toNat, h.priv.tval.toNat, p.start.toNat, p.pstat,
        h.priv.tscratch.toNat, h.priv.leadctl, h.priv.wdlimit.toNat, (h.privReg .rsbase).toNat, (h.privReg .rslimit).toNat]),
     (0xC0, words [h.ident.hartid.toNat, h.shape.lanepart]),
     (0xD0, h.barrier.toList.flatMap fun b => leBytes 4 b.arrivals.toNat),
     (0xE0, leBytes 1 (h.barrier.toList.foldr (fun b n => bit b.pending + 2 * n) 0) ++ leBytes 31 0),
     (0x100, (upTo 32).flatMap fun n => leBytes 8 (if n ≠ 0 && i.live.sregs.getLsbD n then (h.s.toList.getD n 0).toNat else 0)),
     (0x200, stack),
     (0x280, h.cc.toList.flatMap fun c => leBytes 2 c.value),
     (0x2A0, words (h.cc.toList.map fun c => c.fail.toNat)),
     (0x320, h.windows.toList.flatMap fun w => leBytes 8 w.base.toNat ++ leBytes 8 w.len),
     (0x3A0, allHandles.flatMap fun x => if i.keeps h x then h.claims[x].bytes else Claim.free.bytes),
     (0x420, words [h.service.replies.length] ++ (upTo 4).flatMap fun n => leBytes 8 (h.service.replies.getD n 0).toNat),
     (0xB000, (h.k.toList.drop 1).flatMap regBytes)]
  let blocks := (upTo h.vstpRun).map fun n => (0x1000 + 0x2800 * n, (h.vstpBlocks.getD n VstpBlock.none).bytes)
  let vs := ((upTo 32).filter fun n => h.priv.vdirty.getLsbD n && i.live.vregs.getLsbD n).map fun n =>
    (0x10000 + 1024 * n, regBytes (h.v.toList.getD n 0))
  let ts := ((upTo 8).filter fun n => h.priv.adirty.getLsbD n && i.live.tiles.getLsbD n).map fun n =>
    (0x18000 + 16384 * n, leBytes 16384 (h.acc.toList.getD n 0).toNat)
  let hs ← collect (fun (x : Handle) => do
    if i.keeps h x then return chunks 16 (0x40000 + 0x100000 * x.val) (← regionBytes h.claims[x]) else return []) allHandles
  return head ++ blocks ++ vs ++ ts ++ hs.flatten

/-! ## CTXSAVE -/

/-- The gang of the current hart. -/
def State.myGang (s : State) : Option Gang := s.control.gangs.find? fun g => g.id == s.hart.ident.gangid

/-- The save area of a hart of a gang (20 R343). -/
def saveAreaOf (g : Gang) (h : Hart) : Word := g.launch.saveBase + BitVec.ofNat 64 (saveAreaBytes * h.ident.hartidx.toNat)

/-- A CTXSAVE with no request to serve must name the hart's own save area (19 R401). -/
def ownChoice (va : Word) : M Unit := do
  let s ← get
  if !s.hart.preempt.serves then
    match s.myGang with
    | none => illegalConfig
    | some g => needConfig (g.launch.saveBase != 0 && va == saveAreaOf g s.hart)

/-- A forked child stops under R329: at an instruction boundary, where PSTAT.TRAP is 0. -/
def Hart.stopChild (h : Hart) : Hart := { h with status := .stopped, lead := Lead.reset, taken := [], begun := false }

/-- A child of the hart, for a list of harts. -/
def isChildOf (p x : Hart) : Bool :=
  x.alive && !x.launched && x.ident.gangid == p.ident.gangid && x.ident.hartidx == p.ident.hartidx

/-- The children of the current hart that may stop, stop; one with queued vector instructions stops as 19 R329 places it. -/
def stopChildren (s : State) : State :=
  { s with others := s.others.map fun x => if isChildOf s.hart x && !x.priv.trap && x.resident && !x.amidst then x.stopChild else x }

/-- Wait for the child to stop, and for its engine commands (19 R333). -/
def waitForChild : M (Option Hart) := do
  modify stopChildren
  match (← get).child with
  | none => return none
  | some c => if c.status = .stopped ∧ !c.engineBusy then return some c else waitOn .save

/-- The flags of a child that has retired go to its parent's record (log 31). -/
def takeRetired : M Unit := do
  match (← get).retired with
  | none => pure ()
  | some c =>
    modify fun s =>
      { (s.orFlags (c.fcsr.extractLsb' 3 5)).orMx c.mxflags with
        others := s.others.filter fun x => !(x.status == .exited && !x.launched && x.ident.gangid == s.hart.ident.gangid
          && x.ident.hartidx == s.hart.ident.hartidx) }

/-- Run an action with another hart of the package as the current one. -/
def asHart {α : Type} (h : Hart) (m : M α) : M α := fun s =>
  let here := { s with hart := h, others := s.hart :: s.others.filter fun x => x.ident.hartid ≠ h.ident.hartid }
  let back (t : State) : State := match t.others with
    | b :: r => { t with hart := b, others := t.hart :: r }
    | [] => t
  match m here with
  | .ok a s' => .ok a (back s')
  | .error e s' => .error e (back s')

/-- The old VZERO and AZERO of a record. -/
def oldZeros (base : Word) : M (BitVec 32 × BitVec 8) := do
  let a ← saveRead base 8 8
  let b ← saveRead base 16 8
  return (BitVec.ofNat 32 (leAt a 4 4), BitVec.ofNat 8 (leAt b 1 1))

/-- The control processor posts requests to the other harts of a gang that stops itself (19 R401). -/
def postOthers (g : Gang) (h : Hart) : Hart :=
  if h.launched && h.ident.gangid == g.id && h.resident && h.preempt.pending.isNone then
    { h with preempt := { h.preempt with pending := some (saveAreaOf g h), runOn := if g.launch.classL then some 0 else none, fell := false } }
  else h

/-- The whole gang stops at the hart's own choice (19 R401). -/
def State.stopGangOf (s : State) : State :=
  match s.myGang with
  | none => s
  | some g =>
    { s with others := s.others.map (postOthers g)
             control := { s.control with gangs := s.control.gangs.map fun x => if x.id = g.id then { x with state := .stopping } else x } }

/-- The hart's lanes, tiles and pool are released (19 R333). -/
def Hart.stopSaved (h : Hart) : Hart :=
  { h with status := .stopped, lead := Lead.reset, windows := Vector.replicate 8 { base := 0, len := 0 }
           claims := Vector.replicate 4 Claim.free, ecc := Ecc.none, resume := none, engine := [], queue := []
           stalled := false, taken := [], begun := false, lanes := [], lanesCut := none, reads := [], sources := [], spun := false }

/-- The requests of a child that is saved with the hart stay with the control processor (20 R356). -/
def Hart.keepRequests (h : Hart) (child : Option Hart) : Hart :=
  { h with service := { h.service with child := (child.map fun c => c.service.unanswered).getD [] } }

/-- CTXSAVE: the addresses are checked before anything is unmapped.  The record of a child holds PSTAT with its level as PLEVEL and with
PREQ 0, which the manual leaves open (log 79). -/
def execCtxsave (a : SReg) (s : State) : Out1 :=
  run (do
    privileged
    ownChoice (s.getS a)
    let va ← readS a
    if va.toNat % 65536 ≠ 0 then raise .misaligned va
    if (← get).hart.engineBusy then waitOn .save
    let child ← waitForChild
    drainAll
    takeRetired
    let h := (← get).hart
    let childVa := va + BitVec.ofNat 64 recordBytes
    let zeros ← oldZeros va
    let info : SaveInfo := { live := if h.preempt.serves then h.preempt.live else StopEntry.allLive
                             classL := h.preempt.serves && h.preempt.classL, child := child.isSome, vzero := zeros.1, azero := zeros.2 }
    let mine ← recordPieces info h { pc := h.priv.trappc ++ 0#2, start := h.priv.tvstart, pstat := h.pstat }
    let theirs ← match child with
      | none => pure []
      | some c => do
        let z ← oldZeros childVa
        let i : SaveInfo := { live := StopEntry.allLive, classL := false, child := false, vzero := z.1, azero := z.2 }
        recordPieces i c { pc := c.pc, start := c.shape.vstart, pstat := 2 * bit c.priv.level }
    let dests ← collect (saveDest va) mine
    let dests' ← collect (saveDest childVa) theirs
    unmapAll
    match child with
    | none => pure ()
    | some c => asHart c do
      unmapAll
      drainAll
    each saveWrite (dests ++ dests')
    releaseAt .package
    if !h.preempt.serves then modify State.stopGangOf
    modify fun s => { s with hart := s.hart.stopSaved.keepRequests child, others := s.others.filter fun x => !isChildOf s.hart x }
    modify State.advance) s

/-! ## CTXLOAD -/

/-- What a record holds in its first 0x448 bytes. -/
structure Record where
  bytes : List Byte
  deriving DecidableEq, Repr

def Record.nat (r : Record) (off n : Nat) : Nat := leAt r.bytes off n
def Record.word (r : Record) (off : Nat) : Word := BitVec.ofNat 64 (r.nat off 8)
def Record.info (r : Record) : Nat := r.nat 0 8
def Record.hasChild (r : Record) : Bool := bitAt r.info 1
def Record.blocks (r : Record) : Nat := r.nat 0x13 1
def Record.claim (r : Record) (n : Nat) : List Byte := sliceBytes r.bytes (0x3A0 + 32 * n) 32
def Record.window (r : Record) (n : Nat) : Window := { base := r.word (0x320 + 16 * n), len := r.nat (0x328 + 16 * n) 8 }

/-- The counter of 16 bits and its failure address. -/
def Record.counter (r : Record) (n : Nat) : Counter :=
  let x := r.nat (0x280 + 2 * n) 2
  { err := bitAt x 15, ecode := BitVec.ofNat 3 (bitsAt x 12 3), count := BitVec.ofNat 8 x, fail := r.word (0x2A0 + 8 * n) }

def counterOk (r : Record) (n : Nat) : Bool :=
  let x := r.nat (0x280 + 2 * n) 2
  bitsAt x 0 12 == 0 && (if bitAt x 15 then bitsAt x 12 3 != 0 && bitsAt x 12 3 != 7 else bitsAt x 12 3 == 0)

/-- The matrix state of a record: none where its bit is clear. -/
def Record.matrix (r : Record) : Option (Fmt × Fmt × MatPair) := pairOfCodes (bitsAt r.info 8 4) (bitsAt r.info 12 4)

/-- LANEPART values of a record: a launched hart's, or a forked child's (02 R38). -/
def lanepartOk (r : Record) (isChild : Bool) : Bool :=
  let x := r.nat 0xC8 8
  if isChild then x == 7 else if r.hasChild then x == 5 else x == 0 || x == 1 || x == 3 || x == 5

/-- Every field holds a value that a save can produce (19 R336). -/
def Record.ok (r : Record) (hartid : Nat) (isChild : Bool) : Bool :=
  bitAt r.info 16 && r.info / 2 ^ 17 == 0 && bitsAt r.info 3 5 == 0 && (!bitAt r.info 2 || r.matrix.isSome)
    && !(isChild && r.hasChild) && decide (r.nat 0x12 1 < 16) && decide (r.blocks ≤ 4) && r.nat 0x14 4 == 0
    && decide (r.nat 0x18 8 ≤ 1024) && decide (1 ≤ r.nat 0x20 8) && decide (r.nat 0x20 8 ≤ 8) && vtWrite (r.word 0x28) == r.word 0x28
    && decide (r.nat 0x38 8 < 256) && decide (r.nat 0x40 8 < 4) && decide (r.nat 0x48 8 < 4) && r.nat 0x58 8 % 8 == 0
    && decide (bitsAt (r.nat 0x60 8) 32 32 ≤ 16) && decide (bitsAt (r.nat 0x60 8) 32 32 ≤ r.nat 0x60 4)
    && (r.nat 0x60 4 - bitsAt (r.nat 0x60 8) 32 32) % 8 == 0
    && r.nat 0x68 8 % 4 == 0 && decide (r.nat 0x70 8 < 2 ^ 13) && r.nat 0x78 8 % 4 == 0 && decide (r.nat 0x88 8 < 2 ^ 15)
    && decide (r.nat 0x90 8 < 16) && bitsAt (r.nat 0xA0 8) 1 15 == 0 && decide (r.nat 0xA0 8 < 2 ^ 30)
    && decide (r.nat 0xA8 8 < 2 ^ 48) && r.nat 0xB0 8 % 8 == 0 && r.nat 0xB8 8 % 8 == 0
    && r.nat 0xC0 8 == hartid && lanepartOk r isChild && decide (r.nat 0xE0 1 < 16) && r.nat 0xE1 31 == 0 && r.nat 0x100 8 == 0
    && (upTo 16).all (counterOk r)
    && (upTo 8).all (fun n => (r.window n).len == 0 || goodRange (r.window n).base (r.word (0x328 + 16 * n)))
    && (upTo 4).all (fun n => claimOk (r.claim n))
    && decide (r.nat 0x420 8 ≤ 4) && (upTo 4).all fun n => decide (n < r.nat 0x420 8) || r.word (0x428 + 8 * n) == 0

/-- Blocks of the pool that a record needs. -/
def Record.poolUse (r : Record) : Nat :=
  (upTo 8).foldl (fun n i => n + (r.window i).blocks) 0 + (upTo 4).foldl (fun n i => n + (Claim.ofBytes (r.claim i)).blocks) 0

/-- Read bytes that may be longer than a page. -/
def saveReadLong (base : Word) (off n : Nat) : M (List Byte) := do
  let xs ← collect (fun i => saveRead base (off + 65536 * i) 65536) (upTo (n / 65536))
  return xs.flatten

/-- The variable parts of a record: VSTP blocks, mask, vector and tile registers, hash regions. -/
structure Body where
  blocks : List (List Byte)
  k      : List (List Byte)
  v      : List (Nat × List Byte)
  t      : List (Nat × List Byte)
  h      : List (Nat × List Byte)
  deriving DecidableEq, Repr

def readBody (base : Word) (r : Record) : M Body := do
  let blocks ← collect (fun n => saveRead base (0x1000 + 0x2800 * n) 0x2440) (upTo r.blocks)
  let k ← collect (fun n => saveRead base (0xB000 + 1024 * n) 1024) (upTo 7)
  let v ← collect (fun n => do return (n, ← saveRead base (0x10000 + 1024 * n) 1024)) ((upTo 32).filter fun n => !bitAt (r.nat 0x0C 4) n)
  let t ← collect (fun n => do return (n, ← saveRead base (0x18000 + 16384 * n) 16384)) ((upTo 8).filter fun n => !bitAt (r.nat 0x11 1) n)
  let h ← collect (fun n => do
    let c := Claim.ofBytes (r.claim n)
    return (n, ← if c.claimed then saveReadLong base (0x40000 + 0x100000 * n) (2 ^ (16 + c.size)) else pure [])) (upTo 4)
  return { blocks := blocks, k := k, v := v, t := t, h := h }

def Body.ok (b : Body) (r : Record) : Bool :=
  b.blocks.all blockOk && b.h.all fun x =>
    let c := Claim.ofBytes (r.claim x.1)
    !c.claimed || regionOk c x.2

/-- Read and check a record. -/
def readRecord (base : Word) (hartid : Nat) (isChild : Bool) : M (Record × Body) := do
  let r : Record := { bytes := ← saveRead base 0 0x448 }
  needConfig (r.ok hartid isChild)
  let b ← readBody base r
  needConfig (b.ok r)
  return (r, b)

/-- The claim of a record with its region and the number of its live spill records, which the record does not hold (12 R282). -/
def loadClaim (r : Record) (b : Body) (n : Nat) : M Claim := do
  let s ← get
  let c := Claim.ofBytes (r.claim n)
  if c.claimed then
    return { c with buckets := bucketsOf c ((lookupKey n b.h).getD [])
                    spilled := ((upTo c.used).filter fun i => s.recordLive c i == some true).length
                    unread := (upTo c.used).filter fun i => s.recordLive c i == none }
  else return Claim.free

/-- The hart that a record restores, after its return from the trap (19 R336); what a record does not hold stays. -/
def loadHart (h : Hart) (r : Record) (b : Body) (claims : List Claim) (width : Nat) : Hart :=
  let lane := r.nat 0xC8 8
  let pst := r.nat 0x90 8
  let lctl := r.nat 0xA0 8
  let start : BitVec 15 := BitVec.ofNat 15 (r.nat 0x88 8)
  { h with
    pc := r.word 0x78
    s := Vector.ofFn fun n => r.word (0x100 + 8 * n.val)
    v := Vector.ofFn fun n => regOfBytes ((lookupKey n.val b.v).getD [])
    k := Vector.ofFn fun n => if n.val = 0 then 0 else regOfBytes (b.k.getD (n.val - 1) [])
    acc := Vector.ofFn fun n => BitVec.ofNat 131072 (leNat ((lookupKey n.val b.t).getD []))
    shape := { vl := r.nat 0x18 8, vrows := r.nat 0x20 8, vtype := r.word 0x28, vstart := start, rowstr := r.word 0x30, width := width
               forked := bitAt lane 2, half := bitAt lane 1, split := bitAt lane 0
               granted := width }
    fcsr := BitVec.ofNat 8 (r.nat 0x38 8), mxflags := BitVec.ofNat 2 (r.nat 0x40 8)
    det := bitAt (r.nat 0x48 8) 0, leadOn := bitAt (r.nat 0x48 8) 1, started := true, cycles := r.word 0x50
    rs := { entries := (upTo (bitsAt (r.nat 0x60 8) 32 32)).map fun n => r.word (0x200 + 8 * n)
            depth := BitVec.ofNat 32 (r.nat 0x60 4), rsp := (r.word 0x58).extractLsb' 3 61 }
    matrix := if bitAt r.info 2 then r.matrix.map fun x => (x.1, x.2.1) else none
    cc := Vector.ofFn fun n => r.counter n.val
    engine := [], windows := Vector.ofFn fun n => r.window n.val, claims := Vector.ofFn fun n => claims.getD n.val Claim.free
    queue := [], stalled := false, taken := [], begun := false, lanes := [], lanesCut := none
    reads := [], sources := [], since := 0, spun := false
    vstp := (b.blocks.map VstpBlock.ofBytes).filter fun x => x.mask != 0
    vstpRun := r.blocks
    barrier := Vector.ofFn fun n => { arrivals := BitVec.ofNat 32 (r.nat (0xD0 + 4 * n.val) 4), pending := bitAt (r.nat 0xE0 1) n.val }
    service := { replies := (upTo (r.nat 0x420 8)).map fun n => r.word (0x428 + 8 * n), unanswered := h.service.unanswered, child := [] }
    priv := { h.priv with
              tvec := (r.word 0x68).extractLsb' 2 62, tcause := BitVec.ofNat 13 (r.nat 0x70 8), trappc := (r.word 0x78).extractLsb' 2 62
              tval := r.word 0x80, tvstart := start, trap := false, plevel := bitAt pst 1, level := bitAt pst 1
              tscratch := r.word 0x98, maxdist := BitVec.ofNat 14 (bitsAt lctl 16 14), leadOn := bitAt lctl 0, vdirty := 0, adirty := 0
              wdlimit := BitVec.ofNat 48 (r.nat 0xA8 8), wdcount := 0, rsbase := (r.word 0xB0).extractLsb' 3 61
              rslimit := (r.word 0xB8).extractLsb' 3 61 }
    preempt := { h.preempt with serves := false, classL := false, live := StopEntry.allLive }
    resume := none, status := .running, ecc := Ecc.none }

/-- The child of a restored parent: a fresh hart with its parent's values of what a record does not hold (19 R337). -/
def childShell (h : Hart) : Hart :=
  { Hart.reset with
    ident := { h.ident with hartid := h.ident.hartid ||| 1 }
    priv := { Priv.reset with ptroot := h.priv.ptroot, asid := h.priv.asid, partid := h.priv.partid }
    service := { Hart.reset.service with unanswered := h.service.child }
    declared := h.declared, launched := false }

/-- The restore of CTXLOAD from a save area. -/
def ctxload (va : Word) : M Unit := do
  if va.toNat % 65536 ≠ 0 then raise .misaligned va
  if (← get).hart.engineBusy then waitOn .save
  drainAll
  let h := (← get).hart
  let (r, b) ← readRecord va h.ident.hartid.toNat false
  let child ← if r.hasChild then do
      let x ← readRecord (va + BitVec.ofNat 64 recordBytes) (h.ident.hartid ||| 1).toNat true
      pure (some x)
    else pure none
  let need := r.poolUse + match child with
    | some c => c.1.poolUse
    | none => 0
  let s ← get
  needConfig (decide (s.poolUse - s.hart.poolUse + need ≤ Config.poolBlocks))
  unmapAll
  let claims ← collect (loadClaim r b) (upTo 4)
  let theirs ← match child with
    | some (cr, cb) => collect (loadClaim cr cb) (upTo 4)
    | none => pure []
  modify fun s =>
    let h := s.hart
    let x := (loadHart h r b claims (s.widthFor h (bitAt (r.nat 0xC8 8) 0))).forkLead
    let kids := match child with
      | some (cr, cb) => [(loadHart (childShell h) cr cb theirs (s.widthFor h true)).forkLead]
      | none => []
    { s with hart := x, others := kids ++ s.others }

/-- CTXLOAD. -/
def execCtxload (a : SReg) (s : State) : Out1 :=
  run (do
    privileged
    ctxload (← readS a)) s

end Sys2Proof.Machine
end

