-- ==== Sys2Proof/Machine/Async.lean ====
section
/-! DEFINITION. What befalls a hart at an instruction boundary or while it waits: words that are no instruction, fetch faults, the
watchdog, pre-emption requests, completions, accesses that perform, barrier episodes, service replies, uncorrectable errors,
line evictions and patrol scrub (06 R149; 07 R174; 18 R312, R315, R316, R318, R320; 19 R328 to R330; 20 R356; 05 R102; 11 R261;
04 R90). -/

namespace Sys2Proof.Machine

/-- The answer of an event that the manual does not let happen in this state. -/
def never : Out1 := .fault .eventNotEnabled

/-! ## Words and addresses without an instruction -/

/-- ILLEGAL_INSTRUCTION: the word that was fetched is no instruction (06 R149). -/
def execIllegalInstruction (w : BitVec 32) (s : State) : Out1 :=
  .next (s.takeTrap { Trap.of .illegalInstruction (w.zeroExtend 64) with noWord := true })

/-- FETCH_FAULT: the fetch at the PC fails (07 R174). -/
def execFetchFault (va : Word) (s : State) : Out1 :=
  run (do
    if s.hart.pc ≠ va then notEnabled
    match ← attempt fetch with
    | .error t => throw (.trap { t with noWord := true })
    | .ok _ => notEnabled) s

/-! ## The watchdog (18 R315, R316) -/

/-- TVAL of a Watchdog trap. -/
def WaitKind.code : WaitKind → Word
  | .ccwait => 1
  | .barrier => 2
  | .join | .exitDrain => 3
  | .forkDrain => 4
  | .queue => 5
  | .vector => 6
  | .waitev | .hsig | .save | .engines | .spin => 0
def HartStatus.waitCode : HartStatus → Word
  | .waiting k => k.code
  | _ => 0

/-- The count has reached a limit that is not zero. -/
def Priv.watchdogDue (p : Priv) : Bool := p.wdlimit != 0 && decide (p.wdlimit ≤ p.wdcount)
/-- A Watchdog cause is pending. -/
def Hart.watchdogPending (h : Hart) : Bool := h.watchdog || h.priv.watchdogDue

/-- An asynchronous trap. -/
def Trap.asynchronous (c : Cause) (v : Word) : Trap := { Trap.of c v with async := true }

/-- WATCHDOG: the cause becomes pending, and is delivered where PSTAT.TRAP is 0. -/
def execWatchdog (s : State) : Out1 :=
  let h := s.hart
  if !(h.resident && h.watchdogPending) then never
  else if h.priv.trap then (if h.watchdog then never else .next (s.withHart fun h => { h with watchdog := true }))
  else if h.amidst then never
  else .next ((s.withHart fun h => { h with watchdog := false }).enterTrap (Trap.asynchronous .watchdog h.status.waitCode))

/-! ## Pre-emption requests (19 R328 to R330) -/

def HartStatus.isWaiting : HartStatus → Bool
  | .waiting _ => true
  | _ => false

/-- A wait of the table of 02 R45. -/
def HartStatus.waits : HartStatus → Bool
  | .waiting k => k.listed
  | _ => false

/-- The stop-table entry of the address of the front end's next instruction, for a hart at U level that has not begun it. -/
def State.listedAt (s : State) : Option StopEntry :=
  let h := s.hart
  if h.priv.level || h.shape.vstart != 0 || h.spun || (h.queue.isEmpty && (!h.taken.isEmpty || h.begun || h.lanesCut.isSome)) then none
  else s.myGang.bind fun g => g.stops.find? fun e => g.textVa + BitVec.ofNat 64 (4 * e.offset.toNat) == s.hart.pc

/-- The entry at which the hart stops: every earlier instruction has completed. -/
def State.listedStop (s : State) : Option StopEntry := if s.hart.queue.isEmpty then s.listedAt else none

/-- A request is taken as class P at the next boundary: it is of that class, or has fallen back to it. -/
def State.stopsAsP (s : State) : Bool := s.hart.preempt.runOn.isNone || s.hart.preempt.fell || s.hart.status.waits

/-- How a pending request may be taken now: as class P, at a listed address with its live masks, or not yet. -/
def State.stopNow (s : State) : Option (Bool × StopEntry) :=
  if s.stopsAsP then some (false, StopEntry.allLive) else s.listedStop.map fun e => (true, e)

/-- PREEMPTION_REQUEST: the hart takes the pending request at its stop point; its child stops with it (19 R338). -/
def execPreemptionRequest (s : State) : Out1 :=
  let h := s.hart
  if !h.resident || h.priv.trap || h.watchdogPending || h.amidst then never
  else
    match h.preempt.pending, s.stopNow with
    | some area, some (listed, live) =>
      .next (stopChildren ((s.withHart fun h =>
        { h with preempt := { pending := none, runOn := none, fell := false, serves := true, classL := listed, live := live } }).enterTrap
          (Trap.asynchronous .preemptionRequest area)))
    | _, _ => never

/-! ## The vector queue and the homes (18 R311; 05 R102) -/

/-- VECTOR_INSTRUCTION_COMPLETION: a wait for the lanes or for the queue ends. -/
def execVectorInstructionCompletion (s : State) : Out1 :=
  match s.hart.status with
  | .waiting .vector | .waiting .queue => .next (s.withHart fun h => { h with status := .running })
  | _ => never

/-- The outstanding writes of the current hart's core, in the order in which they would perform. -/
def State.coreWrites (s : State) : List PendingWrite := commitOrder (s.writes.filter fun w => w.core == s.hart.ident.coreKey)

/-- The n-th outstanding write of the hart's core comes to a level, after the writes that must come there before it (05 R98, R103, R104,
R107); one in the store buffer does not (18 R311). -/
def State.forward (s : State) (n : Nat) (t : Level) : Out1 :=
  match s.coreWrites[n]? with
  | none => never
  | some w => if w.early ≠ 0 || t.num ≤ w.level.num then never else .next (s.raise (fun x => x == w) t)

/-- ACCESS_PERFORMS: the n-th outstanding write of the hart's core performs at its home. -/
def execAccessPerforms (n : Nat) (s : State) : Out1 := s.forward n .home

/-! ## Barriers and service (11 R261; 20 R356) -/

/-- The hart waits at an episode of an index that is complete on this package. -/
def State.leaves (s : State) (g : BitVec 32) (x : Fin 4) (h : Hart) : Bool :=
  h.status == .waiting .barrier && h.launched && h.ident.gangid == g && (h.gbarWait.getLsbD x.val || h.barrier[x].pending)
    && s.episodeHere g x h.barrier[x].arrivals

/-- BARRIER_EPISODE_COMPLETE: every participant that waits at a complete episode goes on. -/
def execBarrierEpisodeComplete (g : BitVec 32) (x : Fin 4) (s : State) : Out1 :=
  if s.harts.any (s.leaves g x) then
    .next (s.mapHarts fun h => if s.leaves g x h then { h with status := .running } else h)
  else never

/-- What the control processor replies to a request code (20 R356). -/
def State.serviceReply (s : State) (code : BitVec 32) : Word :=
  if code = 0x80000001 then
    match s.myGang with
    | some g => BitVec.ofNat 64 g.prio
    | none => 0
  else 0

/-- CP_SERVICE_REPLY: the oldest request of the hart is answered; the reply is held while the hart is not resident (18 R326). -/
def execCpServiceReply (s : State) : Out1 :=
  match s.hart.service.unanswered with
  | [] => never
  | c :: cs =>
    if !s.hart.resident || s.hart.resume.isSome then never
    else .next (s.withHart fun h => { h with service := { h.service with replies := h.service.replies ++ [s.serviceReply c], unanswered := cs } })

/-! ## Errors in storage (18 R318, R320) -/

/-- Put a unit of memory in uncorrectable error. -/
def addPoison (u : Nat) (l : List Nat) : List Nat := if l.contains u then l else u :: l
def addPoisons (us : List Nat) (l : List Nat) : List Nat := us.foldl (fun l u => addPoison u l) l

/-- The 8-byte units of a line. -/
def lineUnits (line : Nat) : List Nat := (upTo 16).map fun i => 16 * line + i

/-- A hart that holds lanes takes an error in one of its registers, tiles, regions or window lines, with no instruction queued (log 18). -/
def State.spoil (s : State) (id : Word) (f : Ecc → Ecc) : Out1 :=
  let hit (h : Hart) : Bool := h.resident && !h.amidst && h.ident.hartid.zeroExtend 64 == id
  if s.harts.any hit then .next (s.mapHarts fun h => if hit h then { h with ecc := f h.ecc } else h) else never

/-- UNCORRECTABLE_ERROR. -/
def execUncorrectableError (u : EccUnit) (s : State) : Out1 :=
  match u with
  | .memory n => if paPopulated (8 * n) && paPkg (8 * n) = s.pkg.val then .next { s with poison := addPoison n s.poison } else never
  | .modifiedLine l =>
    if s.dirty.any (fun x => x.line == l) then .next { s with poison := addPoisons (lineUnits l) s.poison } else never
  | .scalar h r => if r = 0 then never else s.spoil h fun e => { e with s := e.s ||| 1#32 <<< r.val }
  | .vector h r => s.spoil h fun e => { e with v := e.v ||| 1#32 <<< r.val }
  | .mask h r => if r = 0 then never else s.spoil h fun e => { e with k := e.k ||| 1#8 <<< r.val }
  | .tile h t => s.spoil h fun e => { e with t := e.t ||| 1#8 <<< t.val }
  | .hash h x => s.spoil h fun e => { e with h := e.h ||| 1#4 <<< x.val }
  | .window h l => s.spoil h fun e => { e with w := addPoisons (lineUnits l) e.w }

/-- A slice keeps a line that a cache holds or an engine pins (04 R90, R92). -/
def State.kept (s : State) (l : Nat) : Bool :=
  (s.owner l).isSome || s.copies.any (fun x => x.2 == l) || s.lookahead.any (fun x => x.2 == l) || s.leadL1.any (fun x => x.2 == l) || (s.harts.any fun h => h.engine.any fun c => c.pins.contains l)

/-- A line leaves its slice. -/
def State.leaveSlice (s : State) (l : Nat) : State := { s with slices := s.slices.filter (· ≠ l), retained := s.retained.filter (· ≠ l) }
/-- Modified data of a line that leaves its slice goes to HBM (04 R90). -/
def evictLine (l : Nat) : M Unit := do
  if (← get).dirty.any (fun x => x.line == l) then toHbm l
  modify fun s => s.leaveSlice l

/-- The lines that a slice may replace, the least recently used first, those of the keep hint last (04 R90, 09 R212). -/
def State.victims (s : State) (slice : Nat × Nat) : List Nat :=
  let xs := (s.slices.filter fun l => lineSlice l == slice && !s.kept l).reverse
  (xs.filter fun l => !s.retained.contains l) ++ xs.filter s.retained.contains

/-- L2_LINE_EVICTION: a line that its slice need not keep leaves it, one of the keep hint after the others (04 R90, 09 R212). -/
def execL2LineEviction (l : Nat) (s : State) : Out1 :=
  if s.kept l || (s.retained.contains l && (s.victims (lineSlice l)).any fun x => !s.retained.contains x) then never
  else run (evictLine l) s

/-- A slice that holds more than its 6 MiB replaces lines. -/
def trimSlice (slice : Nat × Nat) : M Unit := do
  let s ← get
  each evictLine ((s.victims slice).take ((s.slices.filter fun l => lineSlice l == slice).length - sliceLines))
/-- A scalar L1 that holds more than its 64 KiB replaces the least recently used lines. -/
def trimL1 (h : Holder) : M Unit := do
  match h with
  | .scalarL1 _ => each dropCopy (((← get).copies.filter fun x => x.1 == h).drop scalarL1Lines)
  | .window .. | .remote _ => pure ()
/-- No cache holds more lines than it has room for (01 R7; 04 R83, R90). -/
def trimCaches : M Unit := do
  let s ← get
  if scalarL1Lines < s.copies.length then each trimL1 (distinct (s.copies.map Prod.fst))
  if sliceLines < s.slices.length then each trimSlice (distinct (s.slices.map lineSlice))
def State.trimmed (s : State) : State :=
  match trimCaches s with
  | .ok _ t => t
  | .error _ t => t

/-- The log entry of a correctable error that is corrected: in the line that is scrubbed, or in a unit of a core, whose error the same event
brings (18 R320). -/
def State.logCorrected (s : State) (l : Nat) : Corrected → State
  | .none => s
  | .line => s.logMemory (l * Config.lineBytes) .corrected
  | .tileBuffer d x => s.logEntry d.val { pa := none, part := .tileBuffer (s.pkg.val * 512 + d.val * 128 + x.val), kind := .corrected }
  | .registers d x => s.logEntry d.val { pa := none, part := .registers (s.pkg.val * 512 + d.val * 128 + x.val), kind := .corrected }

/-- PATROL_SCRUB: a line is read; a correctable error is corrected and logged, an uncorrectable one logged and left (18 R320). -/
def execPatrolScrub (l : Nat) (c : Corrected) (s : State) : Out1 :=
  run (do
    modify fun s => s.logCorrected l c
    if s.badLine l then logError (l * Config.lineBytes) .uncorrectable) s

end Sys2Proof.Machine
end

