-- ==== Sys2Proof/Machine/Control.lean ====
section
/-! DEFINITION. The control processor's books: who may name a partition, the answers of commands, launch records and their checks,
queues of gangs (20 R339 to R346; 23 R387). -/

namespace Sys2Proof.Machine

/-! ## Sources and the policy (20 R339; 22 R378; 23 R387) -/

/-- The management controller (20 R339). -/
def sideBandSource : Nat := 0x2001

/-- A source that may send commands. -/
def isCommander (src : Nat) : Bool := decide (src < 0x108) || src == sideBandSource

/-- The messages of a source reach the control processor: the link they travel on is up (22 R375, R380). -/
def State.linked (s : State) (src : Nat) : Bool :=
  if src < 0x100 then s.ports[0].up
  else if src < 0x108 then s.portTo (src - 0x100)
  else src == sideBandSource

/-- The loaded policy grants a source a partition; the management controller is granted every one (log 25). -/
def Policy.grantsPart (p : Policy) (src part : Nat) : Bool :=
  src == sideBandSource || (decide (src < 256) && (p.grants.getD part 0).getLsbD src)

/-- The policy grants a source some partition, which a command that names none needs (log 25). -/
def Policy.grantsSome (p : Policy) (src : Nat) : Bool := [0, 1, 2, 3].any (p.grantsPart src)

/-- The loaded policy lets a source name a command code in PARTITION.SET, DIE.RESET or POLICY.LOAD. -/
def Policy.grantsCommand (p : Policy) (src code : Nat) : Bool :=
  src == sideBandSource || (decide (src < 256) && p.commands.getLsbD code)

/-! ## Answers (20 R341) -/

/-- What a command answers at acceptance: STATUS and RESULT, or nothing while its effects go on. -/
abbrev Answer := Option (Nat × List Byte)
def answer (status : Nat) : Answer := some (status, [])
def answerWith (result : List Byte) : Answer := some (0, result)

/-- The body of a completion message. -/
def completionBody (c : BitVec 16) (status : Nat) (seq : Word) (result : List Byte) : List Byte :=
  leBytes 2 c.toNat ++ leBytes 2 0 ++ leBytes 4 status ++ leBytes 8 seq.toNat ++ sliceBytes result 0 48

/-- Send a completion message. -/
def State.complete (s : State) (opcode source : BitVec 16) (seq : Word) (status : Nat) (result : List Byte) : State :=
  s.controlRecord (0x8000 + opcode.toNat) (completionBody source status seq result)

/-- A command has its status. -/
def finishCommand (source : BitVec 16) (seq : Word) (status : Nat) (result : List Byte) (cs : List Command) : List Command :=
  cs.map fun c => if c.source = source && c.seq = seq then { c with done := some (status, result) } else c
def State.finishCommand (s : State) (source : BitVec 16) (seq : Word) (status : Nat) (result : List Byte) : State :=
  { s with control := { s.control with commands := Machine.finishCommand source seq status result s.control.commands } }

/-! ## Launch records (20 R343) -/

/-- A launch record whose layout is right. -/
def Launch.parse (b : List Byte) : Option Launch :=
  let flags := leAt b 0x0E 2
  let size := leAt b 0x0C 2
  let save := leAt b 0x18 8
  let root := leAt b 0x20 8
  let place := leAt b 0x2B 1
  let tvec := leAt b 0x30 8
  if b.length = 128 && flags < 2048 && bitsAt flags 7 3 ≤ 4 && size ≠ 0 && save % 65536 = 0 && root % 65536 = 0
      && root < 2 ^ 52 && leAt b 0x2A 1 < 4 && place < 16 && leAt b 0x2C 4 = 0 && tvec % 4 = 0 && leAt b 0x38 8 < 2 ^ 48
      && leAt b 0x40 8 % 8 = 0 && leAt b 0x48 8 % 8 = 0 && allZero (b.drop 0x50) then
    some { image := wordAt b 0, entry := BitVec.ofNat 32 (leAt b 8 4), size := BitVec.ofNat 16 size, half := bitAt flags 0
           fork := bitAt flags 1, det := bitAt flags 2, prio := bitsAt flags 3 3, classL := bitAt flags 6
           barriers := bitsAt flags 7 3, domain := bitAt flags 10, argBlock := wordAt b 0x10, saveBase := wordAt b 0x18
           ptroot := BitVec.ofNat 36 (root / 65536), asid := BitVec.ofNat 16 (leAt b 0x28 2), part := leAt b 0x2A 1
           place := BitVec.ofNat 4 place, tvec := BitVec.ofNat 62 (tvec / 4), wdlimit := BitVec.ofNat 48 (leAt b 0x38 8)
           rsbase := BitVec.ofNat 61 (leAt b 0x40 8 / 8), rslimit := BitVec.ofNat 61 (leAt b 0x48 8 / 8) }
  else none

/-! ## The checks of LAUNCH (20 R344) -/

def dieNumbers : List Nat := [0, 1, 2, 3]

/-- The dies of the record's partition that PLACE allows. -/
def State.allowedDies (s : State) (l : Launch) : List Nat :=
  dieNumbers.filter fun d => (dieAt s d).part.val == l.part && (l.place == 0 || l.place.getLsbD d)

/-- The harts that the allowed dies of a number of packages hold. -/
def Launch.capacity (l : Launch) (dies packages : Nat) : Nat := dies * packages * Config.coresPerDie * (if l.half then 2 else 1)

def State.findImage (s : State) (h : Word) : Option Image := s.control.images.find? fun i => i.handle == h

/-- The record agrees with the kernel table entry. -/
def Launch.agrees (l : Launch) (k : Kernel) : Bool :=
  l.half == k.half && (!l.fork || k.fork) && l.barriers == k.barriers && l.argBlock.toNat % k.argAlign.toNat == 0

/-- The context of the control processor's accesses for a launch record. -/
def Launch.ctx (l : Launch) : Ctx :=
  { root := l.ptroot.toNat * 65536, asid := l.asid, part := l.part, sup := true, die := 4, core := none, view := .home }

/-- A page of a save area translates to a present DATA leaf with R and W in memory of the partition. -/
def State.savePage (s : State) (l : Launch) (va : Word) : Bool :=
  canonical va &&
    match s.walk l.ctx va with
    | .error _ => false
    | .ok x =>
      let pa := x.target va
      pteKind x.pte == kindData && pteR x.pte && pteW x.pte && paPopulated pa && paPkg pa == s.pkg.val
        && (dieAt s (paDie pa)).part.val == l.part

def State.saveAreasOk (s : State) (l : Launch) : Bool :=
  l.saveBase == 0 || (pagesOf l.saveBase.toNat (saveAreaBytes * l.size.toNat)).all (s.savePage l)

/-- The kernel that a record names. -/
def State.kernelOf (s : State) (l : Launch) : Option (Image × Kernel) :=
  (s.findImage l.image).bind fun i => (i.kernels[l.entry.toNat]?).map fun k => (i, k)

/-- The first check of R344 after the layout that fails, as a status; 0 if none does. -/
def State.launchStatus (s : State) (src : Nat) (l : Launch) : Nat :=
  match s.findImage l.image with
  | none => 0x02
  | some i =>
    if !dieNumbers.any (fun d => (dieAt s d).part.val == l.part) then 0x05
    else
      match i.kernels[l.entry.toNat]? with
      | none => 0x03
      | some k =>
        if !l.agrees k then 0x03
        else if l.capacity (s.allowedDies l).length (if l.domain then s.members.length else 1) < l.size.toNat then 0x04
        else if !s.control.policy.grantsPart src l.part then 0x0D
        else if !s.saveAreasOk l then 0x10
        else 0

/-! ## Queues (20 R344, R346) -/

/-- The root of a partition and ASID (21 R365). -/
def bindRoot (l : Launch) (rs : List BoundRoot) : List BoundRoot :=
  { part := l.part, asid := l.asid, root := l.ptroot } :: rs.filter fun r => !(r.part == l.part && r.asid == l.asid)

/-- A gang as a record queues it, with the next GANGID. -/
def State.newGang (s : State) (l : Launch) (i : Image) (k : Kernel) (o : Origin) : Gang :=
  { id := s.control.nextGang, launch := l, kernel := k, textVa := i.textVa, stops := i.stops, origin := o, state := .queued
    prio := l.prio, passes := 0, placed := 0, cores := [], reserved := [], victims := [], room := [], ending := none, halt := [] }

/-- Queue a gang: at the tail of its level, with its root bound, and a round asked for. -/
def State.queueGang (s : State) (l : Launch) (i : Image) (k : Kernel) (o : Origin) : State :=
  let c := s.control
  { s with control := { c with gangs := c.gangs ++ [s.newGang l i k o], nextGang := c.nextGang + 1, roots := bindRoot l c.roots
                               round := true } }

/-- The gang before another in the books. -/
def gangBefore (g : BitVec 32) : List Gang → Option (BitVec 32)
  | x :: y :: r => if y.id = g then some x.id else gangBefore g (y :: r)
  | _ => none

/-- A gang leaves its place in the books: where it was the last placed of a level, the gang before it takes that part. -/
def Control.unlink (c : Control) (g : BitVec 32) : Control :=
  let before := gangBefore g c.gangs
  { c with gangs := c.gangs.filter fun x => x.id ≠ g
           lastPlaced := c.lastPlaced.filterMap fun x =>
             if x.2.2 = g then before.map fun b => (x.1, x.2.1, b) else some x }

def State.findGang (s : State) (g : BitVec 32) : Option Gang := s.control.gangs.find? fun x => x.id == g

/-- Replace a gang where it stands. -/
def setGang (g : Gang) (gs : List Gang) : List Gang := gs.map fun x => if x.id = g.id then g else x
/-- Move a gang to the tail of the queues. -/
def Control.requeue (c : Control) (g : Gang) : Control :=
  let c := c.unlink g.id
  { c with gangs := c.gangs ++ [g] }

/-- Launched harts of a gang. -/
def State.gangHarts (s : State) (g : BitVec 32) : List Hart := s.harts.filter fun h => h.launched && h.ident.gangid == g && h.status != .vacant

/-- Whether harts of a gang may live in other packages. -/
def Gang.hartsHere (g : Gang) (s : State) : Bool := decide ((s.gangHarts g.id).length = g.launch.size.toNat)

/-! ## Simple commands (20 R342) -/

/-- IMAGE.DROP. -/
def dropImage (m : Msg) : M Answer := do
  let s ← get
  let h := wordAt m.body 0
  if (s.findImage h).isNone then return answer 0x02
  if !s.control.policy.grantsSome m.source.toNat then return answer 0x0D
  if s.control.gangs.any (fun g => g.launch.image == h) || s.control.graphs.any (fun g => g.nodes.any fun n => n.launch.image == h) then
    return answer 0x06
  set { s with control := { s.control with images := s.control.images.filter fun i => i.handle ≠ h } }
  return answer 0

/-- LAUNCH. -/
def launchGang (m : Msg) : M Answer := do
  match Launch.parse m.body with
  | none => return answer 0x01
  | some l =>
    let s ← get
    let st := s.launchStatus m.source.toNat l
    if st ≠ 0 then return answer st
    match s.kernelOf l with
    | none => return answer 0x02
    | some (i, k) =>
      set (s.queueGang l i k (.command m.source m.seq))
      return none

/-- SYNC: completes when every earlier command of its source has.  It names no partition, and needs the grant of some (log 25). -/
def startSync (m : Msg) : M Answer := do
  if (← get).control.policy.grantsSome m.source.toNat then return none else return answer 0x0D

/-- The state that QUERY reports. -/
def GangState.code : GangState → Nat
  | .queued => 0
  | .resident | .stopping => 1
  | .stopped => 2

/-- QUERY: of a gang whose partition the source is not granted, 0x0D (23 R387). -/
def queryGang (m : Msg) : M Answer := do
  if leAt m.body 4 4 ≠ 0 then return answer 0x01
  let s ← get
  match s.findGang (BitVec.ofNat 32 (leAt m.body 0 4)) with
  | none => return answerWith (leBytes 4 3)
  | some g =>
    if !s.control.policy.grantsPart m.source.toNat g.launch.part then return answer 0x0D
    return answerWith (leBytes 4 g.state.code ++ leBytes 4 g.prio ++ leBytes 4 g.passes)

/-- The partitions that a new map takes a die from or moves one to. -/
def State.affected (s : State) (map : List Nat) : List Nat :=
  dieNumbers.flatMap fun d =>
    let old := (dieAt s d).part.val
    let new := map.getD d 0
    if old = new then [] else [old, new]

/-- Forget the bound roots of partitions. -/
def unbind (ps : List Nat) (rs : List BoundRoot) : List BoundRoot := rs.filter fun r => !ps.contains r.part

/-- PARTITION.SET.  Where the policy refuses it and a gang blocks it as well, it answers 0x0D: the model's choice (log 82). -/
def setPartitions (m : Msg) : M Answer := do
  let map := (m.body.take 4).map BitVec.toNat
  if map.any (4 ≤ ·) || leAt m.body 4 4 ≠ 0 then return answer 0x01
  let s ← get
  if !s.control.policy.grantsCommand m.source.toNat 9 then return answer 0x0D
  let ps := s.affected map
  if s.control.gangs.any fun g => ps.contains g.launch.part then return answer 0x06
  set { s with dies := s.dies.mapIdx fun d (x : Die) => { x with part := Fin.ofNat 4 (map.getD d 0) }
               control := { s.control with roots := unbind ps s.control.roots } }
  return answer 0

end Sys2Proof.Machine
end

