-- ==== Sys2Proof/Machine/Sched.lean ====
section
/-! DEFINITION. The dispatcher: free cores, placement of new and stopped gangs, dispatch rounds, victims, the end of a stop and
the end of a gang (20 R345 to R351; 11 R264; 19 R336, R337). -/

namespace Sys2Proof.Machine

/-! ## Cores (20 R347) -/

def hartIdOf (pkg die core half : Nat) : BitVec 13 := BitVec.ofNat 13 (pkg * 1024 + die * 256 + core * 2 + half)

/-- The HARTIDs of the dies of a package, for full-lane or half-core harts. -/
def hartIds (pkg : Nat) (dies : List Nat) (half : Bool) : List (BitVec 13) :=
  dies.flatMap fun d => (upTo Config.coresPerDie).flatMap fun c =>
    if half then [hartIdOf pkg d c 0, hartIdOf pkg d c 1] else [hartIdOf pkg d c 0]

def idDie (id : BitVec 13) : Nat := id.toNat / 256 % 4
def idPkg (id : BitVec 13) : Nat := id.toNat / 1024
def idCore (id : BitVec 13) : Nat := id.toNat / 2

/-- A hart keeps its core from others. -/
def Hart.holdsCore (h : Hart) : Bool := h.resident || h.status == .halted
/-- A half-core hart of a core that its gang was launched on as a half. -/
def Hart.halfCore (h : Hart) : Bool := h.shape.split && !h.shape.forked

/-- The dispatcher may place harts on a die (24 R397, R398; 18 R319). -/
def Die.isOpen (d : Die) : Bool := d.state == .run && d.resetting.isNone && !d.closed

/-- A HARTID of this package is free, once the harts of some gangs are gone. -/
def State.idFree (s : State) (without : List (BitVec 32)) (half : Bool) (id : BitVec 13) : Bool :=
  (dieAt s (idDie id)).isOpen
    && s.harts.all fun h =>
      !h.holdsCore || without.contains h.ident.gangid || h.ident.coreKey != idCore id || (half && h.halfCore && h.ident.hartid != id)

/-- A core, or for a half-core hart its half, is reserved for another gang (20 R349). -/
def State.reservedFor (s : State) (g : BitVec 32) (half : Bool) (id : BitVec 13) : Bool :=
  s.control.gangs.any fun x => x.id != g && x.reserved.any fun r => if half then r == id else idCore r == idCore id

/-! ## Carillon channels (11 R264) -/

/-- The dies of this package on which a gang takes channels. -/
def Gang.dies (g : Gang) (pkg : Nat) : List Nat := distinct ((g.cores.filter fun c => idPkg c == pkg).map idDie)
/-- The gang has harts in another package. -/
def Gang.leavesPkg (g : Gang) (pkg : Nat) : Bool := g.cores.any fun c => idPkg c != pkg
/-- The gang spans packages, this one among them. -/
def Gang.spans (g : Gang) (pkg : Nat) : Bool := g.leavesPkg pkg && g.cores.any fun c => idPkg c == pkg

/-- The gang holds channels. -/
def Gang.holdsChannels (g : Gang) : Bool := g.state == .resident || g.state == .stopping
/-- The channels of gang `x` are taken, for gang `g`: `x` holds them, or its stop has freed them for a candidate other than `g`
(20 R349). -/
def State.channelsTaken (s : State) (g : BitVec 32) (x : Gang) : Bool :=
  x.holdsChannels || s.control.gangs.any fun c => c.id != g && c.victims.contains x.id

/-- Channels of a die that other gangs hold. -/
def State.channelsUsed (s : State) (without : List (BitVec 32)) (g : BitVec 32) (d : Nat) : Nat :=
  s.control.gangs.foldl (fun n x =>
    if x.id != g && s.channelsTaken g x && !without.contains x.id && (x.dies s.pkg.val).contains d then n + x.launch.barriers else n) 0
def State.hubUsed (s : State) (without : List (BitVec 32)) (g : BitVec 32) : Nat :=
  s.control.gangs.foldl (fun n x =>
    if x.id != g && s.channelsTaken g x && !without.contains x.id && x.spans s.pkg.val then n + x.launch.barriers else n) 0

def State.dieChannels (s : State) (without : List (BitVec 32)) (g : Gang) (d : Nat) : Bool :=
  s.channelsUsed without g.id d + g.launch.barriers ≤ Config.dieChannels
def State.hubChannels (s : State) (without : List (BitVec 32)) (g : Gang) : Bool :=
  s.hubUsed without g.id + g.launch.barriers ≤ Config.hubChannels

/-! ## Where a gang fits -/

/-- The HARTIDs of this package that a new gang may take. -/
def State.localIds (s : State) (without : List (BitVec 32)) (g : Gang) : List (BitVec 13) :=
  (hartIds s.pkg.val ((s.allowedDies g.launch).filter (s.dieChannels without g)) g.launch.half).filter fun id =>
    s.idFree without g.launch.half id && !s.reservedFor g.id g.launch.half id

/-- A HARTID of another package is held by a gang that this package has placed there, until that gang ends or stops (log 85). -/
def State.remoteHeld (s : State) (without : List (BitVec 32)) (half : Bool) (id : BitVec 13) : Bool :=
  s.control.gangs.any fun x => x.holdsChannels && !without.contains x.id
    && x.cores.any fun c => if half && x.launch.half then c == id else idCore c == idCore id

/-- The HARTIDs of other packages that a gang of the domain may take, where they are free (20 R344). -/
def State.remoteIds (s : State) (without : List (BitVec 32)) (g : Gang) (free : Bool) : List (BitVec 13) :=
  if g.launch.domain && free then
    ((s.members.filter fun m => m != s.pkg && s.portTo m.val).flatMap fun m => hartIds m.val (s.allowedDies g.launch) g.launch.half).filter
      fun id => !s.remoteHeld without g.launch.half id
  else []

/-- The HARTIDs among which a new gang may be placed: where the hub has no channels for it, those of one side only, since it may not span
packages (11 R264). -/
def State.freeIds (s : State) (without : List (BitVec 32)) (g : Gang) (free : Bool) : List (BitVec 13) :=
  let here := s.localIds without g
  let there := s.remoteIds without g free
  if s.hubChannels without g then here ++ there else if g.launch.size.toNat ≤ there.length then there else here

/-- The harts of a stopped gang that have not exited. -/
def State.savedHarts (s : State) (g : Gang) : List Hart := (s.gangHarts g.id).filter fun h => h.status == .stopped

/-- The record of a stopped hart as the control processor reads it: from a DATA page whose home answers (11 R260; 18 R317, R318). -/
def savedRecord (g : Gang) (va : Word) : M (Option Record) := do
  match (← get).walk g.launch.ctx va with
  | .error _ => return none
  | .ok l =>
    let pa := l.target va
    modify fun s => s.asked .control pa 0x448
    let s ← get
    return if pteKind l.pte == kindData && permits g.launch.ctx Needs.load l.pte && s.reaches g.launch.ctx false pa && !s.badUnits pa 0x448 then
        some { bytes := Memory.readBytes s.mem pa 0x448 }
      else none

/-- The pool blocks that the records of a stopped hart need (19 R336); none where the record cannot be read. -/
def savedUse (g : Gang) (h : Hart) : M Nat := do
  let base := saveAreaOf g h
  match ← savedRecord g base with
  | none => return 0
  | some r =>
    if r.hasChild then return r.poolUse + ((← savedRecord g (base + BitVec.ofNat 64 recordBytes)).map Record.poolUse).getD 0
    else return r.poolUse

/-- The pool blocks in use on a core, once the harts of some gangs are gone. -/
def State.coreUse (s : State) (without : List (BitVec 32)) (core : Nat) : Nat :=
  s.harts.foldl (fun n h =>
    if h.holdsCore && !without.contains h.ident.gangid && h.ident.coreKey == core then n + h.poolUse else n) 0

/-- The pages of the save area of a hart and the tables that map them lie on dies that may take gangs (24 R398). -/
def State.savesOpen (s : State) (g : Gang) (h : Hart) : Bool :=
  (pagesOf (saveAreaOf g h).toNat saveAreaBytes).all fun va => match s.walk g.launch.ctx va with
    | .error t => t.cause != .busError
    | .ok l => paPkg (l.target va) != s.pkg.val || (dieAt s (paDie (l.target va))).isOpen

/-- The cores of a gang's saved harts have room in their pools for the records. -/
def roomAgain (without : List (BitVec 32)) (g : Gang) : M Bool := do
  let s ← get
  let hs := s.savedHarts g
  let needs ← collect (fun (h : Hart) => do return (h.ident.coreKey, ← savedUse g h)) hs
  return hs.all fun h =>
    let core := h.ident.coreKey
    let need := needs.foldl (fun n x => if x.1 = core then n + x.2 else n) 0
    decide (s.coreUse without core + s.roomReserved g.id core + need ≤ Config.poolBlocks)

/-- Every core of a stopped gang is free, has room in its pool, its dies have channels, and its save areas can be read. -/
def fitsAgain (without : List (BitVec 32)) (g : Gang) (remoteFree : Bool) : M Bool := do
  let s ← get
  let hs := s.savedHarts g
  let room ← roomAgain without g
  return hs.all (fun h => s.idFree without g.launch.half h.ident.hartid && !s.reservedFor g.id g.launch.half h.ident.hartid
      && s.savesOpen g h) && room
    && (g.dies s.pkg.val).all (s.dieChannels without g)
    && (!g.leavesPkg s.pkg.val || remoteFree) && (!g.spans s.pkg.val || s.hubChannels without g)
    && (g.cores.filter fun c => idPkg c != s.pkg.val).all fun c => !s.remoteHeld without g.launch.half c

/-- The gang could be placed, once some gangs are gone. -/
def fits (without : List (BitVec 32)) (g : Gang) (remoteFree : Bool) : M Bool := do
  if g.state = .stopped then fitsAgain without g remoteFree
  else
    let s ← get
    return decide (g.launch.size.toNat ≤ (s.freeIds without g remoteFree).length)

/-! ## Placement (20 R345, R350) -/

/-- Distinct members of a list, by a free choice (20 R347). -/
def chooseIds : Nat → List (BitVec 13) → M (List (BitVec 13))
  | 0, _ => pure []
  | n + 1, pool => do
    let k ← freshNat
    match pool[k % pool.length]? with
    | none => pure []
    | some id => do
      let r ← chooseIds n (pool.filter fun x => x ≠ id)
      return id :: r

/-- The state of a launched hart (02 R46, 20 R345). -/
def State.startHart (s : State) (g : Gang) (id : BitVec 13) (idx : Nat) : Hart :=
  let l := g.launch
  let ident : Ident := { hartid := id, gangid := g.id, gangsize := l.size, hartidx := BitVec.ofNat 16 idx }
  let h : Hart :=
    { Hart.reset with
      pc := g.kernel.entry
      s := ((Hart.reset.s.set 3 l.argBlock).set 4 (BitVec.ofNat 64 idx)).set 5 (l.size.zeroExtend 64)
      shape := { Shape.reset with split := l.half, half := l.half && id.getLsbD 0 }
      det := l.det, ident := ident
      priv := { Priv.reset with tvec := l.tvec, ptroot := l.ptroot, asid := l.asid, partid := BitVec.ofNat 2 l.part
                                wdlimit := l.wdlimit, rsbase := l.rsbase, rslimit := l.rslimit }
      declared := { barriers := g.kernel.barriers, hash := g.kernel.hash, windows := g.kernel.windows, fork := l.fork }
      status := .running }
  { h with shape := { h.shape with width := s.widthFor h l.half, granted := s.widthFor h l.half } }.forkLead

/-- The hart of a stopped gang before its CTXLOAD (19 R336, R337). -/
def State.resumeHart (s : State) (g : Gang) (h : Hart) : Hart :=
  { Hart.reset with
    ident := h.ident
    shape := { Shape.reset with split := g.launch.half, half := h.ident.hartid.getLsbD 0, width := s.widthFor h g.launch.half, granted := s.widthFor h g.launch.half }
    priv := { Priv.reset with ptroot := g.launch.ptroot, asid := g.launch.asid, partid := BitVec.ofNat 2 g.launch.part
                              level := true, trap := true }
    declared := h.declared, service := h.service, gbarWait := h.gbarWait, strip := h.strip
    resume := some (saveAreaOf g h), status := .running }

/-- VALID = 0, VZERO and AZERO all ones, in both records of a save area (19 R334). -/
def freshRecord (base : Word) : List (Word × List Byte) :=
  [base, base + BitVec.ofNat 64 recordBytes].flatMap fun b => [(b + 2, [0]), (b + 0xC, [255, 255, 255, 255]), (b + 0x11, [255])]

/-- Where the control processor writes, for a launch record. -/
def cpStore (l : Launch) (va : Word) : M Nat := do
  let p ← translate l.ctx Needs.store dataOnly 1 va
  reply l.ctx false p.pa va
  return p.pa

/-- Bytes that the control processor reads and writes at their homes, after the writes that are owed to it (05 R98). -/
def cpGet (pa n : Nat) : M (List Byte) := do
  modify fun s => s.asked .control pa n
  getHome pa n
def cpPut (va : Word) (pa : Nat) (bs : List Byte) : M Unit := do
  modify fun s => s.asked .control pa bs.length
  putHome va pa bs

/-- Write pieces that the control processor writes for a launch record: all of them, or none where one fails. -/
def cpWrite (l : Launch) (ps : List (Word × List Byte)) : M Bool := do
  match ← attempt (collect (fun (p : Word × List Byte) => do return (p.1, ← cpStore l p.1, p.2)) ps) with
  | .error _ => return false
  | .ok dests =>
    each (fun (d : Word × Nat × List Byte) => cpPut d.1 d.2.1 d.2.2) dests
    return true

/-- The writes of the save areas of a gang. -/
def Gang.saveWrites (g : Gang) : List (Word × List Byte) :=
  if g.launch.saveBase = 0 then []
  else (upTo g.launch.size.toNat).flatMap fun i => freshRecord (g.launch.saveBase + BitVec.ofNat 64 (saveAreaBytes * i))

/-- Replace an entry of the table of last placed gangs. -/
def setLast (part level : Nat) (g : BitVec 32) (l : List (Nat × Nat × BitVec 32)) : List (Nat × Nat × BitVec 32) :=
  (part, level, g) :: l.filter fun x => !(x.1 == part && x.2.1 == level)

/-- The gang leaves the queue. -/
def State.markPlaced (s : State) (g : Gang) (cores : List (BitVec 13)) : State :=
  let c := s.control
  let g' := { g with state := .resident, prio := g.launch.prio, passes := 0, placed := c.placements + 1, cores := cores, reserved := [], victims := [], room := [] }
  { s with control := { c with gangs := setGang g' c.gangs, placements := c.placements + 1
                               lastPlaced := setLast g.launch.part g.prio g.id c.lastPlaced } }

/-- The harts of a gang on this package start, on the cores chosen. -/
def State.startHarts (s : State) (g : Gang) (ids : List (BitVec 13)) : List Hart :=
  (ids.zip (upTo ids.length)).filterMap fun x => if idPkg x.1 = s.pkg.val then some (s.startHart g x.1 x.2) else none

/-- Place a gang if it fits; whether it was placed. -/
def place (g : Gang) : M Bool := do
  let remoteFree ← if g.launch.domain then freshBit else pure false
  if !(← fits [] g remoteFree) then return false
  let s ← get
  if g.state = .stopped then
    modify fun s =>
      let s' := s.mapHarts fun h => if h.launched && h.ident.gangid = g.id && h.status = .stopped then s.resumeHart g h else h
      s'.markPlaced g g.cores
    return true
  else
    let ids ← chooseIds g.launch.size.toNat (s.freeIds [] g remoteFree)
    if ← cpWrite g.launch g.saveWrites then
      modify fun s =>
        ({ s with others := s.others ++ s.startHarts g ids, icache := s.icache.filter fun l => l.gang ≠ g.id }).markPlaced g ids
      return true
    else
      modify fun s => { s with control := { s.control with gangs := endGang g.id 0x10 [] s.control.gangs } }
      return false

/-! ## Dispatch rounds (20 R346, R348) -/

/-- The gang stands in a queue. -/
def Gang.waits (g : Gang) : Bool := (g.state == .queued || g.state == .stopped) && g.ending.isNone
/-- The gang is blocking. -/
def Gang.blocking (g : Gang) : Bool := g.prio == 7 && decide (64 ≤ g.passes)

/-- A list from after a gang on, round to that gang. -/
def rotateAfter (g : BitVec 32) (gs : List Gang) : List Gang :=
  if gs.any (fun x => x.id == g) then (gs.dropWhile fun x => x.id != g).drop 1 ++ gs.takeWhile (fun x => x.id != g) ++ gs.filter fun x => x.id == g
  else gs

/-- The gangs of a level of a partition in the order of examination. -/
def Control.level (c : Control) (part level : Nat) : List Gang :=
  let gs := match c.lastPlaced.find? fun x => x.1 == part && x.2.1 == level with
    | some x => rotateAfter x.2.2 c.gangs
    | none => c.gangs
  gs.filter fun g => g.waits && g.launch.part == part && g.prio == level

/-- The order of a round for a partition: the blocking gangs first (20 R348). -/
def Control.order (c : Control) (part : Nat) : List Gang :=
  let gs := [7, 6, 5, 4, 3, 2, 1, 0].flatMap (c.level part)
  gs.filter Gang.blocking ++ gs.filter fun g => !g.blocking

/-- Try gangs in turn; the gangs that could not be placed.  After a blocking gang that is not placed, no other is tried. -/
def tryAll : List Gang → M (List Gang)
  | [] => pure []
  | g :: gs => do
    if ← place g then tryAll gs
    else if g.blocking then return g :: gs
    else
      let r ← tryAll gs
      return g :: r

/-- A pass over a gang. -/
def Control.pass (c : Control) (g : Gang) : Control :=
  if g.passes + 1 < 64 then { c with gangs := setGang { g with passes := g.passes + 1 } c.gangs }
  else if g.prio < 7 then c.requeue { g with passes := 0, prio := g.prio + 1 }
  else { c with gangs := setGang { g with passes := 64 } c.gangs }

/-! ## Victims (20 R349) -/

/-- Ordered as victims are added: lowest PRIO, then most recently placed. -/
def victimBefore (a b : Gang) : Bool := decide (a.launch.prio < b.launch.prio) || (a.launch.prio == b.launch.prio && decide (b.placed ≤ a.placed))

/-- The gangs that may be victims of a candidate; whether each has been resident for 1 ms is free (log 4). -/
def possibleVictims (g : Gang) : M (List Gang) := do
  let s ← get
  let gs := s.control.gangs.filter fun x =>
    x.state == .resident && x.ending.isNone && x.launch.part == g.launch.part && decide (x.launch.prio < g.prio) && x.launch.saveBase != 0
  let old ← collect (fun (x : Gang) => do return (x, ← freshBit)) gs
  return sortBy victimBefore ((old.filter fun x => x.2).map Prod.fst)

/-- The shortest run of victims, in their order, that would let the candidate be placed. -/
def enoughVictims (g : Gang) (remoteFree : Bool) : List Gang → List Gang → M (List Gang)
  | _, [] => pure []
  | taken, v :: vs => do
    let t := taken ++ [v]
    if ← fits (t.map Gang.id) g remoteFree then return t else enoughVictims g remoteFree t vs

/-- A gang is stopped: requests go to its harts (20 R350). -/
def State.stopGang (s : State) (g : Gang) : State :=
  let s' := s.mapHarts (postOthers g)
  { s' with control := { s'.control with gangs := setGang { g with state := .stopping } s'.control.gangs } }

/-- Choose victims for the candidate, stop them, and reserve what they free. -/
def preempt (g : Gang) : M Unit := do
  let remoteFree ← if g.launch.domain then freshBit else pure false
  let vs ← enoughVictims g remoteFree [] (← possibleVictims g)
  if vs ≠ [] then
    modify fun s =>
      let hs := vs.flatMap fun v => (s.gangHarts v.id).filter Hart.resident
      let ids := hs.flatMap fun h => if h.halfCore then [h.ident.hartid] else [h.ident.hartid, h.ident.hartid ||| 1]
      let s := vs.foldl (fun (s : State) v => s.stopGang v) s
      { s with control := { s.control with gangs := s.control.gangs.map fun x =>
          if x.id = g.id then { x with reserved := ids, victims := vs.map Gang.id, room := hs.map fun h => (h.ident.hartid, h.poolUse) } else x } }

/-- Some gang of a partition is being stopped. -/
def State.stopping (s : State) (part : Nat) : Bool := s.control.gangs.any fun g => g.launch.part == part && g.state == .stopping

/-- A round for one partition. -/
def roundOf (part : Nat) : M Unit := do
  let c := (← get).control
  let left ← tryAll (c.order part)
  if c.placements < (← get).control.placements then
    modify fun s =>
      { s with control := (s.control.gangs.filter fun g => g.waits && g.launch.part == part).foldl Control.pass s.control }
  if !(← get).stopping part then
    modify fun s =>
      { s with control := { s.control with gangs := s.control.gangs.map fun g => if g.launch.part = part then { g with reserved := [], victims := [], room := [] } else g } }
  let s ← get
  match left.filterMap (fun g => (s.findGang g.id).map fun x => ({ x with prio := g.prio } : Gang)) with
  | [] => pure ()
  | x :: xs =>
    match (x :: xs).find? Gang.waits with
    | none => pure ()
    | some g => if g.reserved == [] then preempt g

/-- DISPATCH_ROUND. -/
def execDispatchRound (s : State) : Out1 :=
  run (do
    if !s.control.round || !s.supply.up then notEnabled
    set { s with control := { s.control with round := false } }
    each roundOf [0, 1, 2, 3]) s

/-! ## The end of a stop (20 R350) -/

def Hart.stoppedOrExited (h : Hart) : Bool := h.status == .stopped || h.status == .exited

/-- GANG_STOP_COMPLETE: the gang joins the tail of its PRIO level. -/
def execGangStopComplete (g : BitVec 32) (s : State) : Out1 :=
  match s.findGang g with
  | none => never
  | some x =>
    let hs := s.gangHarts g
    if x.state = .stopping && x.ending.isNone && hs.all Hart.stoppedOrExited && hs.any (fun h => h.status == .stopped) then
      let c := s.control.requeue { x with state := .stopped, prio := x.launch.prio, passes := 0 }
      .next { s with control := { c with round := true } }
    else never

/-! ## The end of a gang (20 R351) -/

/-- The outstanding writes of a gang's harts perform; those that a store buffer holds are discarded (log 15). -/
def State.endWrites (s : State) (g : BitVec 32) : State :=
  let s := s.raiseAll (fun w => w.gang == g) .home
  { s with writes := s.writes.filter fun w => w.gang ≠ g }

/-- The harts of a gang leave the package. -/
def State.dropHarts (s : State) (g : BitVec 32) : State :=
  let s := s.endWrites g
  { s with icache := s.icache.filter fun l => l.gang ≠ g
           hart := if s.hart.ident.gangid = g && s.hart.status ≠ .vacant then Hart.reset else s.hart
           others := s.others.filter fun h => h.ident.gangid ≠ g }

/-- RESULT of a LAUNCH. -/
def launchResult (g : BitVec 32) (status : Nat) (halt : List Word) : List Byte :=
  leBytes 4 g.toNat ++
    (if status = 8 then leBytes 4 (halt.getD 0 0).toNat ++ ((halt.drop 1).take 4).flatMap fun w => leBytes 8 w.toNat else [])

/-- A node of a replay has ended (20 R354): where it failed, the nodes that are not queued are skipped. -/
def Replay.nodeEnded (r : Replay) (n status : Nat) : Replay :=
  let states := setAt r.states n (.ended status)
  if status = 0 then { r with states := states }
  else
    { r with states := states.map fun x => if x = .waiting then .skipped else x
             failed := match r.failed with
               | some f => some f
               | none => some (n, status) }

def NodeState.over : NodeState → Bool
  | .ended _ | .skipped => true
  | .waiting | .queued => false

/-- The replay with a number takes the end of a node; a replay whose nodes are all over completes. -/
def State.endNode (s : State) (replay n status : Nat) : State :=
  match s.control.replays.find? fun r => r.id == replay with
  | none => s
  | some r0 =>
    let r := r0.nodeEnded n status
    if r.states.all NodeState.over then
      let (st, res) := match r.failed with
        | none => (0, [])
        | some (i, f) => (f, leBytes 4 i ++ leBytes 4 f)
      let s := { s with control := { s.control with replays := s.control.replays.filter fun x => x.id ≠ replay } }
      s.finishCommand r.source r.seq st res
    else { s with control := { s.control with replays := s.control.replays.map fun x => if x.id = replay then r else x } }

/-- The gang has barriers and harts in two other packages, between which a barrier flit may be lost (22 R376). -/
def Gang.farPair (g : Gang) (pkg : Nat) : Bool :=
  (g.state == .resident || g.state == .stopping) && g.launch.barriers != 0
    && decide (2 ≤ (distinct ((g.cores.map idPkg).filter (· != pkg))).length)

/-- Why a gang ends now: the reason recorded, that every launched hart has exited, those of other packages by a free choice, or a flit
lost between other packages, by a free choice. -/
def gangStatus (x : Gang) : M (Option Nat) := do
  let s ← get
  match x.ending with
  | some st => return some st
  | none =>
    if x.farPair s.pkg.val then
      if ← freshBit then return some 0x0F
    if x.cores = [] || x.state = .stopped || !(s.gangHarts x.id).all (fun h => h.status == .exited) then return none
    else if x.hartsHere s then return some 0
    else if ← freshBit then return some 0
    else return none

/-- GANG_END. -/
def execGangEnd (g : BitVec 32) (s : State) : Out1 :=
  run (do
    match s.findGang g with
    | none => notEnabled
    | some x =>
      match ← gangStatus x with
      | none => notEnabled
      | some st =>
        modify fun s =>
          let c := s.control.unlink g
          let s := ({ s with control := { c with round := true } }).dropHarts g
          match x.origin with
          | .command source seq => s.finishCommand source seq st (launchResult g st x.halt)
          | .node r n => s.endNode r n st) s

end Sys2Proof.Machine
end

