-- ==== Sys2Proof/Machine/Images.lean ====
section
/-! DEFINITION. Signed objects, images, policies and attestation reports: IMAGE.LOAD, POLICY.LOAD and ATTEST (23 R382 to R388; 19
R332). -/

namespace Sys2Proof.Machine

/-! ## Physical ranges -/

/-- A range of physical addresses lies in populated memory of one die of this package that a condition on its partition picks. -/
def State.rangeOk (s : State) (part : Nat → Bool) (base len : Nat) : Bool :=
  len == 0 || (paPopulated base && paPopulated (base + len - 1) && paPkg base == s.pkg.val && base / 2 ^ 42 == (base + len - 1) / 2 ^ 42
    && part (dieAt s (paDie base)).part.val)

/-- The range lies in partitions that the loaded policy grants the source (23 R382, R386). -/
def State.grantedRange (s : State) (src base len : Nat) : Bool := s.rangeOk (s.control.policy.grantsPart src) base len

/-! ## Signed objects (23 R382, R383) -/

def signatureBytes : Nat := 384 + 16224
def align8 (n : Nat) : Nat := (n + 7) / 8 * 8
/-- The length of an object with a body of a length. -/
def objectLen (body : Nat) : Nat := align8 (0x80 + body) + signatureBytes

def objectMagic : Nat := 0x56474E34

/-- A key pair: an RSA public key of 388 bytes and an SLH-DSA public key of 48. -/
def keyPairBytes : Nat := 436

/-- The digest of an object. -/
def objectDigest (b : List Byte) (bodyLen : Nat) : List Byte := Config.sha384 (b.take 16 ++ (b.drop 0x80).take bodyLen)

/-- A signature verifies under a public key: the holder's own of the message, or another (log 23). -/
def rsaVerify (key msg sig : List Byte) : Bool :=
  let x := BitVec.ofNat 3072 (leNat sig)
  x == Config.rsaSign key msg || Config.rsaAlso key msg x
def slhVerify (key msg sig : List Byte) : Bool :=
  let x := BitVec.ofNat 129792 (leNat sig)
  x == Config.slhSign key msg || Config.slhAlso key msg x

/-- Digest and both signatures verify under a key pair. -/
def objectVerifies (b : List Byte) (bodyLen : Nat) (key : List Byte) : Bool :=
  let msg := b.take 0x80
  let sigs := b.drop (align8 (0x80 + bodyLen))
  sliceBytes b 0x10 48 == objectDigest b bodyLen && rsaVerify (key.take 388) msg (sigs.take 384)
    && slhVerify (key.drop 388) msg ((sigs.drop 384).take 16224)

/-- The header names the kind and the object fits the length given. -/
def headerOk (b : List Byte) (kind len : Nat) : Bool :=
  decide (0x80 ≤ len) && leAt b 0 4 == objectMagic && leAt b 4 2 == kind && decide (leAt b 8 8 ≤ 2 ^ 32) && decide (objectLen (leAt b 8 8) ≤ len)

/-- The must-be-zero fields of the header. -/
def headerZero (b : List Byte) : Bool := leAt b 6 2 == 0 && allZero (sliceBytes b 0x40 0x40)

/-- The owner key pair, where the flashed one has the fused digest (23 R383). -/
def ownerKeys : List (List Byte) := if Config.sha384 Config.ownerKeyPair = Config.ownerKeyDigest then [Config.ownerKeyPair] else []

/-- An object's bytes and body, or the status of the check that fails (23 R382). -/
def checkObject (b : List Byte) (kind len : Nat) (keys : List (List Byte)) : Except Nat (List Byte × List Byte) :=
  if !headerOk b kind len then .error 0x01
  else
    let n := leAt b 8 8
    let whole := b.take (objectLen n)
    if !keys.any (objectVerifies whole n) then .error 0x07
    else if !headerZero whole then .error 0x01
    else .ok (whole, (whole.drop 0x80).take n)

/-- Read an object that a command names. -/
def readObject (m : Msg) (kind : Nat) (keys : List (List Byte)) : M (Except Nat (List Byte × List Byte)) := do
  let s ← get
  let base := leAt m.body 0 8
  let len := leAt m.body 8 8
  if !s.grantedRange m.source.toNat base len then return .error 0x0D
  let n := min len 0x80
  if n ≠ 0 && s.badUnits base n then
    modify fun s => s.logBad base n
    return .error 0x07
  let head ← cpGet base n
  if !headerOk head kind len then return .error 0x01
  let whole := objectLen (leAt head 8 8)
  if s.badUnits base whole then
    modify fun s => s.logBad base whole
    return .error 0x07
  return checkObject (← cpGet base whole) kind len keys

/-! ## Images (23 R384 to R386) -/

/-- A section of an image. -/
structure Section where
  kind   : Nat
  zero   : Nat
  vaddr  : Nat
  loadPa : Nat
  offset : Nat
  file   : Nat
  mem    : Nat
  deriving DecidableEq, Repr

def Section.ofBytes (b : List Byte) : Section :=
  { kind := leAt b 0 4, zero := leAt b 4 4, vaddr := leAt b 8 8, loadPa := leAt b 0x10 8, offset := leAt b 0x18 8, file := leAt b 0x20 8
    mem := leAt b 0x28 8 }

def Section.loads (x : Section) : Bool := decide (x.kind ≤ 3)

def Section.ok (bodyLen : Nat) (x : Section) : Bool :=
  decide (1 ≤ x.kind) && decide (x.kind ≤ 6) && x.zero == 0 && x.loadPa % 65536 == 0 && (x.loads || x.loadPa == 0) && x.offset % 8 == 0
    && decide (x.file ≤ x.mem) && decide (x.offset + x.file ≤ bodyLen)

/-- Ranges, as first address and length, that do not overlap. -/
def disjoint : List (Nat × Nat) → Bool
  | [] => true
  | x :: xs => xs.all (fun y => x.2 == 0 || y.2 == 0 || decide (x.1 + x.2 ≤ y.1) || decide (y.1 + y.2 ≤ x.1)) && disjoint xs

def Section.bytes (x : Section) (body : List Byte) : List Byte := (body.drop x.offset).take x.file

def Kernel.ofBytes (b : List Byte) : Kernel :=
  { entry := wordAt b 0, argSize := BitVec.ofNat 32 (leAt b 8 4), argAlign := BitVec.ofNat 32 (leAt b 0xC 4), half := leAt b 0x10 1 == 1
    fork := leAt b 0x11 1 == 1, barriers := leAt b 0x12 1, hash := leAt b 0x13 1, windows := leAt b 0x14 1 }

/-- An address is in a section and a multiple of 4. -/
def Section.holdsWord (x : Section) (va : Nat) : Bool := va % 4 == 0 && decide (x.vaddr ≤ va) && decide (va < x.vaddr + x.mem)

def powerOfTwo (n : Nat) : Bool := n != 0 && 2 ^ Nat.log2 n == n

def kernelOk (text : Section) (b : List Byte) : Bool :=
  text.holdsWord (leAt b 0 8) && powerOfTwo (leAt b 0xC 4) && decide (leAt b 0x10 1 < 2) && decide (leAt b 0x11 1 < 2)
    && decide (leAt b 0x12 1 ≤ 4) && decide (leAt b 0x13 1 ≤ 4) && decide (leAt b 0x14 1 ≤ 8) && allZero (sliceBytes b 0x15 11)

def StopEntry.ofBytes (b : List Byte) : StopEntry :=
  { offset := BitVec.ofNat 32 (leAt b 0 4), sregs := BitVec.ofNat 32 (leAt b 4 4), vregs := BitVec.ofNat 32 (leAt b 8 4)
    tiles := BitVec.ofNat 8 (leAt b 0xC 1), handles := BitVec.ofNat 4 (leAt b 0xD 1) }

/-- Rows of equal length. -/
def rowsOf (n : Nat) (b : List Byte) : List (List Byte) := (upTo (b.length / n)).map fun i => sliceBytes b (n * i) n

/-- The stop table is sorted and has no reserved bit set (19 R332). -/
def stopsOk (text : Section) (rows : List (List Byte)) : Bool :=
  ascending true (rows.map fun b => leAt b 0 4) && rows.all fun b => leAt b 0xC 4 < 4096 && text.holdsWord (text.vaddr + 4 * leAt b 0 4)

/-- The one section of a kind. -/
def onlySection (k : Nat) (xs : List Section) : Option Section :=
  match xs.filter fun x => x.kind == k with
  | [x] => some x
  | _ => none

/-- The sections of an image and its tables, where its body is right (23 R384, R385). -/
def parseImage (body : List Byte) : Option (List Section × Section × List Kernel × List StopEntry) :=
  let nsect := leAt body 4 4
  let nkern := leAt body 8 4
  let xs := (upTo nsect).map fun i => Section.ofBytes (sliceBytes body (0x40 + 48 * i) 48)
  if leAt body 0 4 ≠ 1 || nsect < 3 || 16 < nsect || nkern < 1 || 256 < nkern || !allZero (sliceBytes body 0xC 52)
      || body.length < 0x40 + 48 * nsect || !xs.all (Section.ok body.length) || !disjoint (xs.map fun x => (x.offset, x.file))
      || !disjoint ((xs.filter Section.loads).map fun x => (x.loadPa, x.mem)) then none
  else
    match onlySection 1 xs, onlySection 4 xs, onlySection 5 xs with
    | some text, some kt, some st =>
      let ks := rowsOf 32 (kt.bytes body)
      let ss := rowsOf 16 (st.bytes body)
      if text.vaddr % 4 = 0 && kt.file = 32 * nkern && st.file % 16 = 0 && ks.all (kernelOk text) && stopsOk text ss then
        some (xs, text, ks.map Kernel.ofBytes, ss.map StopEntry.ofBytes)
      else none
    | _, _, _ => none

/-- Copy a section to its load address, and fill it with zeros (23 R386). -/
def loadSection (body : List Byte) (x : Section) : M Unit :=
  if x.loads then cpPut (BitVec.ofNat 64 x.loadPa) x.loadPa (sliceBytes (x.bytes body) 0 x.mem) else pure ()

/-- IMAGE.LOAD. -/
def loadImage (m : Msg) : M Answer := do
  match ← readObject m 1 (← get).control.policy.keys with
  | .error st => return answer st
  | .ok (whole, body) =>
    match parseImage body with
    | none => return answer 0x01
    | some (xs, text, ks, ss) =>
      let s ← get
      if !(xs.filter Section.loads).all (fun x => s.grantedRange m.source.toNat x.loadPa x.mem) then return answer 0x0D
      let i : Image := { handle := s.control.nextImage, digest := Config.sha384 whole, textVa := BitVec.ofNat 64 text.vaddr
                         textLen := text.mem, kernels := ks, stops := ss }
      each (loadSection body) xs
      modify fun s => { s with control := { s.control with images := s.control.images ++ [i], nextImage := s.control.nextImage + 1 } }
      return answerWith (leBytes 8 i.handle.toNat)

/-! ## Policies (23 R387) -/

/-- A policy body; the object gives the digest. -/
def Policy.parse (body : List Byte) (digest : List Byte) : Option Policy :=
  let nkeys := leAt body 6 2
  let watts := leAt body 0x90 4
  if body.length = 0xA0 + keyPairBytes * nkeys && leAt body 4 1 < 8 && leAt body 5 1 < 2 && nkeys ≤ 8 && 1500 ≤ watts && watts ≤ 4000
      && allZero (sliceBytes body 0x94 12) then
    some { version := BitVec.ofNat 32 (leAt body 0 4), pkg := leAt body 4 1
           grants := (upTo 4).map fun p => BitVec.ofNat 256 (leAt body (8 + 32 * p) 32), tags := sliceBytes body 0x88 4
           commands := BitVec.ofNat 32 (leAt body 0x8C 4), watts := watts
           keys := (upTo nkeys).map fun n => sliceBytes body (0xA0 + keyPairBytes * n) keyPairBytes, digest := digest }
  else none

/-- BURN raises the fused minimum; it never falls. -/
def Supply.burn (x : Supply) (on : Bool) (version : BitVec 32) : Supply :=
  if on && decide (x.minimum < version) then { x with minimum := version } else x

/-- POLICY.LOAD; the new policy takes over when the completion message is sent. -/
def loadPolicy (m : Msg) : M Answer := do
  let s ← get
  if !s.control.policy.grantsCommand m.source.toNat 0xC then return answer 0x0D
  match ← readObject m 2 ownerKeys with
  | .error st => return answer st
  | .ok (whole, body) =>
    match Policy.parse body (Config.sha384 whole) with
    | none => return answer 0x01
    | some p =>
      if p.version.toNat < s.supply.minimum.toNat then return answer 0x0D
      if s.control.gangs ≠ [] then return answer 0x06
      modify fun s => { s with control := { s.control with commands := s.control.commands.map fun (c : Command) =>
                     if c.source = m.source && c.seq = m.seq then { c with policy := some (p, leAt body 5 1 == 1) } else c } }
      return answer 0

/-! ## Attestation (23 R388) -/

/-- The 436 bytes of a key pair. -/
def keyBytes (k : BitVec 3488) : List Byte := leBytes keyPairBytes k.toNat

/-- An object of a kind with its signatures by the holder of a key pair. -/
def makeObject (key : List Byte) (kind : Nat) (body : List Byte) : List Byte :=
  let head := leBytes 4 objectMagic ++ leBytes 2 kind ++ leBytes 2 0 ++ leBytes 8 body.length
  let signed := head ++ sliceBytes (Config.sha384 (head ++ body)) 0 48 ++ List.replicate 64 0
  sliceBytes (signed ++ body) 0 (align8 (0x80 + body.length)) ++ leBytes 384 (Config.rsaSign (key.take 388) signed).toNat
    ++ leBytes 16224 (Config.slhSign (key.drop 388) signed).toNat

/-- The partition map, 2 bits a die. -/
def State.partitionMap (s : State) : Nat := dieNumbers.foldl (fun n d => n + (dieAt s d).part.val * 4 ^ d) 0

/-- The body of a report; the digest of a default policy is free. -/
def State.reportBody (s : State) (nonce : List Byte) : List Byte :=
  let p := s.control.policy
  nonce ++ leBytes 8 s.supply.rom.toNat ++ sliceBytes (Config.sha384 (Config.fuseArray s.supply.minimum.toNat)) 0 48
    ++ sliceBytes (if p.digest = [] then Config.sha384 [] else p.digest) 0 48 ++ leBytes 1 s.pkg.val ++ leBytes 1 s.partitionMap
    ++ leBytes 2 0 ++ leBytes 4 s.control.images.length
    ++ s.control.images.flatMap fun i => leBytes 8 i.handle.toNat ++ sliceBytes i.digest 0 48

/-- The identity certificate: the object by which Vigeane certifies the device identity key pair (23 R383). -/
def identityCertificate : List Byte := makeObject (keyBytes Config.vigeaneKeyPair) 3 (Config.certificateBody Config.deviceKeyPair)

/-- The report and, at the next 8-byte boundary, the identity certificate. -/
def State.report (s : State) (nonce : List Byte) : List Byte :=
  let r := makeObject (keyBytes Config.deviceKeyPair) 4 (s.reportBody nonce)
  sliceBytes r 0 (align8 r.length) ++ identityCertificate

/-- ATTEST. -/
def attest (m : Msg) : M Answer := do
  let s ← get
  let nonce := leAt m.body 0 8
  let dest := leAt m.body 8 8
  if !s.grantedRange m.source.toNat nonce 48 then return answer 0x0D
  let r := s.report (← cpGet nonce 48)
  if !s.grantedRange m.source.toNat dest r.length then return answer 0x0D
  cpPut (BitVec.ofNat 64 dest) dest r
  return answerWith (leBytes 8 r.length)

end Sys2Proof.Machine
end

