-- ==== Sys2Proof/Machine/Graphs.lean ====
section
/-! DEFINITION. Graphs: GRAPH.DEFINE, GRAPH.REPLAY, GRAPH.PATCH, and the queueing of a replay's nodes (20 R353 to R355). -/

namespace Sys2Proof.Machine

def State.findGraph (s : State) (id : BitVec 32) : Option Graph := s.control.graphs.find? fun g => g.id == id
/-- All nodes are stored. -/
def Graph.complete (g : Graph) : Bool := g.nodes.length == g.total
/-- A graph that may be replayed and patched. -/
def State.definedGraph (s : State) (id : BitVec 32) : Option Graph := (s.findGraph id).filter Graph.complete

def dropGraph (id : BitVec 32) (gs : List Graph) : List Graph := gs.filter fun g => g.id ≠ id
def setGraph (g : Graph) (gs : List Graph) : List Graph := dropGraph g.id gs ++ [g]

/-! ## GRAPH.DEFINE (20 R353) -/

def nodeBytes : Nat := 424

/-- The entry of the node with an index satisfies the table. -/
def nodeOk (index : Nat) (b : List Byte) : Bool :=
  let plen := leAt b 0x80 2
  let ndep := leAt b 0x82 2
  decide (plen ≤ 256) && decide (ndep ≤ 8) && leAt b 0x84 4 == 0
    && (upTo 8).all (fun i => if i < ndep then decide (leAt b (0x88 + 4 * i) 4 < index) else leAt b (0x88 + 4 * i) 4 == 0)
    && allZero (b.drop (0xA8 + plen))

/-- The node of an entry and its launch record. -/
def nodeOf (b : List Byte) (l : Launch) : Node :=
  { launch := l, params := sliceBytes b 0xA8 (leAt b 0x80 2), deps := (upTo (leAt b 0x82 2)).map fun i => leAt b (0x88 + 4 * i) 4 }

/-- The nodes of a message, or the status of the first record that fails (20 R344). -/
def checkNodes (s : State) (src : Nat) : List (List Byte) → Except Nat (List Node)
  | [] => .ok []
  | b :: bs =>
    match Launch.parse (b.take 128) with
    | none => .error 0x01
    | some l =>
      let st := s.launchStatus src l
      if st ≠ 0 then .error st
      else
        match checkNodes s src bs with
        | .error e => .error e
        | .ok ns => .ok (nodeOf b l :: ns)

/-- The definition that a message leads to, or its status. -/
def State.defineGraph (s : State) (m : Msg) : Except Nat Graph :=
  let b := m.body
  let id := BitVec.ofNat 32 (leAt b 0 4)
  let total := leAt b 4 4
  let first := leAt b 8 4
  let count := leAt b 12 4
  let rows := rowsOf nodeBytes (b.drop 16)
  let old := s.findGraph id
  if b.length ≠ 16 + nodeBytes * count || total < 1 || 1024 < total || count < 1 || 154 < count then .error 0x01
  else if (s.definedGraph id).isSome || (first = 0 && old.isSome) then .error 0x06
  else if total < first + count then .error 0x01
  else
    let base : Option Graph := match old with
      | none => if first = 0 then some { id := id, source := m.source, total := total, nodes := [] } else none
      | some g => if g.source = m.source && g.total = total && first = g.nodes.length then some g else none
    match base with
    | none => .error 0x01
    | some g =>
      if !((upTo count).zip rows).all (fun x => nodeOk (first + x.1) x.2) then .error 0x01
      else
        match checkNodes s m.source.toNat rows with
        | .error e => .error e
        | .ok ns => .ok { g with nodes := g.nodes ++ ns }

/-- A message that fails discards the open definition of its id. -/
def discardGraph (m : Msg) : M Unit :=
  modify fun s =>
    let id := BitVec.ofNat 32 (leAt m.body 0 4)
    if (s.definedGraph id).isNone then { s with control := { s.control with graphs := dropGraph id s.control.graphs } } else s

/-- GRAPH.DEFINE: a message that fails discards the open definition of its id. -/
def defineGraph (m : Msg) : M Answer := do
  let s ← get
  match s.defineGraph m with
  | .ok g =>
    set { s with control := { s.control with graphs := setGraph g s.control.graphs } }
    return answerWith (leBytes 4 g.nodes.length)
  | .error st =>
    discardGraph m
    return answer st

/-! ## GRAPH.PATCH (20 R355) -/

/-- A parameter block with bytes replaced; it grows to cover them. -/
def patchParams (p new : List Byte) (off : Nat) : List Byte := sliceBytes p 0 off ++ new ++ p.drop (off + new.length)

/-- GRAPH.PATCH.  A node index that the graph does not have is answered with 0x01: the model's choice (log 80). -/
def patchGraph (m : Msg) : M Answer := do
  let b := m.body
  let off := leAt b 8 2
  let len := leAt b 10 2
  if len < 1 || 256 < off + len || leAt b 12 4 ≠ 0 || b.length ≠ 16 + align8 len || !allZero (b.drop (16 + len)) then return answer 0x01
  let s ← get
  match s.definedGraph (BitVec.ofNat 32 (leAt b 0 4)) with
  | none => return answer 0x0C
  | some g =>
    let i := leAt b 4 4
    match g.nodes[i]? with
    | none => return answer 0x01
    | some n =>
      if !s.control.policy.grantsPart m.source.toNat n.launch.part then return answer 0x0D
      let g' := { g with nodes := setAt g.nodes i { n with params := patchParams n.params ((b.drop 16).take len) off } }
      set { s with control := { s.control with graphs := setGraph g' s.control.graphs } }
      return answer 0

/-! ## GRAPH.REPLAY (20 R354) -/

/-- GRAPH.REPLAY: the nodes are copied at acceptance. -/
def replayGraph (m : Msg) : M Answer := do
  if leAt m.body 4 4 ≠ 0 then return answer 0x01
  let s ← get
  match s.definedGraph (BitVec.ofNat 32 (leAt m.body 0 4)) with
  | none => return answer 0x0C
  | some g =>
    if !g.nodes.all (fun n => s.control.policy.grantsPart m.source.toNat n.launch.part) then return answer 0x0D
    let c := s.control
    let r : Replay := { id := c.nextReplay, graph := g.id, source := m.source, seq := m.seq, nodes := g.nodes
                        states := g.nodes.map fun _ => .waiting, failed := none }
    set { s with control := { c with replays := c.replays ++ [r], nextReplay := c.nextReplay + 1 } }
    return none

/-- The node waits, all of its dependencies have ended with status 0x00, and no earlier replay of the graph is left. -/
def State.nodeReady (s : State) (r : Replay) (n : Nat) : Bool :=
  r.states[n]? == some .waiting && r.failed.isNone
    && (((r.nodes[n]?).map Node.deps).getD []).all (fun d => r.states[d]? == some (.ended 0))
    && !s.control.replays.any fun x => x.graph == r.graph && decide (x.id < r.id)

/-- The source whose grants a node's launch needs: the one that defined its graph. -/
def State.graphSource (s : State) (r : Replay) : Nat := ((s.findGraph r.graph).map fun g => g.source.toNat).getD r.source.toNat

def Node.writes (n : Node) : List (Word × List Byte) :=
  (n.params.zip (upTo n.params.length)).map fun x => (n.launch.argBlock + BitVec.ofNat 64 x.2, [x.1])

/-- GRAPH_NODE_QUEUE: the parameters are written and the node is queued; a node that cannot run ends with status 0x0B. -/
def execGraphNodeQueue (r n : Nat) (s : State) : Out1 :=
  run (do
    match s.control.replays.find? fun x => x.id == r with
    | none => notEnabled
    | some x =>
      if !s.supply.up || !s.nodeReady x n then notEnabled
      match x.nodes[n]? with
      | none => notEnabled
      | some node =>
        let l := node.launch
        match s.kernelOf l with
        | none => modify fun s => s.endNode r n 0x0B
        | some (i, k) =>
          if s.launchStatus (s.graphSource x) l ≠ 0 then modify fun s => s.endNode r n 0x0B
          else if ← cpWrite l node.writes then
            modify fun s =>
              let s := s.queueGang l i k (.node r n)
              { s with control := { s.control with replays := s.control.replays.map fun y =>
                  if y.id = r then { y with states := setAt y.states n .queued } else y } }
          else modify fun s => s.endNode r n 0x0B) s

end Sys2Proof.Machine
end

