-- ==== Sys2Proof/Machine/DieReset.lean ====
section
/-! DEFINITION. Warm reset of a compute die: DIE.RESET, the die-control commands and the end of their actions (24 R395 to R399; 18
R319). -/

namespace Sys2Proof.Machine

/-! ## DIE.RESET (24 R397) -/

/-- A hart on a die that has not exited. -/
def Hart.onDie (d : Nat) (h : Hart) : Bool := h.status != .vacant && h.status != .exited && h.ident.die == d

/-- The gangs on the package that have a hart on a die. -/
def State.gangsOn (s : State) (d : Nat) : List (BitVec 32) :=
  (s.control.gangs.filter fun g => (g.state == .resident || g.state == .stopping) && s.harts.any fun h => h.onDie d && h.ident.gangid == g.id).map
    Gang.id

/-- A gang is evicted: its harts stop with no save, and it ends with status 0x09. -/
def State.evict (s : State) (g : BitVec 32) : State :=
  let s := s.mapHarts (Hart.stopNoSave g)
  { s with control := { s.control with gangs := endGang g 0x09 [] s.control.gangs } }

/-- DIE.RESET: the die is closed to dispatch, and its gangs are evicted. -/
def resetDie (m : Msg) : M Answer := do
  let d := leAt m.body 0 1
  if 4 ≤ d || !allZero (m.body.drop 1) then return answer 0x01
  let s ← get
  if !s.control.policy.grantsCommand m.source.toNat 0xA then return answer 0x0D
  let x := dieAt s d
  if x.resetting.isSome then return answer 0x06
  modify fun s =>
    let s := s.setDie d { x with resetting := some (m.source, m.seq), routine := some { pc := 0, s11 := 0, s12 := 0, s13 := 0, s14 := 0 } }
    let s := (s.gangsOn d).foldl State.evict s
    { s with control := { s.control with roots := unbind [x.part.val] s.control.roots } }
  return none

/-! ## Die-control commands (24 R395, R396) -/

/-- A write of DCTL that the routine makes: it starts the command where the state lists it and no action runs, and is ignored
elsewhere. -/
def State.dctl (s : State) (x : Fin 4) (cmd : BitVec 4) (listed : List DieState) : Out1 :=
  let d := s.dies[x]
  if d.resetting.isNone || !s.supply.up then never
  else if d.busy || !listed.contains d.state then .next s
  else .next { s with dies := s.dies.set x { d with cmd := cmd, busy := true } }

/-- DCTL_FENCE. -/
def execDctlFence (x : Fin 4) (s : State) : Out1 := s.dctl x 1 [.run, .failed]
/-- DCTL_QUIESCE. -/
def execDctlQuiesce (x : Fin 4) (s : State) : Out1 := s.dctl x 2 [.fenced]
/-- DCTL_FLUSH. -/
def execDctlFlush (x : Fin 4) (s : State) : Out1 := s.dctl x 3 [.quiesced]
/-- DCTL_SELFREF. -/
def execDctlSelfref (x : Fin 4) (s : State) : Out1 := s.dctl x 4 [.flushed]
/-- DCTL_RESET. -/
def execDctlReset (x : Fin 4) (s : State) : Out1 := s.dctl x 5 [.selfref]
/-- DCTL_TRAIN. -/
def execDctlTrain (x : Fin 4) (s : State) : Out1 := s.dctl x 6 [.reset]
/-- DCTL_ADMIT. -/
def execDctlAdmit (x : Fin 4) (s : State) : Out1 := s.dctl x 7 [.trained]

/-! ## Actions -/

/-- An action ends: the die's registers change together, and its step is logged. -/
def endAction (x : Fin 4) (f : Die → Die) (code value : Nat) : M Unit :=
  modify fun s => ({ s with dies := s.dies.set x { f s.dies[x] with busy := false } }).dieRecord x.val code value

/-- The line is homed on a die of this package. -/
def State.homedOn (s : State) (d line : Nat) : Bool :=
  let pa := line * Config.lineBytes
  paPopulated pa && paPkg pa == s.pkg.val && paDie pa == d

/-- A core of a die of this package. -/
def State.coreOn (s : State) (d key : Nat) : Bool := key / 512 == s.pkg.val && key / 128 % 4 == d

/-- A cache of a die holds the copy. -/
def State.cacheOn (s : State) (d : Nat) : Holder → Bool
  | .scalarL1 core => s.coreOn d core
  | .window id _ _ => s.coreOn d (id / 2)
  | .remote _ => false

/-- A modified line that FLUSH writes: homed on the die, or held on the die and homed elsewhere. -/
def State.flushes (s : State) (d : Nat) (x : DirtyLine) : Bool :=
  s.homedOn d x.line || (match x.holder with
    | some h => s.cacheOn d h
    | none => false)



/-- FLUSH writes one line; whether it was written. -/
def flushLine (d : Nat) (x : DirtyLine) : M Bool := do
  let s ← get
  if s.badLine x.line || s.badHeld x.line then
    lostLine x.line
    return false
  if s.homedOn d x.line then toHbm x.line else toHome x.line
  return true

/-- FLUSH: copies elsewhere of lines homed on the die are recalled, and every modified line is written; one in error is lost. -/
def flushDie (x : Fin 4) : M (Nat × Bool) := do
  modify fun s => s.raiseAll (fun w => s.homedOn x.val (paLine w.pa)) .home
  let s ← get
  let xs := s.dirty.filter (s.flushes x.val)
  let done ← collect (flushLine x.val) xs
  modify fun s => { s with dirty := s.dirty.filter fun l => !s.flushes x.val l
                           copies := s.copies.filter fun l => !s.homedOn x.val l.2
                           lookahead := s.lookahead.filter fun l => !s.homedOn x.val l.2
                           leadL1 := s.leadL1.filter fun l => !s.homedOn x.val l.2 }
  modify fun s => s.mapHarts fun h =>
    { h with engine := h.engine.map fun c => { c with pins := c.pins.filter fun l => !s.homedOn x.val l } }
  return ((done.filter id).length, done.any (· == false))

/-- RESET: what the logic of the die holds. -/
def State.clearDie (s : State) (x : Fin 4) : State :=
  { s with tlb := s.tlb.filter fun t => t.die != x.val
           icache := s.icache.filter fun l => !s.coreOn x.val l.core
           lookahead := s.lookahead.filter fun l => !s.coreOn x.val l.1
           leadL1 := s.leadL1.filter fun l => !s.coreOn x.val l.1
           copies := s.copies.filter fun l => !s.cacheOn x.val l.1
           slices := s.slices.filter fun l => !s.homedOn x.val l
           retained := s.retained.filter fun l => !s.homedOn x.val l
           dirty := s.dirty.filter fun l => !(l.holder.map (s.cacheOn x.val)).getD false
           slice := s.slice.filter fun l => !s.coreOn x.val l.1 }

/-- QUIESCE: the harts of the die stop; requests that are still outstanding are abandoned. -/
def State.quiesce (s : State) (x : Fin 4) : State :=
  let s := s.mapHarts fun h => if h.onDie x.val then h.stopNoSave h.ident.gangid else h
  { s with writes := s.writes.filter fun w => !s.coreOn x.val w.core }

/-- The temperature below which a tripped die may run again, in eighths of a degree (23 R393). -/
def tripClear : Int := 95 * 8

/-- The DIE.RESET of a die ends. -/
def endReset (x : Fin 4) (status : Nat) : M Unit :=
  modify fun s =>
    let d := s.dies[x]
    let s' := { s with dies := s.dies.set x { d with resetting := none } }
    match d.resetting with
    | none => s'
    | some (source, seq) => s'.finishCommand source seq status []

/-- A die that a reset has brought back: its partition's stop and its trip are over, but not above 95 °C (23 R393). -/
def Die.reopen (d : Die) : Die :=
  if d.tripped && decide (tripClear ≤ d.temp) then d else { d with closed := false, tripped := false }

/-- The end of the action of the command that runs. -/
def actionEnd (x : Fin 4) (fail : Bool) (d : Die) : M Unit :=
  match d.cmd.toNat with
  | 1 => endAction x (fun d => { d with state := .fenced, ue := false, stray := 0, strayLogged := false }) 0x201 0
  | 2 => do
    modify fun s => s.quiesce x
    endAction x (fun d => { d with state := .quiesced }) 0x202 0
  | 3 => do
    let (n, bad) ← flushDie x
    let n := min n 0xFFFFFF
    endAction x (fun d => { d with state := .flushed, wblines := BitVec.ofNat 24 n, ue := d.ue || bad }) 0x203 n
  | 4 => endAction x (fun d => { d with state := .selfref }) 0x204 0
  | 5 => do
    modify fun s => s.clearDie x
    endAction x (fun d => { d with state := .reset }) 0x205 0
  | 6 =>
    if fail then endAction x (fun d => { d with state := .failed }) 0x206 1
    else endAction x (fun d => { d with state := .trained }) 0x206 0
  | 7 => endAction x (fun d => { d with state := .run }) 0x207 d.stray.toNat
  | _ => notEnabled

/-- A store homed on the die waits in a store buffer.  FENCE ends after such stores have been accepted, so that none of them meets the
fence (log 83). -/
def State.heldFor (s : State) (d : Nat) : Bool := s.heldStore fun w => s.homedOn d (paLine w.pa)

/-- DIE_ACTION_COMPLETE; only TRAIN can fail (24 R396). -/
def execDieActionComplete (x : Fin 4) (f : Bool) (s : State) : Out1 :=
  run (do
    let d := s.dies[x]
    if !d.busy || (f && d.cmd != 6) || (d.cmd == 1 && s.heldFor x.val) then notEnabled
    actionEnd x f d) s

/-! ## The die-control registers and the routine of the control processor (24 R395, R397) -/

/-- STATE of DSTAT. -/
def DieState.code : DieState → Nat
  | .run => 0 | .fenced => 1 | .quiesced => 2 | .flushed => 3 | .selfref => 4 | .reset => 5 | .trained => 6 | .failed => 15

/-- DCTL and DSTAT as the control processor reads them. -/
def Die.dctl (d : Die) : Word := d.cmd.zeroExtend 64
def Die.dstat (d : Die) : Word :=
  BitVec.ofNat 64 (bit d.busy * 2 ^ 63 + bit d.ue * 2 ^ 62 + d.stray.toNat * 2 ^ 32 + d.wblines.toNat * 2 ^ 8 + d.state.code)

/-- PRDSR on the control processor: the registers of die d have the indices 0x300 + 16d and 0x301 + 16d. -/
def State.cpRead (s : State) (index : Nat) : Option Word :=
  if 0x300 ≤ index && index < 0x340 then
    match index % 16 with
    | 0 => some (dieAt s ((index - 0x300) / 16)).dctl
    | 1 => some (dieAt s ((index - 0x300) / 16)).dstat
    | _ => none
  else none

/-- PWRSR of DCTL of a die: the command of the value, if it is one. -/
def State.cpWrite (s : State) (x : Fin 4) (v : Word) : Out1 :=
  match v.toNat % 16 with
  | 1 => execDctlFence x s
  | 2 => execDctlQuiesce x s
  | 3 => execDctlFlush x s
  | 4 => execDctlSelfref x s
  | 5 => execDctlReset x s
  | 6 => execDctlTrain x s
  | 7 => execDctlAdmit x s
  | _ => .next s

/-- An instruction of the routine other than its PWRSR and its JR, by its offset. -/
def Routine.run (r : Routine) (dstat : Word) : Routine :=
  match r.pc with
  | 0x00 => { r with s11 := 1, pc := 0x04 }
  | 0x04 => { r with s14 := 7, pc := 0x08 }
  | 0x0C => { r with s12 := dstat, pc := 0x10 }
  | 0x10 => { r with pc := if r.s12.msb then 0x0C else 0x14 }
  | 0x14 => { r with s13 := r.s12 &&& 15, pc := 0x18 }
  | 0x18 => { r with pc := if r.s11 = r.s14 then 0x2C else 0x1C }
  | 0x1C => { r with s13 := r.s13 - r.s11, pc := 0x20 }
  | 0x20 => { r with pc := if r.s13 = 0 then 0x24 else 0x2C }
  | 0x24 => { r with s11 := r.s11 + 1, pc := 0x28 }
  | _ => { r with pc := 0x08 }

/-- A state with a die's routine at another place. -/
def State.setRoutine (s : State) (x : Fin 4) (r : Option Routine) : State := { s with dies := s.dies.set x { s.dies[x] with routine := r } }

/-- The routine has returned: the DIE.RESET completes, and a die that is admitted again may take gangs (24 R397). -/
def routineEnd (x : Fin 4) (r : Routine) : M Unit := do
  modify fun s => s.setRoutine x none
  let d := (← get).dies[x]
  if d.state = .failed then modify fun s => s.stopPartition d.part.val
  if r.s13 = 0 && !d.ue then
    modify fun s => { s with dies := s.dies.set x d.reopen }
    endReset x 0
  else endReset x 0x0A
  modify fun s => { s with control := { s.control with round := true } }

/-- The next instruction of a die's routine. -/
def runRoutine (x : Fin 4) (s : State) : Out1 :=
  let d := s.dies[x]
  match d.routine with
  | none => .fault .eventNotEnabled
  | some r =>
    if !s.supply.up then .fault .eventNotEnabled
    else if r.pc = 0x08 then (s.setRoutine x (some { r with pc := 0x0C })).cpWrite x r.s11
    else if r.pc = 0x2C then run (routineEnd x r) s
    else .next (s.setRoutine x (some (r.run ((s.cpRead (0x301 + 16 * x.val)).getD 0))))

end Sys2Proof.Machine
end

