-- ==== Sys2Proof/Machine/Commands.lean ====
section
/-! DEFINITION. The acceptance of command messages, the twelve commands, and completion messages (20 R339 to R342; 23 R381, R387). -/

namespace Sys2Proof.Machine

/-! ## Acceptance (20 R340) -/

/-- The body lengths that fit each command (20 R342, R353, R355); GRAPH.DEFINE checks its own. -/
def lengthFits (code len : Nat) : Bool :=
  match code with
  | 1 | 0xB | 0xC => len == 16
  | 2 | 5 | 8 | 9 | 0xA => len == 8
  | 3 => len == 128
  | 4 => true
  | 6 => decide (24 ≤ len) && decide (len ≤ 272)
  | 7 => len == 0
  | _ => false

/-- A message is well-formed: a known opcode, reserved bytes zero, and a LENGTH that fits its body (20 R339, R340). -/
def messageOk (m : Msg) : Bool :=
  m.zero == 0 && m.length.toNat == m.body.length && m.body.length % 8 == 0 && decide (m.body.length ≤ 0x10000)
    && lengthFits m.opcode.toNat m.body.length

/-- What a command does at acceptance. -/
def commandBody (m : Msg) : M Answer :=
  match m.opcode.toNat with
  | 1 => loadImage m
  | 2 => dropImage m
  | 3 => launchGang m
  | 4 => defineGraph m
  | 5 => replayGraph m
  | 6 => patchGraph m
  | 7 => startSync m
  | 8 => queryGang m
  | 9 => setPartitions m
  | 0xA => resetDie m
  | 0xB => attest m
  | 0xC => loadPolicy m
  | _ => pure (answer 0x01)

/-- The expected SEQ of a source: 0 where none has been accepted. -/
def expectedSeq (src : BitVec 16) : List (BitVec 16 × Word) → Word
  | [] => 0
  | (x, n) :: r => if x = src then n else expectedSeq src r
def setExpected (src : BitVec 16) (n : Word) (l : List (BitVec 16 × Word)) : List (BitVec 16 × Word) :=
  (src, n) :: l.filter fun x => x.1 ≠ src

/-- A message is accepted: its command joins the books. -/
def State.enterCommand (s : State) (m : Msg) : State :=
  let c := s.control
  { s with control := { c with expected := setExpected m.source (m.seq + 1) c.expected
                               commands := c.commands ++ [{ opcode := m.opcode, source := m.source, seq := m.seq, done := none, policy := none }] } }

/-- A malformed message; where it is a GRAPH.DEFINE, the open definition of its id goes (20 R353). -/
def malformed (m : Msg) : M Answer := do
  if m.opcode = 4 then discardGraph m
  return answer 0x01

/-- Take a message: the sequence first, then its form, then the command; after a failed boot each is refused (23 R381). -/
def takeMessage (m : Msg) : M Unit := do
  let s ← get
  if m.seq ≠ expectedSeq m.source s.control.expected then set (s.complete m.opcode m.source m.seq 0x0E [])
  else
    set (s.enterCommand m)
    let a ← if s.supply.failed.isSome then pure (answer 0x0D)
      else if !messageOk m then malformed m
      else commandBody m
    match a with
    | none => pure ()
    | some (st, r) => modify fun s => s.finishCommand m.source m.seq st r

/-- The commands of a source that are accepted and not completed. -/
def State.outstanding (s : State) (src : BitVec 16) : Nat := (s.control.commands.filter fun c => c.source == src).length

/-- A write of the source that came before the first message that the link would hold has not performed (20 R340). -/
def State.writesFirst (s : State) (src : BitVec 16) : Bool := s.transfers.any fun x => x.write && x.behind == 0 && x.req.source == src

/-- The link holds the messages of a source with 256 commands outstanding or with a write on its way, in their order. -/
def State.mustHold (s : State) (src : BitVec 16) : Bool :=
  decide (Config.commandsPerSource ≤ s.outstanding src) || s.writesFirst src || s.control.held.any fun x => x.source == src

/-- A message arrives. -/
def arriveMessage (m : Msg) : M Unit := do
  let s ← get
  if !s.supply.up || !isCommander m.source.toNat || !s.linked m.source.toNat then notEnabled
  if s.mustHold m.source then set { s with control := { s.control with held := s.control.held ++ [m] } }
  else takeMessage m

/-- A code of R342. -/
def knownCode (c : Nat) : Bool := decide (1 ≤ c) && decide (c ≤ 0xC)

/-- The arrival of a message with a command's code; one with no known code is answered as malformed. -/
def deliver (code : Nat) (m : Msg) (s : State) : Out1 :=
  if m.opcode.toNat = code || !knownCode m.opcode.toNat then run (arriveMessage m) s else never

/-! ## The commands (20 R342) -/

/-- IMAGE.LOAD. -/
def execImageLoad (m : Msg) (s : State) : Out1 := deliver 1 m s
/-- IMAGE.DROP. -/
def execImageDrop (m : Msg) (s : State) : Out1 := deliver 2 m s
/-- LAUNCH. -/
def execLaunch (m : Msg) (s : State) : Out1 := deliver 3 m s
/-- GRAPH.DEFINE. -/
def execGraphDefine (m : Msg) (s : State) : Out1 := deliver 4 m s
/-- GRAPH.REPLAY. -/
def execGraphReplay (m : Msg) (s : State) : Out1 := deliver 5 m s
/-- GRAPH.PATCH. -/
def execGraphPatch (m : Msg) (s : State) : Out1 := deliver 6 m s
/-- SYNC. -/
def execSync (m : Msg) (s : State) : Out1 := deliver 7 m s
/-- QUERY. -/
def execQuery (m : Msg) (s : State) : Out1 := deliver 8 m s
/-- PARTITION.SET. -/
def execPartitionSet (m : Msg) (s : State) : Out1 := deliver 9 m s
/-- DIE.RESET; with the main supply down the side band's is refused, with no effect (22 R380). -/
def execDieReset (m : Msg) (s : State) : Out1 :=
  if !s.supply.up && m.source.toNat = sideBandSource then .next s else deliver 0xA m s
/-- ATTEST. -/
def execAttest (m : Msg) (s : State) : Out1 := deliver 0xB m s
/-- POLICY.LOAD. -/
def execPolicyLoad (m : Msg) (s : State) : Out1 := deliver 0xC m s

/-! ## COMPLETION_MESSAGE (20 R341) -/

/-- Every command of a source before the n-th has completed, or is a SYNC; a POLICY.LOAD completes when its policy takes over, and then is in
the list no more. -/
def State.allBefore (s : State) (n : Nat) (src : BitVec 16) : Bool :=
  (s.control.commands.take n).all fun c => c.source != src || (c.done.isSome && c.policy.isNone) || c.opcode == 7

/-- The status and RESULT that a command completes with now. -/
def State.statusOf (s : State) (n : Nat) (c : Command) : Option (Nat × List Byte) :=
  match c.done with
  | some d => some d
  | none => if c.opcode = 7 && s.allBefore n c.source then some (0, []) else none

/-- A message of a source leaves the link: one fewer stands before its transfers. -/
def State.unhold (s : State) (m : Msg) : State :=
  { s with control := { s.control with held := s.control.held.erase m }
           transfers := s.transfers.map fun x => if x.req.source = m.source then { x with behind := x.behind - 1 } else x }

/-- Messages held of a source are taken while it has room and its earlier writes have performed; `n` are looked at. -/
def takeHeld (src : BitVec 16) : Nat → M Unit
  | 0 => pure ()
  | n + 1 => do
    let s ← get
    if s.outstanding src < Config.commandsPerSource && !s.writesFirst src then
      match s.control.held.find? fun x => x.source == src with
      | none => pure ()
      | some m =>
        set (s.unhold m)
        takeMessage m
        takeHeld src n

/-- The status of a loaded policy as it is to take over: no gang has come since, and the minimum has not risen above it (23 R387). -/
def State.policyStatus (s : State) (p : Policy) : Nat :=
  if p.version < s.supply.minimum then 0x0D else if s.control.gangs = [] then 0 else 0x06

/-- What a command completes with, and the state in which its policy governs. -/
def State.takeOver (s : State) (c : Command) (st : Nat) : Nat × State :=
  match c.policy with
  | none => (st, s)
  | some (p, on) =>
    if s.policyStatus p = 0 then (st, { s with supply := s.supply.burn on p.version, control := { s.control with policy := p } })
    else (s.policyStatus p, s)

/-- The link delivers what it holds of the source of its n-th message. -/
def deliverHeld (n : Nat) (s : State) : Out1 :=
  match s.control.held[n]? with
  | none => never
  | some m => run (takeHeld m.source s.control.held.length) s

/-- COMPLETION_MESSAGE of the n-th command: it is sent, a loaded policy takes over, and messages held may be accepted. -/
def execCompletionMessage (n : Nat) (s : State) : Out1 :=
  run (do
    match s.control.commands[n]? with
    | none => notEnabled
    | some c =>
      match s.statusOf n c with
      | none => notEnabled
      | some (st, r) =>
        let (st, s) := s.takeOver c st
        let s := s.complete c.opcode c.source c.seq st r
        set { s with control := { s.control with commands := s.control.commands.eraseIdx n } }
        takeHeld c.source s.control.held.length) s

end Sys2Proof.Machine
end

