-- ==== Sys2Proof/Machine/Links.lean ====
section
/-! DEFINITION. The hub's ports, host accesses and requests from other packages (22 R371, R374 to R378; 21 R365; 11 R260; 04 R91). -/

namespace Sys2Proof.Machine

/-! ## Ports (22 R371, R374 to R376) -/

/-- The lanes a port trains with (22 R374). -/
def trainedLanes (n : Nat) : BitVec 8 := if 16 ≤ n then 16 else if 8 ≤ n then 8 else 0

/-- A port as a training with a number of good lanes leaves it. -/
def Port.train (p : Port) (host : Bool) (n : Nat) (far : Fin 8) : Port :=
  if n < 8 then p else { p with up := true, lanes := trainedLanes n, far := if host then 0 else BitVec.ofNat 8 far.val }

/-- PORT_UP. -/
def execPortUp (x : Fin 9) (n : Nat) (far : Fin 8) (s : State) : Out1 :=
  if s.ports[x].up || !s.supply.up then never else .next { s with ports := s.ports.set x (s.ports[x].train (x == 0) n far) }

/-- A gang whose barrier flits may travel on a port: it has barriers and harts in the far package. -/
def Gang.usesPort (g : Gang) (p : Port) : Bool := g.launch.barriers != 0 && g.cores.any fun c => idPkg c == p.far.toNat

/-- A gang that loses a barrier flit ends: its harts stop with no save (22 R376). -/
def State.loseFlit (s : State) (p : Port) (g : BitVec 32) : State :=
  match s.findGang g with
  | none => s
  | some x =>
    if (x.state == .resident || x.state == .stopping) && x.usesPort p then
      let s := s.mapHarts (Hart.stopNoSave g)
      { s with control := { s.control with gangs := endGang g 0x0F [] s.control.gangs } }
    else s

/-- PORT_DOWN; `lost` names the gangs of which a barrier flit is lost.  With the host port, transfers end where they are.  A port goes down
after the stores in store buffers that it carries have been accepted, so that none of them fails after its instruction (log 84). -/
def execPortDown (x : Fin 9) (lost : List (BitVec 32)) (s : State) : Out1 :=
  let p := s.ports[x]
  if !p.up || s.heldStore (fun w => paPkg w.pa != s.pkg.val && s.portFor w.pa == some x) then never
  else
    let s' := { s with ports := s.ports.set x { p with up := false, lanes := 0 } }
    .next (if x = 0 then { s' with transfers := [] } else lost.foldl (fun s g => s.loseFlit p g) s')

/-- LINK_FLIT_RETRY: RETRY counts to 0xFFFF (22 R374). -/
def execLinkFlitRetry (x : Fin 9) (s : State) : Out1 :=
  let p := s.ports[x]
  if !p.up then never
  else .next { s with ports := s.ports.set x { p with retry := if p.retry = 0xFFFF then p.retry else p.retry + 1 } }

/-- PORTSTAT_READ: the value is returned and RETRY is cleared. -/
def execPortstatRead (x : Fin 9) (s : State) : Out1 := .next ((s.clearRetry x).emit (.portValue x s.ports[x].value))

/-! ## Host accesses (21 R365; 05 R122) -/

/-- The aligned 8-byte units of a transfer, as virtual address and number of bytes. -/
def unitsOf (va n : Nat) : List (Word × Nat) :=
  if n = 0 then []
  else (upTo ((va + n - 1) / 8 - va / 8 + 1)).map fun i =>
    let u := 8 * (va / 8 + i)
    (BitVec.ofNat 64 (max va u), min (va + n) (u + 8) - max va u)

/-- The root bound for a partition and an ASID. -/
def State.boundRoot (s : State) (part : Nat) (asid : BitVec 16) : Option (BitVec 36) :=
  (s.control.roots.find? fun r => r.part == part && r.asid == asid).map BoundRoot.root

/-- The context of a host access, where the source is granted the partition and the ASID has a root. -/
def State.hostCtx (s : State) (r : HostReq) : Option Ctx :=
  if s.control.policy.grantsPart r.source.toNat r.partition.val then
    (s.boundRoot r.partition.val r.asid).map fun root =>
      { root := root.toNat * 65536, asid := r.asid, part := r.partition.val, sup := false, die := 4, core := none, view := .home }
  else none

/-- The kind rule of a host read: no DEV page, and a cell page only for its read width at a cell base (11 R260). -/
def hostReadKind (whole : Nat) (p : Place) : Option Cause := notDev (loadKind whole) p
def hostWriteKind (p : Place) : Option Cause := notDev storeKind p

/-- One unit of a host read. -/
def hostReadUnit (c : Ctx) (whole : Nat) (u : Word × Nat) : M (List Byte) := do
  let p ← translate c Needs.load (hostReadKind whole) 1 u.1
  if p.kind < 2 then
    reply c false p.pa u.1
    wholeData p.pa u.2 u.1
    recallLine none (paLine p.pa)
    atSlice .normal (paLine p.pa)
    return Memory.readBytes (← get).mem p.pa u.2
  else return leBytes u.2 (← convertCell c p u.1).1

/-- One unit of a host write. -/
def hostWriteUnit (c : Ctx) (u : Word × Nat) (bs : List Byte) : M Unit := do
  let p ← translate c Needs.store hostWriteKind 1 u.1
  reply c false p.pa u.1
  wholeUnits p.pa u.2 u.1
  recallLine none (paLine p.pa)
  homeWrite p.pa u.1 fun s => s.perform none none p.pa bs

/-- The answer of an attempt. -/
def succeeded {α : Type} : Except Trap α → Option α
  | .ok a => some a
  | .error _ => none

/-- The answer of an attempt, with an uncorrectable error that it met in the log (18 R318, R320). -/
def attemptLogged {α : Type} (m : M α) : M (Except Trap α) := do
  let r ← attempt m
  match r with
  | .ok _ => pure ()
  | .error t => modify fun s => s.logTrap t
  return r

/-- One unit of a transfer: what a read gave. -/
def transferUnit (x : Transfer) (u : Word × Nat) : M (Except Trap (List Byte)) := do
  match (← get).hostCtx x.req with
  | none => return .error (Trap.of .busError u.1)
  | some c =>
    if x.write then
      return (← attemptLogged (hostWriteUnit c u ((x.req.data.drop (u.1 - x.req.va).toNat).take u.2))).map fun _ => []
    else attemptLogged (hostReadUnit c x.req.n u)

/-- A transfer after one of its units. -/
def Transfer.after (x : Transfer) (u : Word × Nat) (r : Except Trap (List Byte)) : Transfer :=
  match r with
  | .ok bs => { x with todo := x.todo.erase u, got := (u.1, bs) :: x.got }
  | .error _ => { x with todo := x.todo.erase u, failed := true }

/-- The bytes that a read gave, in the order of its units. -/
def Transfer.data (x : Transfer) : List Byte :=
  (unitsOf x.req.va.toNat x.req.n).flatMap fun u => ((x.got.find? fun y => y.1 == u.1).map Prod.snd).getD []

/-- The reply to a transfer whose units are all made: one error reply and no data if any unit failed (21 R365). -/
def State.transferReply (s : State) (x : Transfer) : State :=
  s.emit (.hostReply x.req.source x.failed (if x.failed then [] else x.data))

/-- The units of a transfer in turn. -/
def runTransfer : List (Word × Nat) → Transfer → M Transfer
  | [], x => pure x
  | u :: us, x => do
    let r ← transferUnit x u
    runTransfer us (x.after u r)

/-- A host access with the host port up.  One of a single unit is made at once; the units of a longer transfer are made one by one, in any
order, and an access waits for the transfers of its source before it (05 R122). -/
def hostAccess (write : Bool) (r : HostReq) : M Unit := do
  let s ← get
  if !s.supply.up || !s.ports[0].up || 256 ≤ r.source.toNat then notEnabled
  let us := unitsOf r.va.toNat r.n
  let x : Transfer := { behind := (s.control.held.filter fun m => m.source == r.source).length, write := write, req := r, todo := us, got := [], failed := (s.hostCtx r).isNone }
  if x.failed then modify fun s => s.transferReply x
  else if us.length ≤ 1 && !s.transfers.any (fun y => y.req.source == r.source) then
    let y ← runTransfer us x
    modify fun s => s.transferReply y
  else set { s with transfers := s.transfers ++ [x] }

/-- HOST_READ: if any unit fails, one error reply and no data. -/
def execHostRead (r : HostReq) (s : State) : Out1 := run (hostAccess false r) s

/-- HOST_WRITE: every unit that passes its checks performs. -/
def execHostWrite (r : HostReq) (s : State) : Out1 := run (hostAccess true r) s

/-- The n-th unit that is left of transfer `t` is made, where no write of its source before it is left; the reply follows the last. -/
def hostUnit (t n : Nat) (s : State) : Out1 :=
  run (do
    match s.transfers[t]? with
    | none => notEnabled
    | some x =>
      if (s.transfers.take t).any (fun y => y.write && y.req.source == x.req.source) then notEnabled
      let y ← match x.todo[n]? with
        | none => if x.todo.isEmpty then pure x else notEnabled
        | some u => do
          let r ← transferUnit x u
          pure (x.after u r)
      modify fun s =>
        if y.todo.isEmpty then { s with transfers := s.transfers.eraseIdx t }.transferReply y
        else { s with transfers := setAt s.transfers t y }) s

/-! ## Requests from other packages (04 R91; 21 R369; 22 R378) -/

/-- The home answers a request of another package: both policies give the two partitions the same domain tag. -/
def State.peerOk (s : State) (r : PeerReq) : Bool :=
  let d := dieAt s (paDie r.pa)
  let c : Ctx := { root := 0, asid := 0, part := d.part.val, sup := false, die := 4, core := none, view := .home }
  paPopulated r.pa && paPkg r.pa == s.pkg.val && s.members.contains r.pkg && r.pkg != s.pkg
    && s.control.policy.tags.getD d.part.val 0 == r.tag && s.reaches c false r.pa

/-- The cell at an address, and whether a value format is CELL64's. -/
def cellWide : CellFmt → Bool
  | .f64 => true
  | _ => false

/-- The new value of a read-modify-write of `n` bytes. -/
def peerNew (o : PeerRmw) (n old x : Nat) : Nat :=
  match o with
  | .add => amoAdd (8 * n) old x
  | .and => old &&& x
  | .or => old ||| x
  | .xor => old ^^^ x
  | .min => amoMin (8 * n) old x
  | .max => amoMax (8 * n) old x
  | .minu => Nat.min old x
  | .maxu => Nat.max old x
  | .swap => x
  | .cas e => if old = e.toNat % 2 ^ (8 * n) then x else old
  | .fadd => (fpAdd (if n = 4 then .fp32 else .fp64) .rne old x).1

/-- The cell that a request names. -/
def peerCell (pa : Nat) : M (List Byte) := do
  wholeData pa 64 (BitVec.ofNat 64 pa)
  recallLine none (paLine pa)
  return Memory.readBytes (← get).mem pa 64

/-- What a request does at the home slice; its answer.  A read gives the other package a copy of the line, which the home records
(04 R91). -/
def peerAccess (r : PeerReq) : M (List Byte) := do
  let va := BitVec.ofNat 64 r.pa
  let x := leNat (r.data.take r.n)
  match r.op with
  | .read => do
    wholeData r.pa r.n va
    recallLine (some (.remote r.pkg.val)) (paLine r.pa)
    install .normal (.remote r.pkg.val) (paLine r.pa)
    return Memory.readBytes (← get).mem r.pa r.n
  | .write => do
    wholeUnits r.pa r.n va
    recallLine none (paLine r.pa)
    modify fun s => s.perform none none r.pa (r.data.take r.n)
    return []
  | .rmw o => do
    wholeData r.pa r.n va
    recallLine none (paLine r.pa)
    let old := Memory.read (← get).mem r.pa r.n
    modify fun s => s.perform none none r.pa (leBytes r.n (peerNew o r.n old x))
    return leBytes r.n old
  | .cellAdd f e0 => do
    let bs ← peerCell r.pa
    modify fun s => s.perform none none r.pa (cellAdded bs f (cellWide f) e0 x)
    return []
  | .cellRead f e0 => do
    let c := Cell.ofBytes (← peerCell r.pa)
    return leBytes r.n (c.read (cellWide f) (if (cellWide f) then e0 else -149)).1
  | .tlbInv ctl base len => do
    if (← get).buffered ctl then notEnabled
    let x := pageRange base len
    invalidateRange ctl x.1 x.2
    return []

/-- The request is a TLBINV of a member of the domain, which goes to no home. -/
def State.peerTlbInv (s : State) (r : PeerReq) : Bool :=
  (match r.op with
    | .tlbInv .. => true
    | .read | .write | .rmw _ | .cellAdd .. | .cellRead .. => false) && s.members.contains r.pkg && r.pkg != s.pkg

/-- PEER_REQUEST. -/
def execPeerRequest (r : PeerReq) (s : State) : Out1 :=
  run (do
    if !s.supply.up || !s.portTo r.pkg.val then notEnabled
    let x ← if s.peerTlbInv r || s.peerOk r then attemptLogged (do
        modify fun s => s.asked .peer (r.pa / 64 * 64) 64
        peerAccess r)
      else do
        modify fun s => s.noteReply r.pa
        pure (.error (Trap.of .busError 0))
    modify fun s => s.emit (.peerReply r.pkg (succeeded x).isNone ((succeeded x).getD []))) s

end Sys2Proof.Machine
end

