-- ==== Sys2Proof/Machine/Power.lean ====
section
/-! DEFINITION. The supply and the boot, the power controller, heat, and the side band (23 R381, R389 to R393; 22 R375, R379, R380). -/

namespace Sys2Proof.Machine

/-! ## Power (23 R389 to R391) -/

/-- PS in watts: the least of the policy's limit and the side band's. -/
def State.sustained (s : State) : Nat :=
  match s.power.side with
  | some w => min s.control.policy.watts w
  | none => s.control.policy.watts

def kettleFull : Nat := 3000000

/-- The limit in tenths of a watt for an energy in millijoules. -/
def powerLimit (energy ps : Nat) : Nat := if energy = 0 then 10 * ps else min (12 * ps) 48000

/-- KETTLE_UPDATE, with the mean power over the millisecond in watts. -/
def execKettleUpdate (p : Nat) (s : State) : Out1 :=
  if !s.supply.up then never
  else
    let ps := s.sustained
    let e := min kettleFull (s.power.kettle + ps - p)
    .next { s with power := { s.power with kettle := e, limit := powerLimit e ps, watts := p } }

/-- VOLTAGE_UPDATE. -/
def execVoltageUpdate (s : State) : Out1 :=
  if !s.supply.up then never
  else .next { s with dies := s.dies.mapIdx Die.booted }

/-- The step of a core after one update: down by one while power or heat asks for it, up by one while neither does (23 R390, R393). -/
def capNext (hot : Bool) (d : Die) (step : Nat) : Nat :=
  if hot || decide (105 * 8 < d.temp) then min 6 (step + 1) else step - 1

/-- The number of a core of this package. -/
def State.coreKey (s : State) (d c : Nat) : Nat := s.pkg.val * 512 + d * 128 + c

/-- CAP_STEP, with the measured package power in watts. -/
def execCapStep (p : Nat) (s : State) : Out1 :=
  if !s.supply.up then never
  else
    let hot := decide (s.power.limit < 10 * p)
    let steps := dieNumbers.flatMap fun d => (upTo Config.coresPerDie).filterMap fun c =>
      let n := capNext hot (dieAt s d) (s.capStep (s.coreKey d c))
      if n = 0 then none else some (s.coreKey d c, n)
    let s' := { s with power := { s.power with steps := steps, watts := p } }
    .next (s'.mapHarts fun h =>
      if h.resident then { h with shape := { h.shape with width := s'.widthFor h h.shape.split } } else h)

/-! ## Lanes (01 R21) -/

/-- The widest cap under which a strip of a hart that is still open at the trail was granted: its own, or one of the instructions in its
queue. -/
def Hart.openWidth (h : Hart) : Nat := h.queue.foldl (fun n e => max n e.front.shape.granted) h.shape.granted

/-- The width of the lanes of a core that have power: those of its cap, and those of every strip that is open on one of its harts.  The
rest are gated. -/
def State.poweredWidth (s : State) (core : Nat) (split : Bool) : Nat :=
  s.harts.foldl (fun n h => if h.resident && h.ident.coreKey == core then max n h.openWidth else n) (capWidth (s.capStep core) split)

/-! ## Heat (23 R392, R393) -/

/-- The band of a temperature in eighths of a degree: below 95, 105, 110 °C, or not. -/
def heatBand (t : Int) : Nat := if t < 95 * 8 then 0 else if t < 105 * 8 then 1 else if t < 110 * 8 then 2 else 3

/-- Records of a die whose codes and values the manual leaves open (log 26). -/
def openRecords (d : Nat) : Nat → M Unit
  | 0 => pure ()
  | n + 1 => do
    let code ← freshNat
    let value ← freshNat
    modify fun s => s.dieRecord d code value
    openRecords d n

/-- Readings of the 64 sensors of a die whose hottest reads `c`: which one that is, and how much less the others read, is open (log 26). -/
def sensorsAt (fresh : Nat) (c : Int) : List Int :=
  (upTo 64).map fun i => if i = Config.freeNat fresh % 64 then c else c - (Config.freeNat (fresh + 1 + i) : Int)

/-- TEMPERATURE_CROSSING: the hottest sensor of a die reads `c`; a record is sent for each threshold crossed. -/
def execTemperatureCrossing (x : Fin 4) (c : Int) (s : State) : Out1 :=
  run (do
    if !s.supply.up then notEnabled
    let d := s.dies[x]
    let band := heatBand c
    set { s with dies := s.dies.set x { d with temp := c, sensors := sensorsAt s.fresh c, band := band }, fresh := s.fresh + 65 }
    openRecords x.val (max band d.band - min band d.band)) s

/-- THERMAL_TRIP. -/
def execThermalTrip (x : Fin 4) (s : State) : Out1 :=
  let d := s.dies[x]
  if !s.supply.up || d.tripped || decide (d.temp < 120 * 8) then never
  else .next ({ s with dies := s.dies.set x { d with tripped := true } }.stopPartition d.part.val)

/-! ## The supply (23 R381) -/

/-- The policy that boot step 3 loads: the default where the flash holds none, none where the flash's does not verify. -/
def bootPolicy (minimum : Nat) : Option (List Byte) → Option Policy
  | none => some Policy.default
  | some b =>
    match checkObject b 2 b.length ownerKeys with
    | .error _ => none
    | .ok (whole, body) => (Policy.parse body (Config.sha384 whole)).filter fun p => decide (minimum ≤ p.version.toNat)

/-- The fused minimum after the boot policy has loaded. -/
def bootMinimum (x : Supply) : Option (List Byte) → Supply
  | none => x
  | some b =>
    let body := (b.drop 0x80).take (leAt b 8 8)
    x.burn (leAt body 5 1 == 1) (BitVec.ofNat 32 (leAt body 0 4))

/-- The ports as boot trains them. -/
def trainPorts (ts : List PortTrain) (ps : Vector Port 9) : Vector Port 9 :=
  ts.foldl (fun ps t => ps.set t.port (ps[t.port].train (t.port == 0) t.lanes t.far)) ps

/-- The package numbers at the far ends of the peer ports that are up. -/
def farNumbers (ps : Vector Port 9) : List (Fin 8) := distinct ((ps.toList.tail.filter Port.up).map fun p => Fin.ofNat 8 p.far.toNat)

/-- The supply as the state of a package that has been off: what the management controller, the fuses and the sensors keep. -/
def State.offState (s : State) : State :=
  { State.reset with
    dies := s.dies.map fun d => { Die.reset with temp := d.temp, sensors := d.sensors, band := d.band, rails := [] }
    supply := { up := false, failed := none, rom := s.supply.rom, minimum := s.supply.minimum }
    power := { State.reset.power with side := s.power.side, watts := s.power.watts, hub := s.power.hub }
    eventLog := s.eventLog, outbox := s.outbox, inputs := s.inputs, choices := s.choices, fresh := s.fresh, tick := s.tick, idle := s.idle, turn := s.turn }

/-- A record of the control processor, to the host and to the management controller; its code is open (log 26). -/
def bootRecord (value : Nat) : M Unit := do
  let code ← freshNat
  modify fun s =>
    let m := message 0x4001 0x2000 s.control.seq (recordBody code value)
    { s.controlRecord 0x4001 (recordBody code value) with eventLog := keepLog s.eventLog m }

/-- The management controller logs a step that failed; the cause is open (log 26). -/
def logFailure (step : Nat) : M Unit := do
  let cause ← freshNat
  modify fun s =>
    { s with supply := { s.supply with failed := some step }
             eventLog := keepLog s.eventLog (message 0x4001 sideBandSource 0 (recordBody step cause)) }

/-- Form the domain (22 R375): a number that appears twice or a missing pair leaves it unformed; the pairs of other members are
free. -/
def formDomain : M Unit := do
  let s ← get
  let fars := farNumbers s.ports
  if fars ≠ [] then
    let ok ← if fars.contains s.pkg then pure false else freshBit
    if ok then set { s with members := s.pkg :: fars }
    else
      set { s with pkg := 0, members := [0] }
      bootRecord 0

/-- The boot step that fails, of those that the manual lists, if one does: as it is told, or step 3 where the flash's policy does not
verify. -/
def failingStep (b : BootInput) (p : Option Policy) : Option Nat :=
  match b.failStep with
  | some n => if p.isNone && 3 ≤ n then some 3 else some n
  | none => if p.isNone then some 3 else none

/-- Step 3 is done: its policy is in force, and its package number. -/
def bootPolicyStep (b : BootInput) (p : Policy) : M Unit := do
  modify fun s =>
    { s with supply := bootMinimum { s.supply with rom := b.romVersion } b.flash, pkg := Fin.ofNat 8 p.pkg, members := [Fin.ofNat 8 p.pkg]
             control := { s.control with policy := p } }
  modify fun s => { s with power := { s.power with kettle := kettleFull, limit := powerLimit kettleFull s.sustained } }

/-- Step 4 is done: the dies run, at the voltages of their temperatures. -/
def bootDies : M Unit := modify fun s => { s with dies := s.dies.mapIdx Die.booted }

/-- Step 5 is done: the peer ports are trained and the domain is formed. -/
def bootPeers (b : BootInput) : M Unit := do
  modify fun s => { s with ports := trainPorts (b.ports.filter fun t => t.port != 0) s.ports }
  formDomain

/-- The host port as it trains (step 6); a package whose boot has stopped answers host commands through it. -/
def bootHostPort (b : BootInput) : M Unit := modify fun s => { s with ports := trainPorts (b.ports.filter fun t => t.port == 0) s.ports }

/-- The boot steps of a package that has the supply, up to the one that fails (23 R381): what the steps before it did stays done. -/
def bootSteps (b : BootInput) (p : Option Policy) : M Unit := do
  let last := (failingStep b p).getD 7
  match p with
  | some p => if 3 < last then bootPolicyStep b p
  | none => pure ()
  if 4 < last then bootDies
  if 5 < last then bootPeers b
  bootHostPort b
  match failingStep b p with
  | none => bootRecord b.romVersion.toNat
  | some n => logFailure n

/-- MAIN_POWER_UP. -/
def execMainPowerUp (b : BootInput) (s : State) : Out1 :=
  run (do
    if s.supply.up then notEnabled
    modify fun s => { s.offState with supply := { s.supply with up := true, failed := none } }
    bootSteps b (bootPolicy s.supply.minimum.toNat b.flash)) s

/-- MAIN_POWER_DOWN. -/
def execMainPowerDown (s : State) : Out1 := if !s.supply.up then never else .next s.offState

/-! ## The side band (22 R379, R380) -/

/-- SIDEBAND_PLDM_REQUEST; a live reading of the hub and what a state sensor tells are open (log 26), and with the main supply down the last
values are marked unavailable. -/
def execSidebandPldmRequest (t : BitVec 8) (q : PldmReq) (s : State) : Out1 :=
  run (do
    match q with
    | .discovery => modify fun s => s.emit (.sideband t [0, 2] true)
    | .dieSensor d => modify fun s => s.emit (.sideband t [s.dies[d].temp] s.supply.up)
    | .dieSensorAt d n => modify fun s => s.emit (.sideband t [s.dies[d].sensors.getD n.val 0] s.supply.up)
    | .hubSensor n => do
      if s.supply.up then
        let x ← freshNat
        modify fun s => { s with power := { s.power with hub := setAt s.power.hub n.val (x : Int) } }
      modify fun s => s.emit (.sideband t [s.power.hub.getD n.val 0] s.supply.up)
    | .stateSensor _ => do
      let x ← freshNat
      modify fun s => s.emit (.sideband t [(x : Int)] s.supply.up)
    | .packagePower => modify fun s => s.emit (.sideband t [(s.power.watts : Int)] s.supply.up)
    | .eventLog => modify fun s => s.emit (.sidebandLog t s.eventLog)
    | .firmwareUpdate => modify fun s => s.emit (.sidebandRefused t)) s

/-- SIDEBAND_POWER_LIMIT: it counts from the next update of the kettle, or from the next power-up (23 R391, 22 R380). -/
def execSidebandPowerLimit (w : Nat) (s : State) : Out1 := .next { s with power := { s.power with side := some w } }

end Sys2Proof.Machine
end

