-- ==== Sys2Proof/Machine/Lead.lean ====
section
/-! DEFINITION. The lead stream: what it does with each instruction, its prefetches, the delay buffer, and what the trail does to it
as it retires instructions (01 R12 to R25).  It changes no outcome but through caches and grants (01 R24). -/

namespace Sys2Proof.Machine

/-! ## What the lead does with each instruction (01 R14, R15) -/

/-- The actions of R14; a prefetch may read data, and the length-setting instructions record grants. -/
inductive LeadAction
  | execute | prefetch (read : Bool) | branch | skip | wait | park | grant
  deriving DecidableEq, Repr

/-- An action with the registers that an instruction reads and writes; a vector register stands for its group. -/
structure LeadUse where
  action : LeadAction
  srcs   : List RegName
  dests  : List RegName
  deriving DecidableEq, Repr

def src2Names : Src2 → List RegName
  | .vv b => [.v b]
  | .vs b => [.s b]
  | .vi _ => []
def redSources : RedDst → List RegName
  | .scalar _ a => [.s a]
  | .perRow _ => []
def redDests : RedDst → List RegName
  | .scalar d _ => [.s d]
  | .perRow d => [.v d]
/-- A masked instruction keeps elements of its destination. -/
def masked (k : MReg) (d : VReg) : List RegName := if k = 0 then [] else [.v d]

/-- The user registers that the lead reads. -/
def leadReads : UReg → Bool
  | .vl | .vrows | .vtype | .rowstr | .lanepart | .hartid | .gangid | .gangsize | .hartidx => true
  | .vstart | .vlcap | .fcsr | .mxflags | .hartmode | .cycles | .rsp | .rsdepth => false

/-- The action and the registers of each instruction. -/
def leadUse : Instr → LeadUse
  | .add d a b | .sub d a b | .and d a b | .or d a b | .xor d a b | .andn d a b | .sll d a b | .srl d a b | .sra d a b | .ror d a b
  | .slt d a b | .sltu d a b | .min d a b | .max d a b | .minu d a b | .maxu d a b | .mul d a b | .mulh d a b | .mulhu d a b
  | .mulhsu d a b | .div d a b | .divu d a b | .rem d a b | .remu d a b =>
    ⟨.execute, [.s a, .s b], [.s d]⟩
  | .clz d a | .ctz d a | .popc d a | .brev d a | .sextb d a | .sexth d a | .sextw d a | .zextw d a | .addi d a _ | .andi d a _
  | .ori d a _ | .xori d a _ | .slli d a _ | .srli d a _ | .srai d a _ | .rori d a _ | .slti d a _ | .sltiu d a _ =>
    ⟨.execute, [.s a], [.s d]⟩
  | .lui d _ | .addpc d _ =>
    ⟨.execute, [], [.s d]⟩
  | .fadd _ _ d a b | .fsub _ _ d a b | .fmul _ _ d a b | .fdiv _ _ d a b | .fmin _ d a b | .fmax _ d a b | .fcopys _ d a b
  | .fcopyns _ d a b | .fxors _ d a b | .feq _ d a b | .flt _ d a b | .fle _ d a b | .amoadd _ _ _ d a b | .amoand _ _ _ d a b
  | .amoor _ _ _ d a b | .amoxor _ _ _ d a b | .amomin _ _ _ d a b | .amomax _ _ _ d a b | .amominu _ _ _ d a b
  | .amomaxu _ _ _ d a b | .amoswap _ _ _ d a b | .amofadd _ _ _ d a b | .smap d a b _ =>
    ⟨.skip, [.s a, .s b], [.s d]⟩
  | .fsqrt _ _ d a | .fclass _ d a | .fcvtfi _ _ d a | .fcvtfu _ _ d a | .fcvtif _ _ d a | .fcvtuf _ _ d a | .fcvtff _ _ d a
  | .mbegin d a | .hclaim d a _ =>
    ⟨.skip, [.s a], [.s d]⟩
  | .fmadd _ _ d a b c | .fmsub _ _ d a b c | .fnmadd _ _ d a b c | .fnmsub _ _ d a b c =>
    ⟨.skip, [.s a, .s b, .s c], [.s d]⟩
  | .ldb d a _ | .ldbu d a _ | .ldh d a _ | .ldhu d a _ | .ldw d a _ | .ldwu d a _ | .ldd d a _ | .ldaqW _ d a | .ldaqD _ d a =>
    ⟨.prefetch true, [.s a], [.s d]⟩
  | .stb d a _ | .sth d a _ | .stw d a _ | .std d a _ | .strlW _ d a | .strlD _ d a =>
    ⟨.skip, [.s d, .s a], []⟩
  | .amocas _ _ _ d a b =>
    ⟨.skip, [.s d, .s a, .s b], [.s d]⟩
  | .pref _ a _ =>
    ⟨.prefetch false, [.s a], []⟩
  | .beq d a _ | .bne d a _ | .blt d a _ | .bge d a _ | .bltu d a _ | .bgeu d a _ =>
    ⟨.branch, [.s d, .s a], []⟩
  | .call _ | .jmp _ | .ret =>
    ⟨.branch, [], []⟩
  | .jalr d a =>
    ⟨.branch, [.s a], [.s d]⟩
  | .callr a | .jr a =>
    ⟨.branch, [.s a], []⟩
  | .fence _ _ _ | .mend | .mzero _ | .sunmap _ | .swb _ _ | .hrel _ =>
    ⟨.skip, [], []⟩
  | .spin | .leadhold | .gbar _ | .gbara _ | .gbarw _ =>
    ⟨.park, [], []⟩
  | .svc _ | .brk | .join | .exit | .eret | .halt | .ccwait _ _ | .imageLoad _ | .imageDrop _ | .launch _ | .graphDefine _
  | .graphReplay _ | .graphPatch _ | .sync _ | .query _ | .partitionSet _ | .dieReset _ | .attest _ | .policyLoad _
  | .completionMessage _ | .dctlFence _ | .dctlQuiesce _ | .dctlFlush _ | .dctlSelfref _ | .dctlReset _ | .dctlTrain _
  | .dctlAdmit _ | .dieActionComplete _ _ | .dispatchRound | .preemptionRequest | .gangStopComplete _ | .gangEnd _
  | .graphNodeQueue _ _ | .cpServiceReply | .watchdog | .engineAccept | .engineComplete _ | .barrierEpisodeComplete _ _
  | .leadInstruction | .leadPrefetchFill _ | .l2LineEviction _ | .patrolScrub _ _ | .voltageUpdate | .capStep _ | .kettleUpdate _
  | .temperatureCrossing _ _ | .thermalTrip _ | .mainPowerUp _ | .mainPowerDown | .portDown _ _ | .linkFlitRetry _
  | .portstatRead _ | .hostRead _ | .hostWrite _ | .peerRequest _ | .sidebandPldmRequest _ _ | .sidebandPowerLimit _
  | .illegalInstruction _ | .fetchFault _ | .vectorInstructionCompletion | .accessPerforms _ | .uncorrectableError _
  | .portUp _ _ _ =>
    ⟨.wait, [], []⟩
  | .rdsr d r => if leadReads r then ⟨.execute, [], [.s d]⟩ else ⟨.skip, [], [.s d]⟩
  | .wrsr _ d | .pwrsr _ d =>
    ⟨.wait, [.s d], []⟩
  | .fork d a =>
    ⟨.wait, [.s a], [.s d]⟩
  | .tlbinv d a b =>
    ⟨.wait, [.s d, .s a, .s b], []⟩
  | .cwb a b | .cinv a b | .hsig a b =>
    ⟨.wait, [.s a, .s b], []⟩
  | .ctxsave a | .ctxload a =>
    ⟨.wait, [.s a], []⟩
  | .waitev d | .prdsr d _ =>
    ⟨.wait, [], [.s d]⟩
  | .setvl d a b =>
    ⟨.grant, [.s a, .s b, .shape], [.s d, .shape]⟩
  | .setvlx d a b =>
    ⟨.grant, [.s a, .s b], [.s d, .shape]⟩
  | .settype d a | .setvli d a _ _ =>
    ⟨.grant, [.s a], [.s d, .shape]⟩
  | .setrows d a =>
    ⟨.grant, [.s a, .shape], [.s d, .shape]⟩
  | .vadd d a b k | .vsub d a b k | .vrsub d a b k | .vmul d a b k | .vmulh d a b k | .vmulhu d a b k | .vmin d a b k
  | .vmax d a b k | .vminu d a b k | .vmaxu d a b k | .vand d a b k | .vor d a b k | .vxor d a b k | .vsll d a b k | .vsrl d a b k
  | .vsra d a b k | .vsadd d a b k | .vsaddu d a b k | .vssub d a b k | .vssubu d a b k | .vwadd d a b k | .vwmul d a b k
  | .vnshr d a b k | .vmerge d a b k | .vdiv d a b k | .vrem d a b k | .vslideup d a b k | .vslidedn d a b k =>
    ⟨.execute, [.v a, .k k, .shape] ++ masked k d ++ src2Names b, [.v d]⟩
  | .vmacc d a b k =>
    ⟨.execute, [.v d, .v a, .k k, .shape] ++ src2Names b, [.v d]⟩
  | .vclz d a k | .vpopc d a k | .vcompress d a k | .vexpand d a k =>
    ⟨.execute, [.v a, .k k, .shape] ++ masked k d, [.v d]⟩
  | .vid d k =>
    ⟨.execute, [.k k, .shape] ++ masked k d, [.v d]⟩
  | .vmv d b k =>
    ⟨.execute, [.k k, .shape] ++ masked k d ++ src2Names b, [.v d]⟩
  | .vfadd d a b k | .vfsub d a b k | .vfmul d a b k | .vfdiv d a b k | .vfmin d a b k | .vfmax d a b k | .vfcopys d a b k
  | .vfcopyns d a b k | .vfxors d a b k | .vfscale d a b k | .vfwadd d a b k | .vfwmul d a b k =>
    ⟨.skip, [.v a, .k k, .shape] ++ masked k d ++ src2Names b, [.v d]⟩
  | .vfsqrt d a k | .vfrsqe d a k | .vfrece d a k | .vfexpo d a k | .vfclass d a k | .vcvt _ _ _ d a k =>
    ⟨.skip, [.v a, .k k, .shape] ++ masked k d, [.v d]⟩
  | .vfma d a b c k | .vfms d a b c k | .vfnma d a b c k | .vfnms d a b c k | .vfwma d a b c k | .vimac d a b c k =>
    ⟨.skip, [.v a, .v b, .v c, .k k, .shape] ++ masked k d, [.v d]⟩
  | .vcmpEq j a b k | .vcmpNe j a b k | .vcmpLt j a b k | .vcmpLe j a b k | .vcmpLtu j a b k | .vcmpLeu j a b k =>
    ⟨.execute, [.v a, .k k, .shape] ++ src2Names b, [.k j]⟩
  | .vfcmpEq j a b k | .vfcmpLt j a b k | .vfcmpLe j a b k | .vfcmpUn j a b k =>
    ⟨.skip, [.v a, .k k, .shape] ++ src2Names b, [.k j]⟩
  | .kand j x y k | .kor j x y k | .kxor j x y k | .kandn j x y k =>
    ⟨.execute, [.k x, .k y, .k k, .shape], [.k j]⟩
  | .kprex j x k | .kprin j x k | .ksufin j x k | .kmov j x k =>
    ⟨.execute, [.k x, .k k, .shape], [.k j]⟩
  | .kpopc d x k | .kfirst d x k =>
    ⟨.execute, [.k x, .k k, .shape], [.s d]⟩
  | .ktov d x k | .viota d x k =>
    ⟨.execute, [.k x, .k k, .shape] ++ masked k d, [.v d]⟩
  | .vtok j a k =>
    ⟨.execute, [.v a, .k k, .shape], [.k j]⟩
  | .kset j k =>
    ⟨.execute, [.k k, .shape], [.k j]⟩
  | .vredsum t b k | .vredmax t b k | .vredmin t b k | .vredand t b k | .vredor t b k | .vredxor t b k =>
    ⟨.execute, [.v b, .k k, .shape] ++ redSources t, [] ++ redDests t⟩
  | .vfredsum t b k | .vfredmax t b k | .vfredmin t b k =>
    ⟨.skip, [.v b, .k k, .shape] ++ redSources t, [] ++ redDests t⟩
  | .vscan d a b k =>
    ⟨.execute, [.s a, .v b, .k k, .shape] ++ masked k d, [.v d]⟩
  | .vfscan d a b k =>
    ⟨.skip, [.s a, .v b, .k k, .shape] ++ masked k d, [.v d]⟩
  | .vamoadd _ r d a b k | .vamoand _ r d a b k | .vamoor _ r d a b k | .vamoxor _ r d a b k | .vamomin _ r d a b k
  | .vamomax _ r d a b k | .vamominu _ r d a b k | .vamomaxu _ r d a b k | .vamoswap _ r d a b k | .vamofadd _ _ r d a b k =>
    ⟨.skip, [.v d, .s a, .v b, .k k, .shape], if r then [.v d] else []⟩
  | .vtopk d a b k =>
    ⟨.skip, [.v a, .s b, .k k, .shape] ++ masked k d, [.v d, .s b]⟩
  | .vperm d a b k =>
    ⟨.execute, [.v a, .v b, .k k, .shape] ++ masked k d, [.v d]⟩
  | .vextr d a b k =>
    ⟨.execute, [.v a, .s b, .k k, .shape], [.s d]⟩
  | .vins d a b k =>
    ⟨.execute, [.v d, .s a, .s b, .k k, .shape], [.v d]⟩
  | .vrowbc d a b k =>
    ⟨.execute, [.v a, .s b, .k k, .shape] ++ masked k d, [.v d]⟩
  | .vld d a k _ _ _ | .vldaq d a k _ _ _ =>
    ⟨.prefetch true, [.s a, .k k, .shape] ++ masked k d, [.v d]⟩
  | .vlds d a b k _ _ _ =>
    ⟨.prefetch true, [.s a, .s b, .k k, .shape] ++ masked k d, [.v d]⟩
  | .vldx d a b k _ _ _ | .vldw d a b k _ _ _ =>
    ⟨.prefetch true, [.s a, .v b, .k k, .shape] ++ masked k d, [.v d, .k k]⟩
  | .vldff d a k _ _ _ =>
    ⟨.prefetch false, [.s a, .k k, .shape] ++ masked k d, [.v d, .k k]⟩
  | .vldmx d a b k _ _ =>
    ⟨.prefetch false, [.s a, .s b, .shape], [.v d, .v b, .k k]⟩
  | .vst d a k _ _ | .vstp d a k _ _ | .cwraw d a k =>
    ⟨.skip, [.v d, .s a, .k k, .shape], []⟩
  | .vsts d a b k _ _ =>
    ⟨.skip, [.v d, .s a, .s b, .k k, .shape], []⟩
  | .vstx d a b k _ _ =>
    ⟨.skip, [.v d, .s a, .v b, .k k, .shape], []⟩
  | .vcommit k =>
    ⟨.skip, [.k k], []⟩
  | .mprod _ a b k | .mprodn _ a b k =>
    ⟨.skip, [.v a, .v b, .k k, .shape], []⟩
  | .mprods _ d a b k =>
    ⟨.skip, [.v d, .v a, .v b, .k k, .shape], []⟩
  | .mrd _ s d a =>
    ⟨.skip, [.s a, .shape], [.v d]⟩
  | .mwr _ s d a =>
    ⟨.skip, [.v d, .s a, .shape], []⟩
  | .mld _ _ s a b =>
    ⟨.prefetch false, [.s a, .s b, .shape], []⟩
  | .mst _ _ s a b | .czero _ a b | .cadd _ a b =>
    ⟨.skip, [.s a, .s b], []⟩
  | .mtgemm _ a | .xcopy _ a | .xfill _ a | .hdrain _ a _ =>
    ⟨.skip, [.s a], []⟩
  | .ccrd _ a =>
    ⟨.skip, [], [.s a]⟩
  | .vcadd _ d a b k =>
    ⟨.skip, [.s a, .v b, .k k, .shape, .v d] ++ masked k d, [.k k]⟩
  | .craw d a k =>
    ⟨.skip, [.s a, .k k, .shape] ++ masked k d, [.v d]⟩
  | .hins d a b _ k | .hacc _ d a b _ k =>
    ⟨.skip, [.v a, .v b, .k k, .shape] ++ masked k d, [.v d]⟩
  | .hprobe d a _ k =>
    ⟨.skip, [.v a, .k k, .shape] ++ masked k d, [.v d, .k k]⟩
  | .hdel a _ k =>
    ⟨.skip, [.v a, .k k, .shape], []⟩
  | .hstat d _ =>
    ⟨.skip, [], [.s d]⟩

/-- The registers that give the addresses of a memory access, its indices among them (01 R13, R14): neither its mask nor what its
destination held. -/
def addressSources : Instr → List RegName
  | .ldb _ a _ | .ldbu _ a _ | .ldh _ a _ | .ldhu _ a _ | .ldw _ a _ | .ldwu _ a _ | .ldd _ a _ | .ldaqW _ _ a | .ldaqD _ _ a
  | .stb _ a _ | .sth _ a _ | .stw _ a _ | .std _ a _ | .strlW _ _ a | .strlD _ _ a | .pref _ a _ => [.s a]
  | .amoadd _ _ _ _ a _ | .amoand _ _ _ _ a _ | .amoor _ _ _ _ a _ | .amoxor _ _ _ _ a _ | .amomin _ _ _ _ a _
  | .amomax _ _ _ _ a _ | .amominu _ _ _ _ a _ | .amomaxu _ _ _ _ a _ | .amoswap _ _ _ _ a _ | .amocas _ _ _ _ a _
  | .amofadd _ _ _ _ a _ => [.s a]
  | .vld _ a _ _ _ _ | .vldff _ a _ _ _ _ | .vldaq _ a _ _ _ _ | .vst _ a _ _ _ | .vstp _ a _ _ _ | .craw _ a _ | .cwraw _ a _ => [.s a]
  | .vlds _ a b _ _ _ _ | .vsts _ a b _ _ _ => [.s a, .s b]
  | .vldx _ a b _ _ _ _ | .vldw _ a b _ _ _ _ | .vstx _ a b _ _ _ | .vcadd _ _ a b _ => [.s a, .v b]
  | .vldmx _ a b _ _ _ => [.s a, .s b]
  | .vamoadd _ _ _ a b _ | .vamoand _ _ _ a b _ | .vamoor _ _ _ a b _ | .vamoxor _ _ _ a b _ | .vamomin _ _ _ a b _
  | .vamomax _ _ _ a b _ | .vamominu _ _ _ a b _ | .vamomaxu _ _ _ a b _ | .vamoswap _ _ _ a b _ | .vamofadd _ _ _ _ a b _ => [.s a, .v b]
  | .mld _ _ _ a b | .mst _ _ _ a b => [.s a, .s b]
  | .czero _ a _ | .cadd _ a _ | .mtgemm _ a | .xcopy _ a | .xfill _ a | .hdrain _ a _ | .hclaim _ a _ => [.s a]
  | _ => []

/-- The meaning of an instruction that the lead may compute. -/
def leadMeaning : Instr → Option (State → Out1)
  | .add d a b => some (execAdd d a b)
  | .sub d a b => some (execSub d a b)
  | .and d a b => some (execAnd d a b)
  | .or d a b => some (execOr d a b)
  | .xor d a b => some (execXor d a b)
  | .andn d a b => some (execAndn d a b)
  | .sll d a b => some (execSll d a b)
  | .srl d a b => some (execSrl d a b)
  | .sra d a b => some (execSra d a b)
  | .ror d a b => some (execRor d a b)
  | .slt d a b => some (execSlt d a b)
  | .sltu d a b => some (execSltu d a b)
  | .min d a b => some (execMin d a b)
  | .max d a b => some (execMax d a b)
  | .minu d a b => some (execMinu d a b)
  | .maxu d a b => some (execMaxu d a b)
  | .clz d a => some (execClz d a)
  | .ctz d a => some (execCtz d a)
  | .popc d a => some (execPopc d a)
  | .brev d a => some (execBrev d a)
  | .sextb d a => some (execSextb d a)
  | .sexth d a => some (execSexth d a)
  | .sextw d a => some (execSextw d a)
  | .zextw d a => some (execZextw d a)
  | .addi d a i => some (execAddi d a i)
  | .andi d a i => some (execAndi d a i)
  | .ori d a i => some (execOri d a i)
  | .xori d a i => some (execXori d a i)
  | .slli d a n => some (execSlli d a n)
  | .srli d a n => some (execSrli d a n)
  | .srai d a n => some (execSrai d a n)
  | .rori d a n => some (execRori d a n)
  | .slti d a i => some (execSlti d a i)
  | .sltiu d a i => some (execSltiu d a i)
  | .lui d i => some (execLui d i)
  | .addpc d i => some (execAddpc d i)
  | .mul d a b => some (execMul d a b)
  | .mulh d a b => some (execMulh d a b)
  | .mulhu d a b => some (execMulhu d a b)
  | .mulhsu d a b => some (execMulhsu d a b)
  | .div d a b => some (execDiv d a b)
  | .divu d a b => some (execDivu d a b)
  | .rem d a b => some (execRem d a b)
  | .remu d a b => some (execRemu d a b)
  | .ldb d a i => some (execLdb d a i)
  | .ldbu d a i => some (execLdbu d a i)
  | .ldh d a i => some (execLdh d a i)
  | .ldhu d a i => some (execLdhu d a i)
  | .ldw d a i => some (execLdw d a i)
  | .ldwu d a i => some (execLdwu d a i)
  | .ldd d a i => some (execLdd d a i)
  | .ldaqW sc d a => some (execLdaqW sc d a)
  | .ldaqD sc d a => some (execLdaqD sc d a)
  | .beq d a i => some (execBeq d a i)
  | .bne d a i => some (execBne d a i)
  | .blt d a i => some (execBlt d a i)
  | .bge d a i => some (execBge d a i)
  | .bltu d a i => some (execBltu d a i)
  | .bgeu d a i => some (execBgeu d a i)
  | .rdsr d r => some (execRdsr d r)
  | .setvl d a b => some (execSetvl d a b)
  | .setvlx d a b => some (execSetvlx d a b)
  | .settype d a => some (execSettype d a)
  | .setrows d a => some (execSetrows d a)
  | .setvli d a r v => some (execSetvli d a r v)
  | .vadd d a b k => some (execVadd d a b k)
  | .vsub d a b k => some (execVsub d a b k)
  | .vrsub d a b k => some (execVrsub d a b k)
  | .vmul d a b k => some (execVmul d a b k)
  | .vmulh d a b k => some (execVmulh d a b k)
  | .vmulhu d a b k => some (execVmulhu d a b k)
  | .vmacc d a b k => some (execVmacc d a b k)
  | .vmin d a b k => some (execVmin d a b k)
  | .vmax d a b k => some (execVmax d a b k)
  | .vminu d a b k => some (execVminu d a b k)
  | .vmaxu d a b k => some (execVmaxu d a b k)
  | .vand d a b k => some (execVand d a b k)
  | .vor d a b k => some (execVor d a b k)
  | .vxor d a b k => some (execVxor d a b k)
  | .vsll d a b k => some (execVsll d a b k)
  | .vsrl d a b k => some (execVsrl d a b k)
  | .vsra d a b k => some (execVsra d a b k)
  | .vsadd d a b k => some (execVsadd d a b k)
  | .vsaddu d a b k => some (execVsaddu d a b k)
  | .vssub d a b k => some (execVssub d a b k)
  | .vssubu d a b k => some (execVssubu d a b k)
  | .vclz d a k => some (execVclz d a k)
  | .vpopc d a k => some (execVpopc d a k)
  | .vwadd d a b k => some (execVwadd d a b k)
  | .vwmul d a b k => some (execVwmul d a b k)
  | .vnshr d a b k => some (execVnshr d a b k)
  | .vmerge d a b k => some (execVmerge d a b k)
  | .vid d k => some (execVid d k)
  | .vmv d b k => some (execVmv d b k)
  | .vdiv d a b k => some (execVdiv d a b k)
  | .vrem d a b k => some (execVrem d a b k)
  | .vcmpEq j a b k => some (execVcmpEq j a b k)
  | .vcmpNe j a b k => some (execVcmpNe j a b k)
  | .vcmpLt j a b k => some (execVcmpLt j a b k)
  | .vcmpLe j a b k => some (execVcmpLe j a b k)
  | .vcmpLtu j a b k => some (execVcmpLtu j a b k)
  | .vcmpLeu j a b k => some (execVcmpLeu j a b k)
  | .kand j x y k => some (execKand j x y k)
  | .kor j x y k => some (execKor j x y k)
  | .kxor j x y k => some (execKxor j x y k)
  | .kandn j x y k => some (execKandn j x y k)
  | .kprex j x k => some (execKprex j x k)
  | .kprin j x k => some (execKprin j x k)
  | .ksufin j x k => some (execKsufin j x k)
  | .kpopc d x k => some (execKpopc d x k)
  | .kfirst d x k => some (execKfirst d x k)
  | .kmov j x k => some (execKmov j x k)
  | .ktov d x k => some (execKtov d x k)
  | .vtok j a k => some (execVtok j a k)
  | .kset j k => some (execKset j k)
  | .vredsum t b k => some (execVredsum t b k)
  | .vredmax t b k => some (execVredmax t b k)
  | .vredmin t b k => some (execVredmin t b k)
  | .vredand t b k => some (execVredand t b k)
  | .vredor t b k => some (execVredor t b k)
  | .vredxor t b k => some (execVredxor t b k)
  | .vscan d a b k => some (execVscan d a b k)
  | .vcompress d a k => some (execVcompress d a k)
  | .vexpand d a k => some (execVexpand d a k)
  | .vslideup d a b k => some (execVslideup d a b k)
  | .vslidedn d a b k => some (execVslidedn d a b k)
  | .vperm d a b k => some (execVperm d a b k)
  | .vextr d a b k => some (execVextr d a b k)
  | .vins d a b k => some (execVins d a b k)
  | .viota d x k => some (execViota d x k)
  | .vrowbc d a b k => some (execVrowbc d a b k)
  | .vld d a k e x h => some (execVld d a k e x h)
  | .vlds d a b k e x h => some (execVlds d a b k e x h)
  | .vldx d a b k e x h => some (execVldx d a b k e x h)
  | .vldw d a b k e x h => some (execVldw d a b k e x h)
  | .vldaq d a k e x h => some (execVldaq d a k e x h)
  | _ => none

/-! ## Shadow registers (01 Lead contexts) -/

/-- The registers of the group of a register. -/
def groupOf (vtype : Word) (r : VReg) : List VReg := (upTo (vtGroup vtype)).map (rowReg r)

def Lead.knows (l : Lead) : RegName → Bool
  | .s r => r == 0 || l.knownS.getLsbD r.val
  | .v r => (groupOf l.vtype r).all fun x => l.knownV.getLsbD x.val
  | .k r => r == 0 || l.knownK.getLsbD r.val
  | .shape => l.shapeKnown

/-- Set or clear the known bit of a register. -/
def Lead.mark (known : Bool) (l : Lead) : RegName → Lead
  | .s r => { l with knownS := if known then l.knownS ||| 1#32 <<< r.val else l.knownS &&& ~~~(1#32 <<< r.val) }
  | .v r =>
    { l with knownV := (groupOf l.vtype r).foldl (fun b x => if known then b ||| 1#32 <<< x.val else b &&& ~~~(1#32 <<< x.val)) l.knownV }
  | .k r => { l with knownK := if known then l.knownK ||| 1#8 <<< r.val else l.knownK &&& ~~~(1#8 <<< r.val) }
  | .shape => { l with shapeKnown := known }

def Lead.markAll (known : Bool) (ds : List RegName) (l : Lead) : Lead := ds.foldl (Lead.mark known) l

/-- The package as the lead's computation sees it: shadow registers at U level, with nothing of the trail's in flight but the writes that
its core sees. -/
def State.shadow (s : State) : State :=
  let h := s.hart
  let l := h.lead
  { s with inputs := []
           writes := s.writes.filter fun w => decide (Level.core.num ≤ w.level.num)
           hart := { h with pc := l.pc, s := l.s, v := l.v, k := l.k
                            shape := { h.shape with vl := l.vl, vrows := l.vrows, vtype := l.vtype, rowstr := l.rowstr, vstart := 0 }
                            priv := { h.priv with level := false, trap := false }
                            queue := [], taken := [], begun := false, lanes := [], lanesCut := none, reads := [], spun := false
                            engine := [], ecc := Ecc.none, det := false, status := .running, lead := Lead.reset } }

/-- The hart that a computation in the shadow registers leaves, where it ends without a trap or a wait. -/
def State.leadRun (s : State) (m : State → Out1) : Option Hart :=
  match m s.shadow with
  | .next t => if t.hart.status = .running && !t.hart.priv.trap then some t.hart else none
  | _ => none

/-- The shadow registers take the registers of a computation. -/
def Lead.take (l : Lead) (h : Hart) : Lead :=
  { l with s := h.s, v := h.v, k := h.k, vl := h.shape.vl, vrows := h.shape.vrows, vtype := h.shape.vtype, rowstr := h.shape.rowstr }

/-! ## Addresses (01 R16 to R18) -/

/-- The registers of a hart as plain values. -/
def Hart.sreg (h : Hart) (r : SReg) : Word := if r = 0 then 0 else h.s[r]
def Hart.active (h : Hart) (k : MReg) (row col : Nat) : Bool := k == 0 || maskBit h.k[k] (row * 1024 + col)
def Hart.index (h : Hart) (b : VReg) (w row col : Nat) : Option Nat :=
  let x := elemAt h.v[rowReg b row] w col
  if 32 ≤ w && x == 2 ^ w - 1 then none else some x

/-- Addresses at the active positions of a shape from (0, 0) on. -/
def Hart.sweepAddrs (h : Hart) (k : MReg) (f : Nat → Nat → Option Word) : List Word :=
  (h.shape.allPositions.filter fun x => h.active k x.1 x.2).filterMap fun x => f x.1 x.2

/-- The addresses of a block of VLDMX: its scale, then its elements, two to a byte where they are packed (09 R216). -/
def Hart.blockAddrs (h : Hart) (a b : Word) (packed : Bool) (y : Nat × Nat) : List Word :=
  let p := h.shape
  let step : Int := p.rowstr.toInt * (1 + bit packed : Nat) / (vtBlk p.vtype : Nat)
  (b + BitVec.ofInt 64 (y.1 * step) + BitVec.ofNat 64 y.2) ::
    (mxCols p y.2).map fun col => rowBase p a y.1 + BitVec.ofNat 64 (if packed then col / 2 else col)

/-- The element addresses of a prefetch-action instruction, in sweep order; of MLD those of the units of its rows, whose number follows SEW
(10 R234). -/
def Hart.addresses (h : Hart) : Instr → List Word
  | .ldb _ a i | .ldbu _ a i | .ldh _ a i | .ldhu _ a i | .ldw _ a i | .ldwu _ a i | .ldd _ a i | .pref _ a i => [h.sreg a + sext16 i]
  | .ldaqW _ _ a | .ldaqD _ _ a => [h.sreg a]
  | .vld _ a k e _ _ | .vldff _ a k e _ _ | .vldaq _ a k e _ _ =>
    h.sweepAddrs k fun row col => some (unitAddr h.shape (h.sreg a) e row col)
  | .vldmx _ a b _ x _ => (mxBlocks { h.shape with vstart := 0 }).flatMap (h.blockAddrs (h.sreg a) (h.sreg b) x)
  | .vlds _ a b k _ _ _ => h.sweepAddrs k fun row col => some (strideAddr h.shape (h.sreg a) (h.sreg b) row col)
  | .vldx _ a b k e _ x | .vldw _ a b k e _ x =>
    h.sweepAddrs k fun row col =>
      (h.index b (xBits x) row col).map fun i => stepAddr (rowBase h.shape (h.sreg a) row) i (ewBytes e)
  | .mld _ _ _ a b => (tileRegion (h.sreg a) (h.sreg b) (viewOf h.shape)).units
  | _ => []

/-- The mask of a load whose positions the lead prefetches. -/
def leadMask : Instr → MReg
  | .vld _ _ k _ _ _ | .vldff _ _ k _ _ _ | .vldaq _ _ k _ _ _ | .vlds _ _ _ k _ _ _ | .vldx _ _ _ k _ _ _ | .vldw _ _ _ k _ _ _ => k
  | _ => 0

/-- The hart as the lead computes the addresses of an instruction: under an unknown mask every position below VL counts (09 R222). -/
def State.leadHart (s : State) (i : Instr) : Hart :=
  let h := s.shadow.hart
  if s.hart.lead.knows (.k (leadMask i)) then h else { h with k := h.k.set (leadMask i) (-1) }

/-- The line that a prefetch asks for: present, readable, DATA, and answered; none where it is dropped (01 R16). -/
def State.prefetchLine (s : State) (va : Word) : Option Nat :=
  let c := s.hart.ctxU
  match s.probe c Needs.load va with
  | none => none
  | some p => if p.kind = kindData && s.reaches c false p.pa then some (paLine p.pa) else none

/-- The walks of a prefetch fill the TLB (01 R17). -/
def State.fillWalk (s : State) (va : Word) : State := s.fillWalkOf s.hart.ctxU va

/-- A prefetch goes to the lookahead area, or for a scalar load to the lead L1.  R17 speaks of scalar loads and of vector elements only:
that the line of a PREF goes to the lookahead area, whatever its hint, is the model's choice (log 13). -/
def toLookahead : Instr → Bool
  | .ldb _ _ _ | .ldbu _ _ _ | .ldh _ _ _ | .ldhu _ _ _ | .ldw _ _ _ | .ldwu _ _ _ | .ldd _ _ _ | .ldaqW _ _ _ | .ldaqD _ _ _ => false
  | _ => true

/-- The placement hint of a vector load. -/
def leadHint : Instr → VHint
  | .vld _ _ _ _ _ h | .vldff _ _ _ _ _ h | .vldaq _ _ _ _ _ h | .vlds _ _ _ _ _ _ h | .vldmx _ _ _ _ _ h => h
  | .vldx _ _ _ _ _ _ x | .vldw _ _ _ _ _ _ x => xHint x
  | _ => .normal

/-- The instruction whose address entries list lines. -/
def listsLines : Instr → Bool
  | .vldx _ _ _ _ _ _ _ | .vldw _ _ _ _ _ _ _ => true
  | _ => false

/-- Pieces of at most 16 of a list, at least one. -/
def sixteens : Nat → List Nat → List (List Nat)
  | 0, _ => []
  | n + 1, xs => xs.take 16 :: (if xs.length ≤ 16 then [] else sixteens n (xs.drop 16))

/-- The address entries of an instruction (01 R18). -/
def addressEntries (pc : Word) (i : Instr) (vas : List Word) (lines : List Nat) : List DelayEntry :=
  let g := Config.addressSignature vas
  (sixteens (lines.length + 1) (if listsLines i then distinct lines else [])).map fun l => .address pc g l

/-! ## LEAD_INSTRUCTION -/

def Lead.record (l : Lead) (es : List DelayEntry) : Lead := { l with buffer := l.buffer ++ es }
def State.setLead (s : State) (l : Lead) : State := s.withHart fun h => { h with lead := l }

/-- Mark an instruction in the slice table of a core; the least recently used marks go (01 R13). -/
def markSlice (core : Nat) (pc : Word) (t : List (Nat × Word)) : List (Nat × Word) :=
  keepFirst (fun x => x.1 == core) Config.sliceTableEntries (touch (core, pc) t)

/-- The instruction is marked in the slice table of the core (01 R13). -/
def State.marked (s : State) (pc : Word) : Bool := s.slice.contains (s.hart.ident.coreKey, pc)
/-- A mark that is looked up is used. -/
def State.useMark (s : State) (pc : Word) : State :=
  if s.marked pc then { s with slice := markSlice s.hart.ident.coreKey pc s.slice } else s

/-- The lead stops at an instruction until the trail retires it. -/
def Lead.stopAt (l : Lead) (m : LeadMode) : Lead := { l.record [.stop l.pc] with mode := m }
def Lead.step (l : Lead) : Lead := { l with pc := l.pc + 4 }

/-- Push and pop of the shadow return stack, of 16 entries.  A push with all of them in use drops the oldest: the manual is silent, and that
is the model's choice (log 13). -/
def pushShadow (x : Word) (st : List Word) : List Word := let t := st ++ [x]; t.drop (t.length - Config.returnStackEntries)
def Lead.stackAfter (l : Lead) : Instr → List Word
  | .call _ | .callr _ => pushShadow (l.pc + 4) l.stack
  | .ret => l.stack.dropLast
  | _ => l.stack

/-- The target that the lead knows of a branch-action instruction. -/
def State.leadTarget (s : State) (i : Instr) (us : LeadUse) : Option Word :=
  let l := s.hart.lead
  if !us.srcs.all l.knows then none
  else match i with
    | .call off | .jmp off => some (relative l.pc (sext26 off))
    | .jalr _ a | .callr a | .jr a => some (if a = 0 then 0 else l.s[a])
    | .ret => l.stack.getLast?
    | _ => ((leadMeaning i).bind s.leadRun).map Hart.pc

/-- The link register of a JALR at an address: it is known. -/
def Lead.linked (l : Lead) (i : Instr) (pc : Word) : Lead :=
  match i with
  | .jalr d _ => if d = 0 then l else ({ l with s := l.s.set d (pc + 4) }).mark true (.s d)
  | _ => l

/-- The lead follows a branch, or asks the trail. -/
def leadBranch (i : Instr) (us : LeadUse) (s : State) : State :=
  let l := s.hart.lead
  match s.leadTarget i us with
  | none => s.setLead { l with mode := .asking }
  | some t =>
    let l' := { l.record [.branch l.pc (t != l.pc + 4) t] with pc := t, stack := l.stackAfter i }
    s.setLead (l'.linked i l.pc)

/-- Compute into the shadow registers, or make the destinations unknown. -/
def leadCompute (i : Instr) (us : LeadUse) (go : Bool) (s : State) : State :=
  let l := s.hart.lead
  match if go then (leadMeaning i).bind s.leadRun else none with
  | some h => s.setLead ((l.take h).markAll true us.dests).step
  | none => s.setLead (l.markAll false us.dests).step

/-- The request of a length-setting instruction, which records a grant; SETROWS asks for no elements (02 R28). -/
def Lead.request (l : Lead) : Instr → Option (Word × Word × Word)
  | .setvl _ a b => some (if a = 0 then 0 else l.s[a], if b = 0 then 0 else l.s[b], l.vtype)
  | .setvlx _ a b =>
    let t := vtWrite (if b = 0 then 0 else l.s[b])
    some (if a = 0 then 0 else l.s[a], BitVec.ofNat 64 (vtGroup t), t)
  | .setvli _ a r v => some (if a = 0 then 0 else l.s[a], BitVec.ofNat 64 (r.val + 1), vtWrite (v.zeroExtend 64))
  | .setrows _ a => some (0, if a = 0 then 0 else l.s[a], l.vtype)
  | _ => none

/-- A length-setting instruction: executed whether marked or not (01 R15, R20). -/
def leadGrant (i : Instr) (us : LeadUse) (s : State) : State :=
  let l := s.hart.lead
  if !us.srcs.all l.knows then s.setLead (l.stopAt .waiting)
  else
    let s' := leadCompute i us true s
    match l.request i with
    | none => s'
    | some (q, r, t) =>
      let m := s'.hart.lead
      s'.setLead (m.record [.grant l.pc q r t s.hart.shape.width m.vl m.vrows])

/-- Whether a line must be requested: a scalar load that hits the lead L1 asks for none. -/
def State.requests (s : State) (vector : Bool) (line : Nat) : Bool := vector || !s.leadL1.contains (s.hart.ident.coreKey, line)

/-- Lines of a scalar load that the lead L1 holds are used. -/
def State.useLeadL1 (s : State) (line : Nat) : State :=
  let x := (s.hart.ident.coreKey, line)
  if s.leadL1.contains x then { s with leadL1 := touch x s.leadL1 } else s

/-- The address sources are known, and the shape of a vector access. -/
def Lead.addressed (l : Lead) (i : Instr) (us : LeadUse) : Bool :=
  (addressSources i).all l.knows && (!us.srcs.contains .shape || l.shapeKnown)

/-- A prefetch-action instruction: what it reads is known where it is marked, its mask is known and no prefetch was dropped; the mask
register of VLDW is not known after it (09 R222). -/
def leadPrefetch (i : Instr) (us : LeadUse) (read : Bool) (s : State) : State :=
  let l := s.hart.lead
  if !l.addressed i us then s.setLead (l.markAll false us.dests).step
  else
    let vas := (s.leadHart i).addresses i
    let found := vas.filterMap fun va => (s.prefetchLine va).map fun line => (line, va)
    let whole := found.length == vas.length
    let s := vas.foldl State.fillWalk s
    let lines := distinct (found.map Prod.fst)
    let l := l.record (addressEntries l.pc i vas (found.map Prod.fst))
    let asked := (lines.filter (s.requests (toLookahead i))).map fun line =>
      { line := line, va := ((found.find? fun x => x.1 == line).map Prod.snd).getD 0, vector := toLookahead i, hint := leadHint i : LeadLine }
    let s := s.setLead { l with prefetch := l.prefetch ++ asked }
    let s := if toLookahead i then s else lines.foldl State.useLeadL1 s
    let s := leadCompute i us (read && whole && l.knows (.k (leadMask i)) && s.marked l.pc) s
    match i with
    | .vldw _ _ _ k _ _ _ => s.setLead (s.hart.lead.mark false (.k k))
    | _ => s

/-- The word at the lead's PC, where it may be fetched. -/
def State.leadWord (s : State) : Option (BitVec 32) :=
  let l := s.hart.lead
  if l.pc.toNat % 4 ≠ 0 then none
  else match s.probe s.hart.ctxU Needs.fetch l.pc with
    | none => none
    | some p =>
      if s.reaches s.hart.ctxU false p.pa && !s.badUnits p.pa 4 then some (BitVec.ofNat 32 (Memory.read s.mem p.pa 4)) else none

/-- The lead takes its action on an instruction. -/
def leadStep (i : Instr) (s : State) : State :=
  let l := s.hart.lead
  let us := leadUse i
  let s := s.useMark l.pc
  match us.action with
  | .execute => leadCompute i us (s.marked l.pc && us.srcs.all l.knows) s
  | .prefetch read => leadPrefetch i us read s
  | .branch => leadBranch i us s
  | .skip => s.setLead (l.markAll false us.dests).step
  | .wait => s.setLead (l.stopAt .waiting)
  | .park => s.setLead (l.stopAt .parked)
  | .grant => leadGrant i us s

/-- The bound of the lead distance (01 R19). -/
def Hart.leadBound (h : Hart) : Nat := min Config.delayBufferEntries h.priv.maxdist.toNat
/-- The entries in the delay buffer; those of an instruction that records many wait at the lead until it has room. -/
def Hart.delayBuffer (h : Hart) : List DelayEntry := h.lead.buffer.take h.leadBound

/-- The lead may issue: it runs, and its distance is below the bound (01 R19). -/
def Hart.leadIssues (h : Hart) : Bool :=
  h.resident && h.leadEnabled && h.lead.mode == .running && decide (h.delayBuffer.length < h.leadBound)

/-- LEAD_INSTRUCTION, for the instruction that the lead has fetched; a word that cannot be fetched or is no instruction makes the
lead wait (01 R15). -/
def execLeadInstruction (s : State) : Out1 :=
  if !s.hart.leadIssues then never
  else
    let l := s.hart.lead
    let s := s.setLead { l with fetched := none }
    match l.fetched with
    | none => never
    | some (some i) => .next (leadStep i s)
    | some none => .next (s.setLead (s.hart.lead.stopAt .waiting))

/-! ## LEAD_PREFETCH_FILL (01 R17) -/

/-- The lines of a lead L1 (01 R8). -/
def leadL1Lines : Nat := 256

/-- A line goes to the lead L1, or to the stash window that its address lies in, or to the lookahead area (04 R85, R86). -/
def putLeadLine (x : LeadLine) : M Unit := do
  let s ← get
  let core := s.hart.ident.coreKey
  if !x.vector then set { s with leadL1 := keepFirst (fun y => y.1 == core) leadL1Lines (touch (core, x.line) s.leadL1) }
  else match s.windowAt x.va with
    | some h => install x.hint h x.line
    | none => intoLookahead x.hint x.line

/-- A line returns; one in uncorrectable error installs nothing and is logged, and one that its home no longer gives is dropped. -/
def execLeadPrefetchFill (n : Nat) (s : State) : Out1 :=
  run (do
    let l := s.hart.lead
    match l.prefetch[n]? with
    | none => notEnabled
    | some x =>
      set (s.setLead { l with prefetch := l.prefetch.eraseIdx n })
      if s.reaches s.hart.ctxU false (x.line * Config.lineBytes) then
        if s.badLine x.line then logError (x.line * Config.lineBytes) .uncorrectable
        else
          recallLine none x.line
          putLeadLine x) s

/-! ## The trail as it retires instructions (01 R13, R19, R22, R23) -/

def DelayEntry.pc : DelayEntry → Word
  | .branch p _ _ | .grant p _ _ _ _ _ _ | .address p _ _ | .stop p => p

/-- The entry agrees with what the trail did: `h` before the instruction, `after` after it (01 R22). -/
def DelayEntry.agrees (e : DelayEntry) (i : Instr) (h after : Hart) : Bool :=
  match e with
  | .branch _ taken target => target == after.pc && taken == (after.pc != h.pc + 4)
  | .grant _ q r t _ _ _ =>
    ({ h.lead with s := h.s, vtype := h.shape.vtype } : Lead).request i == some (q, r, t)
  | .address _ g _ => g == Config.addressSignature (h.addresses i)
  | .stop _ => true

/-- The entries of the buffer from after those of an instruction. -/
def dropEntries (pc : Word) : List DelayEntry → List DelayEntry
  | .address p g l :: r => if p = pc then dropEntries pc r else .address p g l :: r
  | es => es

/-- An instruction whose execution the lead records. -/
def LeadAction.recorded : LeadAction → Bool
  | .branch | .wait | .park => true
  | .execute | .prefetch _ | .skip | .grant => false

/-- The trail reaches the instruction where the lead stands, with nothing recorded for it. -/
def Lead.meet (l : Lead) (i : Instr) (after : Hart) : Option Lead :=
  match l.mode with
  | .parked => some { l with pc := after.pc, mode := .running }
  | .asking => some ({ l with pc := after.pc, mode := .running, stack := l.stackAfter i }.linked i l.pc)
  | .idle | .running | .waiting => none

/-- What becomes of the lead when the trail has retired an instruction: none is a re-fork. -/
def Lead.after (l : Lead) (i : Instr) (h after : Hart) : Option Lead :=
  match l.buffer with
  | e :: r =>
    if e.pc = h.pc then
      if e.agrees i h after then
        let l := { l with buffer := match e with
          | .address _ _ _ => dropEntries h.pc r
          | _ => r }
        match e with
        | .stop _ => if l.pc = h.pc then l.meet i after else some l
        | _ => some l
      else none
    else if (leadUse i).action.recorded then none
    else some l
  | [] =>
    if l.pc = h.pc then l.meet i after
    else if (leadUse i).action.recorded then none
    else some l

/-- The registers that an address computation, an index load or a branch condition consumes.  The mask of a load whose positions it picks
counts among them, as the worked example of 13 R287 has it (log 77). -/
def LeadUse.feeds (u : LeadUse) (i : Instr) : List RegName :=
  match u.action with
  | .branch => u.srcs
  | .prefetch _ | .execute | .skip | .wait | .park | .grant =>
    addressSources i ++ (if leadMask i = 0 then [] else [.k (leadMask i)])

/-- Registers one by one, a vector register standing for its group. -/
def eachReg (vtype : Word) (rs : List RegName) : List RegName :=
  rs.flatMap fun r => match r with
    | .v x => (groupOf vtype x).map .v
    | .s _ | .k _ | .shape => [r]

/-- Train the slice table: mark the last writers of the registers that feed an address or a branch, or a marked instruction.  `h` is the hart
before the instruction. -/
def State.train (s : State) (h : Hart) (i : Instr) : State :=
  let u := leadUse i
  let core := s.hart.ident.coreKey
  let rs := eachReg h.shape.vtype (if s.marked h.pc then u.srcs ++ u.feeds i else u.feeds i)
  let pcs := rs.filterMap fun r => (s.hart.lastWriter.find? fun x => x.1 == r).map Prod.snd
  let slice := pcs.foldl (fun t p => markSlice core p t) (s.useMark h.pc).slice
  let writers := (eachReg h.shape.vtype u.dests).foldl (fun w r => (r, h.pc) :: w.filter fun x => x.1 != r) s.hart.lastWriter
  { s with slice := slice, hart := { s.hart with lastWriter := writers } }

/-- The hart retired the instruction: it neither waits, nor has taken a trap or halted. -/
def retiredBy (h after : Hart) : Bool := !after.status.isWaiting && after.traps == h.traps && after.status != .halted

/-- What the trail's instruction does to the lead and to the slice table; `h` is the hart before it. -/
def State.followLead (s : State) (h : Hart) (i : Instr) : State :=
  if !retiredBy h s.hart then s
  else
    let s := s.train h i
    let after := s.hart
    if !after.leadEnabled || !after.resident then s.withHart Hart.dropLead
    else if after.lead.mode = .idle then (if h.leadEnabled then s else s.withHart Hart.forkLead)
    else if h.lead.mode = .idle then s
    else match after.lead.after i h after with
      | some l => s.setLead l
      | none => s.withHart Hart.forkLead

end Sys2Proof.Machine
end

