-- ==== Sys2Proof/Machine/Dispatch.lean ====
section
/-! DEFINITION. The one dispatch from a constructor of `Instr` to its meaning. -/

namespace Sys2Proof.Machine

/-- What an instruction word or another step of the part does. -/
def exec (i : Instr) (s : State) : Host.Outcome State Fault Refusal :=
  match i with
  | .add d a b => Sys2Proof.Machine.execAdd d a b s
  | .sub d a b => Sys2Proof.Machine.execSub d a b s
  | .and d a b => Sys2Proof.Machine.execAnd d a b s
  | .or d a b => Sys2Proof.Machine.execOr d a b s
  | .xor d a b => Sys2Proof.Machine.execXor d a b s
  | .andn d a b => Sys2Proof.Machine.execAndn d a b s
  | .sll d a b => Sys2Proof.Machine.execSll d a b s
  | .srl d a b => Sys2Proof.Machine.execSrl d a b s
  | .sra d a b => Sys2Proof.Machine.execSra d a b s
  | .ror d a b => Sys2Proof.Machine.execRor d a b s
  | .slt d a b => Sys2Proof.Machine.execSlt d a b s
  | .sltu d a b => Sys2Proof.Machine.execSltu d a b s
  | .min d a b => Sys2Proof.Machine.execMin d a b s
  | .max d a b => Sys2Proof.Machine.execMax d a b s
  | .minu d a b => Sys2Proof.Machine.execMinu d a b s
  | .maxu d a b => Sys2Proof.Machine.execMaxu d a b s
  | .clz d a => Sys2Proof.Machine.execClz d a s
  | .ctz d a => Sys2Proof.Machine.execCtz d a s
  | .popc d a => Sys2Proof.Machine.execPopc d a s
  | .brev d a => Sys2Proof.Machine.execBrev d a s
  | .sextb d a => Sys2Proof.Machine.execSextb d a s
  | .sexth d a => Sys2Proof.Machine.execSexth d a s
  | .sextw d a => Sys2Proof.Machine.execSextw d a s
  | .zextw d a => Sys2Proof.Machine.execZextw d a s
  | .addi d a imm => Sys2Proof.Machine.execAddi d a imm s
  | .andi d a imm => Sys2Proof.Machine.execAndi d a imm s
  | .ori d a imm => Sys2Proof.Machine.execOri d a imm s
  | .xori d a imm => Sys2Proof.Machine.execXori d a imm s
  | .slli d a n => Sys2Proof.Machine.execSlli d a n s
  | .srli d a n => Sys2Proof.Machine.execSrli d a n s
  | .srai d a n => Sys2Proof.Machine.execSrai d a n s
  | .rori d a n => Sys2Proof.Machine.execRori d a n s
  | .slti d a imm => Sys2Proof.Machine.execSlti d a imm s
  | .sltiu d a imm => Sys2Proof.Machine.execSltiu d a imm s
  | .lui d imm => Sys2Proof.Machine.execLui d imm s
  | .addpc d imm => Sys2Proof.Machine.execAddpc d imm s
  | .mul d a b => Sys2Proof.Machine.execMul d a b s
  | .mulh d a b => Sys2Proof.Machine.execMulh d a b s
  | .mulhu d a b => Sys2Proof.Machine.execMulhu d a b s
  | .mulhsu d a b => Sys2Proof.Machine.execMulhsu d a b s
  | .div d a b => Sys2Proof.Machine.execDiv d a b s
  | .divu d a b => Sys2Proof.Machine.execDivu d a b s
  | .rem d a b => Sys2Proof.Machine.execRem d a b s
  | .remu d a b => Sys2Proof.Machine.execRemu d a b s
  | .fadd w m d a b => Sys2Proof.Machine.execFadd w m d a b s
  | .fsub w m d a b => Sys2Proof.Machine.execFsub w m d a b s
  | .fmul w m d a b => Sys2Proof.Machine.execFmul w m d a b s
  | .fdiv w m d a b => Sys2Proof.Machine.execFdiv w m d a b s
  | .fsqrt w m d a => Sys2Proof.Machine.execFsqrt w m d a s
  | .fmin w d a b => Sys2Proof.Machine.execFmin w d a b s
  | .fmax w d a b => Sys2Proof.Machine.execFmax w d a b s
  | .fcopys w d a b => Sys2Proof.Machine.execFcopys w d a b s
  | .fcopyns w d a b => Sys2Proof.Machine.execFcopyns w d a b s
  | .fxors w d a b => Sys2Proof.Machine.execFxors w d a b s
  | .feq w d a b => Sys2Proof.Machine.execFeq w d a b s
  | .flt w d a b => Sys2Proof.Machine.execFlt w d a b s
  | .fle w d a b => Sys2Proof.Machine.execFle w d a b s
  | .fclass w d a => Sys2Proof.Machine.execFclass w d a s
  | .fcvtfi w m d a => Sys2Proof.Machine.execFcvtfi w m d a s
  | .fcvtfu w m d a => Sys2Proof.Machine.execFcvtfu w m d a s
  | .fcvtif w m d a => Sys2Proof.Machine.execFcvtif w m d a s
  | .fcvtuf w m d a => Sys2Proof.Machine.execFcvtuf w m d a s
  | .fcvtff w m d a => Sys2Proof.Machine.execFcvtff w m d a s
  | .fmadd w m d a b c => Sys2Proof.Machine.execFmadd w m d a b c s
  | .fmsub w m d a b c => Sys2Proof.Machine.execFmsub w m d a b c s
  | .fnmadd w m d a b c => Sys2Proof.Machine.execFnmadd w m d a b c s
  | .fnmsub w m d a b c => Sys2Proof.Machine.execFnmsub w m d a b c s
  | .ldb d a imm => Sys2Proof.Machine.execLdb d a imm s
  | .ldbu d a imm => Sys2Proof.Machine.execLdbu d a imm s
  | .ldh d a imm => Sys2Proof.Machine.execLdh d a imm s
  | .ldhu d a imm => Sys2Proof.Machine.execLdhu d a imm s
  | .ldw d a imm => Sys2Proof.Machine.execLdw d a imm s
  | .ldwu d a imm => Sys2Proof.Machine.execLdwu d a imm s
  | .ldd d a imm => Sys2Proof.Machine.execLdd d a imm s
  | .stb d a imm => Sys2Proof.Machine.execStb d a imm s
  | .sth d a imm => Sys2Proof.Machine.execSth d a imm s
  | .stw d a imm => Sys2Proof.Machine.execStw d a imm s
  | .std d a imm => Sys2Proof.Machine.execStd d a imm s
  | .ldaqW sc d a => Sys2Proof.Machine.execLdaqW sc d a s
  | .ldaqD sc d a => Sys2Proof.Machine.execLdaqD sc d a s
  | .strlW sc d a => Sys2Proof.Machine.execStrlW sc d a s
  | .strlD sc d a => Sys2Proof.Machine.execStrlD sc d a s
  | .amoadd sc o w d a b => Sys2Proof.Machine.execAmoadd sc o w d a b s
  | .amoand sc o w d a b => Sys2Proof.Machine.execAmoand sc o w d a b s
  | .amoor sc o w d a b => Sys2Proof.Machine.execAmoor sc o w d a b s
  | .amoxor sc o w d a b => Sys2Proof.Machine.execAmoxor sc o w d a b s
  | .amomin sc o w d a b => Sys2Proof.Machine.execAmomin sc o w d a b s
  | .amomax sc o w d a b => Sys2Proof.Machine.execAmomax sc o w d a b s
  | .amominu sc o w d a b => Sys2Proof.Machine.execAmominu sc o w d a b s
  | .amomaxu sc o w d a b => Sys2Proof.Machine.execAmomaxu sc o w d a b s
  | .amoswap sc o w d a b => Sys2Proof.Machine.execAmoswap sc o w d a b s
  | .amocas sc o w d a b => Sys2Proof.Machine.execAmocas sc o w d a b s
  | .amofadd sc o w d a b => Sys2Proof.Machine.execAmofadd sc o w d a b s
  | .pref h a imm => Sys2Proof.Machine.execPref h a imm s
  | .beq d a imm => Sys2Proof.Machine.execBeq d a imm s
  | .bne d a imm => Sys2Proof.Machine.execBne d a imm s
  | .blt d a imm => Sys2Proof.Machine.execBlt d a imm s
  | .bge d a imm => Sys2Proof.Machine.execBge d a imm s
  | .bltu d a imm => Sys2Proof.Machine.execBltu d a imm s
  | .bgeu d a imm => Sys2Proof.Machine.execBgeu d a imm s
  | .call imm => Sys2Proof.Machine.execCall imm s
  | .jmp imm => Sys2Proof.Machine.execJmp imm s
  | .jalr d a => Sys2Proof.Machine.execJalr d a s
  | .callr a => Sys2Proof.Machine.execCallr a s
  | .ret => Sys2Proof.Machine.execRet s
  | .jr a => Sys2Proof.Machine.execJr a s
  | .fence p q sc => Sys2Proof.Machine.execFence p q sc s
  | .spin => Sys2Proof.Machine.execSpin s
  | .leadhold => Sys2Proof.Machine.execLeadhold s
  | .svc n => Sys2Proof.Machine.execSvc n s
  | .brk => Sys2Proof.Machine.execBrk s
  | .rdsr d r => Sys2Proof.Machine.execRdsr d r s
  | .wrsr r d => Sys2Proof.Machine.execWrsr r d s
  | .fork d a => Sys2Proof.Machine.execFork d a s
  | .join => Sys2Proof.Machine.execJoin s
  | .exit => Sys2Proof.Machine.execExit s
  | .gbar x => Sys2Proof.Machine.execGbar x s
  | .gbara x => Sys2Proof.Machine.execGbara x s
  | .gbarw x => Sys2Proof.Machine.execGbarw x s
  | .eret => Sys2Proof.Machine.execEret s
  | .tlbinv d a b => Sys2Proof.Machine.execTlbinv d a b s
  | .cwb a b => Sys2Proof.Machine.execCwb a b s
  | .cinv a b => Sys2Proof.Machine.execCinv a b s
  | .ctxsave a => Sys2Proof.Machine.execCtxsave a s
  | .ctxload a => Sys2Proof.Machine.execCtxload a s
  | .waitev d => Sys2Proof.Machine.execWaitev d s
  | .hsig a b => Sys2Proof.Machine.execHsig a b s
  | .prdsr d r => Sys2Proof.Machine.execPrdsr d r s
  | .pwrsr r d => Sys2Proof.Machine.execPwrsr r d s
  | .halt => Sys2Proof.Machine.execHalt s
  | .setvl d a b => Sys2Proof.Machine.execSetvl d a b s
  | .setvlx d a b => Sys2Proof.Machine.execSetvlx d a b s
  | .settype d a => Sys2Proof.Machine.execSettype d a s
  | .setrows d a => Sys2Proof.Machine.execSetrows d a s
  | .setvli d a r v => Sys2Proof.Machine.execSetvli d a r v s
  | .vadd d a b k => Sys2Proof.Machine.execVadd d a b k s
  | .vsub d a b k => Sys2Proof.Machine.execVsub d a b k s
  | .vrsub d a b k => Sys2Proof.Machine.execVrsub d a b k s
  | .vmul d a b k => Sys2Proof.Machine.execVmul d a b k s
  | .vmulh d a b k => Sys2Proof.Machine.execVmulh d a b k s
  | .vmulhu d a b k => Sys2Proof.Machine.execVmulhu d a b k s
  | .vmacc d a b k => Sys2Proof.Machine.execVmacc d a b k s
  | .vmin d a b k => Sys2Proof.Machine.execVmin d a b k s
  | .vmax d a b k => Sys2Proof.Machine.execVmax d a b k s
  | .vminu d a b k => Sys2Proof.Machine.execVminu d a b k s
  | .vmaxu d a b k => Sys2Proof.Machine.execVmaxu d a b k s
  | .vand d a b k => Sys2Proof.Machine.execVand d a b k s
  | .vor d a b k => Sys2Proof.Machine.execVor d a b k s
  | .vxor d a b k => Sys2Proof.Machine.execVxor d a b k s
  | .vsll d a b k => Sys2Proof.Machine.execVsll d a b k s
  | .vsrl d a b k => Sys2Proof.Machine.execVsrl d a b k s
  | .vsra d a b k => Sys2Proof.Machine.execVsra d a b k s
  | .vsadd d a b k => Sys2Proof.Machine.execVsadd d a b k s
  | .vsaddu d a b k => Sys2Proof.Machine.execVsaddu d a b k s
  | .vssub d a b k => Sys2Proof.Machine.execVssub d a b k s
  | .vssubu d a b k => Sys2Proof.Machine.execVssubu d a b k s
  | .vclz d a k => Sys2Proof.Machine.execVclz d a k s
  | .vpopc d a k => Sys2Proof.Machine.execVpopc d a k s
  | .vwadd d a b k => Sys2Proof.Machine.execVwadd d a b k s
  | .vwmul d a b k => Sys2Proof.Machine.execVwmul d a b k s
  | .vnshr d a b k => Sys2Proof.Machine.execVnshr d a b k s
  | .vmerge d a b k => Sys2Proof.Machine.execVmerge d a b k s
  | .vid d k => Sys2Proof.Machine.execVid d k s
  | .vmv d b k => Sys2Proof.Machine.execVmv d b k s
  | .vdiv d a b k => Sys2Proof.Machine.execVdiv d a b k s
  | .vrem d a b k => Sys2Proof.Machine.execVrem d a b k s
  | .vfadd d a b k => Sys2Proof.Machine.execVfadd d a b k s
  | .vfsub d a b k => Sys2Proof.Machine.execVfsub d a b k s
  | .vfmul d a b k => Sys2Proof.Machine.execVfmul d a b k s
  | .vfdiv d a b k => Sys2Proof.Machine.execVfdiv d a b k s
  | .vfsqrt d a k => Sys2Proof.Machine.execVfsqrt d a k s
  | .vfrsqe d a k => Sys2Proof.Machine.execVfrsqe d a k s
  | .vfrece d a k => Sys2Proof.Machine.execVfrece d a k s
  | .vfmin d a b k => Sys2Proof.Machine.execVfmin d a b k s
  | .vfmax d a b k => Sys2Proof.Machine.execVfmax d a b k s
  | .vfcopys d a b k => Sys2Proof.Machine.execVfcopys d a b k s
  | .vfcopyns d a b k => Sys2Proof.Machine.execVfcopyns d a b k s
  | .vfxors d a b k => Sys2Proof.Machine.execVfxors d a b k s
  | .vfscale d a b k => Sys2Proof.Machine.execVfscale d a b k s
  | .vfexpo d a k => Sys2Proof.Machine.execVfexpo d a k s
  | .vfclass d a k => Sys2Proof.Machine.execVfclass d a k s
  | .vfwadd d a b k => Sys2Proof.Machine.execVfwadd d a b k s
  | .vfwmul d a b k => Sys2Proof.Machine.execVfwmul d a b k s
  | .vfma d a b c k => Sys2Proof.Machine.execVfma d a b c k s
  | .vfms d a b c k => Sys2Proof.Machine.execVfms d a b c k s
  | .vfnma d a b c k => Sys2Proof.Machine.execVfnma d a b c k s
  | .vfnms d a b c k => Sys2Proof.Machine.execVfnms d a b c k s
  | .vfwma d a b c k => Sys2Proof.Machine.execVfwma d a b c k s
  | .vimac d a b c k => Sys2Proof.Machine.execVimac d a b c k s
  | .vcmpEq j a b k => Sys2Proof.Machine.execVcmpEq j a b k s
  | .vcmpNe j a b k => Sys2Proof.Machine.execVcmpNe j a b k s
  | .vcmpLt j a b k => Sys2Proof.Machine.execVcmpLt j a b k s
  | .vcmpLe j a b k => Sys2Proof.Machine.execVcmpLe j a b k s
  | .vcmpLtu j a b k => Sys2Proof.Machine.execVcmpLtu j a b k s
  | .vcmpLeu j a b k => Sys2Proof.Machine.execVcmpLeu j a b k s
  | .vfcmpEq j a b k => Sys2Proof.Machine.execVfcmpEq j a b k s
  | .vfcmpLt j a b k => Sys2Proof.Machine.execVfcmpLt j a b k s
  | .vfcmpLe j a b k => Sys2Proof.Machine.execVfcmpLe j a b k s
  | .vfcmpUn j a b k => Sys2Proof.Machine.execVfcmpUn j a b k s
  | .kand j x y k => Sys2Proof.Machine.execKand j x y k s
  | .kor j x y k => Sys2Proof.Machine.execKor j x y k s
  | .kxor j x y k => Sys2Proof.Machine.execKxor j x y k s
  | .kandn j x y k => Sys2Proof.Machine.execKandn j x y k s
  | .kprex j x k => Sys2Proof.Machine.execKprex j x k s
  | .kprin j x k => Sys2Proof.Machine.execKprin j x k s
  | .ksufin j x k => Sys2Proof.Machine.execKsufin j x k s
  | .kpopc d x k => Sys2Proof.Machine.execKpopc d x k s
  | .kfirst d x k => Sys2Proof.Machine.execKfirst d x k s
  | .kmov j x k => Sys2Proof.Machine.execKmov j x k s
  | .ktov d x k => Sys2Proof.Machine.execKtov d x k s
  | .vtok j a k => Sys2Proof.Machine.execVtok j a k s
  | .kset j k => Sys2Proof.Machine.execKset j k s
  | .vcvt c m x0 d a k => Sys2Proof.Machine.execVcvt c m x0 d a k s
  | .vredsum t b k => Sys2Proof.Machine.execVredsum t b k s
  | .vredmax t b k => Sys2Proof.Machine.execVredmax t b k s
  | .vredmin t b k => Sys2Proof.Machine.execVredmin t b k s
  | .vredand t b k => Sys2Proof.Machine.execVredand t b k s
  | .vredor t b k => Sys2Proof.Machine.execVredor t b k s
  | .vredxor t b k => Sys2Proof.Machine.execVredxor t b k s
  | .vfredsum t b k => Sys2Proof.Machine.execVfredsum t b k s
  | .vfredmax t b k => Sys2Proof.Machine.execVfredmax t b k s
  | .vfredmin t b k => Sys2Proof.Machine.execVfredmin t b k s
  | .vscan d a b k => Sys2Proof.Machine.execVscan d a b k s
  | .vfscan d a b k => Sys2Proof.Machine.execVfscan d a b k s
  | .vcompress d a k => Sys2Proof.Machine.execVcompress d a k s
  | .vexpand d a k => Sys2Proof.Machine.execVexpand d a k s
  | .vtopk d a b k => Sys2Proof.Machine.execVtopk d a b k s
  | .vslideup d a b k => Sys2Proof.Machine.execVslideup d a b k s
  | .vslidedn d a b k => Sys2Proof.Machine.execVslidedn d a b k s
  | .vperm d a b k => Sys2Proof.Machine.execVperm d a b k s
  | .vextr d a b k => Sys2Proof.Machine.execVextr d a b k s
  | .vins d a b k => Sys2Proof.Machine.execVins d a b k s
  | .viota d x k => Sys2Proof.Machine.execViota d x k s
  | .vrowbc d a b k => Sys2Proof.Machine.execVrowbc d a b k s
  | .vld d a k e x h => Sys2Proof.Machine.execVld d a k e x h s
  | .vlds d a b k e x h => Sys2Proof.Machine.execVlds d a b k e x h s
  | .vldx d a b k e x h => Sys2Proof.Machine.execVldx d a b k e x h s
  | .vldff d a k e x h => Sys2Proof.Machine.execVldff d a k e x h s
  | .vldw d a b k e x h => Sys2Proof.Machine.execVldw d a b k e x h s
  | .vldmx d a b k x h => Sys2Proof.Machine.execVldmx d a b k x h s
  | .vldaq d a k e x h => Sys2Proof.Machine.execVldaq d a k e x h s
  | .vst d a k e h => Sys2Proof.Machine.execVst d a k e h s
  | .vsts d a b k e h => Sys2Proof.Machine.execVsts d a b k e h s
  | .vstx d a b k e h => Sys2Proof.Machine.execVstx d a b k e h s
  | .vstp d a k e h => Sys2Proof.Machine.execVstp d a k e h s
  | .vcommit k => Sys2Proof.Machine.execVcommit k s
  | .vamoadd o e d a b k => Sys2Proof.Machine.execVamoadd o e d a b k s
  | .vamoand o e d a b k => Sys2Proof.Machine.execVamoand o e d a b k s
  | .vamoor o e d a b k => Sys2Proof.Machine.execVamoor o e d a b k s
  | .vamoxor o e d a b k => Sys2Proof.Machine.execVamoxor o e d a b k s
  | .vamomin o e d a b k => Sys2Proof.Machine.execVamomin o e d a b k s
  | .vamomax o e d a b k => Sys2Proof.Machine.execVamomax o e d a b k s
  | .vamominu o e d a b k => Sys2Proof.Machine.execVamominu o e d a b k s
  | .vamomaxu o e d a b k => Sys2Proof.Machine.execVamomaxu o e d a b k s
  | .vamoswap o e d a b k => Sys2Proof.Machine.execVamoswap o e d a b k s
  | .vamofadd o r e d a b k => Sys2Proof.Machine.execVamofadd o r e d a b k s
  | .mbegin d a => Sys2Proof.Machine.execMbegin d a s
  | .mend => Sys2Proof.Machine.execMend s
  | .mzero t => Sys2Proof.Machine.execMzero t s
  | .mprod t a b k => Sys2Proof.Machine.execMprod t a b k s
  | .mprodn t a b k => Sys2Proof.Machine.execMprodn t a b k s
  | .mprods t d a b k => Sys2Proof.Machine.execMprods t d a b k s
  | .mrd t x0 d a => Sys2Proof.Machine.execMrd t x0 d a s
  | .mwr t x0 d a => Sys2Proof.Machine.execMwr t x0 d a s
  | .mld c t x0 a b => Sys2Proof.Machine.execMld c t x0 a b s
  | .mst c t x0 a b => Sys2Proof.Machine.execMst c t x0 a b s
  | .mtgemm c a => Sys2Proof.Machine.execMtgemm c a s
  | .xcopy c a => Sys2Proof.Machine.execXcopy c a s
  | .xfill c a => Sys2Proof.Machine.execXfill c a s
  | .czero c a b => Sys2Proof.Machine.execCzero c a b s
  | .hdrain c a h => Sys2Proof.Machine.execHdrain c a h s
  | .ccwait c b => Sys2Proof.Machine.execCcwait c b s
  | .ccrd c a => Sys2Proof.Machine.execCcrd c a s
  | .smap d a b w => Sys2Proof.Machine.execSmap d a b w s
  | .sunmap w => Sys2Proof.Machine.execSunmap w s
  | .swb c w => Sys2Proof.Machine.execSwb c w s
  | .cadd f a b => Sys2Proof.Machine.execCadd f a b s
  | .vcadd f d a b k => Sys2Proof.Machine.execVcadd f d a b k s
  | .craw d a k => Sys2Proof.Machine.execCraw d a k s
  | .cwraw d a k => Sys2Proof.Machine.execCwraw d a k s
  | .hclaim d a h => Sys2Proof.Machine.execHclaim d a h s
  | .hrel h => Sys2Proof.Machine.execHrel h s
  | .hins d a b h k => Sys2Proof.Machine.execHins d a b h k s
  | .hprobe d a h k => Sys2Proof.Machine.execHprobe d a h k s
  | .hdel a h k => Sys2Proof.Machine.execHdel a h k s
  | .hacc f d a b h k => Sys2Proof.Machine.execHacc f d a b h k s
  | .hstat d h => Sys2Proof.Machine.execHstat d h s
  | .imageLoad m => Sys2Proof.Machine.execImageLoad m s
  | .imageDrop m => Sys2Proof.Machine.execImageDrop m s
  | .launch m => Sys2Proof.Machine.execLaunch m s
  | .graphDefine m => Sys2Proof.Machine.execGraphDefine m s
  | .graphReplay m => Sys2Proof.Machine.execGraphReplay m s
  | .graphPatch m => Sys2Proof.Machine.execGraphPatch m s
  | .sync m => Sys2Proof.Machine.execSync m s
  | .query m => Sys2Proof.Machine.execQuery m s
  | .partitionSet m => Sys2Proof.Machine.execPartitionSet m s
  | .dieReset m => Sys2Proof.Machine.execDieReset m s
  | .attest m => Sys2Proof.Machine.execAttest m s
  | .policyLoad m => Sys2Proof.Machine.execPolicyLoad m s
  | .completionMessage n => Sys2Proof.Machine.execCompletionMessage n s
  | .dctlFence x => Sys2Proof.Machine.execDctlFence x s
  | .dctlQuiesce x => Sys2Proof.Machine.execDctlQuiesce x s
  | .dctlFlush x => Sys2Proof.Machine.execDctlFlush x s
  | .dctlSelfref x => Sys2Proof.Machine.execDctlSelfref x s
  | .dctlReset x => Sys2Proof.Machine.execDctlReset x s
  | .dctlTrain x => Sys2Proof.Machine.execDctlTrain x s
  | .dctlAdmit x => Sys2Proof.Machine.execDctlAdmit x s
  | .dieActionComplete x f => Sys2Proof.Machine.execDieActionComplete x f s
  | .dispatchRound => Sys2Proof.Machine.execDispatchRound s
  | .preemptionRequest => Sys2Proof.Machine.execPreemptionRequest s
  | .gangStopComplete g => Sys2Proof.Machine.execGangStopComplete g s
  | .gangEnd g => Sys2Proof.Machine.execGangEnd g s
  | .graphNodeQueue r n => Sys2Proof.Machine.execGraphNodeQueue r n s
  | .cpServiceReply => Sys2Proof.Machine.execCpServiceReply s
  | .watchdog => Sys2Proof.Machine.execWatchdog s
  | .engineAccept => Sys2Proof.Machine.execEngineAccept s
  | .engineComplete n => Sys2Proof.Machine.execEngineComplete n s
  | .barrierEpisodeComplete g x => Sys2Proof.Machine.execBarrierEpisodeComplete g x s
  | .leadInstruction => Sys2Proof.Machine.execLeadInstruction s
  | .leadPrefetchFill n => Sys2Proof.Machine.execLeadPrefetchFill n s
  | .l2LineEviction l => Sys2Proof.Machine.execL2LineEviction l s
  | .patrolScrub l c => Sys2Proof.Machine.execPatrolScrub l c s
  | .voltageUpdate => Sys2Proof.Machine.execVoltageUpdate s
  | .capStep p => Sys2Proof.Machine.execCapStep p s
  | .kettleUpdate p => Sys2Proof.Machine.execKettleUpdate p s
  | .temperatureCrossing x c => Sys2Proof.Machine.execTemperatureCrossing x c s
  | .thermalTrip x => Sys2Proof.Machine.execThermalTrip x s
  | .mainPowerUp b => Sys2Proof.Machine.execMainPowerUp b s
  | .mainPowerDown => Sys2Proof.Machine.execMainPowerDown s
  | .portDown x lost => Sys2Proof.Machine.execPortDown x lost s
  | .linkFlitRetry x => Sys2Proof.Machine.execLinkFlitRetry x s
  | .portstatRead x => Sys2Proof.Machine.execPortstatRead x s
  | .hostRead r => Sys2Proof.Machine.execHostRead r s
  | .hostWrite r => Sys2Proof.Machine.execHostWrite r s
  | .peerRequest r => Sys2Proof.Machine.execPeerRequest r s
  | .sidebandPldmRequest t q => Sys2Proof.Machine.execSidebandPldmRequest t q s
  | .sidebandPowerLimit w => Sys2Proof.Machine.execSidebandPowerLimit w s
  | .illegalInstruction w => Sys2Proof.Machine.execIllegalInstruction w s
  | .fetchFault w => Sys2Proof.Machine.execFetchFault w s
  | .vectorInstructionCompletion => Sys2Proof.Machine.execVectorInstructionCompletion s
  | .accessPerforms n => Sys2Proof.Machine.execAccessPerforms n s
  | .uncorrectableError u => Sys2Proof.Machine.execUncorrectableError u s
  | .portUp x n far => Sys2Proof.Machine.execPortUp x n far s

end Sys2Proof.Machine
end

