-- ==== Sys2Proof/Machine/Hooks.lean ====
section
/-! DEFINITION. What surrounds an instruction: waits for engine commands that are not accepted, counts, a stop inside an instruction,
time, caches that fill and lose entries at any time, and what comes from outside (02 R44; 07 R175; 10 R236; 18 R315; 19 R329, R330; 21
R366). -/

namespace Sys2Proof.Machine

/-! ## Which hart (log 4) -/

/-- Make the k-th hart the current one; a place where no hart is launched is dropped. -/
def State.focus (s : State) : Nat → State
  | 0 => s
  | k + 1 =>
    match s.others[k]? with
    | none => s
    | some h =>
      let rest := s.others.eraseIdx k
      { s with hart := h, others := if s.hart.status = .vacant then rest else s.hart :: rest }

/-! ## Around the instruction -/

/-- An engine command has not been accepted, and the instruction is one that waits for it (10 R236). -/
def engineGate (h : Hart) (w : BitVec 32) : Bool :=
  h.unaccepted && (vecWord w || w.toNat / 67108864 == 61) && !(w.toNat / 67108864 == 61 && (w.toNat % 256 == 6 || w.toNat % 256 == 7))

/-- EXIT and JOIN end the run of a class L request, which then is taken as class P before them (19 R330). -/
def endsRun : Instr → Bool
  | .exit | .join => true
  | _ => false
def State.fallBack (s : State) (c : Bool) : State := s.withHart fun h => { h with preempt := h.preempt.fallBack c }

/-- Instructions that a hart retires at U level after a class L request are counted (19 R330). -/
def countRun (before : Hart) (h : Hart) : Hart :=
  match h.preempt.runOn with
  | none => h
  | some n => if before.priv.level || before.priv.trap then h else { h with preempt := { h.preempt with runOn := some (n + 1) } }

/-- A class L request falls back where the hart has retired as many instructions as it may and stands at no listed address (19 R330). -/
def State.runOut (s : State) : State :=
  s.fallBack (s.hart.preempt.runOn.any (fun n => decide (Config.classLLimit ≤ n)) && s.listedAt.isNone)

/-- What follows an instruction of the hart `before`: the lead, the count of class L, and progress for the watchdog (18 R315).  A PWRSR of
WDCOUNT retires in the cycle in which it writes, and progress sets the count to 0: the model's choice (log 78). -/
def State.afterInstr (s : State) (before : Hart) (i : Instr) : State :=
  if retiredBy before s.hart then
    ((s.followLead before i).withHart fun h => countRun before { h with priv := { h.priv with wdcount := 0 } }).runOut
  else s

/-! ## What registers come from (05 R103, R105) -/

/-- What a register comes from: no read, where nothing is noted of it. -/
def Hart.sourceOf (h : Hart) (r : RegName) : Source := (lookupReg r h.sources).getD { at_ := 0, own := [] }
where
  lookupReg (r : RegName) (l : List (RegName × Source)) : Option Source := (l.find? fun x => x.1 == r).map Prod.snd

/-- What a value of several registers comes from. -/
def joinSources (l : List Source) : Source :=
  l.foldl (fun x y => { at_ := max x.at_ y.at_, own := x.own ++ y.own.filter fun z => !x.own.contains z }) { at_ := 0, own := [] }

/-- What the values of the registers of a list come from, a vector register standing for its group. -/
def Hart.sourcesOf (h : Hart) (rs : List RegName) : Source := joinSources ((eachReg h.shape.vtype rs).map h.sourceOf)

/-- Before an access, the reads that its address comes from have performed: it uses no read made earlier than they were, and the bytes that
they took from a write that only its own stream sees are seen by the hart. -/
def State.beforeAccess (s : State) (i : Instr) : State :=
  let x := s.hart.sourcesOf (addressSources i)
  let s := if x.own.isEmpty then s
    else s.raise (fun w => s.mine w && w.level == .stream && x.own.any fun o => w.overlaps o.1 o.2) .hart
  s.withHart fun h => { h with since := x.at_ }

/-- The bytes of writes that only its own stream sees and that a load takes. -/
def State.ownReads (s : State) (i : Instr) : List (Nat × Nat) :=
  if s.writes.isEmpty then []
  else
    let st : Stream := if toLookahead i then .vector else .scalar
    let ps := (s.hart.addresses i).filterMap (s.probe (s.hart.ctx (.stream st)) Needs.load)
    (s.writes.filter fun w => s.mine w && w.level == .stream && w.stream == st && ps.any fun p => w.overlaps p.pa 8).map fun w => (w.pa, w.len)

/-- The destinations of an instruction that has been executed in `s` come from its reads, or from its sources. -/
def State.noteSources (t s : State) (i : Instr) : State :=
  let u := leadUse i
  let ds := eachReg s.hart.shape.vtype u.dests
  if ds.isEmpty then t
  else
    let x : Source := if (addressSources i).isEmpty then s.hart.sourcesOf u.srcs
      else joinSources [s.hart.sourcesOf (addressSources i), { at_ := t.tick, own := s.ownReads i }]
    let old (h : Hart) := h.sources.filter fun y => !ds.contains y.1
    t.withHart fun h => { h with sources := if x.at_ = 0 && x.own.isEmpty then old h else ds.map (fun r => (r, x)) ++ old h }

/-- A function on the next state of an outcome. -/
def thenDo (o : Out1) (f : State → State) : Out1 :=
  match o with
  | .next t => .next (f t)
  | .fault x => .fault x
  | .refused x => .refused x

/-- The hart runs. -/
def State.wake (s : State) : State := s.withHart fun h => { h with status := .running }
/-- The word in execution; the first one starts CYCLES (02 R44). -/
def State.setIr (s : State) (w : BitVec 32) : State := s.withHart fun h => { h with ir := w, started := true }

/-- An instruction where no engine command holds it back. -/
def execGated (i : Instr) (w : BitVec 32) (s : State) : Out1 := if engineGate s.hart w then .next (s.waitFor .vector) else exec i s

/-- An instruction by `f`, in the order of what its registers come from. -/
def inOrder (f : Instr → BitVec 32 → State → Out1) (i : Instr) (w : BitVec 32) (s : State) : Out1 :=
  thenDo (f i w (s.beforeAccess i)) fun t => if retiredBy s.hart t.hart then t.noteSources s i else t

/-- Run a decoded instruction of the current hart by `f`. -/
def runWith (f : Instr → BitVec 32 → State → Out1) (i : Instr) (w : BitVec 32) (s : State) : Out1 :=
  let s := s.fallBack (endsRun i)
  if endsRun i && s.hart.preempt.fell && s.hart.preempt.pending.isSome && !s.hart.priv.trap then execPreemptionRequest s
  else thenDo (inOrder f i w s) fun t => t.afterInstr s.hart i

/-- Run a decoded instruction of the current hart. -/
def runInstr (i : Instr) (w : BitVec 32) (s : State) : Out1 := runWith execGated i w s

/-! ## Early checks (18 R311) -/

/-- Instructions of the pending entries of a strip. -/
def recordsPending : Instr → Bool
  | .vstp .. => true
  | _ => false
def commitsPending : Instr → Bool
  | .vcommit .. => true
  | _ => false

/-- The matrix mode after a queued instruction (10 R227). -/
def modeAfter (m : Option (Fmt × Fmt)) (e : QueueEntry) : Option (Fmt × Fmt) :=
  match e.instr with
  | .mbegin _ a =>
    let x := (if a = 0 then 0 else e.front.s[a]).toNat
    (pairOfCodes (bitsAt x 0 4) (bitsAt x 4 4)).map fun y => (y.1, y.2.1)
  | .mend => none
  | _ => m

/-- The state in which an instruction is checked before it executes: with the VSTP instructions that are queued counted, and in the
matrix mode that the queued instructions leave. -/
def State.asChecked (s : State) : State :=
  s.withHart fun h => { h with queue := [], engine := [], taken := [], begun := false, lanes := [], lanesCut := none, spun := false
                               status := .running, priv := { h.priv with trap := false }, matrix := h.queue.foldl modeAfter h.matrix
                               vstpRun := h.vstpRun + (h.queue.filter fun e => recordsPending e.instr).length }

/-- The code of the trap that an instruction takes in a state. -/
def trapCode (i : Instr) (s : State) : Option (BitVec 8) :=
  match exec i s with
  | .next t => if t.hart.traps != s.hart.traps then some (t.hart.priv.tcause.extractLsb' 0 8) else none
  | .fault _ | .refused _ => none

/-- A check of the word or of the configuration fails. -/
def failsCheck (i : Instr) (s : State) : Bool := (trapCode i s.asChecked).any fun c => c == 1 || c == 2

/-! ## A stop inside an instruction (02 R35; 19 R329) -/

/-- The columns between which a stop may fall inside an instruction: those of one position, of a cell (11 R256) or of a block
(09 R216); 0 where it falls at a boundary only. -/
def stopGrain (p : Shape) : Instr → Nat
  | .vld .. | .vlds .. | .vldx .. | .vldff .. | .vldaq .. | .vst .. | .vsts .. | .vstx .. => 1
  | .vamoadd .. | .vamoand .. | .vamoor .. | .vamoxor .. | .vamomin .. | .vamomax .. | .vamominu .. | .vamomaxu .. | .vamoswap ..
  | .vamofadd .. => 1
  | .vcadd .. | .hins .. | .hprobe .. | .hdel .. | .hacc .. => 1
  | .craw .. | .cwraw .. => 8
  | .vldmx .. => vtBlk p.vtype
  | _ => 0

/-- The mask of a fault-only-first load that names one. -/
def firstFaultMask : Instr → Option MReg
  | .vldff _ _ k _ _ _ => if k = 0 then none else some k
  | _ => none

/-- The state after an instruction that completes, with the hart at the instruction again; none where it does not complete. -/
def completes (i : Instr) (s : State) : Option State :=
  match exec i s with
  | .next t => if retiredBy s.hart t.hart && t.hart.resident then some (t.withHart fun h => { h with pc := s.hart.pc }) else none
  | .fault _ | .refused _ => none

/-- An instruction completes on the part of its sweep in the columns below `cols` and the rows below `rows`; a fault-only-first load
that a failure shortens does not count. -/
def spanDone (i : Instr) (rows cols : Nat) (s : State) : Option State :=
  let p := s.hart.shape
  (completes i (s.withHart fun h => { h with shape := { p with vl := cols, vrows := rows } })).bind fun t =>
    if (firstFaultMask i).isSome && t.hart.k != s.hart.k then none
    else some (t.withHart fun h => { h with shape := { h.shape with vl := p.vl, vrows := p.vrows } })

/-- The instruction waits at a position, all before it being done; a fault-only-first load goes on from there. -/
def State.holdAt (s : State) (i : Instr) (before : Hart) (row col : Nat) : State :=
  let ps := before.shape.positions.filter fun x => decide (startCode x.1 x.2 < startCode row col)
  (s.withHart fun h => { h with status := .waiting .vector
                                begun := match firstFaultMask i with
                                  | some k => before.begun || ps.any fun x => before.active k x.1 x.2
                                  | none => false }).setStart (packStart row col)

/-- The positions of an instruction before (row, col) are done, and it waits there. -/
def doneUntil (i : Instr) (row col : Nat) (s : State) : Option State :=
  let h := s.hart
  (if h.shape.startRow < row then (spanDone i row h.shape.vl s).map fun t => t.setStart (packStart row 0) else some s).bind fun t =>
    (if col = 0 then some t else spanDone i (row + 1) col t).map fun t => t.holdAt i h row col

/-- The first `n` pending entries are committed, and VCOMMIT waits at the next one. -/
def committedUntil (i : Instr) (n : Nat) (s : State) : Option State :=
  let bs := s.hart.vstp
  let es := (bs.zip (upTo bs.length)).flatMap fun x => x.1.entries.map fun y => (x.2, y)
  let only (j : Nat) (xs : List (Nat × (Nat × Nat))) (b : VstpBlock) : VstpBlock :=
    { b with mask := (xs.filter fun x => x.1 == j).foldl (fun m x => withMaskBit m (x.2.1 * 1024 + x.2.2) true) 0 }
  match es[n]? with
  | none => none
  | some x =>
    match bs.drop x.1 with
    | [] => none
    | b :: r =>
      (completes i (s.withHart fun h => { h with vstp := bs.take x.1 ++ [only x.1 (es.take n) b] })).map fun t =>
        (t.withHart fun h => { h with vstp := only x.1 (es.drop n) b :: r, status := .waiting .vector }).setStart (packStart x.2.1 x.2.2)

/-- An instruction up to a free position inside it, or a VAMO up to some of its lanes; the whole of it where it has none, or stops
before. -/
def partOf (i : Instr) (w : BitVec 32) (s : State) : Out1 :=
  match vamoPart i with
  | some m => if engineGate s.hart w || failsCheck i s then execGated i w s else run m s
  | none =>
  let p := s.hart.shape
  let n := Config.freeNat s.fresh
  let t := { s with fresh := s.fresh + 1 }
  let part : Option State :=
    if engineGate s.hart w || failsCheck i s then none
    else if commitsPending i then
      if n % ((s.hart.vstp.map fun b => b.entries.length).foldl (· + ·) 0) = 0 then none
      else committedUntil i (n % ((s.hart.vstp.map fun b => b.entries.length).foldl (· + ·) 0)) t
    else
      let g := stopGrain p i
      let cols := if g = 0 then 0 else (p.vl + g - 1) / g
      let at_ := n % (p.vrows * cols)
      let row := at_ / cols
      let col := g * (at_ % cols)
      if cols = 0 || decide (startCode row col ≤ startCode p.startRow p.startCol) || decide (p.vrows ≤ row) then none
      else doneUntil i row col t
  match part with
  | some u => .next u
  | none => execGated i w s

/-! ## Time (02 R44; 18 R315) -/

/-- The hart holds lanes and is not in WAITEV. -/
def Hart.eligible (h : Hart) : Bool := h.resident && h.status != .waiting .waitev

/-- Lane cycles pass for a hart; those without progress count for the watchdog where it is eligible and no limit of the power controller
holds its work.  A Watchdog cause becomes pending as WDCOUNT reaches WDLIMIT, and stays so if WDCOUNT is cleared later (18 R312,
R315, R316). -/
def Hart.passTime (c : Nat) (held : Bool) (h : Hart) : Hart :=
  let cycles := if h.resident && h.resume.isNone && h.started then h.cycles + BitVec.ofNat 64 c else h.cycles
  let wd := if h.eligible && !held then BitVec.ofNat 48 (min (h.priv.wdcount.toNat + c) (2 ^ 48 - 1)) else h.priv.wdcount
  let p := { h.priv with wdcount := wd }
  { h with cycles := cycles, priv := p, watchdog := h.watchdog || (!h.priv.watchdogDue && p.watchdogDue) }

/-- A limit of the power controller may hold work of a hart whose core is not at step 0 of the cap ladder (23 R390). -/
def State.heldByCap (s : State) (h : Hart) : Bool := s.capStep h.ident.coreKey != 0 && Config.capHolds h.ident.hartid.toNat s.tick

/-- Lane cycles pass for every hart. -/
def State.passTime (s : State) (c : Nat) : State := s.mapHarts fun h => h.passTime c (s.heldByCap h)

/-- The watchdog's count after an engine command has completed (18 R315). -/
def State.progress (s : State) : State := s.withHart fun h => { h with priv := { h.priv with wdcount := 0 } }

/-! ## Caches at any time -/

/-- A walk that no access needs, for a free address in the hart's address space (21 R366). -/
def walkAny (s : State) : Out1 :=
  run (do
    let va ← freshWord
    modify fun s => s.fillWalkOf (s.hart.ctx .home) va) s

/-- A stream of the hart reads a free unit ahead of the instruction that uses it: its later accesses may be made before its earlier ones to
other bytes (05 R103, R104), but not where a write of its own to the unit is on its way. -/
def readAny (s : State) : Out1 :=
  run (do
    let u ← freshNat
    let st : Stream := if ← freshBit then .scalar else .vector
    match st with
    | .scalar => obeyScalar
    | .vector => obeyVector
    let c := (← get).hart.ctx (.stream st)
    let pa := 8 * u
    let s ← get
    if s.reaches c false pa && !s.badUnits pa 8 && !s.writes.any (fun w => s.mine w && w.level == .stream && w.overlaps pa 8) then
      untilStopped (recallLine none (paLine pa))
      settleAdds c.view pa 8
      modify fun s =>
        let r : EarlyRead := { stream := st, unit := u, value := leNat (s.bytes c.view pa 8), at_ := s.tick }
        s.withHart fun h => { h with reads := (r :: h.reads).take earlyReads }) s

/-- The instruction cache takes the word at a free address, as memory holds it (07 R175). -/
def fetchAny (s : State) : Out1 :=
  run (do
    let va := (← freshWord) &&& ~~~3
    let c ← fetchCtx
    match (← get).probe c Needs.fetch va with
    | none => pure ()
    | some p =>
      let s ← get
      if s.reaches c false p.pa && !s.badUnits p.pa 4 then
        recallLine none (paLine p.pa)
        askHome p.pa 4
        modify fun s => s.cacheWord va (BitVec.ofNat 32 (leNat (s.bytes c.view p.pa 4)))) s

/-- A copy leaves a cache for room, written back if it is modified (04 R83, R87). -/
def replaceCopy (n : Nat) (s : State) : Out1 :=
  match s.copies[n]? with
  | none => never
  | some x => run (dropCopy x) s

/-- A cached translation leaves its cache (21 R366). -/
def forgetLeaf (n : Nat) (s : State) : Out1 := .next { s with tlb := s.tlb.eraseIdx n }

/-! ## What comes from outside -/

/-- The events that the outside raises; no other constructor is taken from `inputs`. -/
def fromOutside : Instr → Bool
  | .imageLoad _ | .imageDrop _ | .launch _ | .graphDefine _ | .graphReplay _ | .graphPatch _ | .sync _ | .query _
  | .partitionSet _ | .dieReset _ | .attest _ | .policyLoad _ => true
  | .patrolScrub _ _ | .voltageUpdate | .capStep _ | .kettleUpdate _ | .temperatureCrossing _ _ | .thermalTrip _ => true
  | .mainPowerUp _ | .mainPowerDown | .portDown _ _ | .portUp _ _ _ | .linkFlitRetry _ | .portstatRead _ => true
  | .hostRead _ | .hostWrite _ | .peerRequest _ | .sidebandPldmRequest _ _ | .sidebandPowerLimit _ | .uncorrectableError _ => true
  | _ => false

/-- The next event from outside. -/
def takeInput (s : State) : Out1 :=
  match s.inputs with
  | [] => .next s
  | i :: r => if fromOutside i then exec i { s with inputs := r } else .next { s with inputs := r }

end Sys2Proof.Machine
end

