-- ==== Sys2Proof/Machine/Queue.lean ====
section
/-! DEFINITION. The vector instruction queue (01 R9, 02 R41, 18 R311): the front end retires vector instructions into it and runs ahead of
it, the lanes execute its oldest instruction, and an asynchronous cause finds the stop point of 19 R329.  Then fetching, the boundary
and the lead's fetch.  The decoder builds constructors beyond the number that compiled code can build, so what uses it is marked
noncomputable; Lean's kernel evaluates it. -/

namespace Sys2Proof.Machine

/-! ## What the queue takes -/

/-- The entries of a hart's queue: 64, or 32 for each hart of a split core (01 R8, 02 R41). -/
def Shape.queueSize (p : Shape) : Nat := if p.split then 32 else 64
/-- The scalar instructions that the front end holds (18 R311). -/
def holdWindow : Nat := 64

/-- The word is one of the lanes, the matrix unit or the vector memory unit. -/
def usesLanes (w : BitVec 32) : Bool :=
  let op := w.toNat / 67108864
  (decide (50 ≤ op) && decide (op ≤ 60)) || op == 62

/-- The instructions that pass through the queue (02 R32): those of the lanes, and those of ENGINE but CCWAIT, at which the hart itself
waits (02 R45). -/
def queueable (w : BitVec 32) : Bool := usesLanes w || (w.toNat / 67108864 == 61 && w.toNat % 256 != 6)

/-- The scalar registers that an instruction gives the front end. -/
def scalarResults (i : Instr) : List SReg :=
  (leadUse i).dests.filterMap fun r => match r with
    | .s x => if x = 0 then none else some x
    | .shape | .v _ | .k _ => none

/-- The instruction reads or writes a scalar register that a queued one has still to give (05 R105). -/
def Hart.interlocked (h : Hart) (i : Instr) : Bool :=
  let ds := h.queue.flatMap fun e => scalarResults e.instr
  let u := leadUse i
  ds.any fun d => u.srcs.contains (.s d) || u.dests.contains (.s d)

/-- An acquire that is queued: no later access is made before its reads (05 R113, 09 R219, R221). -/
def acquires : Instr → Bool
  | .vldaq .. => true
  | .vamoadd o _ _ _ _ _ | .vamoand o _ _ _ _ _ | .vamoor o _ _ _ _ _ | .vamoxor o _ _ _ _ _ | .vamomin o _ _ _ _ _
  | .vamomax o _ _ _ _ _ | .vamominu o _ _ _ _ _ | .vamomaxu o _ _ _ _ _ | .vamoswap o _ _ _ _ _ | .vamofadd o _ _ _ _ _ _ => isAcquire o
  | _ => false

/-- A command that the instruction issues. -/
def issues : Instr → Bool
  | .mld .. | .mst .. | .mtgemm .. | .xcopy .. | .xfill .. | .czero .. | .hdrain .. | .swb .. => true
  | _ => false

/-- The early checks pass: one that makes memory accesses may still trap at a position (18 R311). -/
def passesEarly (i : Instr) (w : BitVec 32) (s : State) : Bool :=
  match trapCode i s.asChecked with
  | none => true
  | some c => unsureWord w && c != 1 && c != 2

/-- The scalar instructions that are held: those after the oldest unconfirmed instruction. -/
def Hart.held (h : Hart) : Nat := ((h.queue.dropWhile fun e => !e.unsure).map QueueEntry.past).foldl (· + ·) 0

/-! ## The front end -/

/-- A scalar register. -/
def RegName.isScalar : RegName → Bool
  | .s _ => true
  | .v _ | .k _ | .shape => false

/-- The trail meets the lead's address entries of an instruction that it queues: their signature, which the vector memory unit compares
when it has the addresses (01 R22). -/
def Lead.takeAddress (l : Lead) (pc : Word) : Option (BitVec 32) × Lead :=
  match l.buffer with
  | .address p g _ :: _ => if p = pc then (some g, { l with buffer := dropEntries pc l.buffer }) else (none, l)
  | _ => (none, l)

/-- What the front end holds at an instruction. -/
def Hart.front (h : Hart) : Front :=
  { s := h.s, bad := h.ecc.s, fcsr := h.fcsr, rs := h.rs, shape := h.shape, strip := h.strip, det := h.det
    sources := h.sources.filter fun x => x.1.isScalar }

/-- The front end retires an instruction into the queue, or stalls where it is full (01 R9). -/
def enqueue (i : Instr) (w : BitVec 32) (s : State) : Out1 :=
  let h := s.hart
  if h.shape.queueSize ≤ h.queue.length then .next (s.waitFor .queue)
  else if !passesEarly i w s then (if h.queue.isEmpty then never else .next (s.waitFor .vector))
  else
    let x := h.lead.takeAddress h.pc
    let e : QueueEntry := { pc := h.pc, word := w, instr := i, front := h.front, signature := x.1, past := 0 }
    let s := s.setLead x.2
    .next ((((s.withHart fun h => { h with queue := h.queue ++ [e] }).setStart 0).advance).afterInstr s.hart i)

/-- The front end may execute an instruction behind queued ones (18 R311): scalar computation, stores, branches, loads where no queued
acquire is before them, RDSR of what the lanes do not write, and the configuration instructions where no pending entry of VSTP is in
question; atomics, acquires, releases, PREF and the other system instructions once the queued ones are confirmed, but those that the rest
of the queue must come before: traps and returns from them, FORK, JOIN and EXIT, CCWAIT, the context instructions, and what reads or
writes state that the lanes or the engines still change. -/
def runsAhead (i : Instr) (w : BitVec 32) (h : Hart) : Bool :=
  let op := w.toNat / 67108864
  let sure := h.unsure == 0
  if (decide (1 ≤ op) && decide (op ≤ 13)) || (decide (23 ≤ op) && decide (op ≤ 26)) || (decide (32 ≤ op) && decide (op ≤ 40)) then true
  else if decide (16 ≤ op) && decide (op ≤ 22) then !h.queue.any fun e => acquires e.instr
  else if decide (27 ≤ op) && decide (op ≤ 29) then sure
  else if op == 48 || op == 49 then h.vstp.isEmpty && !h.queue.any fun e => recordsPending e.instr || commitsPending e.instr
  else match i with
    | .rdsr _ .vstart | .rdsr _ .fcsr | .rdsr _ .mxflags | .wrsr .fcsr _ | .wrsr .mxflags _ => false
    | .rdsr _ _ => true
    | .prdsr _ .vdirty | .prdsr _ .adirty | .pwrsr .vdirty _ | .pwrsr .adirty _ => false
    | .wrsr _ _ | .prdsr _ _ | .pwrsr _ _ | .spin | .leadhold | .gbar _ | .gbara _ | .gbarw _ | .hsig _ _ | .waitev _ | .cwb _ _
    | .cinv _ _ => sure
    | .fence p _ _ => sure && !(p.e && h.queue.any fun e => issues e.instr)
    | _ => false

/-- What the hart waits for at an instruction that the queue must come before (02 R45). -/
def queueWait : Instr → WaitKind
  | .fork _ _ => .forkDrain
  | .exit => .exitDrain
  | .join => .join
  | .ccwait _ _ => .ccwait
  | _ => .vector

/-- One more scalar instruction has retired after the newest entry. -/
def countPast : List QueueEntry → List QueueEntry
  | [] => []
  | [e] => [{ e with past := e.past + 1 }]
  | e :: es => e :: countPast es

/-- The front end's next instruction behind queued ones; one that may not run ahead or that traps stays until they are complete. -/
def behindQueue (i : Instr) (w : BitVec 32) (s : State) : Out1 :=
  let h := s.hart
  if h.interlocked i then .next (s.waitFor .vector)
  else if queueable w then enqueue i w s
  else if !runsAhead i w h || decide (holdWindow ≤ h.held) then .next (s.waitFor (queueWait i))
  else match inOrder (fun i _ s => exec i s) i w s with
    | .next t =>
      if t.hart.status.isWaiting then .next t
      else if retiredBy h t.hart && t.hart.resident then .next ((t.withHart fun x => { x with queue := countPast x.queue }).afterInstr h i)
      else .next (s.waitFor .vector)
    | .fault _ | .refused _ => .next (s.waitFor .vector)

/-! ## The lanes -/

/-- The hart as the lanes take it for an entry: with its snapshot, and nothing after it. -/
def Hart.atEntry (h : Hart) (e : QueueEntry) : Hart :=
  { h with pc := e.pc, ir := e.word, s := e.front.s, fcsr := e.front.fcsr, rs := e.front.rs
           shape := { e.front.shape with width := h.shape.width }, strip := e.front.strip, ecc := { h.ecc with s := e.front.bad }
           det := e.front.det, sources := e.front.sources ++ h.sources.filter fun x => !x.1.isScalar
           queue := [], stalled := false, spun := false, status := .running }

/-- Scalar registers with those of a list as another set has them. -/
def takeRegs (ds : List SReg) (from_ into : Vector Word 32) : Vector Word 32 := ds.foldl (fun (s : Vector Word 32) (d : SReg) => s.set d from_[d]) into
/-- The registers of a list are in no error. -/
def clearBad (ds : List SReg) (bad : BitVec 32) : BitVec 32 := ds.foldl (fun b d => b &&& ~~~(1#32 <<< d.val)) bad

/-- What an instruction of the lanes gives the front end: the scalar registers `ds`, which nothing after it has touched. -/
def QueueEntry.withResults (t : Hart) (ds : List SReg) (e : QueueEntry) : QueueEntry :=
  { e with front := { e.front with s := takeRegs ds t.s e.front.s, bad := clearBad ds e.front.bad } }

/-- The hart `h` with what the lanes have done in `t`, which gives the scalar registers `ds`, and the entries that are left. -/
def Hart.behind (t h : Hart) (ds : List SReg) (es : List QueueEntry) (stalled : Bool) : Hart :=
  { t with pc := h.pc, ir := h.ir, s := takeRegs ds t.s h.s, fcsr := h.fcsr ||| t.fcsr, rs := h.rs, shape := h.shape, strip := h.strip
           ecc := { t.ecc with s := clearBad ds h.ecc.s }, queue := es.map fun e => (e.withFlags t.fcsr).withResults t ds
           det := h.det, spun := h.spun, stalled := stalled, status := h.status
           sources := (t.sources.filter fun x => !x.1.isScalar || ds.any fun d => x.1 == .s d)
             ++ h.sources.filter fun x => x.1.isScalar && !ds.any fun d => x.1 == .s d }

/-- The oldest entry has completed: the stores that wait for it in the store buffer wait for one less. -/
def State.entryDone (s : State) : State :=
  { s with writes := s.writes.map fun w => if s.mine w then { w with early := w.early - 1 } else w }
/-- Stores in the store buffer are discarded (18 R311). -/
def State.discardHeld (s : State) : State := { s with writes := s.writes.filter fun w => !(s.mine w && w.early != 0) }

/-- The signature of the lead's address entry is compared with the instruction's own addresses; where they differ the lead is forked
again (01 R22). -/
def State.checkAddresses (s : State) (e : QueueEntry) (view : Hart) : State :=
  match e.signature with
  | none => s
  | some g =>
    if g = Config.addressSignature (view.addresses e.instr) || s.hart.lead.mode = .idle then s else s.withHart Hart.forkLead

/-- What the lanes did with the oldest entry in the state `t`: it has completed, it waits, or the hart has trapped or stopped at it,
with everything after it discarded. -/
def State.afterHead (s : State) (e : QueueEntry) (es : List QueueEntry) (t : State) : State :=
  let h := s.hart
  let view := h.atEntry e
  if t.hart.status.isWaiting then
    t.withHart fun x => x.behind h [] ({ e with front := { e.front with shape := { e.front.shape with vstart := x.shape.vstart } } } :: es) true
  else if retiredBy view t.hart && t.hart.resident then
    ((t.withHart fun x => x.behind h (scalarResults e.instr) es false).progress.entryDone).checkAddresses e view
  else t.discardHeld

/-- The lanes execute the oldest entry of the queue by `f`. -/
def runHead (f : Instr → BitVec 32 → State → Out1) (s : State) : Out1 :=
  match s.hart.queue with
  | [] => never
  | e :: es => thenDo (inOrder f e.instr e.word (s.withHart fun h => h.atEntry e)) (s.afterHead e es)

/-- A hart of a split core issues to the lanes unless it issued last and the other has an instruction ready (02 R41). -/
def State.laneTurn (s : State) : Bool :=
  !(s.hart.shape.split && lookupKey s.hart.ident.coreKey s.lanes == some s.hart.ident.hartid
    && s.partner.any fun p => !p.queue.isEmpty && !p.stalled)

/-- The hart has issued to the lanes of its core. -/
def State.noteLanes (s : State) (h : Hart) : State :=
  if h.shape.split then { s with lanes := (h.ident.coreKey, h.ident.hartid) :: s.lanes.filter fun x => x.1 ≠ h.ident.coreKey } else s

/-- An instruction in its turn at the lanes, if it uses them. -/
def inTurn (f : Instr → BitVec 32 → State → Out1) (i : Instr) (w : BitVec 32) (s : State) : Out1 :=
  if !usesLanes w then f i w s
  else if !s.laneTurn then never
  else thenDo (f i w s) fun t => t.noteLanes s.hart

/-! ## The stop point of an asynchronous cause (18 R312; 19 R329, R330) -/

/-- The parent of a child serves a pre-emption request, or saves itself: the child stops where PSTAT.TRAP is 0 (19 R338). -/
def State.childStops (s : State) : Bool :=
  !s.hart.launched && !s.hart.priv.trap && s.others.any fun p =>
    p.launched && p.resident && p.ident.gangid == s.hart.ident.gangid && p.ident.hartidx == s.hart.ident.hartidx
      && (p.preempt.serves || p.status == .waiting .save)

/-- The hart is to stop at its next boundary, with what it has queued: a child, the Watchdog, or a request as class P. -/
def State.stopDue (s : State) : Bool :=
  s.childStops || (!s.hart.priv.trap && (s.hart.watchdogPending || (s.hart.preempt.pending.isSome && s.stopsAsP)))

/-- A request of class L finds the front end at a listed address, where every earlier instruction completes first. -/
def State.listedDue (s : State) : Bool :=
  !s.hart.priv.trap && s.hart.preempt.pending.isSome && s.hart.preempt.runOn.isSome && s.listedAt.isSome

/-- Where U, the oldest queued instruction, is unconfirmed, the stop point is U at its first unperformed position, or the instruction
after U where a stop does not fall inside it; what follows is discarded. -/
def stopAtEntry (e : QueueEntry) (s : State) : Out1 :=
  let u := s.withHart fun h => h.atEntry e
  let back (t : State) : State := (t.withHart fun h => { h with status := s.hart.status, taken := [], begun := false }).discardHeld
  if s.hart.lanesCut.isSome then runHead execGated s
  else if stopGrain u.hart.shape e.instr ≠ 0 || commitsPending e.instr then .next (back u)
  else match execGated e.instr e.word u with
    | .next t =>
      if t.hart.status.isWaiting then runHead execGated s
      else if retiredBy u.hart t.hart && t.hart.resident then .next (back t)
      else .next t.discardHeld
    | o => o

/-- What the queue does where the hart is to stop: confirmed instructions complete. -/
def stopQueued (s : State) : Out1 :=
  match s.hart.queue with
  | [] => never
  | e :: _ => if e.unsure && s.stopDue then stopAtEntry e s else runHead execGated s

/-- What happens at the boundary in place of an instruction: queued instructions on the way to a stop, a stop of a child, or the CTXLOAD
of a resumed hart. -/
def boundary (s : State) : Option Out1 :=
  if !s.hart.queue.isEmpty then (if s.stopDue || s.listedDue then some (stopQueued s) else none)
  else if s.hart.lanesCut.isSome then none
  else if s.childStops then some (.next (s.withHart Hart.stopChild))
  else s.hart.resume.map fun va => run (ctxload va) (s.withHart fun h => { h with status := .running })

/-- The asynchronous cause that is taken at the boundary, the Watchdog first (18 R312). -/
def State.asyncCause (s : State) : Option (State → Out1) :=
  if s.hart.priv.trap || s.hart.amidst then none
  else if s.hart.watchdogPending then some execWatchdog
  else if s.hart.preempt.pending.isSome && s.stopNow.isSome then some execPreemptionRequest
  else none

/-- The instruction at the boundary takes a synchronous trap before it does anything, which comes first (18 R312). -/
def trapsFirst (h t : Hart) : Bool :=
  t.status == .running && t.traps != h.traps && !t.priv.tcause.getLsbD 9 && t.priv.tvstart == h.shape.vstart

/-! ## Fetch and run -/

/-- Fetch at the PC and run; `bad` is what follows a failed fetch and a word that is no instruction. -/
noncomputable def fetchAndRun (f : Instr → BitVec 32 → State → Out1) (bad : Instr → State → Out1) (s : State) : Out1 :=
  match fetch s with
  | .ok w t =>
    match decodeWord w with
    | .ok i => f i w (t.setIr w)
    | .error _ => bad (.illegalInstruction w) (t.setIr w)
  | .error _ _ => bad (.fetchFault s.hart.pc) s

/-- The next instruction of a hart with nothing queued, by `f`; an asynchronous cause comes after a trap that the instruction takes at
once. -/
noncomputable def runFront (f : Instr → BitVec 32 → State → Out1) (s : State) : Out1 :=
  match s.asyncCause with
  | none => fetchAndRun (inTurn (runWith f)) exec s.wake
  | some g =>
    match fetchAndRun runInstr exec s.wake with
    | .next t => if trapsFirst s.hart t.hart then .next t else g s
    | .fault _ | .refused _ => g s

/-- The next step of the current hart's front end, where it is resident (02 R45). -/
noncomputable def runHart (f : Instr → BitVec 32 → State → Out1) (s : State) : Out1 :=
  if !s.hart.resident then never
  else match boundary s with
  | some o => o
  | none =>
    if s.hart.queue.isEmpty then runFront f s
    else fetchAndRun behindQueue (fun _ s => .next (s.waitFor .vector)) s.wake

/-- The front end retires a vector instruction into an empty queue. -/
noncomputable def startQueue (s : State) : Out1 :=
  if !s.hart.resident || s.hart.amidst || (boundary s).isSome || s.asyncCause.isSome then never
  else fetchAndRun (fun i w s => if queueable w then enqueue i w s else never) (fun _ _ => never) s.wake

/-- The lanes take their turn with the oldest entry. -/
def runLanes (f : Instr → BitVec 32 → State → Out1) (s : State) : Out1 :=
  if !s.hart.resident || !s.laneTurn then never else thenDo (runHead f s) fun t => t.noteLanes s.hart

/-- A part of an instruction: of the oldest entry of the queue, or of the next one. -/
noncomputable def runPart (s : State) : Out1 := if s.hart.queue.isEmpty then runHart partOf s else runLanes partOf s

/-! ## The lead's fetch (01 R14, R15) -/

/-- The matrix modes in which the trail may stand: those of the pairs of formats, and none. -/
def matrixModes : List (Option (Fmt × Fmt)) :=
  none :: (upTo 16).flatMap fun a => (upTo 16).filterMap fun b => (pairOfCodes a b).map fun x => some (x.1, x.2.1)

/-- The instruction would raise Illegal Instruction or Illegal Configuration in the shadow registers, whatever the matrix mode and the
number of VSTP instructions in the strip, which the lead does not follow. -/
def State.leadRaises (s : State) (i : Instr) : Bool :=
  let u := leadUse i
  u.action != .wait && (!u.srcs.contains .shape || s.hart.lead.shapeKnown)
    && matrixModes.all fun m =>
      (trapCode i (s.shadow.withHart fun h => { h with matrix := m, vstpRun := 0 })).any fun c => c == 1 || c == 2

/-- The lead fetches at its PC: an instruction, or none where the word is none or would raise Illegal Configuration. -/
noncomputable def State.leadFetch (s : State) : State :=
  let l := s.hart.lead
  s.setLead { l with fetched := some (match s.leadWord.map decodeWord with
    | some (.ok i) => if s.leadRaises i then none else some i
    | _ => none) }

end Sys2Proof.Machine
end

