-- ==== Sys2Proof/Machine/Step.lean ====
section
/-! DEFINITION. One step of the package: one of the moves that its parts can make, the next of `choices`, and the time that passes.
Which move comes next is open in the manual; `choices` is plain data, and a statement holds for every list.  From time to time a step
takes one of the turns that 02 R49 guarantees (log 4). -/

namespace Sys2Proof.Machine

/-- A move.  Of a hart: an instruction of its front end, its first instruction in an empty queue, the oldest instruction of its queue,
a part of an instruction, a transfer of an engine command in flight, an outstanding write that comes to a level, a walk or a fetch
that no access needs, a read made ahead, an event, or its lead.  Of the package: an event from outside, a copy or a translation that leaves a cache, a
unit of a host transfer, messages that the link has held, an instruction of the control processor's routine, or an event. -/
inductive Move
  | instr (k : Nat)
  | queue (k : Nat)
  | head (k : Nat)
  | part (k : Nat)
  | transfer (k n : Nat)
  | forward (k n : Nat) (t : Level)
  | walk (k : Nat)
  | prefetch (k : Nat)
  | ahead (k : Nat)
  | onHart (k : Nat) (e : Instr)
  | lead (k : Nat)
  | input
  | replace (n : Nat)
  | forget (n : Nat)
  | hostUnit (t n : Nat)
  | held (n : Nat)
  | routine (x : Fin 4)
  | event (e : Instr)
  deriving DecidableEq, Repr

/-- A move of each hart that holds lanes. -/
def State.residentMoves (s : State) (f : Nat → Move) : List Move :=
  (s.harts.zip (upTo s.harts.length)).filterMap fun x => if x.1.resident then some (f x.2) else none

/-- The moves of harts that execute an instruction. -/
def State.instrMoves (s : State) : List Move := s.residentMoves .instr
/-- The moves of harts with their queues, and of parts of instructions. -/
def State.laneMoves (s : State) : List Move := s.residentMoves .queue ++ s.residentMoves .head ++ s.residentMoves .part

/-- The events of one hart, where `n` writes are outstanding. -/
noncomputable def hartMoves (writes k : Nat) (h : Hart) : List Move :=
  (if h.unaccepted then [.onHart k .engineAccept] else [])
    ++ ((upTo h.engine.length).flatMap fun n => [.onHart k (.engineComplete n), .transfer k n])
    ++ ((upTo writes).flatMap fun n => [.forward k n .hart, .forward k n .core, .forward k n .die, .forward k n .package, .forward k n .domain,
      .onHart k (.accessPerforms n)])
    ++ [.walk k, .prefetch k] ++ (if h.resident then [.ahead k] else [])
    ++ (if h.leadIssues then [.lead k] else [])
    ++ ((upTo h.lead.prefetch.length).map fun n => .onHart k (.leadPrefetchFill n))
    ++ (if h.service.unanswered = [] then [] else [.onHart k .cpServiceReply])
    ++ (if h.status = .waiting .vector || h.status = .waiting .queue then [.onHart k .vectorInstructionCompletion] else [])

/-- The moves of the die-control action and of the routine of a die (24 R396, R397). -/
noncomputable def dieMoves (x : Fin 4) (d : Die) : List Move :=
  (if d.busy then [.event (.dieActionComplete x false), .event (.dieActionComplete x true)] else [])
    ++ (if d.routine.isSome then [.routine x] else [])

/-- The moves of the control processor, the barriers, the host's transfers and the caches. -/
noncomputable def State.packageMoves (s : State) : List Move :=
  (if s.control.round then [.event .dispatchRound] else [])
    ++ (s.control.gangs.flatMap fun g =>
      [.event (.gangStopComplete g.id), .event (.gangEnd g.id), .event (.barrierEpisodeComplete g.id 0),
        .event (.barrierEpisodeComplete g.id 1), .event (.barrierEpisodeComplete g.id 2), .event (.barrierEpisodeComplete g.id 3)])
    ++ (s.control.replays.flatMap fun r => (upTo r.nodes.length).map fun n => .event (.graphNodeQueue r.id n))
    ++ ((upTo s.control.commands.length).map fun n => .event (.completionMessage n))
    ++ ([0, 1, 2, 3].flatMap fun x => dieMoves x s.dies[x])
    ++ ((s.transfers.zip (upTo s.transfers.length)).flatMap fun x => (upTo (x.1.todo.length + 1)).map fun n => .hostUnit x.2 n)
    ++ ((upTo s.control.held.length).map .held) ++ ((upTo s.copies.length).map .replace) ++ ((upTo s.tlb.length).map .forget)
    ++ ((distinct (s.slices ++ s.dirty.map DirtyLine.line)).map fun l => .event (.l2LineEviction l))

/-- Every move that may come next; one that cannot happen changes nothing but the time. -/
noncomputable def State.moves (s : State) : List Move :=
  s.instrMoves ++ (if s.inputs = [] then [] else [.input])
    ++ ((s.harts.zip (upTo s.harts.length)).flatMap fun x => hartMoves s.writes.length x.2 x.1) ++ s.packageMoves ++ s.laneMoves

/-- Make a move. -/
noncomputable def runMove (m : Move) (s : State) : Out1 :=
  match m with
  | .instr k => runHart execGated (s.focus k)
  | .queue k => startQueue (s.focus k)
  | .head k => runLanes execGated (s.focus k)
  | .part k => runPart (s.focus k)
  | .transfer k n => engineProgress n (s.focus k)
  | .forward k n t => (s.focus k).forward n t
  | .walk k => walkAny (s.focus k)
  | .prefetch k => fetchAny (s.focus k)
  | .ahead k => readAny (s.focus k)
  | .onHart k e => thenDo (exec e (s.focus k)) fun t => match e with
    | .engineComplete _ => t.progress
    | _ => t
  | .lead k => exec .leadInstruction (s.focus k).leadFetch
  | .input => takeInput s
  | .replace n => replaceCopy n s
  | .forget n => forgetLeaf n s
  | .hostUnit t n => hostUnit t n s
  | .held n => deliverHeld n s
  | .routine x => runRoutine x s
  | .event e => exec e s

/-! ## Turns (02 R49) -/

/-- The place in the list of harts of one that a condition picks, by its HARTID. -/
def State.placeOf (s : State) (p : Hart → Bool) (id : Nat) : Option Nat := s.harts.findIdx? fun h => p h && h.ident.hartid.toNat == id

/-- The oldest write of a core that is in no store buffer. -/
def State.oldestWrite (s : State) (core : Nat) : Nat :=
  (commitOrder (s.writes.filter fun w => w.core == core)).findIdx fun w => w.early == 0

/-- The kinds of turn. -/
def turnKinds : Nat := 17
/-- The number that a turn is for: 0; 0, 1; 0 to 3; 0 to 7; and so on, so that each number recurs for ever among the turns of each kind. -/
def turnNumber (n : Nat) : Nat := (n / turnKinds + 1) - 2 ^ (n / turnKinds + 1).log2

/-- The move of a turn.  Each hart that holds lanes, by its HARTID, has one for its front end, its queue and its service; each hart one for its oldest engine command
to be accepted and to complete and for the oldest write of its core; and the package has one
for each of its commands, gangs, barriers, replays and dies, for the first host transfer, for the messages that the link holds and for the first event from outside. -/
noncomputable def State.turnMove (s : State) (n : Nat) : Option Move :=
  let c := turnNumber n
  let gang (f : BitVec 32 → Instr) (k : Nat) : Option Move := s.control.gangs[k]?.map fun g => .event (f g.id)
  match n % turnKinds with
  | 0 => (s.placeOf Hart.resident c).map .instr
  | 1 => (s.placeOf Hart.resident c).map .head
  | 2 => (s.placeOf Hart.unaccepted c).map fun k => .onHart k .engineAccept
  | 3 => (s.placeOf (fun h => !h.engine.isEmpty) c).map fun k => .onHart k (.engineComplete 0)
  | 4 => (s.placeOf (fun h => h.status != .vacant) c).map fun k => .onHart k (.accessPerforms (s.oldestWrite (c / 2)))
  | 5 => (s.placeOf Hart.resident c).map fun k => .onHart k .cpServiceReply
  | 6 => some (.event .dispatchRound)
  | 7 => gang .gangStopComplete c
  | 8 => gang .gangEnd c
  | 9 => gang (fun g => .barrierEpisodeComplete g (Fin.ofNat 4 c)) (c / 4)
  | 10 => some (.event (.completionMessage c))
  | 11 => some (.event (.dieActionComplete (Fin.ofNat 4 c) false))
  | 12 => some (.routine (Fin.ofNat 4 c))
  | 13 => some (.hostUnit 0 0)
  | 14 => (s.control.replays.flatMap fun r => (upTo r.nodes.length).map fun n => Move.event (.graphNodeQueue r.id n))[c]?
  | 15 => some (.held c)
  | _ => some .input

/-- The next move, and the state with it taken: a turn, where none has come for longer than the patience of the hardware; else the next of
`choices`, and after its end each move in its place. -/
noncomputable def State.choose (s : State) : Option Move × State :=
  if s.idle != 0 && decide (Config.patience < s.idle) then (s.turnMove s.turn, { s with idle := 0, turn := s.turn + 1, tick := s.tick + 1 })
  else match s.choices with
    | n :: ns => (s.moves[n]?, { s with choices := ns, idle := s.idle + 1, tick := s.tick + 1 })
    | [] => (s.moves[s.tick % s.moves.length]?, { s with idle := s.idle + 1, tick := s.tick + 1 })

/-- The caches keep within their room, and time passes; a move that cannot happen has changed nothing. -/
def settleTime (s : State) (o : Out1) : Out1 :=
  match o with
  | .next t => .next (t.trimmed.passTime (Config.laneCycles s.tick))
  | .fault .eventNotEnabled => .next (s.passTime (Config.laneCycles s.tick))
  | .refused r => .refused r

/-- One step. -/
noncomputable def step (s : State) : Host.Outcome State Fault Refusal :=
  let t := s.choose.2
  match s.choose.1 with
  | none => settleTime t (.next t)
  | some m => settleTime t (runMove m t)

/-! ## Placing an instruction word -/

/-- Bases of the three page tables and of the page of code that `withFetchWord` lays out on the die of the current hart. -/
def fetchBase (s : State) (n : Nat) : Nat := s.pkg.val * 2 ^ 44 + s.hart.ident.die * 2 ^ 42 + n * 65536

/-- A table entry to a physical page. -/
def tableEntry (pa : Nat) : Nat := pa + 1
/-- A DATA leaf with R, W, X, A and D, and U for a hart at U level (21 R359). -/
def codeLeaf (pa : Nat) (user : Bool) : Nat := pa + 0xC73 + (if user then 0x80 else 0)

/-- The bytes that the layout writes: an address and a number of bytes and a value. -/
def fetchBytes (s : State) (pc : Word) (w : Nat) : List (Nat × Nat × Nat) :=
  let n := pc.toNat
  [(fetchBase s 1 + 8 * bitsAt n 42 13, 8, tableEntry (fetchBase s 2)), (fetchBase s 2 + 8 * bitsAt n 29 13, 8, tableEntry (fetchBase s 3)),
    (fetchBase s 3 + 8 * bitsAt n 16 13, 8, codeLeaf (fetchBase s 4) (!s.hart.priv.level)), (fetchBase s 4 + bitsAt n 0 16, 4, w)]

/-- Write them. -/
def putBytes (m : Memory) : List (Nat × Nat × Nat) → Memory
  | [] => m
  | x :: xs => putBytes (Memory.write m x.1 x.2.1 x.2.2) xs

/-- The state with an instruction word where the next step fetches: the current hart runs at its PC, through a page that
page tables on its own die map, with no cached translation or instruction in its way, nothing queued or asynchronous pending, and its move
chosen next (log 32). -/
def State.withFetchWord (s : State) (nbits w : Nat) : State :=
  let h := s.hart
  let d := dieAt s h.ident.die
  let pc := h.pc &&& 0x003FFFFFFFFFFFFC
  let put := fetchBytes s pc (w % 2 ^ nbits)
  { s with
    mem := putBytes s.mem put
    poison := put.foldl (fun p x => p.filter fun u => u != x.1 / 8) s.poison
    dirty := put.foldl (fun l x => l.filter fun y => y.line != paLine x.1) s.dirty
    tlb := s.tlb.filter fun e => e.die ≠ h.ident.die
    icache := s.icache.filter fun l => l.core ≠ h.ident.coreKey
    writes := s.discardHeld.writes
    lanes := s.lanes.filter fun x => x.1 ≠ h.ident.coreKey
    choices := 0 :: s.choices, idle := 0
    dies := s.dies.set (Fin.ofNat 4 h.ident.die) { d with state := .run, closed := false }
    hart := { h with pc := pc, status := .running, launched := true, resume := none, engine := [], queue := [], stalled := false
                     taken := [], begun := false, lanes := [], lanesCut := none, reads := [], sources := [], since := 0, spun := false
                     watchdog := false
                     preempt := Preempt.none, lead := Lead.reset
                     priv := { h.priv with ptroot := BitVec.ofNat 36 (fetchBase s 1 / 65536), partid := BitVec.ofNat 2 d.part.val
                                           wdcount := 0, wdlimit := 0 } } }

end Sys2Proof.Machine
end

