-- ==== Sys2Proof/Safety.lean ====
section
/-! DEFINITION. What counts as a safe run, in the terms that statements use: the invariants of the state, accesses that the manual
grants, and what an instruction may change. -/

namespace Sys2Proof.Machine

/-! ## Invariants of the state -/

/-- Memory has its canonical form. -/
def State.memoryOk (s : State) : Prop := Memory.wf s.mem = true

/-- The shape registers of a hart hold values that the manual lets them hold: VTYPE is a legal value or VILL alone (02 R27), VROWS is
1 to 8 and VL at most 1,024 (02 R31). -/
def Shape.legal (p : Shape) : Prop := vtWrite p.vtype = p.vtype ∧ 1 ≤ p.vrows ∧ p.vrows ≤ 8 ∧ p.vl ≤ 1024

/-- The hardware return stack holds 0 to 16 entries (07 R176). -/
def RetStack.fitsHardware (r : RetStack) : Prop := r.entries.length ≤ Config.returnStackEntries

/-- What the front end has noted for a queued instruction keeps both. -/
def Front.ok (f : Front) : Prop := f.shape.legal ∧ f.rs.fitsHardware
/-- A hart keeps both, with every entry of its queue. -/
def Hart.ok (h : Hart) : Prop := h.shape.legal ∧ h.rs.fitsHardware ∧ ∀ e ∈ h.queue, e.front.ok
/-- Every hart of the package does. -/
def State.hartsOk (s : State) : Prop := ∀ h ∈ s.harts, h.ok

/-- A run is safe: each step from a state answers a next state and keeps the invariants. -/
def Safe (s : State) : Prop :=
  s.memoryOk ∧ s.hartsOk ∧ ∃ t, step s = .next t ∧ t.memoryOk ∧ t.hartsOk

/-! ## Registers in error -/

/-- No register, tile, region or window line of the hart is in uncorrectable error (18 R318). -/
def Hart.sound (h : Hart) : Prop := h.ecc = Ecc.none

/-! ## Granted accesses (04 R75, R91; 18 R317 to R319; 21 R361 to R366) -/

/-- From one state to another the caches alone change: cached translations, copies of lines, and where a modified line is held. -/
def cachesOnly (s t : State) : Prop :=
  t = { s with tlb := t.tlb, dirty := t.dirty, copies := t.copies, slices := t.slices, retained := t.retained, lookahead := t.lookahead }

/-- A walk of an address, from a table of a level on, reads entries of this package only, which no outstanding write that it must see
meets, and no cached table entry differs from them. -/
def State.pathOk (s : State) (c : Ctx) (va : Word) : Nat → Nat → Bool
  | 0, _ => true
  | n + 1, table =>
    let at_ := entryAddr table n va
    paPkg at_ == s.pkg.val && s.writes.all (fun w => !s.meets c.view at_ 8 w) && match s.walkRead c at_ with
      | .ok e => (s.cachedTables c (3 - n) va).all (fun x => x == e) && (pteLeaf e || s.pathOk c va n (ptePa e))
      | .error _ => false

/-- No modified line that a cache might write back is in uncorrectable error (18 R319). -/
def State.modifiedWhole (s : State) : Bool := s.dirty.all fun x => !s.badLine x.line && !s.badHeld x.line

/-- No line that a cache could write back, now or once outstanding writes have performed, is in uncorrectable error. -/
def State.intact (s : State) : Prop := s.poison = [] ∧ ∀ h ∈ s.harts, h.ecc.w = []

/-- The leaf of a walk. -/
def State.leafOf (s : State) (c : Ctx) (va : Word) : Option Leaf :=
  match s.walk c va with
  | .ok l => some l
  | .error _ => none

/-- An address translates by a leaf: the walk finds it, and no cached entry differs from what the walk reads. -/
def State.finds (s : State) (c : Ctx) (va : Word) (l : Leaf) : Bool :=
  s.leafOf c va == some l && (s.cached c va).all (fun x => x == l) && s.pathOk c va 3 c.root && s.modifiedWhole

/-- An access of `n` bytes at a virtual address, aligned to `size`, is granted at a place: the address is aligned and canonical and
translates by a leaf that permits the access and lacks no A or D bit, and its home, in this package, answers with whole data. -/
def State.granted (s : State) (c : Ctx) (need : Needs) (size n : Nat) (va : Word) (p : Place) : Bool :=
  va.toNat % size == 0 && canonical va
    && (match s.leafOf c va with
        | some l => s.finds c va l && permits c need l.pte && !lacksBits l.pte need.w && decide (l.place va = p)
        | none => false)
    && s.reaches c false p.pa && paPkg p.pa == s.pkg.val && !s.badUnits p.pa n

/-- The contexts of the two streams of the current hart. -/
def State.scalarCtx (s : State) : Ctx := s.hart.ctx (.stream .scalar)
def State.vectorCtx (s : State) : Ctx := s.hart.ctx (.stream .vector)

/-- The table entries that a walk of an address reads, from a table of a level on. -/
def State.walkPath (s : State) (c : Ctx) (va : Word) : Nat → Nat → List Nat
  | 0, _ => []
  | n + 1, table =>
    let at_ := entryAddr table n va
    at_ :: match s.walkRead c at_ with
      | .error _ => []
      | .ok e => if pteLeaf e then [] else s.walkPath c va n (ptePa e)

/-- Two ranges of physical bytes share none. -/
def apart (a n b m : Nat) : Prop := a + n ≤ b ∨ b + m ≤ a

/-- No outstanding write is a cell add, and none has come beyond its core: a read or a store of other bytes makes none perform. -/
def State.nearWrites (s : State) : Prop := ∀ w ∈ s.writes, w.isAdd = false ∧ w.level.num ≤ Level.core.num
/-- The same, and none stands before a FENCE. -/
def State.plainWrites (s : State) : Prop := s.nearWrites ∧ ∀ w ∈ s.writes, w.fences = []

/-! ## Scalar results -/

/-- The outcome of an instruction that writes a word to a scalar register and goes on to the next instruction. -/
def State.done (s : State) (d : SReg) (z : Word) : Out1 := .next (s.setS d z).advance

/-- The outcome of a trap that an instruction takes at the PC. -/
def State.trapped (s : State) (t : Trap) : Out1 := .next (s.takeTrap t)

/-- The rounding mode that a scalar floating-point instruction names, if FCSR.FRM holds one where it names that (03 R57). -/
def State.mode (s : State) : Rm → Option Rounding
  | .rne => some .rne
  | .rtz => some .rtz
  | .rdn => some .rdn
  | .rup => some .rup
  | .rmm => some .rmm
  | .dit => some (.dit 0)
  | .dyn => frmRounding s.frm

/-- The outcome of a scalar floating-point instruction with a result and its flags. -/
def State.doneFp (s : State) (d : SReg) (r : Nat × Flags) : Out1 := .next ((s.setS d (BitVec.ofNat 64 r.1)).orFlags r.2).advance

/-- The operand of a width in a scalar register (07 R164). -/
def State.fpArg (s : State) (w : FWidth) (r : SReg) : Nat := widthCode w (s.getS r)

/-- The next state of an outcome holds a property. -/
def holdsNext (o : Out1) (P : State → Prop) : Prop := ∃ t, o = .next t ∧ P t

/-! ## Scalar memory -/

/-- A state in which a home has accepted a write (05 R102). -/
def State.sent (s : State) (w : PendingWrite) : State := { s with writes := s.writes ++ [w] }

/-- What a granted scalar load of `n` bytes reads: the state with what it waits for performed, and the bytes as its stream sees them. -/
def State.loadState (s : State) (p : Place) (n : Nat) : State :=
  let u := s.afterFences Fence.scalar
  if p.kind = 0 then u.afterAdds (.stream .scalar) p.pa n else u.askedHere p.pa n
def State.loadValue (s : State) (p : Place) (n : Nat) : Nat := leNat ((s.loadState p n).bytes (.stream .scalar) p.pa n)

/-- A scalar load of `n` bytes is granted, once the fences before it are obeyed, and no read was made ahead; a DEV access has no unconfirmed
instruction before it. -/
def State.loadGranted (s : State) (n : Nat) (va : Word) (p : Place) : Prop :=
  (s.afterFences Fence.scalar).granted s.scalarCtx Needs.load n n va p = true ∧ s.hart.reads = [] ∧ (p.kind = 1 → s.hart.unsure = 0)

/-- An outcome is a register's new value after an action that has changed caches alone beside its state `v`. -/
def loadsTo (v : State) (d : SReg) (z : Word) (o : Out1) : Prop := ∃ u, cachesOnly v u ∧ o = .next (u.setS d z).advance

/-- The write of the low `n` bytes of a number by a scalar store at a place, to the scalar L1 or to a device. -/
def State.scalarWrite (s : State) (p : Place) (n x : Nat) : PendingWrite :=
  s.writeOf .scalar (if p.kind = 0 then some s.l1 else none) .normal p.pa (.store (leBytes n x))

/-- A scalar store of `n` bytes is granted, where the state `v` is the one in which its write is made, and no read was made ahead; a DEV
access has no unconfirmed instruction before it. -/
def State.storeGranted (s v : State) (n : Nat) (va : Word) (p : Place) : Prop :=
  (s.afterFences Fence.scalar).granted s.scalarCtx Needs.store n n va p = true ∧ v.modifiedWhole = true ∧ s.hart.reads = []
    ∧ (p.kind = 1 → s.hart.unsure = 0 ∧ v.heldOver (.stream .scalar) p.pa n = false)

/-- The outcome of a granted scalar store from the state `v`: its home has accepted the write of a DATA page, and that of a DEV page has
performed after the writes to its bytes. -/
def storesTo (v : State) (p : Place) (n x : Nat) (o : Out1) : Prop :=
  if p.kind = 0 then ∃ u, cachesOnly (v.askedHere p.pa n) u ∧ o = .next (u.sent (v.scalarWrite p n x)).advance
  else ∃ u, cachesOnly (v.afterWrites (.stream .scalar) p.pa n) u ∧ o = .next (u.performWrite (v.scalarWrite p n x)).advance

/-- The state in which an atomic read-modify-write of `n` bytes acts: the fences obeyed, and with a release order every earlier access of the
hart performed (05 R112). -/
def State.rmwStart (s : State) (sc : Scope) (o : Order) : State :=
  let u := s.afterFences Fence.scalar
  match o with
  | .release | .acqRel => u.released sc
  | _ => u
/-- The same with the writes to its bytes performed (05 R101). -/
def State.rmwState (s : State) (sc : Scope) (o : Order) (pa n : Nat) : State := (s.rmwStart sc o).afterWrites (.stream .scalar) pa n

/-- A granted atomic, and the state after it has stored bytes: in the scalar L1 where that holds the line, else at the home (07 R170). -/
def State.rmwGranted (s : State) (need : Needs) (sc : Scope) (o : Order) (n m : Nat) (va : Word) (p : Place) : Prop :=
  (s.afterFences Fence.scalar).granted s.scalarCtx need n m va p = true ∧ (s.rmwStart sc o).heldOver (.stream .scalar) p.pa m = false
    ∧ s.hart.reads = []
def State.rmwStored (s u : State) (pa : Nat) (bs : List Byte) : State :=
  u.perform none (if (s.afterFences Fence.scalar).holds s.l1 (paLine pa) then some s.l1 else none) pa bs

/-- The new value of an integer atomic from its width in bits, the old value and the operand (07 R170). -/
def amoNew (i : Instr) (w old x : Nat) : Option Nat :=
  match i with
  | .amoadd .. => some ((old + x) % 2 ^ w)
  | .amoand .. => some (old &&& x)
  | .amoor .. => some (old ||| x)
  | .amoxor .. => some (old ^^^ x)
  | .amomin .. => some (if signedOf w old ≤ signedOf w x then old else x)
  | .amomax .. => some (if signedOf w x ≤ signedOf w old then old else x)
  | .amominu .. => some (min old x)
  | .amomaxu .. => some (max old x)
  | .amoswap .. => some x
  | _ => none

/-- The atomic instructions of one set of operands, but for AMOCAS and AMOFADD. -/
def amos (sc : Scope) (o : Order) (w : AWidth) (d a b : SReg) : List Instr :=
  [.amoadd sc o w d a b, .amoand sc o w d a b, .amoor sc o w d a b, .amoxor sc o w d a b, .amomin sc o w d a b, .amomax sc o w d a b,
    .amominu sc o w d a b, .amomaxu sc o w d a b, .amoswap sc o w d a b]

/-- The word that an atomic returns: the old bytes, a 4-byte value sign-extended. -/
def oldWord (w : AWidth) (old : Nat) : Word :=
  match w with
  | .word => (BitVec.ofNat 32 old).signExtend 64
  | .dword => BitVec.ofNat 64 old

/-! ## Control flow, system and privileged instructions -/

/-- The SYSP instructions of one set of operands (18 R303). -/
def privilegedWords (a b d : SReg) (r : PReg) : List Instr :=
  [.eret, .tlbinv d a b, .cwb a b, .cinv a b, .ctxsave a, .ctxload a, .waitev d, .hsig a b, .prdsr d r, .pwrsr r d, .halt]

/-- The RW bits of a privileged register (18 R306 to R308). -/
def rwBits : PReg → Word
  | .tvec => 0xFFFFFFFFFFFFFFFC
  | .tcause => 0x1FFF
  | .trappc => 0xFFFFFFFFFFFFFFFC
  | .tval => 0xFFFFFFFFFFFFFFFF
  | .tvstart => 0x7FFF
  | .pstat => 6
  | .tscratch => 0xFFFFFFFFFFFFFFFF
  | .ptroot | .asid | .partid => 0
  | .leadctl => 0x3FFF0001
  | .vdirty => 0xFFFFFFFF
  | .adirty => 0xFF
  | .wdlimit | .wdcount => 0xFFFFFFFFFFFF
  | .rsbase | .rslimit => 0xFFFFFFFFFFFFFFF8

/-- The RW bits of a user register (02 R28, R42; 03 R61, R74; 07 R176). -/
def rwUserBits : UReg → Word
  | .vstart => 0x7FFF
  | .rowstr => 0xFFFFFFFFFFFFFFFF
  | .fcsr => 0xFF
  | .mxflags => 3
  | .hartmode => 3
  | .rsp => 0xFFFFFFFFFFFFFFF8
  | _ => 0

/-- Every participant of the current hart's gang but the hart itself has arrived at the episode of a count, or has exited, and the whole
gang is on this package (11 R261, R263). -/
def State.othersArrived (s : State) (x : Fin 4) (n : BitVec 32) : Prop :=
  (∀ h ∈ s.others, h.launched = true → h.ident.gangid = s.hart.ident.gangid → h.reached x n = true)
    ∧ s.hart.ident.gangsize.toNat ≤ (s.participants s.hart.ident.gangid).length

/-- What the current hart has outstanding of the kinds of a condition has come to a level, but for stores in the store buffer. -/
def State.reached (s : State) (f : PendingWrite → Bool) (t : Level) : Prop :=
  ∀ w ∈ s.writes, s.mine w = true → f w = true → w.early = 0 → t.num ≤ w.level.num

/-- The 64 KiB pages of the hart record at an address are granted to the hart, at the places of a function, for its reads and its writes,
and no two share a byte (19 R333). -/
def State.recordPages (s : State) (va : Word) (p : Nat → Place) : Prop :=
  va.toNat % 65536 = 0 ∧ ∀ j < 4,
    let x := va + BitVec.ofNat 64 (65536 * j)
    (p j).kind = 0 ∧ s.granted s.scalarCtx Needs.store 8 65536 x (p j) = true ∧ s.granted s.scalarCtx Needs.load 8 65536 x (p j) = true
      ∧ ∀ k < j, apart (p j).pa 65536 (p k).pa 65536

/-- The first part of the hart record that lies at a physical address (19 R334). -/
def State.recordAt (s : State) (pa : Nat) : Record := { bytes := Memory.readBytes s.mem pa 0x448 }

/-! ## Vector instructions -/

/-- The mask bit of a position, k0 giving ones (06 R151). -/
def State.maskAt (s : State) (k : MReg) (row col : Nat) : Bool := k == 0 || maskBit s.hart.k[k] (row * 1024 + col)

/-- The active positions from VSTART on, in sweep order (02 R33, R34). -/
def State.activeFrom (s : State) (k : MReg) : List (Nat × Nat) := s.hart.shape.positions.filter fun x => s.maskAt k x.1 x.2

/-- The element of a group at a position. -/
def State.elem (s : State) (r : VReg) (w row col : Nat) : Nat := elemAt (s.getV (rowReg r row)) w col

/-- The second operand at a position (08 R186): an element, the low bits of a scalar, or the immediate sign-extended. -/
def State.src2 (s : State) (b : Src2) (w row col : Nat) : Nat :=
  match b with
  | .vv r => s.elem r w row col
  | .vs r => (s.getS r).toNat % 2 ^ w
  | .vi i => (i.signExtend 64).toNat % 2 ^ w

/-- From a state to another the elements of width `w` of a group hold the values of a function at the positions of a list, and every other
element of that width of every vector register is unchanged. -/
def elemsBecome (s t : State) (d : VReg) (w : Nat) (at_ : List (Nat × Nat)) (f : Nat → Nat → Nat) : Prop :=
  (∀ x ∈ at_, t.elem d w x.1 x.2 = f x.1 x.2 % 2 ^ w)
    ∧ ∀ (q : VReg) (i : Nat), w * (i + 1) ≤ 8192 → (∀ x ∈ at_, ¬(rowReg d x.1 = q ∧ x.2 = i)) →
        elemAt (t.getV q) w i = elemAt (s.getV q) w i

/-- The same for the bits of a mask register. -/
def bitsBecome (s t : State) (j : MReg) (at_ : List (Nat × Nat)) (f : Nat → Nat → Bool) : Prop :=
  (∀ x ∈ at_, maskBit t.hart.k[j] (x.1 * 1024 + x.2) = f x.1 x.2)
    ∧ (∀ i, i < 8192 → (∀ x ∈ at_, x.1 * 1024 + x.2 ≠ i) → maskBit t.hart.k[j] i = maskBit s.hart.k[j] i)

/-- What a vector instruction is to the checks of 02 R32 and to its frame: whether it is element-wise, its groups and further condition,
whether it reads FCSR.FRM, and what it may write: scalar registers, vector groups, mask registers. -/
structure VOp where
  ew      : Bool
  groups  : List VReg
  further : Shape → Bool
  rounds  : Bool
  sd      : List SReg
  vd      : List VReg
  kd      : List MReg

/-- An element-wise instruction with a vector destination and other groups; one that is not element-wise; one with a mask destination. -/
def VOp.lanes (rounds : Bool) (further : Shape → Bool) (d : VReg) (rs : List VReg) : VOp := ⟨true, d :: rs, further, rounds, [], [d], []⟩
def VOp.moves (d : VReg) (rs : List VReg) : VOp := ⟨false, d :: rs, fun _ => true, false, [], [d], []⟩
def VOp.bits (ew : Bool) (further : Shape → Bool) (j : MReg) (rs : List VReg) : VOp := ⟨ew, rs, further, false, [], [], [j]⟩
/-- A reduction. -/
def VOp.reduces (rounds : Bool) (further : Shape → Bool) (t : RedDst) (b : VReg) : VOp :=
  match t with
  | .scalar d _ => ⟨false, [b], further, rounds, [d], [], []⟩
  | .perRow d => ⟨false, [d, b], further, rounds, [], [d], []⟩

/-- No further condition. -/
def anyShape (_ : Shape) : Bool := true
/-- The widening condition of 08 R187 on a destination of 2·SEW. -/
def widens (d : VReg) (rs : List VReg) (p : Shape) : Bool := twoWidths p (2 * p.sew) d rs

/-- The vector arithmetic, mask, conversion, reduction and permutation instructions (08 R186 to R202). -/
def vop (i : Instr) : Option VOp :=
  match i with
  | .vadd d a b _ | .vsub d a b _ | .vrsub d a b _ | .vmul d a b _ | .vmulh d a b _ | .vmulhu d a b _ | .vmacc d a b _ | .vmin d a b _
  | .vmax d a b _ | .vminu d a b _ | .vmaxu d a b _ | .vand d a b _ | .vor d a b _ | .vxor d a b _ | .vsll d a b _ | .vsrl d a b _
  | .vsra d a b _ | .vsadd d a b _ | .vsaddu d a b _ | .vssub d a b _ | .vssubu d a b _ | .vdiv d a b _ | .vrem d a b _
  | .vmerge d a b _ => some (.lanes false anyShape d (a :: src2Groups b))
  | .vclz d a _ | .vpopc d a _ => some (.lanes false anyShape d [a])
  | .vwadd d a b _ | .vwmul d a b _ => some (.lanes false (widens d (a :: src2Groups b)) d (a :: src2Groups b))
  | .vnshr d a b _ => some (.lanes false (widens d [a]) d (a :: src2Groups b))
  | .vid d _ => some (.lanes false anyShape d [])
  | .vmv d b _ => some (.lanes false anyShape d (src2Groups b))
  | .vfadd d a b _ | .vfsub d a b _ | .vfmul d a b _ | .vfdiv d a b _ | .vfscale d a b _ => some (.lanes true fpShape d (a :: src2Groups b))
  | .vfmin d a b _ | .vfmax d a b _ | .vfcopys d a b _ | .vfcopyns d a b _ | .vfxors d a b _ =>
    some (.lanes false fpShape d (a :: src2Groups b))
  | .vfsqrt d a _ => some (.lanes true fpShape d [a])
  | .vfrsqe d a _ | .vfrece d a _ | .vfexpo d a _ | .vfclass d a _ => some (.lanes false fpShape d [a])
  | .vfwadd d a b _ | .vfwmul d a b _ =>
    some (.lanes true (fun p => fpShape p && widens d (a :: src2Groups b) p) d (a :: src2Groups b))
  | .vfma d a b c _ | .vfms d a b c _ | .vfnma d a b c _ | .vfnms d a b c _ => some (.lanes true fpShape d [a, b, c])
  | .vfwma d a b c _ => some (.lanes true (fun p => fpShape p && widens d [a, b] p) d [a, b, c])
  | .vimac d a b c _ => some (.lanes false anyShape d [a, b, c])
  | .vcmpEq j a b _ | .vcmpNe j a b _ | .vcmpLt j a b _ | .vcmpLe j a b _ | .vcmpLtu j a b _ | .vcmpLeu j a b _ =>
    some (.bits true anyShape j (a :: src2Groups b))
  | .vfcmpEq j a b _ | .vfcmpLt j a b _ | .vfcmpLe j a b _ | .vfcmpUn j a b _ => some (.bits true fpShape j (a :: src2Groups b))
  | .kand j _ _ _ | .kor j _ _ _ | .kxor j _ _ _ | .kandn j _ _ _ => some (.bits true anyShape j [])
  | .kprex j _ _ | .kprin j _ _ | .ksufin j _ _ => some (.bits false anyShape j [])
  | .kmov j _ _ | .kset j _ => some (.bits true anyShape j [])
  | .vtok j a _ => some (.bits true anyShape j [a])
  | .kpopc d _ _ | .kfirst d _ _ => some ⟨false, [], anyShape, false, [d], [], []⟩
  | .ktov d _ _ => some (.lanes false anyShape d [])
  | .vcvt c m _ d a _ => some (.lanes (m == .dyn && c != .e8m0) (cvtFits (cvtDst c) d a) d [a])
  | .vredsum t b _ | .vredmax t b _ | .vredmin t b _ | .vredand t b _ | .vredor t b _ | .vredxor t b _ =>
    some (.reduces false anyShape t b)
  | .vfredsum t b _ => some (.reduces true fpShape t b)
  | .vfredmax t b _ | .vfredmin t b _ => some (.reduces false fpShape t b)
  | .vscan d _ b _ => some (.moves d [b])
  | .vfscan d _ b _ => some ⟨false, [d, b], fpShape, true, [], [d], []⟩
  | .vcompress d a _ | .vexpand d a _ | .vslideup d a _ _ | .vslidedn d a _ _ | .vrowbc d a _ _ => some (.moves d [a])
  | .vtopk d a b _ =>
    some ⟨false, [d, a], fun p => decide (2 ≤ vtSewCode p.vtype) && p.vrows == 1 && decide (d.val ≤ 30), false, [b], [d, Fin.ofNat 32 (d.val + 1)], []⟩
  | .vperm d a b _ => some (.moves d [a, b])
  | .vextr d a _ _ => some ⟨false, [a], anyShape, false, [d], [], []⟩
  | .vins d _ _ _ | .viota d _ _ => some (.moves d [])
  | _ => none

/-- What a vector instruction that completes leaves: the next PC, VSTART 0, and beside them only registers that it may write, the flags of
FCSR, which are only set, and the bits of VDIRTY of the registers written. -/
def VOp.frame (o : VOp) (s t : State) : Prop :=
  t = { s with hart := { s.hart with
          pc := s.hart.pc + 4, s := t.hart.s, v := t.hart.v, k := t.hart.k, fcsr := t.hart.fcsr, shape := { s.hart.shape with vstart := 0 }
          taken := [], begun := false
          priv := { s.hart.priv with vdirty := t.hart.priv.vdirty } } }
    ∧ (∀ r, r ∉ o.sd → t.getS r = s.getS r)
    ∧ (∀ q, (∀ d ∈ o.vd, ∀ row < s.hart.shape.vrows, rowReg d row ≠ q) →
        t.getV q = s.getV q ∧ t.hart.priv.vdirty.getLsbD q.val = s.hart.priv.vdirty.getLsbD q.val)
    ∧ (∀ r, r ∉ o.kd → t.getK r = s.getK r)
    ∧ (∃ f : BitVec 5, t.hart.fcsr = s.hart.fcsr ||| (f.setWidth 8 <<< 3))

/-- The outcome of the configuration checks that fail (02 R32). -/
def State.illegalVector (s : State) : Out1 :=
  (s.setStart 0).trapped (Trap.of .illegalConfiguration (s.hart.ir.zeroExtend 64))

/-- The integer operation of an element-wise instruction of one width, on the signed and the unsigned values of its two operands at SEW `w`:
the result before it is reduced modulo 2^w (08 R190). -/
def intResult (i : Instr) (w : Nat) (x y : Int) (ux uy : Nat) : Option Int :=
  match i with
  | .vadd .. => some (x + y)
  | .vsub .. => some (x - y)
  | .vrsub .. => some (y - x)
  | .vmul .. => some (x * y)
  | .vmulh .. => some (x * y / 2 ^ w)
  | .vmulhu .. => some (ux * uy / 2 ^ w : Nat)
  | .vmin .. => some (min x y)
  | .vmax .. => some (max x y)
  | .vminu .. => some (min ux uy : Nat)
  | .vmaxu .. => some (max ux uy : Nat)
  | .vand .. => some (ux &&& uy : Nat)
  | .vor .. => some (ux ||| uy : Nat)
  | .vxor .. => some (ux ^^^ uy : Nat)
  | .vsll .. => some (ux * 2 ^ (uy % w) : Nat)
  | .vsrl .. => some (ux / 2 ^ (uy % w) : Nat)
  | .vsra .. => some (x / 2 ^ (uy % w))
  | .vsadd .. => some (max (-(2 ^ (w - 1))) (min (2 ^ (w - 1) - 1) (x + y)))
  | .vsaddu .. => some (min (ux + uy) (2 ^ w - 1) : Nat)
  | .vssub .. => some (max (-(2 ^ (w - 1))) (min (2 ^ (w - 1) - 1) (x - y)))
  | .vssubu .. => some (ux - uy : Nat)
  | .vdiv .. => some (if y = 0 then (if x < 0 then -(2 ^ (w - 1)) else 2 ^ (w - 1) - 1) else min (2 ^ (w - 1) - 1) (x.tdiv y))
  | .vrem .. => some (if y = 0 then 0 else x.tmod y)
  | _ => none

/-- The integer instructions of one set of operands. -/
def intVectors (d a : VReg) (b : Src2) (k : MReg) : List Instr :=
  [.vadd d a b k, .vsub d a b k, .vrsub d a b k, .vmul d a b k, .vmulh d a b k, .vmulhu d a b k, .vmin d a b k, .vmax d a b k,
    .vminu d a b k, .vmaxu d a b k, .vand d a b k, .vor d a b k, .vxor d a b k, .vsll d a b k, .vsrl d a b k, .vsra d a b k, .vsadd d a b k,
    .vsaddu d a b k, .vssub d a b k, .vssubu d a b k, .vdiv d a b k, .vrem d a b k]

/-- A vector instruction on a sound hart whose shape meets its checks (02 R32). -/
def State.vready (s : State) (i : Instr) : Prop :=
  wellFormed i = true ∧ s.hart.sound ∧ ∃ o, vop i = some o ∧ s.hart.shape.usable o.ew o.groups = true ∧ o.further s.hart.shape = true

/-- Element-wise integer instructions with the width and the value that each gives a position, before it is reduced modulo that width's power
of 2: multiply-accumulates, counts, moves, and those of two widths (08 R187, R190, R191, R194). -/
def State.intLanes (s : State) (d a e c : VReg) (b : Src2) (k : MReg) : List (Instr × Nat × (Nat → Nat → Int)) :=
  let w := s.hart.shape.sew
  let x := s.elem a w
  let y := s.src2 b w
  [(.vmacc d a b k, w, fun i j => (s.elem d w i j + x i j * y i j : Nat)),
    (.vimac d a e c k, w, fun i j => (x i j * s.elem e w i j + s.elem c w i j : Nat)),
    (.vclz d a k, w, fun i j => if x i j = 0 then w else w - 1 - Nat.log2 (x i j)),
    (.vpopc d a k, w, fun i j => (List.range w).countP fun n => (x i j).testBit n),
    (.vid d k, w, fun _ j => j), (.vmv d b k, w, fun i j => y i j),
    (.vwadd d a b k, 2 * w, fun i j => signedOf w (x i j) + signedOf w (y i j)),
    (.vwmul d a b k, 2 * w, fun i j => signedOf w (x i j) * signedOf w (y i j)),
    (.vnshr d a b k, w, fun i j =>
      max (-(2 ^ (w - 1))) (min (2 ^ (w - 1) - 1) (signedOf (2 * w) (s.elem a (2 * w) i j) / 2 ^ (y i j % (2 * w)))))]

/-- The active columns of a row, and the amount of a slide (08 R202). -/
def State.activeCols (s : State) (k : MReg) (row : Nat) : List Nat := (List.range s.hart.shape.vl).filter fun j => s.maskAt k row j
def State.amount (s : State) (b : Src2) : Nat :=
  match b with
  | .vs r => (s.getS r).toNat
  | .vi i => i.toNat
  | .vv _ => 0
/-- The active position that a flat position names, if it is one (08 R202). -/
def State.flatAt (s : State) (k : MReg) (x : Word) : List (Nat × Nat) :=
  (s.activeFrom k).filter fun p => p.1 == x.toNat / 1024 && p.2 == x.toNat % 1024

/-- The instructions that move elements, with the positions that each writes and what it writes there (08 R200, R202). -/
def State.moveLanes (s : State) (d a e : VReg) (b : Src2) (u v : SReg) (x k : MReg) : List (Instr × List (Nat × Nat) × (Nat → Nat → Nat)) :=
  let p := s.hart.shape
  let z := s.elem a p.sew
  let act := s.activeFrom k
  let n := s.amount b
  [(.vcompress d a k, (List.range p.vrows).flatMap (fun i => (List.range (s.activeCols k i).length).map fun j => (i, j)),
      fun i j => z i ((s.activeCols k i).getD j 0)),
    (.vexpand d a k, act, fun i j => z i ((s.activeCols k i).idxOf j)),
    (.vslideup d a b k, act.filter (fun q => decide (n ≤ q.2)), fun i j => z i (j - n)),
    (.vslidedn d a b k, act, fun i j => if j + n < p.vl then z i (j + n) else 0),
    (.vperm d a e k, act, fun i j => if s.elem e p.sew i j < p.vl then z i (s.elem e p.sew i j) else 0),
    (.viota d x k, act, fun i j => ((s.activeCols k i).filter fun m => decide (m < j) && s.maskAt x i m).length),
    (.vrowbc d a u k, act, fun _ j => if (s.getS u).toNat < p.vrows then z (s.getS u).toNat j else 0),
    (.vins d u v k, s.flatAt k (s.getS v), fun _ _ => (s.getS u).toNat)]

/-- The integer reductions with their operation at SEW `w` (08 R198). -/
def intReductions (w : Nat) (e : VReg) (k : MReg) : List ((RedDst → Instr) × (Nat → Nat → Nat)) :=
  [(fun t => .vredsum t e k, fun z x => (z + x) % 2 ^ w),
    (fun t => .vredmax t e k, fun z x => if signedOf w x ≤ signedOf w z then z else x),
    (fun t => .vredmin t e k, fun z x => if signedOf w z ≤ signedOf w x then z else x),
    (fun t => .vredand t e k, fun z x => z &&& x), (fun t => .vredor t e k, fun z x => z ||| x), (fun t => .vredxor t e k, fun z x => z ^^^ x)]

/-- A canonical group by the balanced tree of adjacent pairs, the steps of its scan, and a row's groups from a seed (03 R70, R71). -/
def pairTree {α : Type} (op : α → α → α) (x : Nat → α) : Nat → Nat → α
  | 0, i => x i
  | n + 1, i => op (pairTree op x n (2 * i)) (pairTree op x n (2 * i + 1))
def prefixTree {α : Type} (op : α → α → α) (x : Nat → α) : Nat → Nat → α
  | 0, i => x i
  | n + 1, i => if 2 ^ n ≤ i then op (prefixTree op x n (i - 2 ^ n)) (prefixTree op x n i) else prefixTree op x n i
def rowReduced {α : Type} (op : α → α → α) (x : Nat → α) (vl : Nat) (seed : α) : α :=
  (List.range ((vl + 63) / 64)).foldl (fun t g => op t (pairTree op (fun i => x (64 * g + i)) 6 0)) seed
def rowCarry {α : Type} (op : α → α → α) (x : Nat → α) (seed : α) : Nat → α
  | 0 => seed
  | g + 1 => op (rowCarry op x seed g) (prefixTree op (fun i => x (64 * g + i)) 6 63)
def rowPrefix {α : Type} (op : α → α → α) (x : Nat → α) (seed : α) (col : Nat) : α :=
  op (rowCarry op x seed (col / 64)) (prefixTree op (fun i => x (64 * (col / 64) + i)) 6 (col % 64))

/-- An operation on encodings as one on encodings with the flags that made them, and the values of a row, the identity where a position
takes no part (03 R69). -/
def withFlags (f : Nat → Nat → Nat × Flags) (x y : Nat × Flags) : Nat × Flags := ((f x.1 y.1).1, x.2 ||| y.2 ||| (f x.1 y.1).2)
def State.rowValues (s : State) (e : VReg) (k : MReg) (ident row col : Nat) : Nat × Flags :=
  if col < s.hart.shape.vl ∧ s.maskAt k row col = true then (s.elem e s.hart.shape.sew row col, 0) else (ident, 0)

/-- The floating-point reductions with whether each reads FCSR.FRM, its identity and its operation (03 R69, 08 R198). -/
def State.fpReductions (s : State) (md : Rounding) (e : VReg) (k : MReg) : List ((RedDst → Instr) × Bool × Nat × (Nat → Nat → Nat × Flags)) :=
  let f := s.hart.shape.fmt
  [(fun t => .vfredsum t e k, true, f.signBit, fpAdd f md), (fun t => .vfredmax t e k, false, f.signBit + f.inf, minMaxCode f true),
    (fun t => .vfredmin t e k, false, f.inf, minMaxCode f false)]

/-- The class code of an encoding (07 R166). -/
def classValue (f : FpFmt) (x : Nat) : Nat :=
  (match decodeFp f x with
    | .zero _ => 0
    | .fin _ m _ => if m < 2 ^ f.frac then 17 else 18
    | .inf _ => 3
    | .nan false => 4
    | .nan true => 5) + 8 * (x / f.signBit)

/-- The estimates of 08 R193, on the fixed tables. -/
def recipValue (f : FpFmt) (x : Nat) : Nat × Flags :=
  match decodeFp f x with
  | .nan q => (f.nan, flagIf q fNV)
  | .inf neg => (bit neg * f.signBit, 0)
  | .zero neg => (bit neg * f.signBit + f.inf, fDZ)
  | .fin neg m e => roundTo f .rne true (.fin neg (freceTable (m * 4096 / 2 ^ Nat.log2 m - 4096)) (-11 - (Nat.log2 m + e)))
def rootValue (f : FpFmt) (x : Nat) : Nat × Flags :=
  match decodeFp f x with
  | .nan q => (f.nan, flagIf q fNV)
  | .zero neg => (bit neg * f.signBit + f.inf, fDZ)
  | .inf false => (0, 0)
  | .inf true | .fin true _ _ => (f.nan, fNV)
  | .fin false m e =>
    let l : Int := Nat.log2 m + e
    roundTo f .rne true (.fin false (frsqeTable ((l % 2).toNat * 2048 + (m * 2048 / 2 ^ Nat.log2 m - 2048))) (-11 - (l - l % 2) / 2))

/-- The exponent that VFEXPO gives, at the width of the format (08 R192). -/
def exponentValue (f : FpFmt) (x : Nat) : Nat × Flags :=
  match decodeFp f x with
  | .nan q => (2 ^ (f.bits - 1) - 1, flagIf q fNV)
  | .inf _ => (2 ^ (f.bits - 1) - 1, 0)
  | .zero _ => (2 ^ (f.bits - 1), 0)
  | .fin _ m e => (((Nat.log2 m + e) % 2 ^ f.bits).toNat, 0)

/-- Element-wise floating-point instructions with whether each reads FCSR.FRM, and the width and the encoding with its flags that each gives a
position in the mode `md` (08 R192 to R194). -/
def State.fpLanes (s : State) (md : Rounding) (d a e c : VReg) (b : Src2) (k : MReg) : List (Instr × Bool × Nat × (Nat → Nat → Nat × Flags)) :=
  let p := s.hart.shape
  let w := p.sew
  let f := p.fmt
  let g : FpFmt := if w = 32 then .fp64 else .fp32
  let sb := f.signBit
  let x := s.elem a w
  let y := s.src2 b w
  let z := s.elem e w
  let q := s.elem c w
  let num := fun (u : Nat → Nat → Nat) i j => decodeFp f (u i j)
  let rdn := md == .rdn
  let signed := fun (n : Nat → Nat → Nat) i j => (x i j % sb + n (x i j / sb) (y i j / sb) % 2 * sb, (0 : Flags))
  [(.vfadd d a b k, true, w, fun i j => fpAdd f md (x i j) (y i j)), (.vfsub d a b k, true, w, fun i j => fpSub f md (x i j) (y i j)),
    (.vfmul d a b k, true, w, fun i j => fpMul f md (x i j) (y i j)), (.vfdiv d a b k, true, w, fun i j => fpDiv f md (x i j) (y i j)),
    (.vfsqrt d a k, true, w, fun i j => fpSqrt f md (x i j)),
    (.vfrsqe d a k, false, w, fun i j => rootValue f (x i j)), (.vfrece d a k, false, w, fun i j => recipValue f (x i j)),
    (.vfmin d a b k, false, w, fun i j => minMaxCode f false (x i j) (y i j)), (.vfmax d a b k, false, w, fun i j => minMaxCode f true (x i j) (y i j)),
    (.vfcopys d a b k, false, w, signed fun _ n => n), (.vfcopyns d a b k, false, w, signed fun _ n => n + 1),
    (.vfxors d a b k, false, w, signed fun m n => m + n),
    (.vfscale d a b k, true, w, fun i j => rounded f md ((num x i j).scale (signedOf w (y i j)), sigFlags [num x i j])),
    (.vfexpo d a k, false, w, fun i j => exponentValue f (x i j)), (.vfclass d a k, false, w, fun i j => (classValue f (x i j), 0)),
    (.vfwadd d a b k, true, 2 * w, fun i j => rounded g md (addNum rdn (num x i j) (num y i j))),
    (.vfwmul d a b k, true, 2 * w, fun i j => rounded g md (mulNum (num x i j) (num y i j))),
    (.vfma d a e c k, true, w, fun i j => fpFma f md false false (x i j) (z i j) (q i j)),
    (.vfms d a e c k, true, w, fun i j => fpFma f md false true (x i j) (z i j) (q i j)),
    (.vfnma d a e c k, true, w, fun i j => fpFma f md true true (x i j) (z i j) (q i j)),
    (.vfnms d a e c k, true, w, fun i j => fpFma f md true false (x i j) (z i j) (q i j)),
    (.vfwma d a e c k, true, 2 * w, fun i j => rounded g md (fmaNum rdn (num x i j) (num z i j) (decodeFp g (s.elem c (2 * w) i j))))]

/-- The floating-point compares of one set of operands with the bit and the flags that each gives two encodings (08 R195). -/
def fpCompares (f : FpFmt) (j : MReg) (a : VReg) (b : Src2) (k : MReg) : List (Instr × (Nat → Nat → Bool × Flags)) :=
  let nan := fun x y => (decodeFp f x).isNaN || (decodeFp f y).isNaN
  let sig := fun x y => (decodeFp f x).isSig || (decodeFp f y).isSig
  let less := fun x y => (decodeFp f x).lt (decodeFp f y)
  [(.vfcmpEq j a b k, fun x y => (!nan x y && !less x y && !less y x, flagIf (sig x y) fNV)),
    (.vfcmpLt j a b k, fun x y => (!nan x y && less x y, flagIf (nan x y) fNV)),
    (.vfcmpLe j a b k, fun x y => (!nan x y && !less y x, flagIf (nan x y) fNV)),
    (.vfcmpUn j a b k, fun x y => (nan x y, flagIf (sig x y) fNV))]

/-- The encoding and flags that VCVT gives an encoding of the element format at a position (08 R197). -/
def convertValue (c : Fmt) (f : FpFmt) (sat : Bool) (md : Rounding) (x : Nat) : Nat × Flags :=
  match cvtDst c with
  | .float g => if g = f then roundTo g md sat (Num.ofInt (signedOf f.bits x) 0) else fpConvert f g md sat x
  | .int sg n => roundInt sg n md (decodeFp f x)
  | .scale => roundE8m0 (decodeFp f x)
  | .none => (0, 0)

/-- The flags of the active positions, ORed into FCSR (03 R61). -/
def State.flagged (s : State) (at_ : List (Nat × Nat)) (f : Nat → Nat → Nat × Flags) : BitVec 8 :=
  (s.orFlags (at_.foldl (fun g x => g ||| (f x.1 x.2).2) 0)).hart.fcsr

/-- The mask instructions of one set of operands with the bit that each gives a position from its two source bits (08 R196). -/
def maskWords (j x y k : MReg) : List (Instr × (Bool → Bool → Bool)) :=
  [(.kand j x y k, fun p q => p && q), (.kor j x y k, fun p q => p || q), (.kxor j x y k, fun p q => p != q), (.kandn j x y k, fun p q => p && !q),
    (.kmov j x k, fun p _ => p), (.kset j k, fun _ _ => true)]

/-- The instructions on the prefixes and suffixes of a row of mask bits, with the bit that each gives a column from the source bits of the row
(08 R196). -/
def maskScans (vl : Nat) (j x k : MReg) : List (Instr × ((Nat → Bool) → Nat → Bool)) :=
  [(.kprex j x k, fun src c => (List.range vl).any fun i => decide (i < c) && src i),
    (.kprin j x k, fun src c => (List.range vl).any fun i => decide (i ≤ c) && src i),
    (.ksufin j x k, fun src c => (List.range vl).any fun i => decide (c ≤ i) && src i)]

/-- The integer compares of one set of operands with their relation on signed and unsigned values (08 R195). -/
def compareWords (j : MReg) (a : VReg) (b : Src2) (k : MReg) : List (Instr × (Int → Int → Nat → Nat → Bool)) :=
  [(.vcmpEq j a b k, fun _ _ x y => x == y), (.vcmpNe j a b k, fun _ _ x y => x != y), (.vcmpLt j a b k, fun x y _ _ => decide (x < y)),
    (.vcmpLe j a b k, fun x y _ _ => decide (x ≤ y)), (.vcmpLtu j a b k, fun _ _ x y => decide (x < y)),
    (.vcmpLeu j a b k, fun _ _ x y => decide (x ≤ y))]

/-! ## Vector memory -/

/-- The address of a position of the unit-stride and the strided modes, and of an index of the indexed modes (09 R205). -/
def State.unitAt (s : State) (a : SReg) (n : Nat) (row col : Nat) : Word :=
  s.getS a + BitVec.ofNat 64 row * s.hart.shape.rowstr + BitVec.ofNat 64 (col * n)
def State.strideAt (s : State) (a b : SReg) (row col : Nat) : Word :=
  s.getS a + BitVec.ofNat 64 row * s.hart.shape.rowstr + BitVec.ofNat 64 col * s.getS b
def State.indexAt (s : State) (a : SReg) (b : VReg) (iw n : Nat) (row col : Nat) : Word :=
  s.getS a + BitVec.ofNat 64 row * s.hart.shape.rowstr + BitVec.ofNat 64 (s.elem b iw row col) * BitVec.ofNat 64 n

/-- The active positions whose index is not the null index, and those whose index is (04 R94). -/
def State.nonNull (s : State) (k : MReg) (b : VReg) (iw : Nat) : List (Nat × Nat) :=
  (s.activeFrom k).filter fun x => decide (s.elem b iw x.1 x.2 ≠ 2 ^ iw - 1)
def State.nulls (s : State) (k : MReg) (b : VReg) (iw : Nat) : List (Nat × Nat) :=
  (s.activeFrom k).filter fun x => decide (s.elem b iw x.1 x.2 = 2 ^ iw - 1)

/-- Accesses of `n` bytes by the vector stream at the addresses of a list of positions are granted, each on a DATA page at the place of its
address. -/
def State.vgranted (s : State) (need : Needs) (n : Nat) (at_ : List (Nat × Nat)) (addr : Nat → Nat → Word) (p : Word → Place) : Prop :=
  ∀ x ∈ at_, (p (addr x.1 x.2)).kind = 0 ∧ s.granted s.vectorCtx need n n (addr x.1 x.2) (p (addr x.1 x.2)) = true

/-- No byte that the accesses store is one that their own page walks read. -/
def State.walksApart (s : State) (n : Nat) (at_ : List (Nat × Nat)) (addr : Nat → Nat → Word) (p : Word → Place) : Prop :=
  ∀ x ∈ at_, ∀ y ∈ at_, ∀ e ∈ s.walkPath s.vectorCtx (addr y.1 y.2) 3 s.vectorCtx.root, apart (p (addr x.1 x.2)).pa n e 8

/-- A state in which vector accesses of the current hart wait for nothing: no register and no window line in error, no engine command, no
deterministic mode, no value read ahead, and no VAMO in the midst of its lanes. -/
def State.quiet (s : State) : Prop :=
  s.hart.sound ∧ s.hart.engine = [] ∧ s.hart.det = false ∧ s.hart.taken = [] ∧ s.hart.reads = [] ∧ s.hart.lanes = []
    ∧ s.hart.lanesCut = none ∧ ∀ h ∈ s.others, h.ecc.w = []

/-- The state in which the accesses of a vector instruction are made: if it makes any, what FENCEs hold it back for has been done. -/
def State.vectorBase (s : State) (none_ : Bool) : State := if none_ then s else s.afterFences Fence.vector

/-- No outstanding write that the vector stream sees, or that is owed to its die, meets the bytes. -/
def State.settled (s : State) (pa n : Nat) : Prop :=
  ∀ w ∈ s.writes, s.meets (.stream .vector) pa n w = false ∧ (w.owedTo (.die s.hart.ident.die) && w.overlaps pa n) = false

/-- An access of a vector instruction at an address fails with a trap (06 R151; 09 R208; 11 R259; 18 R317, R318; 21 R361): by its alignment or its
form; by its leaf's permissions, or by the kind that `kind` asks of its page; by the error reply of its home; or by data of which `bad` says that
it is in uncorrectable error. -/
def State.elementFault (s : State) (need : Needs) (size : Nat) (kind : Place → Option Cause) (bad : Place → Bool) (va : Word) (t : Trap) : Prop :=
  let c := s.vectorCtx
  (va.toNat % size ≠ 0 ∧ t = Trap.of .misaligned va)
  ∨ va.toNat % size = 0 ∧ ((canonical va = false ∧ t = Trap.of .notPresent va)
    ∨ canonical va = true ∧ ∃ l, s.finds c va l = true ∧ ((permits c need l.pte = false ∧ t = Trap.of .permission va)
      ∨ permits c need l.pte = true ∧ ((∃ x, kind (l.place va) = some x ∧ t = Trap.of x va)
        ∨ kind (l.place va) = none ∧ lacksBits l.pte need.w = false ∧
          (((∀ held, s.reaches c held (l.target va) = false) ∧ t = Trap.of .busError va)
          ∨ (s.reaches c false (l.target va) = true ∧ paPkg (l.target va) = s.pkg.val ∧ bad (l.place va) = true
              ∧ t = { Trap.of .memoryError va with pa := some (l.target va) })))))

/-- The data of a load, and of a store of `n` bytes, in uncorrectable error (18 R318). -/
def State.badLoad (s : State) (n : Nat) (p : Place) : Bool := if p.kind = 0 then s.badSeen (.stream .vector) p.pa n else s.badUnits p.pa 64
def State.badStore (s : State) (n : Nat) (p : Place) : Bool := decide (n < 8) && s.badUnits p.pa n

/-- The kind rules of vector accesses: a DEV page fails by Permission; a load of a cell page that is not of its width at a cell base by Cell
Alignment; a store and an atomic on a cell page by Cell Store; a cell add on a page of another kind, and CRAW and CWRAW on a page that is no cell
page, by Cell Kind (09 R208; 11 R259). -/
def loadKinds (n : Nat) (p : Place) : Option Cause :=
  if p.kind = 1 then some .permission
  else if 2 ≤ p.kind ∧ ¬(n = (if p.kind = 3 then 8 else 4) ∧ p.pa % 64 = 0) then some .cellAlignment
  else none
def storeKinds (p : Place) : Option Cause := if p.kind = 1 then some .permission else if 2 ≤ p.kind then some .cellStore else none
def addKinds (f : CellFmt) (p : Place) : Option Cause := if p.kind ≠ cellFmtKind f then some .cellKind else none
def rawKinds (p : Place) : Option Cause := if p.kind < 2 then some .cellKind else none

/-- The outcome of a trap at a position of a vector instruction: VSTART stands there, the PC and the scalar registers are kept, and what has been
done before it holds (02 R35). -/
def stopsAt (s : State) (y : Nat × Nat) (t : Trap) (P : State → Prop) (o : Out1) : Prop :=
  ∃ v, v.hart.shape = { s.hart.shape with vstart := packStart y.1 y.2 } ∧ v.hart.pc = s.hart.pc ∧ v.hart.s = s.hart.s ∧ P v ∧ o = v.trapped t

/-- What a vector memory instruction that completes leaves beside what it loads or stores: the next PC, VSTART 0, and all other registers of the
current hart but vector and mask registers and the flags. -/
def vectorDone (s t : State) : Prop :=
  t.hart.pc = s.hart.pc + 4 ∧ t.hart.shape = { s.hart.shape with vstart := 0 } ∧ t.hart.s = s.hart.s ∧ t.hart.acc = s.hart.acc
    ∧ t.hart.cc = s.hart.cc ∧ t.hart.priv = { s.hart.priv with vdirty := t.hart.priv.vdirty } ∧ t.hart.rs = s.hart.rs
    ∧ t.others = s.others ∧ t.hart.queue = s.hart.queue

/-- The value of `n` bytes that a load puts into an element of `w` bits. -/
def loaded (signed : Bool) (n w v : Nat) : Nat := if signed then (signedOf (8 * n) v % 2 ^ w).toNat else v

/-- The write of the low `n` bytes of a number by a vector access with a placement hint, at an address and its place. -/
def State.vwrite (s : State) (hint : VHint) (va : Word) (p : Place) (n x : Nat) : PendingWrite :=
  s.writeOf .vector (s.vectorPath s.vectorCtx false va p).1 hint p.pa (.store (leBytes n x))

/-- The new value of a vector atomic from its width in bits, the old value and the operand (09 R220). -/
def vamoNew (i : Instr) (w old x : Nat) : Nat :=
  match i with
  | .vamoadd .. => (old + x) % 2 ^ w
  | .vamoand .. => old &&& x
  | .vamoor .. => old ||| x
  | .vamoxor .. => old ^^^ x
  | .vamomin .. => if signedOf w old ≤ signedOf w x then old else x
  | .vamomax .. => if signedOf w x ≤ signedOf w old then old else x
  | .vamominu .. => min old x
  | .vamomaxu .. => max old x
  | .vamofadd .. => (fpAdd (if w = 64 then .fp64 else .fp32) .rne old x).1
  | _ => x

/-- The vector atomics of one set of operands. -/
noncomputable def vamos (o : Order) (e r : Bool) (d : VReg) (a : SReg) (b : VReg) (k : MReg) : List Instr :=
  [.vamoadd o e d a b k, .vamoand o e d a b k, .vamoor o e d a b k, .vamoxor o e d a b k, .vamomin o e d a b k, .vamomax o e d a b k,
    .vamominu o e d a b k, .vamomaxu o e d a b k, .vamoswap o e d a b k, .vamofadd o r e d a b k]

/-- The code of an element in the byte that a load of MX blocks reads for it (09 R216). -/
def mxCode (pack : Bool) (v col : Nat) : Nat := if pack then bitsAt v (4 * (col % 2)) 4 else v

/-! ## Cells and tiles -/

/-- Accesses of 64 bytes by the vector stream at the addresses of a list of positions are granted, at the places of their addresses. -/
def State.cellsGranted (s : State) (need : Needs) (kind : Nat → Bool) (at_ : List (Nat × Nat)) (addr : Nat → Nat → Word) (p : Word → Place) : Prop :=
  ∀ x ∈ at_, kind (p (addr x.1 x.2)).kind = true ∧ s.granted s.vectorCtx need 64 64 (addr x.1 x.2) (p (addr x.1 x.2)) = true

/-- The write that adds a value of a format to a cell, and the one that replaces its bytes. -/
def State.addWrite (s : State) (f : CellFmt) (p : Place) (x : Nat) : PendingWrite :=
  s.writeOf .vector none .normal p.pa (.cellAdd f (p.kind == 3) p.e0 x)
def State.rawWrite (s : State) (p : Place) (bs : List Byte) : PendingWrite := s.writeOf .vector none .normal p.pa (.store bs)

/-- The 64 bytes of a cell of memory after a value of a format has been added to it at a place (11 R251). -/
def addedCell (m : Memory) (f : CellFmt) (p : Place) (x : Nat) : List Byte :=
  ((Cell.ofBytes (Memory.readBytes m p.pa 64)).add (p.kind == 3) (cellBase p.kind p.e0) (decodeFp (cellFmtFp f) x)).bytes

/-- The active cells from VSTART on, by their first positions (11 R257), and the address of a cell. -/
def State.activeCells (s : State) (k : MReg) : List (Nat × Nat) := (s.activeFrom k).filter fun x => x.2 % 8 == 0
def State.cellVa (s : State) (a : SReg) (row col : Nat) : Word :=
  s.getS a + BitVec.ofNat 64 row * s.hart.shape.rowstr + BitVec.ofNat 64 (col / 8 * 64)

/-- The matrix pairs (10 R226). -/
def matrixPairs : List (Fmt × Fmt × MatPair) :=
  [(.fp64, .fp64, ⟨1, true, false, false⟩), (.fp32, .fp32, ⟨1, false, false, false⟩), (.fp16, .fp16, ⟨2, false, false, false⟩),
    (.bf16, .bf16, ⟨2, false, false, false⟩), (.e4m3, .e4m3, ⟨4, false, false, false⟩), (.e4m3, .e5m2, ⟨4, false, false, false⟩),
    (.e5m2, .e4m3, ⟨4, false, false, false⟩), (.e5m2, .e5m2, ⟨4, false, false, false⟩), (.int8, .int8, ⟨4, false, true, false⟩),
    (.e2m1, .e2m1, ⟨8, false, false, false⟩), (.mxE4m3, .mxE4m3, ⟨4, false, false, true⟩), (.mxE4m3, .mxE5m2, ⟨4, false, false, true⟩),
    (.mxE5m2, .mxE4m3, ⟨4, false, false, true⟩), (.mxE5m2, .mxE5m2, ⟨4, false, false, true⟩), (.mxE2m1, .mxE2m1, ⟨8, false, false, true⟩)]

/-- What an instruction that changes a tile leaves: the next PC, VSTART 0, and beside the tile only flags and the tile's bit of ADIRTY. -/
def tileDone (s t : State) (r : Tile) : Prop :=
  t = { s with hart := { s.hart with
          pc := s.hart.pc + 4, shape := { s.hart.shape with vstart := 0 }, acc := t.hart.acc, fcsr := t.hart.fcsr, mxflags := t.hart.mxflags
          taken := [], begun := false
          priv := { s.hart.priv with adirty := t.hart.priv.adirty } } }
    ∧ ∀ q, q ≠ r → t.getAcc q = s.getAcc q ∧ t.hart.priv.adirty.getLsbD q.val = s.hart.priv.adirty.getLsbD q.val

/-- From a state to another the elements of a tile's view become those of a function, and the bytes outside the view stay. -/
def tileBecomes (s t : State) (r : Tile) (wide : Bool) (f : Nat → Nat → Nat) : Prop :=
  (∀ i j, i < viewSide wide → j < viewSide wide → tileElem (t.getAcc r) wide i j = f i j % 2 ^ viewBits wide)
    ∧ ∀ i, viewSide wide ≤ i → i < 64 → tileRow (t.getAcc r) i = tileRow (s.getAcc r) i

/-! ## Engines, windows and hash tables -/

/-- A command as it issues (10 R236). -/
def newCommand (op : EngineOp) (c : CReg) (va : Word) : EngineCmd :=
  { op := op, cc := c, addr := va, accepted := false, finished := false, desc := [], ranges := [], failure := none, read := [], wrote := []
    pages := [], broke := [], pins := [] }

/-- The outcome of an instruction that issues a command. -/
def State.issued (s : State) (op : EngineOp) (c : CReg) (va : Word) : Out1 :=
  .next (s.withHart fun h => { h with engine := h.engine ++ [newCommand op c va] }).completed

/-- The state after a lone command has been accepted, as what it is then: its counter counts it. -/
def State.acceptedAs (s : State) (c : EngineCmd) : State :=
  let x := s.getCC c.cc
  (s.withHart fun h => { h with engine := [{ c with accepted := true }] }).setCC c.cc { x with count := x.count + 1 }

/-- The same with ranges and a failure, the core seeing the vector writes. -/
def State.acceptedWith (s : State) (c : EngineCmd) (ranges : List Range) (failure : Option (BitVec 3 × Word)) : State :=
  (s.raise (fun w => s.mine w && w.stream == .vector) .core).acceptedAs { c with desc := [], ranges := ranges, read := [], failure := failure }

/-- What the completion of a lone command that met no failure leaves: no command, its counter one lower, WDCOUNT 0, and every other register
but tiles and flags; the flags may join the queued instructions. -/
def commandDone (s t : State) (c : EngineCmd) : Prop :=
  let x := s.getCC c.cc
  t.hart = { s.hart with
      engine := [], cc := s.hart.cc.set c.cc { x with count := x.count - 1 }
      acc := t.hart.acc, fcsr := t.hart.fcsr, mxflags := t.hart.mxflags, queue := t.hart.queue
      priv := { s.hart.priv with wdcount := 0, adirty := t.hart.priv.adirty } }
    ∧ t.others = s.others ∧ t.writes = s.writes

/-- The slot of the probe window that holds a key, and the first that takes a new entry (12 R276, R280). -/
def Claim.slotOf (c : Claim) (k : Nat) : Option (Nat × Nat) :=
  (c.window k).find? fun x => (c.bucket x.1).isLive x.2 && (c.bucket x.1).key x.2 == k
def Claim.freeSlot (c : Claim) (k : Nat) : Option (Nat × Nat) :=
  (c.window k).find? fun x => !(c.bucket x.1).isLive x.2 && (!(c.bucket x.1).isTomb x.2 || !c.noReuse)

/-- A table with a slot's entry replaced, or deleted. -/
def Claim.putAt (c : Claim) (x : Nat × Nat) (k v : Nat) : Claim := c.setBucket x.1 ((c.bucket x.1).put x.2 k v)
def Claim.killAt (c : Claim) (x : Nat × Nat) : Claim := c.setBucket x.1 ((c.bucket x.1).kill x.2)
def Claim.valueAt (c : Claim) (x : Nat × Nat) : Nat := (c.bucket x.1).value x.2

/-- One lane of HINS, or of HACC with its operation, on a table with no spill: the table after it, the ordinal written and the flags (12 R278,
R280). -/
def Claim.insertOne (acc : Option HAccOp) (c : Claim) (k v : Nat) : Claim × Nat × Flags :=
  match c.slotOf k, acc, c.freeSlot k with
  | some x, none, _ => (c, x.1 * c.slots + x.2, 0)
  | some x, some f, _ =>
    let r := hashAcc f c.valBits (c.valueAt x) v
    (c.putAt x k r.1, x.1 * c.slots + x.2, r.2)
  | none, _, some x => (c.putAt x k v, x.1 * c.slots + x.2, 0)
  | none, _, none => ({ c with fail := true }, 0xFFFFFFFF, 0)

/-- The lanes of a list of keys and values, each on the table that the earlier ones left: the last table and what each wrote. -/
def Claim.insertAll (acc : Option HAccOp) : Claim → List (Nat × Nat) → Claim × List (Nat × Flags)
  | c, [] => (c, [])
  | c, x :: xs =>
    let r := c.insertOne acc x.1 x.2
    let u := r.1.insertAll acc xs
    (u.1, r.2 :: u.2)

/-- A hash table that a keyed operation finds ready: claimed, with no spill records and none allowed, its keys of the width SEW. -/
def State.tableReady (s : State) (h : Handle) : Prop :=
  let c := s.getClaim h
  h.val < s.hart.declared.hash ∧ c.claimed = true ∧ c.used = 0 ∧ c.spillCap = 0 ∧ s.hart.shape.sew = c.keyBits ∧ s.hart.engine = []

/-! ## The control processor -/

/-- A well-formed command message of its source's turn that reaches the control processor of a package that has booted (20 R339, R340). -/
def State.accepts (s : State) (m : Msg) : Prop :=
  s.supply.up = true ∧ s.supply.failed = none ∧ isCommander m.source.toNat = true ∧ s.linked m.source.toNat = true
    ∧ s.mustHold m.source = false ∧ m.seq = expectedSeq m.source s.control.expected ∧ messageOk m = true

/-- A state whose books are changed. -/
def State.withControl (s : State) (f : Control → Control) : State := { s with control := f s.control }

/-- The outcome of a command that has its status. -/
def State.answered (s : State) (m : Msg) (status : Nat) (result : List Byte) : Out1 := .next (s.finishCommand m.source m.seq status result)

end Sys2Proof.Machine
end

