-- ==== Sys2Proof/Certificates/Slice0/Obligations.lean ====
section
/-! DEFINITION. The statements for the provers, in the order of the manual's parts.  Each docstring says what its statement says; the rules
it formalises stand in OBLIGATIONS.json. -/

open Sys2Proof Sys2Proof.Machine

/-! ## Integer and floating-point instructions on scalar registers -/

/-- s0 reads zero and a write to it is discarded; a write to any other scalar register is what a later read of it gives, and every other
register keeps its value, of its own kind and of the other kinds. -/
def Obligations.RegisterFile : Prop :=
  ∀ (s : State) (r : SReg) (x : Word),
    s.getS 0 = 0 ∧ s.setS 0 x = s
      ∧ (r ≠ 0 → (s.setS r x).getS r = x)
      ∧ (∀ q, q ≠ r → (s.setS r x).getS q = s.getS q)
      ∧ (∀ q, (s.setS r x).getV q = s.getV q) ∧ (∀ q, (s.setS r x).getK q = s.getK q) ∧ (∀ q, (s.setS r x).getAcc q = s.getAcc q)
      ∧ (s.setS r x).hart.pc = s.hart.pc ∧ (s.setS r x).hart.fcsr = s.hart.fcsr ∧ (s.setS r x).hart.priv = s.hart.priv
      ∧ (s.setS r x).mem = s.mem

/-- Each ALU instruction and each immediate form on registers that are not in error writes sD with the value that R161 or R162 gives it, sh being
sB[5:0], moves on to the next instruction and changes nothing else, no flag among it; on a register in error it takes Memory Error. -/
def Obligations.IntegerResults : Prop :=
  (
    ∀ (s : State) (d a b : SReg),
      let x := s.getS a
      let y := s.getS b
      let sh := y.toNat % 64
      (s.badS a = false → s.badS b = false →
        exec (.add d a b) s = s.done d (x + y)
        ∧ exec (.sub d a b) s = s.done d (x - y)
        ∧ exec (.and d a b) s = s.done d (x &&& y)
        ∧ exec (.or d a b) s = s.done d (x ||| y)
        ∧ exec (.xor d a b) s = s.done d (x ^^^ y)
        ∧ exec (.andn d a b) s = s.done d (x &&& ~~~y)
        ∧ exec (.sll d a b) s = s.done d (x <<< sh)
        ∧ exec (.srl d a b) s = s.done d (x >>> sh)
        ∧ exec (.sra d a b) s = s.done d (x.sshiftRight sh)
        ∧ exec (.ror d a b) s = s.done d (x >>> sh ||| x <<< ((64 - sh) % 64))
        ∧ exec (.slt d a b) s = s.done d (if x.toInt < y.toInt then 1 else 0)
        ∧ exec (.sltu d a b) s = s.done d (if x.toNat < y.toNat then 1 else 0)
        ∧ exec (.min d a b) s = s.done d (BitVec.ofInt 64 (min x.toInt y.toInt))
        ∧ exec (.max d a b) s = s.done d (BitVec.ofInt 64 (max x.toInt y.toInt))
        ∧ exec (.minu d a b) s = s.done d (BitVec.ofNat 64 (min x.toNat y.toNat))
        ∧ exec (.maxu d a b) s = s.done d (BitVec.ofNat 64 (max x.toNat y.toNat)))
      ∧ (s.badS a = false →
        (∃ n ≤ 64, exec (.clz d a) s = s.done d (BitVec.ofNat 64 n) ∧ (∀ i < n, x.getLsbD (63 - i) = false)
          ∧ (n < 64 → x.getLsbD (63 - n) = true))
        ∧ (∃ n ≤ 64, exec (.ctz d a) s = s.done d (BitVec.ofNat 64 n) ∧ (∀ i < n, x.getLsbD i = false) ∧ (n < 64 → x.getLsbD n = true))
        ∧ exec (.popc d a) s = s.done d (BitVec.ofNat 64 ((List.range 64).countP fun i => x.getLsbD i))
        ∧ (∃ z : Word, exec (.brev d a) s = s.done d z ∧ ∀ i < 64, z.getLsbD i = x.getLsbD (63 - i))
        ∧ exec (.sextb d a) s = s.done d ((x.setWidth 8).signExtend 64)
        ∧ exec (.sexth d a) s = s.done d ((x.setWidth 16).signExtend 64)
        ∧ exec (.sextw d a) s = s.done d ((x.setWidth 32).signExtend 64)
        ∧ exec (.zextw d a) s = s.done d ((x.setWidth 32).setWidth 64))
      ∧ (s.badS a = true →
        ∀ i ∈ ([.add d a b, .sub d a b, .and d a b, .or d a b, .xor d a b, .andn d a b, .sll d a b, .srl d a b, .sra d a b, .ror d a b,
                .slt d a b, .sltu d a b, .min d a b, .max d a b, .minu d a b, .maxu d a b, .clz d a, .ctz d a, .popc d a, .brev d a,
                .sextb d a, .sexth d a, .sextw d a, .zextw d a] : List Instr),
          exec i s = s.trapped Trap.register))
    ∧ (
    ∀ (s : State) (d a : SReg) (i : BitVec 16) (n : Fin 64),
      let x := s.getS a
      let imm : Word := i.signExtend 64
      (s.badS a = false →
        exec (.addi d a i) s = s.done d (x + imm)
        ∧ exec (.andi d a i) s = s.done d (x &&& imm)
        ∧ exec (.ori d a i) s = s.done d (x ||| i.setWidth 64)
        ∧ exec (.xori d a i) s = s.done d (x ^^^ i.setWidth 64)
        ∧ exec (.slli d a n) s = s.done d (x <<< n.val)
        ∧ exec (.srli d a n) s = s.done d (x >>> n.val)
        ∧ exec (.srai d a n) s = s.done d (x.sshiftRight n.val)
        ∧ exec (.rori d a n) s = s.done d (x >>> n.val ||| x <<< ((64 - n.val) % 64))
        ∧ exec (.slti d a i) s = s.done d (if x.toInt < imm.toInt then 1 else 0)
        ∧ exec (.sltiu d a i) s = s.done d (if x.toNat < imm.toNat then 1 else 0))
      ∧ exec (.lui d i) s = s.done d (imm <<< 16)
      ∧ exec (.addpc d i) s = s.done d (s.hart.pc + imm * 4)
      ∧ (s.badS a = true →
        ∀ j ∈ ([.addi d a i, .andi d a i, .ori d a i, .xori d a i, .slli d a n, .srli d a n, .srai d a n, .rori d a n, .slti d a i,
                .sltiu d a i] : List Instr),
          exec j s = s.trapped Trap.register))

/-- MUL, MULH, MULHU and MULHSU write the low or the high half of the 128-bit product; DIV, DIVU, REM and REMU the truncated quotient and
its remainder, saturated on division by zero and on signed overflow, with remainder 0 there; nothing else changes. -/
def Obligations.MulDivResults : Prop :=
  ∀ (s : State) (d a b : SReg),
    let x := s.getS a
    let y := s.getS b
    (s.badS a = false → s.badS b = false →
      exec (.mul d a b) s = s.done d (BitVec.ofNat 64 (x.toNat * y.toNat))
      ∧ exec (.mulh d a b) s = s.done d ((x.signExtend 128 * y.signExtend 128).extractLsb' 64 64)
      ∧ exec (.mulhu d a b) s = s.done d ((x.zeroExtend 128 * y.zeroExtend 128).extractLsb' 64 64)
      ∧ exec (.mulhsu d a b) s = s.done d ((x.signExtend 128 * y.zeroExtend 128).extractLsb' 64 64)
      ∧ (y = 0 →
        exec (.div d a b) s = s.done d (if x.toInt < 0 then BitVec.intMin 64 else BitVec.intMax 64)
        ∧ exec (.divu d a b) s = s.done d (BitVec.allOnes 64)
        ∧ exec (.rem d a b) s = s.done d 0 ∧ exec (.remu d a b) s = s.done d 0)
      ∧ (x = BitVec.intMin 64 → y = -1 → exec (.div d a b) s = s.done d (BitVec.intMax 64) ∧ exec (.rem d a b) s = s.done d 0)
      ∧ (y ≠ 0 → exec (.divu d a b) s = s.done d (BitVec.ofNat 64 (x.toNat / y.toNat))
        ∧ exec (.remu d a b) s = s.done d (BitVec.ofNat 64 (x.toNat % y.toNat)))
      ∧ (y ≠ 0 → ¬(x = BitVec.intMin 64 ∧ y = -1) →
        ∃ q r : Word, exec (.div d a b) s = s.done d q ∧ exec (.rem d a b) s = s.done d r
          ∧ x.toInt = q.toInt * y.toInt + r.toInt ∧ r.toInt.natAbs < y.toInt.natAbs ∧ (r = 0 ∨ (r.toInt < 0 ↔ x.toInt < 0))))
    ∧ (s.badS a = true ∨ s.badS b = true →
      ∀ i ∈ ([.mul d a b, .mulh d a b, .mulhu d a b, .mulhsu d a b, .div d a b, .divu d a b, .rem d a b, .remu d a b] : List Instr),
        exec i s = s.trapped Trap.register)

/-- Each scalar floating-point instruction that rounds writes the result of its operation in the mode that it names, FCSR.FRM where that is
the dynamic mode, ORs the flags that the result earns, moves on and changes nothing else.  One that takes the dynamic mode while FCSR.FRM holds
5, 6 or 7 raises Illegal Instruction with the instruction word and changes nothing before it. -/
def Obligations.FpRoundedResults : Prop :=
  (
    ∀ (s : State) (w : FWidth) (m : Rm) (md : Rounding) (d a b c : SReg),
      s.mode m = some md → s.badS a = false → s.badS b = false → s.badS c = false →
      let f := widthFmt w
      let g := widthFmt (otherWidth w)
      let x := s.fpArg w a
      let y := s.fpArg w b
      let z := s.fpArg w c
      exec (.fadd w m d a b) s = s.doneFp d (fpAdd f md x y)
      ∧ exec (.fsub w m d a b) s = s.doneFp d (fpSub f md x y)
      ∧ exec (.fmul w m d a b) s = s.doneFp d (fpMul f md x y)
      ∧ exec (.fdiv w m d a b) s = s.doneFp d (fpDiv f md x y)
      ∧ exec (.fsqrt w m d a) s = s.doneFp d (fpSqrt f md x)
      ∧ exec (.fcvtfi w m d a) s = s.doneFp d (roundInt true 64 md (decodeFp f x))
      ∧ exec (.fcvtfu w m d a) s = s.doneFp d (roundInt false 64 md (decodeFp f x))
      ∧ exec (.fcvtif w m d a) s = s.doneFp d (roundTo f md true (Num.ofInt (s.getS a).toInt 0))
      ∧ exec (.fcvtuf w m d a) s = s.doneFp d (roundTo f md true (Num.ofInt (s.getS a).toNat 0))
      ∧ exec (.fcvtff w m d a) s = s.doneFp d (fpConvert g f md true (s.fpArg (otherWidth w) a))
      ∧ exec (.fmadd w m d a b c) s = s.doneFp d (fpFma f md false false x y z)
      ∧ exec (.fmsub w m d a b c) s = s.doneFp d (fpFma f md false true x y z)
      ∧ exec (.fnmadd w m d a b c) s = s.doneFp d (fpFma f md true true x y z)
      ∧ exec (.fnmsub w m d a b c) s = s.doneFp d (fpFma f md true false x y z))
    ∧ (
    ∀ (s : State) (w : FWidth) (d a b c : SReg), 5 ≤ s.hart.fcsr.toNat % 8 →
      ∀ i ∈ ([.fadd w .dyn d a b, .fsub w .dyn d a b, .fmul w .dyn d a b, .fdiv w .dyn d a b, .fsqrt w .dyn d a, .fcvtfi w .dyn d a,
              .fcvtfu w .dyn d a, .fcvtif w .dyn d a, .fcvtuf w .dyn d a, .fcvtff w .dyn d a, .fmadd w .dyn d a b c,
              .fmsub w .dyn d a b c, .fnmadd w .dyn d a b c, .fnmsub w .dyn d a b c] : List Instr),
        exec i s = s.trapped (Trap.of .illegalInstruction (s.hart.ir.zeroExtend 64)))

/-- The scalar floating-point instructions that round nothing write their result whatever FCSR.FRM holds: the minimum or maximum number,
the operand with another sign, a comparison's 1 or 0 with NV on a NaN as R165 says, or the class code of R166. -/
def Obligations.FpBitResults : Prop :=
  ∀ (s : State) (w : FWidth) (d a b : SReg),
    s.badS a = false → s.badS b = false →
    let f := widthFmt w
    let x := s.fpArg w a
    let y := s.fpArg w b
    let p := decodeFp f x
    let q := decodeFp f y
    let nv := fun (c : Bool) => flagIf c fNV
    let anyNaN := p.isNaN || q.isNaN
    let anySig := p.isSig || q.isSig
    exec (.fmin w d a b) s = s.doneFp d (minMaxCode f false x y)
    ∧ exec (.fmax w d a b) s = s.doneFp d (minMaxCode f true x y)
    ∧ exec (.fcopys w d a b) s = s.doneFp d (x % f.signBit + y / f.signBit * f.signBit, 0)
    ∧ exec (.fcopyns w d a b) s = s.doneFp d (x % f.signBit + (1 - y / f.signBit) * f.signBit, 0)
    ∧ exec (.fxors w d a b) s = s.doneFp d (x % f.signBit + (x / f.signBit + y / f.signBit) % 2 * f.signBit, 0)
    ∧ exec (.feq w d a b) s = s.doneFp d (bit (!anyNaN && !p.lt q && !q.lt p), nv anySig)
    ∧ exec (.flt w d a b) s = s.doneFp d (bit (!anyNaN && p.lt q), nv anyNaN)
    ∧ exec (.fle w d a b) s = s.doneFp d (bit (!anyNaN && !q.lt p), nv anyNaN)
    ∧ exec (.fclass w d a) s = s.doneFp d ((match p with
        | .zero _ => 0
        | .fin _ m _ => if m < 2 ^ f.frac then 17 else 18
        | .inf _ => 3
        | .nan false => 4
        | .nan true => 5) + 8 * (x / f.signBit), 0)

/-- Rounding to whole quanta: of the two whole numbers of quanta about an exact magnitude, RNE takes the nearer and the even one of two
equally near, RMM the nearer and the larger one, RTZ the smaller, RDN the one toward negative and RUP the one toward positive infinity; the
inexact flag says whether the magnitude was no whole number of quanta.  Rounding an encoded number that is not a NaN to its own format gives its
encoding back with no flag, in every mode and format. -/
def Obligations.RoundingResults : Prop :=
  (
    ∀ (neg : Bool) (m sh : Nat) (e : Int), 0 < m →
      let q := fun md => (toQuanta md neg m e (e + sh)).1
      let d := fun md => (q md : Int) * 2 ^ sh - m
      2 * (d .rne).natAbs ≤ 2 ^ sh ∧ (2 * (d .rne).natAbs = 2 ^ sh → q .rne % 2 = 0)
      ∧ 2 * (d .rmm).natAbs ≤ 2 ^ sh ∧ (2 * (d .rmm).natAbs = 2 ^ sh → 0 < d .rmm)
      ∧ d .rtz ≤ 0 ∧ (d .rtz).natAbs < 2 ^ sh
      ∧ (if neg then 0 ≤ d .rdn else d .rdn ≤ 0) ∧ (d .rdn).natAbs < 2 ^ sh
      ∧ (if neg then d .rup ≤ 0 else 0 ≤ d .rup) ∧ (d .rup).natAbs < 2 ^ sh
      ∧ ∀ md, (toQuanta md neg m e (e + sh)).2 = decide (m % 2 ^ sh ≠ 0))
    ∧ (
    ∀ (f : FpFmt) (md : Rounding) (sat : Bool) (c : Nat), c < 2 ^ f.bits → (decodeFp f c).isNaN = false →
      roundTo f md sat (decodeFp f c) = (c, 0))


/-! ## Scalar memory -/

/-- A granted scalar load from a DATA or DEV page of this package writes sD with the bytes at sA plus the displacement as the scalar stream
sees them, sign-extended or zero-extended to 64 bits, and changes caches alone beside it; LDAQ does it at sA with a sign-extended word, and
then both streams of the hart see what it has read.  Where no outstanding write stands before a FENCE, is a cell add or has come beyond its core,
none performs first; an acquire changes neither memory nor a register. -/
def Obligations.ScalarLoadResults : Prop :=
  ∀ (s : State) (d a : SReg) (i : BitVec 16) (sc : Scope) (p : Place),
    s.badS a = false → p.kind < 2 →
    let va := s.getS a + i.signExtend 64
    let x := s.loadValue p
    let reads := fun (n : Nat) (z : Word) (k : Instr) => s.loadGranted n va p → loadsTo (s.loadState p n) d z (exec k s)
    let acquires := fun (n : Nat) (z : Word) (k : Instr) => s.loadGranted n (s.getS a) p →
      ∃ u, cachesOnly (s.loadState p n) u ∧ exec k s = (u.acquired s.scalarCtx (s.getS a) n).done d z
    reads 1 ((BitVec.ofNat 8 (x 1)).signExtend 64) (.ldb d a i) ∧ reads 1 ((BitVec.ofNat 8 (x 1)).setWidth 64) (.ldbu d a i)
    ∧ reads 2 ((BitVec.ofNat 16 (x 2)).signExtend 64) (.ldh d a i) ∧ reads 2 ((BitVec.ofNat 16 (x 2)).setWidth 64) (.ldhu d a i)
    ∧ reads 4 ((BitVec.ofNat 32 (x 4)).signExtend 64) (.ldw d a i) ∧ reads 4 ((BitVec.ofNat 32 (x 4)).setWidth 64) (.ldwu d a i)
    ∧ reads 8 (BitVec.ofNat 64 (x 8)) (.ldd d a i)
    ∧ acquires 4 ((BitVec.ofNat 32 (x 4)).signExtend 64) (.ldaqW sc d a) ∧ acquires 8 (BitVec.ofNat 64 (x 8)) (.ldaqD sc d a)
    ∧ (s.plainWrites → ∀ n, s.loadState p n = s)
    ∧ ∀ c va n, (s.acquired c va n).mem = s.mem ∧ (s.acquired c va n).hart = s.hart

/-- A granted scalar store to a DATA page hands the low bytes of sD to the home of the address sA plus the displacement, after the writes to
them that have performed at a scope of its die, and moves on: its own bytes change no byte of memory yet, no register and beside caches nothing
else changes.  One to a DEV page performs there.  Where no outstanding write stands before a FENCE or has come beyond its core, none performs
first. -/
def Obligations.ScalarStoreResults : Prop :=
  ∀ (s : State) (d a : SReg) (i : BitVec 16) (p : Place),
    s.badS a = false → s.badS d = false → p.kind < 2 →
    let va := s.getS a + i.signExtend 64
    let v := s.afterFences Fence.scalar
    let stores := fun (n : Nat) (k : Instr) => s.storeGranted v n va p → storesTo v p n (s.getS d).toNat (exec k s)
    stores 1 (.stb d a i) ∧ stores 2 (.sth d a i) ∧ stores 4 (.stw d a i) ∧ stores 8 (.std d a i)
    ∧ (s.plainWrites → v = s ∧ ∀ n, v.askedHere p.pa n = s) ∧ ∀ u w, (State.sent u w).mem = u.mem ∧ (State.sent u w).hart = u.hart

/-- A write handed to its home is what its own stream then reads, byte by byte with the least significant first, at the stored addresses and
nowhere else; the other stream of the hart, the rest of its core and memory do not see it until it has come so far or performs, when memory takes
exactly those bytes. -/
def Obligations.StoredBytesAreSeen : Prop :=
  ∀ (s : State) (st : Stream) (holder : Option Holder) (hint : VHint) (pa n x a : Nat),
    let w := s.writeOf st holder hint pa (.store (leBytes n x))
    let u := s.sent w
    u.byte (.stream st) a = (if pa ≤ a ∧ a < pa + n then BitVec.ofNat 8 (x / 256 ^ (a - pa)) else s.byte (.stream st) a)
    ∧ (∀ v, v ≠ .stream st → u.byte v a = s.byte v a)
    ∧ Memory.get u.mem a = Memory.get s.mem a
    ∧ Memory.get (s.performWrite w).mem a = (if pa ≤ a ∧ a < pa + n then BitVec.ofNat 8 (x / 256 ^ (a - pa)) else Memory.get s.mem a)

/-- A granted STRL hands its bytes to their home after every earlier write of the hart has come to its scope, and moves on; it changes no
register.  PREF never traps but on a register in error: it moves on, and where no unit of memory is in error it changes caches alone. -/
def Obligations.ReleaseStoreAndPrefetch : Prop :=
  (
    ∀ (s : State) (sc : Scope) (d a : SReg) (p : Place),
      s.badS a = false → s.badS d = false → p.kind < 2 →
      let v := (s.afterFences Fence.scalar).released sc
      let stores := fun (n : Nat) (k : Instr) => s.storeGranted v n (s.getS a) p → storesTo v p n (s.getS d).toNat (exec k s)
      stores 4 (.strlW sc d a) ∧ stores 8 (.strlD sc d a)
      ∧ v.reached (fun _ => true) (scopeLevel sc) ∧ v.hart = s.hart)
    ∧ (
    ∀ (s : State) (h : PrefHint) (a : SReg) (i : BitVec 16), s.badS a = false → s.modifiedWhole = true →
      (s.poison = [] → ∃ u, cachesOnly s u ∧ exec (.pref h a i) s = .next u.advance)
      ∧ holdsNext (exec (.pref h a i) s) fun t => t.hart = { s.hart with pc := s.hart.pc + 4 } ∧ t.mem = s.mem ∧ t.writes = s.writes)

/-- A granted AMO on a DATA page stores the new value that R170 gives for its operation and returns the old one in sD, a word sign-extended;
AMOCAS stores the operand where the old value equals sD and the old value elsewhere; AMOFADD stores the sum rounded RNE whatever FCSR.FRM
holds and ORs its flags, and on a cell page of its width adds to the cell and writes 0.  With a release order every earlier write has come to its
scope first, and in any case the writes to those bytes that the hart sees have performed. -/
def Obligations.AtomicResults : Prop :=
  ∀ (s : State) (sc : Scope) (o : Order) (w : AWidth) (d a b : SReg) (p : Place),
    s.badS a = false → s.badS b = false →
    let n := match w with
      | .word => 4
      | .dword => 8
    let va := s.getS a
    let v := s.rmwState sc o p.pa n
    let old := Memory.read v.mem p.pa n
    let x := (s.getS b).toNat % 2 ^ (8 * n)
    let after := fun (u : State) (new : Nat) => (s.rmwStored u p.pa (leBytes n new)).setS d (oldWord w old)
    (p.kind = 0 → s.rmwGranted Needs.rmw sc o n n va p →
      (∀ i ∈ amos sc o w d a b, ∃ new u, amoNew i (8 * n) old x = some new ∧ cachesOnly v u ∧ exec i s = .next (after u new).advance)
      ∧ (s.badS d = false → ∃ u, cachesOnly v u ∧
          exec (.amocas sc o w d a b) s = .next (after u (if old = (s.getS d).toNat % 2 ^ (8 * n) then x else old)).advance))
    ∧ (p.kind = 0 → s.rmwGranted Needs.addRmw sc o n n va p →
      let f := match w with
        | .word => FpFmt.fp32
        | .dword => FpFmt.fp64
      ∃ u, cachesOnly v u ∧
        exec (.amofadd sc o w d a b) s = .next ((after u (fpAdd f .rne old x).1).orFlags (fpAdd f .rne old x).2).advance)
    ∧ (p.kind = (match w with
        | .word => 2
        | .dword => 3) → p.pa % 64 = 0 → s.rmwGranted Needs.addRmw sc o n 64 va p →
      let f := match w with
        | .word => CellFmt.f32
        | .dword => CellFmt.f64
      ∃ u, cachesOnly (s.rmwState sc o p.pa 64) u ∧
        exec (.amofadd sc o w d a b) s
          = .next ((u.performWrite (s.writeOf .scalar none .normal p.pa (.cellAdd f (p.kind == 3) p.e0 x))).setS d 0).advance)

/-- A scalar load, store, LDAQ, STRL or AMO whose address is not a multiple of its size raises Misaligned with the address, before any
translation; an aligned address that is not canonical raises Translation Not Present; an access that its leaf does not permit raises Permission,
and so does an AMO of a DEV page.  On a cell page a store and an AMO other than FADD raise Cell Store, a FADD of another width than the page's
Cell Kind, and a load of another width or a load or FADD that is not at a cell base Cell Alignment.  None of them writes a register or memory
first, but for writes that a FENCE before it holds it back for. -/
def Obligations.ScalarAccessTraps : Prop :=
  ∀ (s : State) (d a b : SReg) (i : BitVec 16) (sc : Scope) (o : Order) (w : AWidth), s.badS a = false → s.badS b = false → s.badS d = false →
    let c := s.scalarCtx
    let u := s.afterFences Fence.scalar
    let at_ := s.getS a
    let va := at_ + i.signExtend 64
    let n := match w with
      | .word => 4
      | .dword => 8
    let loads : List (Nat × Word × Instr) := [(1, va, .ldb d a i), (1, va, .ldbu d a i), (2, va, .ldh d a i), (2, va, .ldhu d a i),
      (4, va, .ldw d a i), (4, va, .ldwu d a i), (8, va, .ldd d a i), (4, at_, .ldaqW sc d a), (8, at_, .ldaqD sc d a)]
    let stores : List (Nat × Word × Instr) := [(1, va, .stb d a i), (2, va, .sth d a i), (4, va, .stw d a i), (8, va, .std d a i),
      (4, at_, .strlW sc d a), (8, at_, .strlD sc d a)]
    let swaps : List (Nat × Word × Instr) := (amos sc o w d a b ++ [Instr.amocas sc o w d a b]).map fun k => (n, at_, k)
    let adds : List (Nat × Word × Instr) := [(n, at_, .amofadd sc o w d a b)]
    let raises := fun (k : Instr) (t : Trap) => ∃ v, cachesOnly u v ∧ exec k s = v.trapped t
    let found := fun (x : Nat × Word × Instr) (l : Leaf) => x.2.1.toNat % x.1 = 0 ∧ canonical x.2.1 = true ∧ u.finds c x.2.1 l = true
    let cellPage := fun (l : Leaf) => 2 ≤ pteKind l.pte
    (∀ x ∈ loads ++ stores ++ swaps ++ adds,
      (x.2.1.toNat % x.1 ≠ 0 → exec x.2.2 s = u.trapped (Trap.of .misaligned x.2.1))
      ∧ (x.2.1.toNat % x.1 = 0 → canonical x.2.1 = false → exec x.2.2 s = u.trapped (Trap.of .notPresent x.2.1)))
    ∧ (∀ y ∈ [(Needs.load, loads), (Needs.store, stores), (Needs.rmw, swaps), (Needs.addRmw, adds)], ∀ x ∈ y.2, ∀ l, found x l →
        permits c y.1 l.pte = false → raises x.2.2 (Trap.of .permission x.2.1))
    ∧ (∀ x ∈ loads, ∀ l, found x l → permits c Needs.load l.pte = true → cellPage l →
        x.1 ≠ (if pteKind l.pte = 3 then 8 else 4) ∨ l.target x.2.1 % 64 ≠ 0 → raises x.2.2 (Trap.of .cellAlignment x.2.1))
    ∧ (∀ x ∈ stores, ∀ l, found x l → permits c Needs.store l.pte = true → cellPage l → raises x.2.2 (Trap.of .cellStore x.2.1))
    ∧ (∀ x ∈ swaps, ∀ l, found x l → permits c Needs.rmw l.pte = true →
        (pteKind l.pte = 1 → raises x.2.2 (Trap.of .permission x.2.1)) ∧ (cellPage l → raises x.2.2 (Trap.of .cellStore x.2.1)))
    ∧ (∀ x ∈ adds, ∀ l, found x l → permits c Needs.addRmw l.pte = true →
        (pteKind l.pte = 1 → raises x.2.2 (Trap.of .permission x.2.1))
        ∧ (cellPage l → n ≠ (if pteKind l.pte = 3 then 8 else 4) → raises x.2.2 (Trap.of .cellKind x.2.1))
        ∧ (cellPage l → n = (if pteKind l.pte = 3 then 8 else 4) → l.target x.2.1 % 64 ≠ 0 → raises x.2.2 (Trap.of .cellAlignment x.2.1)))
    ∧ (s.plainWrites → u = s)

/-! ## Control flow -/

/-- A conditional branch goes to PC + sext(IMM16) × 4 where its condition on sD and sA holds and to PC + 4 elsewhere; JMP goes to
PC + sext(IMM26) × 4; JALR writes PC + 4 to sD and goes to the value that sA held; JR goes to sA; CALL and CALLR push PC + 4 and go to their
target; RET goes to the popped address.  A register target that is no multiple of 4 raises Misaligned with the target, and nothing is
linked or pushed. -/
def Obligations.BranchesAndJumps : Prop :=
  ∀ (s t : State) (d a : SReg) (i : BitVec 16) (j : BitVec 26) (z : Word),
    let pc := s.hart.pc
    let x := s.getS d
    let y := s.getS a
    let far := s.setPc (pc + i.signExtend 64 * 4)
    let goes := fun (c : Prop) [Decidable c] => Host.Outcome.next (if c then far else s.setPc (pc + 4))
    let long := pc + j.signExtend 64 * 4
    (s.badS d = false → s.badS a = false →
      exec (.beq d a i) s = goes (x = y) ∧ exec (.bne d a i) s = goes (x ≠ y)
      ∧ exec (.blt d a i) s = goes (x.toInt < y.toInt) ∧ exec (.bge d a i) s = goes (y.toInt ≤ x.toInt)
      ∧ exec (.bltu d a i) s = goes (x.toNat < y.toNat) ∧ exec (.bgeu d a i) s = goes (y.toNat ≤ x.toNat))
    ∧ exec (.jmp j) s = .next (s.setPc long)
    ∧ (push (pc + 4) s = .ok () t → exec (.call j) s = .next (t.setPc long))
    ∧ (pop s = .ok z t → exec .ret s = .next (t.setPc z))
    ∧ (s.badS a = false → y.toNat % 4 = 0 →
      exec (.jalr d a) s = .next ((s.setS d (pc + 4)).setPc y)
      ∧ exec (.jr a) s = .next (s.setPc y)
      ∧ (push (pc + 4) s = .ok () t → exec (.callr a) s = .next (t.setPc y)))
    ∧ (s.badS a = false → y.toNat % 4 ≠ 0 →
      ∀ k ∈ ([.jalr d a, .callr a, .jr a] : List Instr), exec k s = s.trapped (Trap.of .misaligned y))

/-- A CALL with fewer than 16 entries in hardware appends PC + 4 to them; with 16 it first hands the oldest eight, oldest first, to the
homes of the eight slots from RSP on and raises RSP by 64; a RET takes the last entry, filling eight from below RSP where hardware holds none;
a RET of an empty stack raises Return-Stack Spill with TVAL 0; a RET after a CALL returns to the instruction after the CALL. -/
def Obligations.ReturnStackResults : Prop :=
  ∀ (s : State) (j : BitVec 26) (a : SReg) (p : Nat → Place) (es : List Word) (x : Word),
    let r := s.hart.rs
    let pc := s.hart.pc
    let u := s.afterFences Fence.scalar
    let withRs := fun (q : RetStack) => s.withHart fun h => { h with rs := q }
    let slotVa := fun (n : Nat) => ((r.rsp + BitVec.ofNat 61 n) ++ 0#3 : Word)
    let belowVa := fun (n : Nat) => ((r.rsp - 8 + BitVec.ofNat 61 n) ++ 0#3 : Word)
    (r.entries.length < 16 →
      let q : RetStack := { r with entries := r.entries ++ [pc + 4], depth := r.depth + 1 }
      exec (.call j) s = .next ((withRs q).setPc (pc + j.signExtend 64 * 4))
      ∧ (s.badS a = false → (s.getS a).toNat % 4 = 0 → exec (.callr a) s = .next ((withRs q).setPc (s.getS a)))
      ∧ (r.depth + 1 ≠ 0 → ∀ z, exec .ret ((withRs q).setPc z) = .next (s.setPc (pc + 4))))
    ∧ (r.entries.length = 16 → s.hart.priv.rslimit = 0 → u.nearWrites →
      (∀ n < 8, (p n).kind = 0 ∧ u.granted s.scalarCtx Needs.store 8 8 (slotVa n) (p n) = true) →
      holdsNext (exec (.call j) s) fun t =>
        t.hart.rs = { entries := r.entries.drop 8 ++ [pc + 4], depth := r.depth + 1, rsp := r.rsp + 8 }
        ∧ t.hart.pc = pc + j.signExtend 64 * 4
        ∧ t.writes = u.writes ++ (upTo 8).map (fun n =>
            s.writeOf .scalar (some s.l1) .normal (p n).pa (.store (leBytes 8 (r.entries.getD n 0).toNat)))
        ∧ t.mem = u.mem)
    ∧ (r.entries = es ++ [x] → r.depth ≠ 0 →
      exec .ret s = .next ((withRs { r with entries := es, depth := r.depth - 1 }).setPc x))
    ∧ (r.entries = [] → r.depth ≠ 0 → s.hart.priv.rslimit = 0 → s.plainWrites → s.hart.reads = [] →
      (∀ n < 8, (p n).kind = 0 ∧ s.granted s.scalarCtx Needs.load 8 8 (belowVa n) (p n) = true) →
      let e := fun n => BitVec.ofNat 64 (leNat (s.bytes (.stream .scalar) (p n).pa 8))
      holdsNext (exec .ret s) fun t =>
        t.hart.rs = { entries := [e 0, e 1, e 2, e 3, e 4, e 5, e 6], depth := r.depth - 1, rsp := r.rsp - 8 }
        ∧ t.hart.pc = e 7 ∧ t.mem = s.mem ∧ t.writes = s.writes)
    ∧ (r.depth = 0 → exec .ret s = s.trapped (Trap.of .returnStackSpill 0))

/-! ## Traps and levels -/

/-- Trap entry: a trap that is asynchronous, or taken while PSTAT.TRAP is 0, records its cause, address, value and VSTART, goes to S level
with the old level in PLEVEL and TRAP set, clears VSTART and WDCOUNT, discards the lead and continues at TVEC; VEC is 0 for a word that is no
instruction, which no queue takes (log 17).  Every other register, the memory and the other harts stay; a Memory Error is logged, and no other
cause changes anything outside the hart. -/
def Obligations.TrapEntry : Prop :=
  ∀ (s : State) (t : Trap), s.hart.priv.trap = false ∨ t.async = true →
    let h := s.hart
    let pc := t.ret.getD h.pc
    let vec := !t.async && !t.noWord && vecWord h.ir
    s.takeTrap t = { s.logTrap t with hart :=
      { h with
        pc := h.priv.tvec ++ 0#2, status := .running, lead := Lead.reset, shape := { h.shape with vstart := 0 }, taken := [], begun := false
        spun := false, traps := h.traps + 1
        priv := { h.priv with
                  tcause := BitVec.ofNat 13 (t.cause.code.toNat + 256 * bit vec + 512 * bit t.async + 1024 * t.loc.toNat + 4096 * bit t.walk)
                  trappc := BitVec.ofNat 62 (pc.toNat / 4), tval := t.tval, tvstart := h.shape.vstart
                  plevel := h.priv.level, level := true, trap := true, wdcount := 0 } } }
    ∧ (t.cause ≠ .memoryError → s.logTrap t = s) ∧ (s.logTrap t).mem = s.mem ∧ (s.logTrap t).others = s.others

/-- A synchronous trap while PSTAT.TRAP is 1 halts the hart once its engine commands have completed, and waits for them before: the four trap
registers keep the first trap's values, no handler is entered, the other harts of the gang stop, and the gang's end with status 0x08 records
the first trap's values and then the second trap's cause and PC; where the machine keeps that record until the gang has ended is the model's
choice (log 60). -/
def Obligations.DoubleTrapHalts : Prop :=
  ∀ (s : State) (t : Trap), s.hart.priv.trap = true → t.async = false →
    let h := s.hart
    let u := s.takeTrap t
    (h.engineBusy = true → u = s.waitFor .engines)
    ∧ (h.engineBusy = false →
      u.hart = { h with status := .halted, lead := Lead.reset }
      ∧ (∀ x ∈ s.others, x.ident.gangid = h.ident.gangid → x.resident = true → ∃ y ∈ u.others, y.ident = x.ident ∧ y.status = .stopped)
      ∧ (∀ g ∈ s.control.gangs, g.id = h.ident.gangid → g.ending = none →
          { g with ending := some 0x08
                   halt := [h.ident.hartidx.zeroExtend 64, h.priv.tcause.zeroExtend 64, h.priv.trappc ++ 0#2, h.priv.tval,
                            h.priv.tvstart.zeroExtend 64, t.cause.code.zeroExtend 64, h.pc] } ∈ u.control.gangs)
      ∧ u.mem = s.mem)

/-- No instruction word takes a hart from U level to S level but by a trap: it then continues at TVEC with TRAP set and PLEVEL 0.  No word
run at U level changes the hart's table root, its ASID or its partition, its identity or its trap vector.  At U level each SYSP instruction raises
Privileged Instruction with the instruction word and has no effect. -/
def Obligations.UserLevelHolds : Prop :=
  (
    ∀ (i : Instr) (s t : State), (encode i).isSome → s.hart.priv.level = false → exec i s = .next t →
      (t.hart.priv.level = true →
        t.hart.priv.trap = true ∧ t.hart.priv.plevel = false ∧ t.hart.pc = (s.hart.priv.tvec ++ 0#2))
      ∧ t.hart.priv.ptroot = s.hart.priv.ptroot ∧ t.hart.priv.asid = s.hart.priv.asid ∧ t.hart.priv.partid = s.hart.priv.partid
      ∧ t.hart.priv.tvec = s.hart.priv.tvec ∧ t.hart.ident = s.hart.ident)
    ∧ (
    ∀ (s : State) (a b d : SReg) (r : PReg), s.hart.priv.level = false →
      ∀ i ∈ privilegedWords a b d r, exec i s = s.trapped (Trap.of .privilegedInstruction (s.hart.ir.zeroExtend 64)))

/-- ERET at S level restores VSTART, the level and the PC from TVSTART, PLEVEL and TRAPPC and clears PSTAT.TRAP, whatever it held; the lead is
forked again where both enable bits are set and is gone elsewhere; nothing else changes. -/
def Obligations.ReturnFromTrap : Prop :=
  ∀ (s : State), s.hart.priv.level = true →
    let h := s.hart
    let h' : Hart := { h with pc := h.priv.trappc ++ 0#2, shape := { h.shape with vstart := h.priv.tvstart }
                              priv := { h.priv with level := h.priv.plevel, trap := false } }
    exec .eret s = .next { s with hart := h'.forkLead }
    ∧ (h'.forkLead = { h' with lead := h'.forkLead.lead })
    ∧ (h'.forkLead.lead.mode = if h.leadOn ∧ h.priv.leadOn then .running else .idle)

/-! ## System instructions -/

/-- FENCE with both sets named and no engine command to wait for marks the earlier writes of the streams in its first set, and before a later
access of the kinds in its second set those have come to its scope; the streams in its second set use no read made before it.  With an empty set
it does nothing, also where only its second set is empty and E in the first could wait for commands (log 70), and with E in the first set and both
sets named it waits for the hart's commands.  SPIN waits at itself for its next turn, in which it moves on; LEADHOLD moves on and does nothing.
SVC takes Supervisor Call with its number and returns after itself; BRK takes Breakpoint at itself. -/
def Obligations.SystemInstructions : Prop :=
  ∀ (s : State) (p q : StreamSet) (sc : Scope) (n : Fin 32),
    let t := scopeLevel sc
    let v := (s.addFence p q t).withHart (Hart.dropReads q.s q.v)
    let inP := fun (w : PendingWrite) => if w.stream = .scalar then p.s else p.v
    (noStreams p = true ∨ noStreams q = true → exec (.fence p q sc) s = .next s.advance)
    ∧ (noStreams p = false → noStreams q = false → (p.e = true → s.hart.engineBusy = false) → exec (.fence p q sc) s = .next v.advance)
    ∧ (noStreams p = false → noStreams q = false → p.e = true → s.hart.engineBusy = true →
      exec (.fence p q sc) s = .next (s.waitFor .engines))
    ∧ (q.s = true → (v.afterFences Fence.scalar).reached inP t)
    ∧ (q.v = true → (v.afterFences Fence.vector).reached inP t)
    ∧ (q.e = true → (v.afterFences Fence.engine).reached inP t)
    ∧ v = { s with writes := v.writes, hart := { s.hart with reads := v.hart.reads } }
    ∧ (∀ r, r ∈ v.hart.reads ↔ r ∈ s.hart.reads ∧ (r.stream = .scalar → q.s = false) ∧ (r.stream = .vector → q.v = false))
    ∧ (s.hart.spun = false → exec .spin s = .next ((s.withHart fun h => { h with spun := true }).waitFor .spin))
    ∧ (s.hart.spun = true → exec .spin s = .next (s.withHart fun h => { h with spun := false }).advance)
    ∧ exec .leadhold s = .next s.advance
    ∧ exec (.svc n) s = s.trapped { Trap.of .supervisorCall (BitVec.ofNat 64 n.val) with ret := some (s.hart.pc + 4) }
    ∧ exec .brk s = s.trapped (Trap.of .breakpoint 0)

/-- RDSR writes sD with the register's value, with zero in every bit that the register does not hold, and moves on.  WRSR writes the RW bits of a
register and leaves its other bits and every other user register; it moves on, and beside that register only the lead may go, where
HARTMODE.LEAD becomes 0. -/
def Obligations.UserRegisterResults : Prop :=
  (
    ∀ (s : State) (d : SReg),
      let h := s.hart
      let p := h.shape
      ∀ x ∈ ([(.vl, BitVec.ofNat 64 p.vl), (.vrows, BitVec.ofNat 64 p.vrows), (.vtype, p.vtype), (.vstart, p.vstart.setWidth 64),
              (.rowstr, p.rowstr), (.vlcap, BitVec.ofNat 64 p.width),
              (.lanepart, BitVec.ofNat 64 (bit p.split + 2 * bit p.half + 4 * bit p.forked)), (.fcsr, h.fcsr.setWidth 64),
              (.mxflags, h.mxflags.setWidth 64), (.hartmode, BitVec.ofNat 64 (bit h.det + 2 * bit h.leadOn)),
              (.hartid, h.ident.hartid.setWidth 64), (.gangid, h.ident.gangid.setWidth 64), (.gangsize, h.ident.gangsize.setWidth 64),
              (.hartidx, h.ident.hartidx.setWidth 64), (.cycles, h.cycles), (.rsp, h.rs.rsp ++ 0#3),
              (.rsdepth, BitVec.ofNat 64 (h.rs.entries.length % 32 * 2 ^ 32 + h.rs.depth.toNat))] : List (UReg × Word)),
        exec (.rdsr d x.1) s = s.done d x.2)
    ∧ (
    ∀ (s : State) (d : SReg) (r : UReg), s.badS d = false → r.writable = true →
      holdsNext (exec (.wrsr r d) s) fun t =>
        t.hart.userReg r = (s.hart.userReg r &&& ~~~rwUserBits r) ||| (s.getS d &&& rwUserBits r)
        ∧ (∀ q, q ≠ r → t.hart.userReg q = s.hart.userReg q)
        ∧ t = { s with hart := { s.hart with
                  pc := s.hart.pc + 4, shape := t.hart.shape, fcsr := t.hart.fcsr, mxflags := t.hart.mxflags, det := t.hart.det
                  leadOn := t.hart.leadOn, rs := t.hart.rs, lead := t.hart.lead } }
        ∧ (r ≠ .hartmode → t.hart.lead = s.hart.lead))

/-- A GBARA of a declared index with no arrival pending brings every earlier write of the hart to the scope of its gang, counts the arrival and
marks it pending; a GBARW with none pending does nothing, and with one pending whose episode is complete clears the mark; a GBAR whose episode its
arrival completes counts the arrival; a wait that ends drops the reads made before it, and each moves on.  A GBAR at which another participant
has not arrived waits at itself with its arrival made. -/
def Obligations.BarrierResults : Prop :=
  ∀ (s : State) (x : Fin 4), s.hart.launched = true → x.val < s.hart.declared.barriers →
    let b := s.hart.barrier[x]
    let u := s.released s.gangScope
    let set := fun (s : State) (b : Barrier) => s.withHart fun h => { h with barrier := h.barrier.set x b }
    let acquired := fun (s : State) => s.withHart fun h => { h with reads := [] }
    u.reached (fun _ => true) (scopeLevel s.gangScope) ∧ u.hart = s.hart
    ∧ (s.gangScope = .die ∨ s.gangScope = .package ∨ s.gangScope = .domain)
    ∧ (s.gangScope = .die → ∀ h ∈ s.participants s.hart.ident.gangid, h.ident.die = s.hart.ident.die)
    ∧ (s.gangScope ≠ .domain → s.hart.ident.gangsize.toNat ≤ (s.participants s.hart.ident.gangid).length)
    ∧ (b.pending = false →
      exec (.gbara x) s = .next (set u { arrivals := b.arrivals + 1, pending := true }).advance
      ∧ exec (.gbarw x) s = .next s.advance)
    ∧ (b.pending = true → s.othersArrived x b.arrivals →
      exec (.gbarw x) s = .next (set (acquired s) { b with pending := false }).advance)
    ∧ (b.pending = false → s.hart.gbarWait.getLsbD x.val = false → s.othersArrived x (b.arrivals + 1) →
      exec (.gbar x) s = .next (set (acquired u) { arrivals := b.arrivals + 1, pending := false }).advance)
    ∧ (b.pending = false → s.hart.gbarWait.getLsbD x.val = false →
      (∃ h ∈ s.others, h.launched = true ∧ h.ident.gangid = s.hart.ident.gangid ∧ h.reached x (b.arrivals + 1) = false) →
      holdsNext (exec (.gbar x) s) fun t =>
        t.hart.status = .waiting .barrier ∧ t.hart.pc = s.hart.pc ∧ t.hart.barrier[x] = { arrivals := b.arrivals + 1, pending := false }
        ∧ t.hart.gbarWait.getLsbD x.val = true ∧ t.mem = u.mem)

/-! ## Harts -/

/-- A FORK that splits gives the parent sD = 0, its lower lanes and LANEPART 5, and makes a child at the target with sD = 1, copies of
the other scalar registers, zero vector, mask and tile registers, an empty shape, FRM alone in FCSR, an empty return stack and LANEPART 7, at U
level whatever the parent's level is, which the manual's table does not say (log 28); the parent's writes have come to the core first.  A FORK on a split core, of a gang not launched forkable or in matrix mode writes all ones and does
nothing else; one whose tiles 4 to 7 an engine command uses waits; a target that is no multiple of 4 raises Misaligned. -/
def Obligations.ForkResults : Prop :=
  ∀ (s : State) (d a : SReg), s.badS a = false →
    let h := s.hart
    let may := h.shape.split = false ∧ h.declared.fork = true ∧ h.matrix = none
    ((s.getS a).toNat % 4 ≠ 0 → exec (.fork d a) s = s.trapped (Trap.of .misaligned (s.getS a)))
    ∧ ((s.getS a).toNat % 4 = 0 → ¬ may → exec (.fork d a) s = s.done d (-1))
    ∧ ((s.getS a).toNat % 4 = 0 → may → h.usesHighTiles = true → exec (.fork d a) s = .next (s.waitFor .forkDrain))
    ∧ ((s.getS a).toNat % 4 = 0 → may → h.usesHighTiles = false →
      let u := s.released .pair
      u.reached (fun _ => true) .core
      ∧ holdsNext (exec (.fork d a) s) fun t =>
        t.hart.pc = h.pc + 4 ∧ t.getS d = 0 ∧ (∀ r, r ≠ d → t.getS r = s.getS r)
        ∧ (∀ r, t.getV r = lowHalf (s.getV r)) ∧ (∀ r : Tile, t.getAcc r = if r.val < 4 then s.getAcc r else 0)
        ∧ t.hart.shape.vl = min h.shape.vl h.shape.halfMax ∧ t.hart.shape.vrows = h.shape.vrows ∧ t.hart.shape.vtype = h.shape.vtype
        ∧ t.hart.shape.lanepart = 5 ∧ t.hart.fcsr = h.fcsr ∧ t.hart.cc = h.cc ∧ t.hart.rs = h.rs ∧ t.hart.ident = h.ident
        ∧ t.mem = u.mem ∧ t.writes = u.writes
        ∧ ∃ c, t.others = c :: s.others
            ∧ c.pc = s.getS a ∧ (∀ r : SReg, r ≠ 0 → c.s[r] = if r = d then 1 else h.s[r])
            ∧ (∀ r : VReg, c.v[r] = 0) ∧ (∀ r : MReg, c.k[r] = 0) ∧ (∀ r : Tile, c.acc[r] = 0)
            ∧ c.shape.vl = 0 ∧ c.shape.vrows = 1 ∧ c.shape.vstart = 0 ∧ c.shape.vtype = h.shape.vtype ∧ c.shape.rowstr = h.shape.rowstr
            ∧ c.shape.lanepart = 7 ∧ c.fcsr = h.fcsr &&& 7 ∧ c.mxflags = 0 ∧ c.cc = Vector.replicate 16 Counter.zero ∧ c.cycles = 0
            ∧ c.rs = { entries := [], depth := 0, rsp := h.rs.rsp } ∧ c.mode = h.mode ∧ c.priv.level = false
            ∧ c.ident = { h.ident with hartid := h.ident.hartid ||| 1 } ∧ c.launched = false ∧ c.status = .running)

/-- A JOIN with nothing forked discards the hart's pending VSTP entries and moves on.  A JOIN of a parent whose child has retired gives it the
whole core again: LANEPART 0, the upper halves of its registers and its upper tiles zero, VL unchanged, the child's flags ORed into its own and
the child gone; one whose child has not retired waits.  A JOIN or EXIT of a child, and an EXIT of a launched hart whose child is gone, waits until
every counter is zero, raises Engine Error where one holds an error, with the failure address of the lowest-numbered such counter as its value
(log 29), and elsewhere releases its claims, unmaps its windows, brings its writes to the core or the home and ends the hart, whose registers stay.  A JOIN in matrix mode raises Illegal Configuration.  The premise of the ends is that
no unit of memory and no window line is in error. -/
def Obligations.JoinAndExitResults : Prop :=
  ∀ (s : State) (c : Hart),
    let h := s.hart
    let clean := h.countersZero = true ∧ h.engineFailure = none
    let joins := h.matrix = none ∧ h.shape.forked = true
    let ends := fun (i : Instr) (t : Level) => holdsNext (exec i s) fun u =>
      u.hart.status = .exited ∧ u.hart.pc = h.pc ∧ u.hart.vstp = [] ∧ (∀ w : WinId, u.hart.windows[w].len = 0)
      ∧ (∀ x : Handle, u.hart.claims[x] = Claim.free) ∧ u.reached (fun _ => true) t
      ∧ u.hart.s = h.s ∧ u.hart.v = h.v ∧ u.hart.k = h.k ∧ u.hart.acc = h.acc ∧ u.hart.shape = h.shape ∧ u.hart.fcsr = h.fcsr
    let settles := fun (i : Instr) (k : WaitKind) =>
      (h.countersZero = false → exec i s = .next (s.waitFor k))
      ∧ ∀ va, h.countersZero = true → h.engineFailure = some va → exec i s = s.trapped (Trap.of .engineError va)
    (h.matrix ≠ none → exec .join s = s.trapped (Trap.of .illegalConfiguration (h.ir.zeroExtend 64)))
    ∧ (h.matrix = none → h.shape.forked = false → exec .join s = .next (s.withHart fun h => { h with vstp := [] }).advance)
    ∧ (joins → h.launched = true → s.child.isSome = true → exec .join s = .next (s.waitFor .join))
    ∧ (joins → h.launched = true → s.child = none → s.retired = some c →
      holdsNext (exec .join s) fun t =>
        t.hart.pc = h.pc + 4 ∧ t.hart.shape.lanepart = 0 ∧ t.hart.shape.vl = h.shape.vl ∧ t.hart.vstp = []
        ∧ (∀ r, t.getV r = lowHalf (s.getV r)) ∧ (∀ r : Tile, t.getAcc r = if r.val < 4 then s.getAcc r else 0)
        ∧ (∀ r, t.getS r = s.getS r) ∧ t.hart.fcsr = h.fcsr ||| (c.fcsr &&& 0xF8) ∧ t.hart.mxflags = h.mxflags ||| c.mxflags
        ∧ c ∉ t.others ∧ t.mem = s.mem ∧ t.writes = s.writes)
    ∧ (joins → h.launched = false → settles .join .join ∧ (clean → s.intact → ends .join .core))
    ∧ (h.matrix = none → h.launched = false → settles .exit .join ∧ (clean → s.intact → ends .exit .core))
    ∧ (h.launched = true → h.shape.forked = false ∨ s.child = none →
      settles .exit .exitDrain ∧ (clean → s.intact → ends .exit .home))

/-! ## Privileged registers -/

/-- At S level PRDSR writes sD with the register's value and moves on; for VDIRTY and ADIRTY once no engine command is in flight.  PWRSR writes the RW
bits of a register and leaves its other bits and every other privileged register; it moves on, and beside the privileged registers only the lead
may go. -/
def Obligations.PrivilegedRegisterResults : Prop :=
  (
    ∀ (s : State) (d : SReg), s.hart.priv.level = true →
      let h := s.hart
      let p := h.priv
      let now : List (PReg × Word) :=
        [(.tvec, p.tvec ++ 0#2), (.tcause, p.tcause.setWidth 64), (.trappc, p.trappc ++ 0#2), (.tval, p.tval), (.tvstart, p.tvstart.setWidth 64),
          (.pstat, BitVec.ofNat 64 (bit p.level + 2 * bit p.plevel + 4 * bit p.trap + 8 * bit h.preempt.pending.isSome)),
          (.tscratch, p.tscratch), (.ptroot, BitVec.ofNat 64 (p.ptroot.toNat * 65536)), (.asid, p.asid.setWidth 64), (.partid, p.partid.setWidth 64),
          (.leadctl, BitVec.ofNat 64 (bit p.leadOn + p.maxdist.toNat * 65536)), (.wdlimit, p.wdlimit.setWidth 64),
          (.wdcount, p.wdcount.setWidth 64), (.rsbase, p.rsbase ++ 0#3), (.rslimit, p.rslimit ++ 0#3)]
      let dirty : List (PReg × Word) := [(.vdirty, p.vdirty.setWidth 64), (.adirty, p.adirty.setWidth 64)]
      (∀ x ∈ now, exec (.prdsr d x.1) s = s.done d x.2)
      ∧ (∀ x ∈ dirty, (h.engineBusy = false → exec (.prdsr d x.1) s = s.done d x.2)
          ∧ (h.engineBusy = true → exec (.prdsr d x.1) s = .next (s.waitFor .engines))))
    ∧ (
    ∀ (s : State) (d : SReg) (r : PReg), s.hart.priv.level = true → s.badS d = false → r.writable = true →
      holdsNext (exec (.pwrsr r d) s) fun t =>
        t.hart.privReg r = (s.hart.privReg r &&& ~~~rwBits r) ||| (s.getS d &&& rwBits r)
        ∧ (∀ q, q ≠ r → t.hart.privReg q = s.hart.privReg q)
        ∧ t = { s with hart := { s.hart with pc := s.hart.pc + 4, priv := t.hart.priv, lead := t.hart.lead } })

/-! ## Caches, events and halting -/

/-- At S level, on registers that are not in error, a range that does not wrap, and no unit of memory and no window line in error: TLBINV brings
the writes of the harts that it names to their homes, drops the lines of the range from their windows, drops the cached translations that its
operands name and no other, and changes no register; it waits while the hart has engine commands in flight, and reserved bits of its first operand
raise Illegal Configuration.  CWB, of any length, brings the hart's earlier writes to PACKAGE scope first; one of no bytes then does nothing
more, and another performs what has come to the package on the lines of the range's present pages and leaves none of those lines modified, and
every other line as it was.  CINV brings the hart's earlier writes to PAIR scope and drops the words of the core's instruction cache whose line
meets the range and no other.  Each moves on, a CINV always.  A range that wraps raises Misaligned with its base at TLBINV and CWB. -/
def Obligations.CacheInstructions : Prop :=
  ∀ (s : State) (d a b : SReg), s.hart.priv.level = true → s.badS d = false → s.badS a = false → s.badS b = false →
    let ctl := s.getS d
    let base := s.getS a
    let len := s.getS b
    let u := s.raise s.mine .package
    let c := s.raise s.mine .core
    let fits := base.toNat + len.toNat ≤ 2 ^ 64
    let busy := s.hart.engineBusy = true ∨ s.buffered ctl = true
    let named := fun (w : PendingWrite) => ∃ h ∈ s.harts, asidNamed ctl h = true ∧ w.isOf h.ident = true
    let cleaned := fun (line : Nat) => (pagesOf base.toNat len.toNat).any fun page => (u.cleanFrames page).any fun pa =>
      line / 512 == pa / 65536 && decide (base.toNat < page.toNat + line * 128 % 65536 + 128)
        && decide (page.toNat + line * 128 % 65536 < base.toNat + len.toNat)
    let v := u.raiseAll (fun w => w.owedTo .control && cleaned (paLine w.pa)) .home
    let cleanedAfter := fun (line : Nat) => (pagesOf base.toNat len.toNat).any fun page => (v.cleanFrames page).any fun pa =>
      line / 512 == pa / 65536 && decide (base.toNat < page.toNat + line * 128 % 65536 + 128)
        && decide (page.toNat + line * 128 % 65536 < base.toNat + len.toNat)
    (2 ^ 18 ≤ ctl.toNat → exec (.tlbinv d a b) s = s.trapped (Trap.of .illegalConfiguration (s.hart.ir.zeroExtend 64)))
    ∧ (ctl.toNat < 2 ^ 18 → fits → busy → exec (.tlbinv d a b) s = .next (s.waitFor .engines))
    ∧ (ctl.toNat < 2 ^ 18 → fits → ¬ busy → s.intact →
      let lo := if len = 0 then 0 else base.toNat / 65536 * 65536
      let hi := if len = 0 then 2 ^ 64 else (base.toNat + len.toNat + 65535) / 65536 * 65536
      holdsNext (exec (.tlbinv d a b) s) fun t =>
        t.hart = { s.hart with pc := s.hart.pc + 4, engine := t.hart.engine, reads := t.hart.reads }
        ∧ (asidNamed ctl s.hart = true → t.hart.reads = [])
        ∧ (∀ e, e ∈ t.tlb ↔ e ∈ s.tlb ∧ e.dropped ctl lo hi = false)
        ∧ (∀ w ∈ t.writes, named w → w.level = .home)
        ∧ (∀ h ∈ s.harts, asidNamed ctl h = true → t.windowLinesIn h lo hi = []))
    ∧ (len = 0 → exec (.cwb a b) s = .next u.advance)
    ∧ (len ≠ 0 → fits → s.intact →
      exec (.cwb a b) s = .next ({ v with dirty := v.dirty.filter fun x => !cleanedAfter x.line } : State).advance)
    ∧ exec (.cinv a b) s
        = .next ({ c with icache := s.icache.filter fun l => !(l.core == s.hart.ident.coreKey && lineMeets l.va base len) } : State).advance
    ∧ u.reached (fun _ => true) .package ∧ u.hart = s.hart ∧ v.hart = s.hart ∧ c.reached (fun _ => true) .core ∧ c.hart = s.hart ∧ c.mem = s.mem
    ∧ (¬ fits → exec (.cwb a b) s = s.trapped (Trap.of .misaligned base)
      ∧ (ctl.toNat < 2 ^ 18 → exec (.tlbinv d a b) s = s.trapped (Trap.of .misaligned base)))

/-- At S level HSIG makes a release at SYSTEM scope and then either sends its record with the hart's next SEQ or, for a code of the control
processor, adds the code to its unanswered requests, and moves on; WAITEV takes the oldest reply, or writes all ones in a handler with a
pre-emption request pending, or waits; HALT with no engine command in flight halts the hart for good. -/
def Obligations.EventsAndHalt : Prop :=
  ∀ (s : State) (d a b : SReg) (x : Word) (xs : List Word), s.hart.priv.level = true → s.badS a = false → s.badS b = false →
    let h := s.hart
    let u := s.released .system
    let code := (s.getS a).toNat % 2 ^ 32
    let cp := 0x80000000 ≤ code ∧ code ≤ 0x8000FFFF
    let id := h.ident.hartid.toNat
    let q := (lookupKey id s.control.hartSeq).getD 0
    let counted := { s.control with hartSeq := insertKey id (q + 1) s.control.hartSeq }
    u.reached (fun _ => true) .home ∧ u.hart = s.hart
    ∧ (¬ cp → exec (.hsig a b) s
        = .next (({ u with control := counted } : State).emit (.message (message 0x4002 (0x4000 + id) q (signalBody h (s.getS a) (s.getS b))))).advance)
    ∧ (cp → h.service.replies.length + h.service.unanswered.length < 4 →
      exec (.hsig a b) s = .next ((({ u with control := counted } : State).withHart fun g =>
        { g with service := { g.service with unanswered := g.service.unanswered ++ [BitVec.ofNat 32 code] } }).advance))
    ∧ (h.service.replies = x :: xs →
      exec (.waitev d) s = (s.withHart fun g => { g with service := { g.service with replies := xs } }).done d x)
    ∧ (h.service.replies = [] → exec (.waitev d) s =
        if h.preempt.pending.isSome ∧ h.priv.trap then s.done d (-1) else .next (s.waitFor .waitev))
    ∧ (h.engineBusy = false → exec .halt s = .next (s.halt []) ∧ (s.halt []).hart = { h with status := .halted, lead := Lead.reset })

/-! ## Saving and restoring a hart -/

/-- A CTXSAVE to the hart's save area, by a hart with no child, no engine command, no claim, no outstanding write and no VSTP run, served by a
request and with every page of its record granted, writes the record and stops the hart: its scalar registers, shape, level, trap and other
registers stand in the record, each vector register and tile whose dirty bit is set stands in its place, the base and length of each window stand
in the record and the window is unmapped with no line left in it, and every register of the hart keeps its value but the PC, which moves on.  A
save area that is no multiple of 64 KiB raises Misaligned. -/
def Obligations.ContextSaveResults : Prop :=
  ∀ (s : State) (a : SReg) (p : Nat → Place),
    s.hart.priv.level = true → s.hart.sound → s.hart.preempt.serves = true →
    let h := s.hart
    ((s.getS a).toNat % 65536 ≠ 0 → exec (.ctxsave a) s = s.trapped (Trap.of .misaligned (s.getS a)))
    ∧ (h.engine = [] → h.vstpRun = 0 → s.child = none → s.retired = none → (∀ x : Handle, h.claims[x].claimed = false) →
      s.writes = [] → h.preempt.live = StopEntry.allLive → s.recordPages (s.getS a) p →
      holdsNext (exec (.ctxsave a) s) fun t =>
        let r := t.recordAt (p 0).pa
        let place := fun (off : Nat) => (p (off / 65536)).pa + off % 65536
        t.hart.status = .stopped ∧ t.hart.pc = h.pc + 4
        ∧ (∀ q, t.getS q = s.getS q) ∧ t.hart.v = h.v ∧ t.hart.k = h.k ∧ t.hart.acc = h.acc ∧ t.hart.priv = h.priv ∧ t.hart.shape = h.shape
        ∧ (∀ w : WinId, t.hart.windows[w].len = 0 ∧ (h.windows[w].len ≠ 0 → t.windowLines h w = [])
            ∧ r.word (0x320 + 16 * w.val) = h.windows[w].base ∧ r.nat (0x328 + 16 * w.val) 8 = h.windows[w].len % 2 ^ 64)
        ∧ (∀ q : SReg, r.word (0x100 + 8 * q.val) = s.getS q)
        ∧ (∀ x ∈ ([(0x18, BitVec.ofNat 64 h.shape.vl), (0x20, BitVec.ofNat 64 h.shape.vrows), (0x28, h.shape.vtype), (0x30, h.shape.rowstr),
              (0x38, h.userReg .fcsr), (0x40, h.userReg .mxflags), (0x48, h.userReg .hartmode), (0x50, h.cycles), (0x58, h.userReg .rsp),
              (0x60, h.userReg .rsdepth), (0x68, h.privReg .tvec), (0x70, h.privReg .tcause), (0x78, h.privReg .trappc),
              (0x80, h.privReg .tval), (0x88, h.privReg .tvstart), (0x90, h.privReg .pstat), (0x98, h.privReg .tscratch),
              (0xA0, h.privReg .leadctl), (0xA8, h.privReg .wdlimit), (0xB0, h.privReg .rsbase), (0xB8, h.privReg .rslimit),
              (0xC0, h.userReg .hartid), (0xC8, h.userReg .lanepart)] : List (Nat × Word)), r.word x.1 = x.2)
        ∧ (∀ n : VReg, h.priv.vdirty.getLsbD n.val = true →
            Memory.readBytes t.mem (place (0x10000 + 1024 * n.val)) 1024 = regBytes h.v[n])
        ∧ (∀ n : Tile, h.priv.adirty.getLsbD n.val = true →
            Memory.readBytes t.mem (place (0x18000 + 16384 * n.val)) 16384 = leBytes 16384 h.acc[n].toNat)
        ∧ (∀ x, (∀ j < 4, x < (p j).pa ∨ (p j).pa + 65536 ≤ x) → Memory.get t.mem x = Memory.get s.mem x))

/-- A CTXLOAD of a record that keeps the rules of R336, which check fmtA and fmtB only where MATRIX is 1 (log 63), with no child, claim, window or
VSTP block and with every page granted, restores the
hart and returns from its trap: the PC is the record's TRAPPC, the level the record's PLEVEL, PSTAT.TRAP is 0, VSTART is TVSTART, the
scalar registers, shape, flags and CYCLES are the record's, a vector register is the record's or zero as VZERO says, and memory and the other
harts stay.  A record that breaks the rules raises Illegal Configuration, and a save area that is no multiple of 64 KiB Misaligned. -/
def Obligations.ContextLoadResults : Prop :=
  ∀ (s : State) (a : SReg) (p : Nat → Place),
    s.hart.priv.level = true → s.hart.sound →
    let r := s.recordAt (p 0).pa
    let ready := s.hart.engine = [] ∧ s.writes = [] ∧ (∀ w : WinId, s.hart.windows[w].len = 0) ∧ s.recordPages (s.getS a) p
    ((s.getS a).toNat % 65536 ≠ 0 → exec (.ctxload a) s = s.trapped (Trap.of .misaligned (s.getS a)))
    ∧ (ready → r.ok s.hart.ident.hartid.toNat false = true → r.hasChild = false → r.blocks = 0 →
      (∀ n < 8, (r.window n).len = 0) → (∀ n < 4, (Claim.ofBytes (r.claim n)).claimed = false) → s.poolUse ≤ Config.poolBlocks →
      holdsNext (exec (.ctxload a) s) fun t =>
        t.hart.status = .running ∧ t.hart.pc = r.word 0x78 ∧ t.hart.priv.level = bitAt (r.nat 0x90 8) 1 ∧ t.hart.priv.trap = false
        ∧ (∀ q : SReg, t.hart.s[q] = r.word (0x100 + 8 * q.val))
        ∧ (∀ n : VReg, t.hart.v[n] = if bitAt (r.nat 0x0C 4) n.val then 0
            else regOfBytes (Memory.readBytes s.mem ((p 1).pa + 1024 * n.val) 1024))
        ∧ t.hart.shape.vl = r.nat 0x18 8 ∧ t.hart.shape.vrows = r.nat 0x20 8 ∧ t.hart.shape.vtype = r.word 0x28
        ∧ t.hart.shape.vstart = BitVec.ofNat 15 (r.nat 0x88 8) ∧ t.hart.fcsr = BitVec.ofNat 8 (r.nat 0x38 8) ∧ t.hart.cycles = r.word 0x50
        ∧ t.hart.priv.ptroot = s.hart.priv.ptroot ∧ t.hart.priv.asid = s.hart.priv.asid ∧ t.hart.ident = s.hart.ident
        ∧ t.mem = s.mem ∧ t.others = s.others)
    ∧ (ready → r.ok s.hart.ident.hartid.toNat false = false →
      ∃ u, cachesOnly s u ∧ exec (.ctxload a) s = u.trapped (Trap.of .illegalConfiguration (s.hart.ir.zeroExtend 64)))

/-! ## Vector configuration and arithmetic -/

/-- VTYPE holds VILL alone after reset; SETVLX, SETTYPE and SETVLI write the value that they are given where its SEW, G, BLK and FK are ones
that R27 admits and every other bit is 0, and 0x8000 elsewhere. -/
def Obligations.TypeWrites : Prop :=
  ∀ (s : State) (d a b : SReg) (r : Fin 8) (v : BitVec 9),
    let legal := fun (w : Word) =>
      w.toNat < 2 ^ 9 ∧ w.toNat % 8 < 4 ∧ w.toNat / 32 % 4 ≠ 3 ∧ (w.toNat / 128 = 0 ∨ (w.toNat / 128 = 1 ∧ w.toNat % 8 ≤ 1))
    let becomes := fun (i : Instr) (w : Word) => holdsNext (exec i s) fun t =>
      t.hart.pc = s.hart.pc + 4 ∧ (legal w → t.hart.shape.vtype = w) ∧ (¬ legal w → t.hart.shape.vtype = 0x8000)
    State.reset.hart.shape.vtype = 0x8000
    ∧ (s.badS a = false → s.badS b = false → becomes (.setvlx d a b) (s.getS b))
    ∧ (s.badS a = false → becomes (.settype d a) (s.getS a) ∧ becomes (.setvli d a r v) (v.setWidth 64))

/-- A length-setting instruction grants by R31 from the requested elements and rows, the VTYPE in force after it and the register width: the
width of VLCAP, or the one that the lead recorded for this instruction with the same request; it writes VL and VROWS, closes the strip with its
pending VSTP entries, returns the elements, or for SETROWS the rows, in sD and moves on.  SETTYPE writes VTYPE alone and returns it.  Each leaves
VSTART as it was (log 38). -/
def Obligations.LengthGrants : Prop :=
  ∀ (s : State) (d a b : SReg) (r : Fin 8) (v : BitVec 9), s.badS a = false → s.badS b = false →
    let h := s.hart
    let p := h.shape
    let x := s.getS a
    let y := s.getS b
    let grantVl := fun (width req sew : Nat) =>
      if req ≤ 64 then req
      else
        let g := min req (min ((if p.split then 4096 else 8192) / sew) (width * 512 / sew))
        max (g - g % 64) 64
    let after := fun (vt : Word) (vl vrows width : Nat) (z : Word) =>
      (s.withHart fun h => { h with shape := { p with vtype := vt, vl := vl, vrows := vrows, granted := width }
                                    strip := h.strip + 1, vstp := [], vstpRun := 0 }).done d z
    let granted := fun (i : Instr) (vt req rows : Word) =>
      let width := (h.recordedWidth req rows vt).getD p.width
      let sew := 8 * 2 ^ (vt.toNat % 8)
      let g := 2 ^ (vt.toNat / 8 % 4)
      exec i s = if vt.getLsbD 15 then after vt 0 1 width 0
        else after vt (grantVl width req.toNat sew) (min (max rows.toNat 1) g) width (BitVec.ofNat 64 (grantVl width req.toNat sew))
    let t := vtWrite y
    let u := vtWrite (v.setWidth 64)
    let g := 2 ^ (p.vtype.toNat / 8 % 4)
    granted (.setvl d a b) p.vtype x y
    ∧ granted (.setvlx d a b) t x (BitVec.ofNat 64 (2 ^ (t.toNat / 8 % 4)))
    ∧ granted (.setvli d a r v) u x (BitVec.ofNat 64 (r.val + 1))
    ∧ exec (.setrows d a) s = (if p.vtype.getLsbD 15 then after p.vtype 0 1 p.granted 1
        else after p.vtype p.vl (min (max x.toNat 1) g) p.granted (BitVec.ofNat 64 (min (max x.toNat 1) g)))
    ∧ exec (.settype d a) s = (s.withHart fun h => { h with shape := { p with vtype := vtWrite x } }).done d (vtWrite x)

/-- The positions that a vector instruction visits are those of its shape from VSTART on, each once, row by row and in a row by rising column;
only the first row starts at VSTART.COL. -/
def Obligations.SweepOrder : Prop :=
  ∀ (p : Shape),
    (∀ row col, (row, col) ∈ p.positions ↔
      row < p.vrows ∧ col < p.vl ∧ (p.vstart.toNat / 4096 < row ∨ (p.vstart.toNat / 4096 = row ∧ p.vstart.toNat % 4096 ≤ col)))
    ∧ p.positions.Pairwise (fun x y => x.1 < y.1 ∨ (x.1 = y.1 ∧ x.2 < y.2))

/-- Every vector arithmetic, mask, conversion, reduction, scan, selection and permutation instruction with operands that its encoding admits, on
a hart with no register in error, a rounding mode where it reads one, and a shape that meets the checks of R32 and its further condition,
completes: it moves on with VSTART 0 and changes nothing but the registers that it may write and the flags of FCSR, which it only sets.  On a
shape that fails those checks it raises Illegal Configuration with the instruction word at position (0, 0), whatever its mask, and changes
nothing else. -/
def Obligations.VectorsCompleteOrTrap : Prop :=
  (
    ∀ (i : Instr) (o : VOp) (s : State), vop i = some o → wellFormed i = true → s.hart.sound → (o.rounds = true → s.hart.fcsr.toNat % 8 < 5) →
      s.hart.shape.usable o.ew o.groups = true → o.further s.hart.shape = true →
      holdsNext (exec i s) (o.frame s))
    ∧ (
    ∀ (i : Instr) (o : VOp) (s : State), vop i = some o → wellFormed i = true →
      (s.hart.shape.usable o.ew o.groups && o.further s.hart.shape) = false → exec i s = s.illegalVector)

/-- Each integer instruction of one width gives every active position from VSTART on the low SEW bits of its operation on the two operands
there, and leaves every other element of every vector register, the flags, the scalar and the mask registers.  So do the multiply-accumulates,
counts, moves and the instructions of two widths, at the width of their result.  VMERGE takes at every position one of its operands by the mask.
The instructions that move elements give each position that they write the element that R200 or R202 names.  An integer reduction folds the
active elements into its seed, over all rows or row by row; VSCAN writes the sums of the active elements up to each position; VTOPK writes the
largest keys that are no NaN, the larger first and of equal ones the lower column, with their columns, and their number to sB. -/
def Obligations.VectorIntegerResults : Prop :=
  (
    ∀ (s : State) (d a : VReg) (b : Src2) (k : MReg) (i : Instr), i ∈ intVectors d a b k → s.hart.sound →
      s.hart.shape.usable true (d :: a :: src2Groups b) = true →
      let w := s.hart.shape.sew
      holdsNext (exec i s) fun t =>
        t.hart.pc = s.hart.pc + 4 ∧ t.hart.shape = { s.hart.shape with vstart := 0 } ∧ t.hart.s = s.hart.s ∧ t.hart.k = s.hart.k
        ∧ t.hart.fcsr = s.hart.fcsr ∧ t.mem = s.mem
        ∧ elemsBecome s t d w (s.activeFrom k) fun row col =>
            let x := s.elem a w row col
            let y := s.src2 b w row col
            match intResult i w (signedOf w x) (signedOf w y) x y with
            | some z => (z % 2 ^ w).toNat
            | none => 0)
    ∧ (
    ∀ (s : State) (d a e c : VReg) (b : Src2) (u v : SReg) (x k : MReg),
      let p := s.hart.shape
      let w := p.sew
      let act := s.activeFrom k
      let keeps := fun (t : State) => t.hart.pc = s.hart.pc + 4 ∧ t.hart.fcsr = s.hart.fcsr ∧ t.mem = s.mem
      (∀ i ∈ s.intLanes d a e c b k, s.vready i.1 → holdsNext (exec i.1 s) fun t => keeps t
        ∧ elemsBecome s t d i.2.1 act fun row col => (i.2.2 row col % 2 ^ i.2.1).toNat)
      ∧ (s.vready (.vmerge d a b k) → holdsNext (exec (.vmerge d a b k) s) fun t => keeps t
        ∧ elemsBecome s t d w p.positions fun row col => if s.maskAt k row col then s.src2 b w row col else s.elem a w row col)
      ∧ (∀ i ∈ s.moveLanes d a e b u v x k, s.vready i.1 → holdsNext (exec i.1 s) fun t => keeps t ∧ elemsBecome s t d w i.2.1 i.2.2)
      ∧ (s.vready (.vextr u a v k) → holdsNext (exec (.vextr u a v k) s) fun t => keeps t ∧ t.hart.v = s.hart.v
        ∧ (u ≠ 0 → t.getS u = match s.flatAt k (s.getS v) with
            | q :: _ => BitVec.ofNat 64 (s.elem a w q.1 q.2)
            | [] => 0))
      ∧ (∀ r ∈ intReductions w e k,
        (s.vready (r.1 (.scalar u v)) → holdsNext (exec (r.1 (.scalar u v)) s) fun t => keeps t ∧ t.hart.v = s.hart.v
          ∧ (u ≠ 0 → t.getS u = BitVec.ofInt 64
              (signedOf w (act.foldl (fun z q => r.2 z (s.elem e w q.1 q.2)) ((s.getS v).toNat % 2 ^ w)))))
        ∧ (s.vready (r.1 (.perRow d)) → holdsNext (exec (r.1 (.perRow d)) s) fun t => keeps t
          ∧ elemsBecome s t d w ((List.range p.vrows).map fun row => (row, 0)) fun row _ =>
              (act.filter fun q => q.1 == row).foldl (fun z q => r.2 z (s.elem e w q.1 q.2)) (s.elem d w row 0)))
      ∧ (s.vready (.vscan d u e k) → holdsNext (exec (.vscan d u e k) s) fun t => keeps t
        ∧ elemsBecome s t d w act fun row col =>
            ((s.activeCols k row).filter fun j => decide (j ≤ col)).foldl (fun z j => z + s.elem e w row j) (s.getS u).toNat)
      ∧ (s.vready (.vtopk d a u k) →
        let f := p.fmt
        let key := fun col => s.elem a w 0 col
        let cand := (s.activeCols k 0).filter fun col => !(decodeFp f (key col)).isNaN
        let want := min (s.getS u).toNat p.vl
        let before := fun (i j : Nat) => keyOrder f (key j) < keyOrder f (key i) ∨ (keyOrder f (key i) = keyOrder f (key j) ∧ i < j)
        let pair := Fin.ofNat 32 (d.val + 1)
        holdsNext (exec (.vtopk d a u k) s) fun t => t.hart.pc = s.hart.pc + 4 ∧ t.mem = s.mem
          ∧ t.hart.fcsr = (s.orFlags (flagIf ((s.activeCols k 0).any fun col => (decodeFp f (key col)).isSig) fNV)).hart.fcsr
          ∧ ∃ best : List Nat, best.length = min want cand.length ∧ best.Pairwise before ∧ (∀ col ∈ best, col ∈ cand)
            ∧ (∀ col ∈ cand, col ∉ best → ∀ y ∈ best, before y col)
            ∧ t.getS u = (if u = 0 then 0 else BitVec.ofNat 64 best.length)
            ∧ (∀ j < want, t.elem d w 0 j = (if j < best.length then key (best.getD j 0) else f.signBit + f.inf)
                ∧ t.elem pair w 0 j = (if j < best.length then best.getD j 0 else 2 ^ w - 1))
            ∧ ∀ (q : VReg) (i : Nat), w * (i + 1) ≤ 8192 → (q = d ∨ q = pair → want ≤ i) → elemAt (t.getV q) w i = elemAt (s.getV q) w i))

/-- Each element-wise floating-point instruction gives every active position the result of its operation in the format of SEW and FK or in the
wide format, in the mode of FCSR.FRM where it rounds, and ORs the flags of the active positions; the tables of the estimates hold the nearest
integers.  A floating-point reduction and VFSCAN combine the canonical groups of a row by their trees, in the manual's order.  VCVT gives every
active position its conversion.  A compare gives each active position's mask bit its relation, a mask instruction its operation on the source
bits, KPOPC and KFIRST count and find the set ones, and KTOV and VTOK move bits to elements and back; the other elements and bits stay. -/
def Obligations.VectorFloatAndMaskResults : Prop :=
  (
    ∀ (s : State) (d a e c : VReg) (b : Src2) (u v : SReg) (k : MReg) (md : Rounding),
      let p := s.hart.shape
      let w := p.sew
      let f := p.fmt
      let act := s.activeFrom k
      let mode := fun (reads : Bool) => reads = true → frmRounding s.frm = some md
      (∀ i ∈ s.fpLanes md d a e c b k, s.vready i.1 → mode i.2.1 →
        holdsNext (exec i.1 s) fun t => t.hart.pc = s.hart.pc + 4 ∧ t.mem = s.mem ∧ t.hart.fcsr = s.flagged act i.2.2.2
          ∧ elemsBecome s t d i.2.2.1 act fun row col => (i.2.2.2 row col).1)
      ∧ (∀ i ∈ s.fpReductions md e k, mode i.2.1 →
        let op := withFlags i.2.2.2
        let row := fun (r : Nat) (z : Nat × Flags) => rowReduced op (s.rowValues e k i.2.2.1 r) p.vl z
        (s.vready (i.1 (.scalar u v)) → holdsNext (exec (i.1 (.scalar u v)) s) fun t =>
          let z := (List.range p.vrows).foldl (fun z r => row r z) ((s.getS v).toNat % 2 ^ w, 0)
          t.hart.pc = s.hart.pc + 4 ∧ t.hart.v = s.hart.v ∧ t.hart.fcsr = (s.orFlags z.2).hart.fcsr ∧ (u ≠ 0 → t.getS u = BitVec.ofNat 64 z.1))
        ∧ (s.vready (i.1 (.perRow d)) → holdsNext (exec (i.1 (.perRow d)) s) fun t =>
          let firsts := (List.range p.vrows).map fun r => (r, 0)
          let z := fun r (_ : Nat) => row r (s.elem d w r 0, 0)
          t.hart.pc = s.hart.pc + 4 ∧ t.hart.fcsr = s.flagged firsts z ∧ elemsBecome s t d w firsts fun r j => (z r j).1))
      ∧ (s.vready (.vfscan d u e k) → mode true →
        let z := fun row col => rowPrefix (withFlags (fpAdd f md)) (s.rowValues e k f.signBit row) ((s.getS u).toNat % 2 ^ w, 0) col
        holdsNext (exec (.vfscan d u e k) s) fun t =>
          t.hart.pc = s.hart.pc + 4 ∧ t.hart.fcsr = s.flagged act z ∧ elemsBecome s t d w act fun row col => (z row col).1))
    ∧ (
    ∀ (s : State) (d a : VReg) (c : Fmt) (m : Rm) (sat : Bool) (k : MReg) (md : Rounding),
      s.vready (.vcvt c m sat d a k) → (c ≠ .e8m0 → s.mode m = some md) →
      let p := s.hart.shape
      let z := fun row col => convertValue c p.fmt sat (atDither md row col) (s.elem a p.sew row col)
      holdsNext (exec (.vcvt c m sat d a k) s) fun t => t.hart.pc = s.hart.pc + 4 ∧ t.mem = s.mem
        ∧ t.hart.fcsr = s.flagged (s.activeFrom k) z ∧ elemsBecome s t d (cvtDst c).width (s.activeFrom k) fun row col => (z row col).1)
    ∧ (∀ i < 4096,
      let t := freceTable i
      let r := frsqeTable i
      let u := (4097 + 2 * (i % 2048)) * 2 ^ (i / 2048)
      (2 * t - 1) * (8192 + 2 * i + 1) < 2 ^ 25 ∧ 2 ^ 25 < (2 * t + 1) * (8192 + 2 * i + 1)
      ∧ (2 * r - 1) ^ 2 * u < 2 ^ 36 ∧ 2 ^ 36 < (2 * r + 1) ^ 2 * u)
    ∧ (
    ∀ (s : State) (d a : VReg) (b : Src2) (u : SReg) (k j x y : MReg), s.hart.sound →
      let p := s.hart.shape
      let w := p.sew
      let act := s.activeFrom k
      (j ≠ 0 → p.usable true (a :: src2Groups b) = true →
        ∀ i ∈ compareWords j a b k,
          holdsNext (exec i.1 s) fun t => t.hart.pc = s.hart.pc + 4 ∧ t.hart.v = s.hart.v
            ∧ bitsBecome s t j act fun row col =>
                let x := s.elem a w row col
                let y := s.src2 b w row col
                i.2 (signedOf w x) (signedOf w y) x y)
      ∧ (∀ i ∈ fpCompares p.fmt j a b k, s.vready i.1 →
          let z := fun row col => i.2 (s.elem a w row col) (s.src2 b w row col)
          holdsNext (exec i.1 s) fun t => t.hart.pc = s.hart.pc + 4 ∧ t.hart.v = s.hart.v
            ∧ t.hart.fcsr = s.flagged act (fun row col => (0, (z row col).2)) ∧ bitsBecome s t j act fun row col => (z row col).1)
      ∧ (j ≠ 0 → p.usable true [] = true →
        ∀ i ∈ maskWords j x y k,
          holdsNext (exec i.1 s) fun t => t.hart.pc = s.hart.pc + 4 ∧ t.hart.v = s.hart.v
            ∧ bitsBecome s t j act fun row col => i.2 (s.maskAt x row col) (s.maskAt y row col))
      ∧ (∀ i ∈ maskScans p.vl j x k, s.vready i.1 →
          holdsNext (exec i.1 s) fun t => t.hart.pc = s.hart.pc + 4 ∧ t.hart.v = s.hart.v
            ∧ bitsBecome s t j act fun row col => i.2 (fun n => s.maskAt k row n && s.maskAt x row n) col)
      ∧ (s.vready (.kpopc u x k) → exec (.kpopc u x k) s
          = .next ((s.setS u (BitVec.ofNat 64 (act.countP fun q => s.maskAt x q.1 q.2))).completed))
      ∧ (s.vready (.kfirst u x k) → exec (.kfirst u x k) s
          = .next ((s.setS u (match act.find? fun q => s.maskAt x q.1 q.2 with
            | some q => BitVec.ofNat 64 (q.1 * 1024 + q.2)
            | none => -1)).completed))
      ∧ (s.vready (.ktov d x k) → holdsNext (exec (.ktov d x k) s) fun t => t.hart.pc = s.hart.pc + 4
          ∧ elemsBecome s t d w act fun row col => bit (s.maskAt x row col))
      ∧ (s.vready (.vtok j a k) → holdsNext (exec (.vtok j a k) s) fun t => t.hart.pc = s.hart.pc + 4 ∧ t.hart.v = s.hart.v
          ∧ bitsBecome s t j act fun row col => s.elem a w row col != 0))

/-! ## Vector memory -/

/-- A unit-stride, strided, acquire or fault-only-first load whose active positions are all granted on DATA pages gives each of them its bytes
as the vector stream sees them, extended to SEW, and leaves every other element, the masks, the flags and memory; an indexed load does so for
the positions whose index is not null, and gives a null index 0 and clears its mask bit where a mask is named.  None but the acquire changes an
outstanding write.  Where a position fails, the load traps with its address in TVAL and VSTART there, the positions before it loaded; a
fault-only-first load with a mask does so at its first active position only, and at a later one ends early: it completes with the positions before
loaded, and with the mask bits of that one and of the active ones after it cleared. -/
def Obligations.VectorLoadResults : Prop :=
  ∀ (s : State) (d : VReg) (a b : SReg) (c : VReg) (k : MReg) (e : EWidth) (x : Bool) (h : VHint) (g : XHint) (p : Word → Place),
    s.quiet → ewFits e s.hart.shape = true →
    let n := ewBytes e
    let w := s.hart.shape.sew
    let iw := xBits g
    let base := fun (at_ : List (Nat × Nat)) => s.vectorBase at_.isEmpty
    let all := s.activeFrom k
    let live := s.nonNull k c iw
    let value := fun (at_ : List (Nat × Nat)) (addr : Nat → Nat → Word) row col =>
      loaded x n w (leNat ((base at_).bytes (.stream .vector) (p (addr row col)).pa n))
    let ready := fun (at_ : List (Nat × Nat)) (addr : Nat → Nat → Word) =>
      (base at_).vgranted Needs.load n at_ addr p ∧ (base at_).nearWrites
    let same := fun (t : State) (at_ : List (Nat × Nat)) => vectorDone s t ∧ t.mem = (base at_).mem ∧ t.hart.fcsr = s.hart.fcsr
    let unit := s.unitAt a n
    let stride := s.strideAt a b
    let index := s.indexAt a c iw n
    let gathered := fun row col => if s.elem c iw row col = 2 ^ iw - 1 then 0 else value all index row col
    let loads := fun (i : Instr) (addr : Nat → Nat → Word) => holdsNext (exec i s) fun t =>
      same t all ∧ t.writes = (base all).writes ∧ t.hart.k = s.hart.k ∧ elemsBecome s t d w all (value all addr)
    let u := base all
    let isNull := fun (z : Nat × Nat) => decide (s.elem c iw z.1 z.2 = 2 ^ iw - 1)
    let fails := fun (i : Instr) (pre : List (Nat × Nat)) (y : Nat × Nat) (addr : Nat → Nat → Word) => ∀ t,
      u.vgranted Needs.load n pre addr p → u.nearWrites →
      u.elementFault Needs.load n (loadKinds n) (u.badLoad n) (addr y.1 y.2) t →
      stopsAt s y t (fun v => v.mem = u.mem ∧ v.writes = u.writes ∧ v.hart.k = s.hart.k ∧ v.hart.fcsr = s.hart.fcsr
        ∧ elemsBecome s v d w pre (value all addr)) (exec i s)
    (s.hart.shape.usable true [d] = true → ready all unit →
      loads (.vld d a k e x h) unit ∧ loads (.vldff d a k e x h) unit
      ∧ (holdsNext (exec (.vldaq d a k e x h) s) fun t =>
          same t all ∧ t.hart.k = s.hart.k ∧ elemsBecome s t d w all (value all unit)))
    ∧ (s.hart.shape.usable true [d] = true → ready all stride → loads (.vlds d a b k e x h) stride)
    ∧ (s.hart.shape.usable true [d, c] = true → indexFits s.hart.shape iw = true → groupsMeet s.hart.shape.group d c = false →
      ready live index →
      holdsNext (exec (.vldx d a c k e x g) s) fun t =>
        same t live ∧ t.writes = (base live).writes
        ∧ elemsBecome s t d w all (fun row col => if s.elem c iw row col = 2 ^ iw - 1 then 0 else value live index row col)
        ∧ (∀ j, j ≠ k → t.getK j = s.getK j) ∧ (if k = 0 then t.hart.k = s.hart.k else bitsBecome s t k (s.nulls k c iw) fun _ _ => false))
    ∧ ∀ pre y post, all = pre ++ y :: post →
      (s.hart.shape.usable true [d] = true →
        fails (.vld d a k e x h) pre y unit ∧ fails (.vlds d a b k e x h) pre y stride
        ∧ (k = 0 ∨ (pre = [] ∧ s.hart.begun = false) → fails (.vldff d a k e x h) pre y unit)
        ∧ (∀ t, u.vgranted Needs.load n pre unit p → u.nearWrites →
          u.elementFault Needs.load n (loadKinds n) (u.badLoad n) (unit y.1 y.2) t →
          stopsAt s y t (fun v => v.mem = u.mem ∧ v.hart.k = s.hart.k ∧ elemsBecome s v d w pre (value all unit)) (exec (.vldaq d a k e x h) s)
          ∧ (k ≠ 0 → pre ≠ [] ∨ s.hart.begun = true →
            holdsNext (exec (.vldff d a k e x h) s) fun t =>
              same t all ∧ t.writes = u.writes ∧ elemsBecome s t d w pre (value all unit)
              ∧ (∀ j, j ≠ k → t.getK j = s.getK j) ∧ bitsBecome s t k (y :: post) fun _ _ => false)))
      ∧ (s.hart.shape.usable true [d, c] = true → indexFits s.hart.shape iw = true → groupsMeet s.hart.shape.group d c = false →
        isNull y = false → ∀ t, u.vgranted Needs.load n (pre.filter fun z => !isNull z) index p → u.nearWrites →
        u.elementFault Needs.load n (loadKinds n) (u.badLoad n) (index y.1 y.2) t →
        stopsAt s y t (fun v => v.mem = u.mem ∧ v.writes = u.writes ∧ v.hart.fcsr = s.hart.fcsr ∧ elemsBecome s v d w pre gathered
          ∧ (if k = 0 then v.hart.k = s.hart.k else bitsBecome s v k (pre.filter isNull) fun _ _ => false)) (exec (.vldx d a c k e x g) s))

/-- A windowed gather whose active positions are granted loads its first position with an index that is not null, and every later one whose line
the tile buffer holds; every other later one it loads, clearing its mask bit, or leaves with its element and its mask bit as they were; a null
index gives 0 and clears its mask bit.  Where the first fails, the gather traps there with nothing written.  A load of MX blocks gives each element
its code, or 0 in an invalid block, its mask bit whether its block is valid, and each block its scale, and leaves every other element and mask
bit; where a read of a block fails, it traps at the block's first position with the address in TVAL, and the block takes no effect.  That a block
in whose midst VSTART stands is checked whole and its scale written is the model's choice (log 69). -/
def Obligations.GatherAndMxLoadResults : Prop :=
  ∀ (s : State) (d : VReg) (a : SReg) (b : VReg) (k : MReg) (e : EWidth) (x : Bool) (h : VHint) (g : XHint) (p : Word → Place),
    s.quiet → s.hart.shape.usable true [d, b] = true →
    let q := s.hart.shape
    let n := ewBytes e
    let iw := xBits g
    let index := s.indexAt a b iw n
    let live := s.nonNull k b iw
    let nulls := s.nulls k b iw
    let u := s.vectorBase live.isEmpty
    let v := s.vectorBase (mxBlocks q).isEmpty
    let value := fun row col => loaded x n q.sew (leNat (u.bytes (.stream .vector) (p (index row col)).pa n))
    let blk := vtBlk q.vtype
    let wide := if x then 4 else 8
    let one := fun va => leNat (v.bytes (.stream .vector) (p va).pa 1)
    let codeVa := fun row col => s.getS a + BitVec.ofNat 64 row * q.rowstr + BitVec.ofNat 64 (if x then col / 2 else col)
    let scaleVa := fun (row j : Nat) => s.getS b + BitVec.ofInt 64 (row * (q.rowstr.toInt * (1 + bit x : Nat) / (blk : Nat))) + BitVec.ofNat 64 j
    let codes := fun (y : Nat × Nat) => (mxCols q y.2).map fun col => (y.1, col)
    let good := fun (y : Nat × Nat) => one (scaleVa y.1 y.2) != 255
      && (codes y).all fun z => !mxBadCode (if x then .e2m1 else q.fmt) (mxCode x (one (codeVa z.1 z.2)) z.2)
    let block := fun row col => good (row, col / blk)
    let near := fun (row col : Nat) =>
      let at_ := p (index row col)
      s.probe s.vectorCtx Needs.load (index row col) == some at_ && match s.windowAt (index row col) with
        | some w => s.holds w (paLine at_.pa)
        | none => s.lookahead.contains (s.hart.ident.coreKey, paLine at_.pa)
    let masks := fun (t : State) (at_ : List (Nat × Nat)) (f : Nat → Nat → Bool) =>
      (∀ j, j ≠ k → t.getK j = s.getK j) ∧ (k ≠ 0 → bitsBecome s t k at_ f)
    let granted1 := fun (at_ : List (Nat × Nat)) (addr : Nat → Nat → Word) => v.vgranted Needs.load 1 at_ addr p
    (ewFits e q = true → indexFits q iw = true → groupsMeet q.group d b = false →
      (u.vgranted Needs.load n live index p → u.nearWrites →
        holdsNext (exec (.vldw d a b k e x g) s) fun t =>
          vectorDone s t ∧ t.mem = u.mem ∧ t.writes = u.writes ∧ t.hart.fcsr = s.hart.fcsr
          ∧ ∃ back : Nat → Nat → Bool,
              (∀ y, live.head? = some y → back y.1 y.2 = true) ∧ (∀ y ∈ live, near y.1 y.2 = true → back y.1 y.2 = true)
              ∧ elemsBecome s t d q.sew (nulls ++ live.filter fun y => back y.1 y.2)
                  (fun row col => if s.elem b iw row col = 2 ^ iw - 1 then 0 else value row col)
              ∧ masks t (nulls ++ live.filter fun y => back y.1 y.2) fun _ _ => false)
      ∧ ∀ y t, live.head? = some y → u.elementFault Needs.load n (loadKinds n) (u.badLoad n) (index y.1 y.2) t →
        stopsAt s y t (fun z => z.mem = u.mem ∧ z.writes = u.writes ∧ z.hart.v = s.hart.v ∧ z.hart.k = s.hart.k ∧ z.hart.fcsr = s.hart.fcsr)
          (exec (.vldw d a b k e x g) s))
    ∧ (mxShape x d b q = true → v.nearWrites →
      (granted1 (mxBlocks q) scaleVa → (∀ y ∈ mxBlocks q, granted1 (codes y) codeVa) →
        holdsNext (exec (.vldmx d a b k x h) s) fun t =>
          vectorDone s t ∧ t.mem = v.mem ∧ t.writes = v.writes ∧ t.hart.fcsr = s.hart.fcsr
          ∧ (∀ y ∈ mxBlocks q, t.elem b 8 y.1 y.2 = one (scaleVa y.1 y.2))
          ∧ (∀ z ∈ q.positions, t.elem d wide z.1 z.2 = (if block z.1 z.2 then mxCode x (one (codeVa z.1 z.2)) z.2 else 0))
          ∧ masks t q.positions block
          ∧ ∀ (r : VReg) i, wide * (i + 1) ≤ 8192 → (∀ z ∈ q.positions, ¬(rowReg d z.1 = r ∧ z.2 = i)) →
              (∀ y ∈ mxBlocks q, ¬(rowReg b y.1 = r ∧ wide * i / 8 = y.2)) → elemAt (t.getV r) wide i = elemAt (s.getV r) wide i)
      ∧ ∀ pre y post va t, mxBlocks q = pre ++ y :: post → granted1 pre scaleVa → (∀ z ∈ pre, granted1 (codes z) codeVa) →
        (va = scaleVa y.1 y.2 ∨ (granted1 [y] scaleVa ∧ ∃ c z r, codes y = c ++ z :: r ∧ granted1 c codeVa ∧ va = codeVa z.1 z.2)) →
        v.elementFault Needs.load 1 (loadKinds 1) (v.badLoad 1) va t →
        stopsAt s (y.1, y.2 * blk) t (fun w => w.mem = v.mem ∧ w.writes = v.writes ∧ w.elem b 8 y.1 y.2 = s.elem b 8 y.1 y.2
          ∧ ∀ z ∈ codes y, w.elem d wide z.1 z.2 = s.elem d wide z.1 z.2 ∧ w.maskAt k z.1 z.2 = s.maskAt k z.1 z.2) (exec (.vldmx d a b k x h) s))

/-- A unit-stride or strided store whose active positions are granted on DATA pages hands the low EW bits of each active element to its home, in
sweep order, and changes no memory and no register itself; an indexed store does so for the positions whose index is not null, and clears the
mask bit of a null index.  VSTP records the active elements with what gives their addresses and makes no access; one that goes on after a trap
adds them to the block that it began.  VCOMMIT hands the recorded entries whose mask bit is set to their homes in order and drops them all.  Where
a position fails, the store traps with its address in TVAL and VSTART there, the stores before it made; a VCOMMIT keeps the entry that fails and
those after it. -/
def Obligations.VectorStoreResults : Prop :=
  ∀ (s : State) (d : VReg) (a b : SReg) (c : VReg) (k : MReg) (e : EWidth) (h : VHint) (g : XHint) (p : Word → Place),
    s.quiet →
    let q := s.hart.shape
    let n := ewBytes e
    let w := q.sew
    let iw := xBits g
    let unit := s.unitAt a n
    let stride := s.strideAt a b
    let index := s.indexAt a c iw n
    let all := s.activeFrom k
    let live := s.nonNull k c iw
    let isNull := fun (z : Nat × Nat) => decide (s.elem c iw z.1 z.2 = 2 ^ iw - 1)
    let ready := fun (u : State) (at_ : List (Nat × Nat)) (addr : Nat → Nat → Word) =>
      u.vgranted Needs.store n at_ addr p ∧ u.walksApart n at_ addr p ∧ u.nearWrites
    let same := fun (t : State) => t.hart.v = s.hart.v ∧ t.hart.fcsr = s.hart.fcsr
    let made := fun (u t : State) (ws : List PendingWrite) =>
      let but := fun (w : PendingWrite) => { w with holder := none }
      t.mem = u.mem ∧ t.writes.map but = (u.writes ++ ws).map but ∧ (s.hart.priv.level = false → t.writes = u.writes ++ ws)
    let ws := fun (u : State) (h : VHint) (at_ : List (Nat × Nat)) (addr : Nat → Nat → Word) =>
      at_.map fun x => u.vwrite h (addr x.1 x.2) (p (addr x.1 x.2)) n (s.elem d w x.1 x.2 % 2 ^ (8 * n))
    let masks := fun (t : State) (at_ : List (Nat × Nat)) =>
      (∀ j, j ≠ k → t.getK j = s.getK j) ∧ (k ≠ 0 → bitsBecome s t k at_ fun _ _ => false)
    let stores := fun (i : Instr) (h : VHint) (at_ nulls : List (Nat × Nat)) (addr : Nat → Nat → Word) =>
      let u := s.vectorBase at_.isEmpty
      ready u at_ addr → holdsNext (exec i s) fun t => vectorDone s t ∧ same t ∧ made u t (ws u h at_ addr) ∧ masks t nulls
    let fails := fun (i : Instr) (h : VHint) (pre nulls : List (Nat × Nat)) (y : Nat × Nat) (addr : Nat → Nat → Word) => ∀ t,
      let u := s.vectorBase false
      u.vgranted Needs.store n pre addr p → u.walksApart n (pre ++ [y]) addr p → u.nearWrites →
      u.elementFault Needs.store n storeKinds (u.badStore n) (addr y.1 y.2) t →
      stopsAt s y t (fun z => same z ∧ made u z (ws u h pre addr) ∧ masks z nulls) (exec i s)
    let entries := s.hart.vstp.flatMap fun y => (y.entries.filter fun x => s.maskAt k x.1 x.2).map fun x => (y, x)
    let at_ := fun (x : VstpBlock × Nat × Nat) => x.1.addr x.2.1 x.2.2
    let size := fun (x : VstpBlock × Nat × Nat) => ewBytes x.1.ew
    let grants := fun (v : State) (xs : List (VstpBlock × Nat × Nat)) => ∀ x ∈ xs, (p (at_ x)).kind = 0
      ∧ v.granted s.vectorCtx Needs.store (size x) (size x) (at_ x) (p (at_ x)) = true
    let free := fun (v : State) (xs : List (VstpBlock × Nat × Nat)) => v.nearWrites ∧ ∀ x ∈ xs, ∀ y ∈ xs,
      ∀ z ∈ v.walkPath s.vectorCtx (at_ y) 3 s.vectorCtx.root, apart (p (at_ x)).pa (size x) z 8
    let commits := fun (v : State) (xs : List (VstpBlock × Nat × Nat)) =>
      xs.map fun x => v.vwrite .normal (at_ x) (p (at_ x)) (size x) (x.1.value x.2.1 x.2.2)
    let follows := fun (z : VstpBlock) => q.vstart ≠ 0 ∧ z.base = s.getS a ∧ z.rowstr = q.rowstr ∧ z.ew = e ∧ z.vrows = q.vrows ∧ z.vl = q.vl
      ∧ ∀ x ∈ z.entries, startCode x.1 x.2 < q.vstart.toNat
    let records := fun (old : List VstpBlock) (before : List (Nat × Nat)) => holdsNext (exec (.vstp d a k e h) s) fun t =>
      vectorDone s t ∧ same t ∧ t.mem = s.mem ∧ t.hart.k = s.hart.k ∧ t.writes = s.writes ∧ t.hart.vstpRun = s.hart.vstpRun + 1
      ∧ ∃ y, t.hart.vstp = old ++ [y] ∧ y.base = s.getS a ∧ y.rowstr = q.rowstr ∧ y.ew = e ∧ y.vrows = q.vrows ∧ y.vl = q.vl
          ∧ y.entries = before ++ all ∧ (∀ x ∈ all, y.value x.1 x.2 = s.elem d w x.1 x.2 % 2 ^ (8 * n))
          ∧ ∀ z, s.hart.vstp = old ++ [z] → ∀ x ∈ before, y.value x.1 x.2 = z.value x.1 x.2
    (ewFits e q = true → q.usable true [d] = true →
      stores (.vst d a k e h) h all [] unit ∧ stores (.vsts d a b k e h) h all [] stride
      ∧ (∀ pre y post, all = pre ++ y :: post → fails (.vst d a k e h) h pre [] y unit ∧ fails (.vsts d a b k e h) h pre [] y stride)
      ∧ (s.hart.vstpRun < 4 →
        ((∀ z, s.hart.vstp.getLast? = some z → ¬follows z) → records s.hart.vstp [])
        ∧ ∀ old z, s.hart.vstp = old ++ [z] → follows z → records old z.entries))
    ∧ (ewFits e q = true → q.usable true [d, c] = true → indexFits q iw = true →
      stores (.vstx d a c k e g) (xHint g) live (s.nulls k c iw) index
      ∧ ∀ pre y post, all = pre ++ y :: post → isNull y = false →
          fails (.vstx d a c k e g) (xHint g) (pre.filter fun z => !isNull z) (pre.filter isNull) y index)
    ∧ (let v := s.vectorBase entries.isEmpty
       grants v entries → free v entries →
        holdsNext (exec (.vcommit k) s) fun t =>
          vectorDone s t ∧ same t ∧ t.hart.k = s.hart.k ∧ t.hart.vstp = [] ∧ made v t (commits v entries))
    ∧ ∀ pre y post t, entries = pre ++ y :: post →
        let v := s.vectorBase false
        grants v pre → free v (pre ++ [y]) → v.elementFault Needs.store (size y) storeKinds (v.badStore (size y)) (at_ y) t →
        stopsAt s y.2 t (fun z => same z ∧ z.hart.k = s.hart.k ∧ made v z (commits v pre)
          ∧ (z.hart.vstp.flatMap fun b => (b.entries.filter fun x => s.maskAt k x.1 x.2).map fun x => (b.addr x.1 x.2, b.value x.1 x.2))
              = (y :: post).map fun x => (at_ x, x.1.value x.2.1 x.2.2)) (exec (.vcommit k) s)

/-- A vector atomic of SEW 32 or 64 whose positions with an index that is not null are granted on DATA pages of distinct places stores at each
place the new value of its operation on what stood there and the element of vD; with RET vD takes the old values; a null index makes no access,
gives 0 with RET and clears its mask bit.  Before it the vector writes of closed strips have come to the core, and under a release every earlier
write to its home; every other byte is as then.  Where a position fails, the atomic traps with its address in TVAL and VSTART there, and it has done
all of this for the positions before it and nothing for those behind it. -/
def Obligations.VectorAtomicResults : Prop :=
  ∀ (s : State) (o : Order) (e r : Bool) (d : VReg) (a : SReg) (b : VReg) (k : MReg) (i : Instr) (p : Word → Place),
    s.quiet → i ∈ vamos o e r d a b k →
    let q := s.hart.shape
    let w := q.sew
    let n := w / 8
    let all := s.activeFrom k
    let isNull := fun (z : Nat × Nat) => decide (s.elem b w z.1 z.2 = 2 ^ w - 1)
    let addr := s.indexAt a b w n
    let pa := fun (x : Nat × Nat) => (p (addr x.1 x.2)).pa
    let begun := fun (v : State) => match o with
      | .release | .acqRel => (v.released .system).afterStrips
      | _ => v.afterStrips
    let lanes := fun (done : List (Nat × Nat)) => done.filter fun z => !isNull z
    let ready := fun (v : State) (done : List (Nat × Nat)) =>
      v.vgranted Needs.rmw n (lanes done) addr p ∧ (lanes done).Pairwise (fun x y => pa x ≠ pa y) ∧ ∀ x ∈ lanes done, (begun v).settled (pa x) n
    let acted := fun (v t : State) (done : List (Nat × Nat)) =>
      let u := begun v
      let old := fun x => Memory.read u.mem (pa x) n
      t.writes = u.writes
      ∧ (∀ x ∈ lanes done, Memory.read t.mem (pa x) n = vamoNew i w (old x) (s.elem d w x.1 x.2))
      ∧ (∀ z, (∀ x ∈ lanes done, z < pa x ∨ pa x + n ≤ z) → Memory.get t.mem z = Memory.get u.mem z)
      ∧ (if e then elemsBecome s t d w done (fun row col => if s.elem b w row col = 2 ^ w - 1 then 0 else old (row, col))
          else t.hart.v = s.hart.v)
      ∧ (∀ j, j ≠ k → t.getK j = s.getK j) ∧ (k ≠ 0 → bitsBecome s t k (done.filter isNull) fun _ _ => false)
    q.usable true [d, b] = true → vamoShape e d b q = true →
    (ready (s.vectorBase (lanes all).isEmpty) all →
      holdsNext (exec i s) fun t => vectorDone s t ∧ acted (s.vectorBase (lanes all).isEmpty) t all)
    ∧ ∀ pre y post t, all = pre ++ y :: post → isNull y = false →
        let v := s.vectorBase false
        ready v pre → v.elementFault Needs.rmw n storeKinds (fun z => v.badUnits z.pa n) (addr y.1 y.2) t →
        stopsAt s y t (fun z => acted v z pre) (exec i s)

/-! ## Cells -/

/-- A granted CADD on a page of its value's kind hands its add to the cell's home and moves on; under HARTMODE.DET it performs at once, after every
earlier write of the hart.  A VCADD does so for its active positions whose index is not null, at cell sA plus the index, and clears the mask bit
of a null index; neither changes memory itself, or a register but VSTART.  Where an add fails, it traps with its address in TVAL: a CADD keeps VSTART,
and a VCADD stops at the position, the adds before it made.  An add that performs replaces the 64 bytes of its cell by the cell with the value
added, and no other byte. -/
def Obligations.CellAddResults : Prop :=
  ∀ (s : State) (f : CellFmt) (a b : SReg) (d c : VReg) (k : MReg) (q : Place) (p : Word → Place), s.hart.sound → s.hart.engine = [] →
    s.hart.reads = [] →
    let iw := if f = .f64 then 64 else 32
    let addr := s.indexAt a c iw 64
    let all := s.activeFrom k
    let live := s.nonNull k c iw
    let isNull := fun (z : Nat × Nat) => decide (s.elem c iw z.1 z.2 = 2 ^ iw - 1)
    let v := s.afterFences Fence.vector
    let x := (s.getS b).toNat % 2 ^ cellFmtBits f
    let w := s.addWrite f q x
    let adds := fun (u : State) (at_ walked : List (Nat × Nat)) =>
      u.cellsGranted Needs.store (fun n => n == cellFmtKind f) at_ addr p ∧ u.walksApart 64 (at_ ++ walked) addr p ∧ u.nearWrites
    let acted := fun (u t : State) (done : List (Nat × Nat)) =>
      t.hart.v = s.hart.v ∧ t.hart.fcsr = s.hart.fcsr ∧ t.mem = u.mem
      ∧ t.writes = u.writes ++ (done.filter fun z => !isNull z).map (fun x => s.addWrite f (p (addr x.1 x.2)) (s.elem d (cellFmtBits f) x.1 x.2))
      ∧ (∀ j, j ≠ k → t.getK j = s.getK j) ∧ (k ≠ 0 → bitsBecome s t k (done.filter isNull) fun _ _ => false)
    (v.granted s.vectorCtx Needs.store 64 64 (s.getS a) q = true → q.kind = cellFmtKind f →
      (s.hart.det = false → ∃ t, cachesOnly (v.askedHere q.pa 64) t ∧ exec (.cadd f a b) s = .next (t.sent w).completed)
      ∧ (s.hart.det = true →
        let y := v.drain fun _ => true
        y.modifiedWhole = true → ∃ t, cachesOnly y t ∧ exec (.cadd f a b) s = .next (t.performInTurn w).completed))
    ∧ (∀ t, v.elementFault Needs.store 64 (addKinds f) (fun z => v.badUnits z.pa 64) (s.getS a) t →
        ∃ u : State, u.hart = s.hart ∧ u.mem = v.mem ∧ u.writes = v.writes ∧ exec (.cadd f a b) s = u.trapped t)
    ∧ (s.hart.det = false → s.hart.shape.usable true [d, c] = true → s.hart.shape.sew = cellFmtBits f → indexFits s.hart.shape iw = true →
      (adds (s.vectorBase live.isEmpty) live [] →
        holdsNext (exec (.vcadd f d a c k) s) fun t => vectorDone s t ∧ acted (s.vectorBase live.isEmpty) t all)
      ∧ ∀ pre y post t, all = pre ++ y :: post → isNull y = false → adds v (pre.filter fun z => !isNull z) [y] →
          v.elementFault Needs.store 64 (addKinds f) (fun z => v.badUnits z.pa 64) (addr y.1 y.2) t →
          stopsAt s y t (fun z => acted v z pre) (exec (.vcadd f d a c k) s))
    ∧ ∀ (t : State) z, (t.performWrite (s.addWrite f q z)).mem = Memory.writeBytes t.mem q.pa (addedCell t.mem f q z)

/-- A granted CRAW of cells that no outstanding write meets gives the eight elements of each active cell its 64 bytes as memory holds them; a
granted CWRAW hands the 64 bytes of each active cell from its eight elements to its home, with bits 7:6 of byte 62 and byte 63 zero.  Where a cell
fails, they trap with its address in TVAL and VSTART at its first position, the cells before it done.  A granted LDW, LDWU or LDD of a cell base on a
page of its width gives the cell's value in FP32 or FP64, after the hart's writes to it, and ORs its flags. -/
def Obligations.CellRawAndReadResults : Prop :=
  ∀ (s : State) (d : VReg) (a e : SReg) (i : BitVec 16) (k : MReg) (q : Place) (p : Word → Place), s.hart.sound → s.hart.reads = [] →
    let addr := s.cellVa a
    let cells := s.activeCells k
    let pa := fun (x : Nat × Nat) => (p (addr x.1 x.2)).pa
    let bytes := fun (x : Nat × Nat) => leBytes 64 (packElems 64 ((upTo 8).map fun j => s.elem d 64 x.1 (x.2 + j)) % 2 ^ 502)
    let isCell := fun n => decide (2 ≤ n)
    let reads := fun (u : State) (at_ : List (Nat × Nat)) => u.cellsGranted Needs.load isCell at_ addr p ∧ ∀ x ∈ at_, u.settled (pa x) 64
    let stores := fun (u : State) (at_ : List (Nat × Nat)) => u.cellsGranted Needs.rawStore isCell at_ addr p ∧ u.nearWrites
    let given := fun (u t : State) (done : List (Nat × Nat)) =>
      t.mem = u.mem ∧ t.writes = u.writes ∧ t.hart.k = s.hart.k ∧ t.hart.fcsr = s.hart.fcsr
      ∧ elemsBecome s t d 64 (done.flatMap fun x => (upTo 8).map fun j => (x.1, x.2 + j)) fun row col =>
          Memory.read u.mem (pa (row, col / 8 * 8) + 8 * (col % 8)) 8
    let handed := fun (u t : State) (done : List (Nat × Nat)) =>
      t.hart.v = s.hart.v ∧ t.hart.k = s.hart.k ∧ t.hart.fcsr = s.hart.fcsr ∧ t.mem = u.mem
      ∧ t.writes = u.writes ++ done.map fun x => s.rawWrite (p (addr x.1 x.2)) (bytes x)
    (s.hart.engine = [] → s.hart.det = false → s.hart.taken = [] → s.hart.shape.usable true [d] = true → rawShape s.hart.shape = true →
      (let u := s.vectorBase cells.isEmpty
       (reads u cells → holdsNext (exec (.craw d a k) s) fun t => vectorDone s t ∧ given u t cells)
       ∧ (stores u cells → u.walksApart 64 cells addr p → holdsNext (exec (.cwraw d a k) s) fun t => vectorDone s t ∧ handed u t cells))
      ∧ ∀ pre y post t, cells = pre ++ y :: post →
          let u := s.vectorBase false
          (reads u pre → u.elementFault Needs.load 64 rawKinds (fun z => u.badUnits z.pa 64) (addr y.1 y.2) t →
            stopsAt s y t (fun z => given u z pre) (exec (.craw d a k) s))
          ∧ (stores u pre → u.walksApart 64 (pre ++ [y]) addr p → u.elementFault Needs.rawStore 64 rawKinds (fun _ => false) (addr y.1 y.2) t →
            stopsAt s y t (fun z => handed u z pre) (exec (.cwraw d a k) s)))
    ∧ (let va := s.getS a + i.signExtend 64
       let v := s.afterFences Fence.scalar
       let x := v.afterWrites (.stream .scalar) q.pa 64
       let cell := Cell.ofBytes (Memory.readBytes x.mem q.pa 64)
       let ready := fun n => v.granted s.scalarCtx Needs.load n 64 va q = true ∧ v.heldOver (.stream .scalar) q.pa 64 = false
         ∧ x.modifiedWhole = true
       q.pa % 64 = 0 →
       (ready 4 → q.kind = kindCell32 →
         let r := cell.read false (-149)
         (∃ t, cachesOnly x t ∧ exec (.ldw e a i) s = .next ((t.setS e ((BitVec.ofNat 32 r.1).signExtend 64)).orFlags r.2).advance)
         ∧ ∃ t, cachesOnly x t ∧ exec (.ldwu e a i) s = .next ((t.setS e (BitVec.ofNat 64 (r.1 % 2 ^ 32))).orFlags r.2).advance)
       ∧ (ready 8 → q.kind = kindCell64 → ∃ t, cachesOnly x t ∧ exec (.ldd e a i) s = t.doneFp e (cell.read true q.e0)))

/-! ## Tiles -/

/-- MBEGIN with the codes of a matrix pair enters matrix mode with its formats and returns the state word that held before; with other codes or a bit
above bit 8 it raises Illegal Configuration at (0, 0) and changes nothing else.  MEND leaves matrix mode; MZERO clears a tile.  MRD gives each
position its tile element in row or column order from the base in sA; MWR gives the tile elements of the positions their elements; every other
register and tile element stays. -/
def Obligations.MatrixModeAndMoves : Prop :=
  ∀ (s : State) (d a : SReg) (tl : Tile) (c : Bool) (v : VReg), s.hart.sound → s.hart.engine = [] →
    let x := (s.getS a).toNat
    let p := s.hart.shape
    let wide := vtSewCode p.vtype == 3
    let from_ : Word := match s.hart.matrix with
      | none => 0
      | some (f, g) => BitVec.ofNat 64 (256 + 16 * g.code + f.code)
    let elemOf := fun (row col : Nat) => if c then (col, x + row) else (x + row, col)
    (∀ y ∈ matrixPairs, x % 256 = y.1.code + 16 * y.2.1.code → x < 512 →
      exec (.mbegin d a) s
        = .next ((s.setS d from_).withHart fun h => { h with matrix := some (y.1, y.2.1) }).completed)
    ∧ ((∀ y ∈ matrixPairs, x % 256 ≠ y.1.code + 16 * y.2.1.code) ∨ 512 ≤ x → exec (.mbegin d a) s = s.illegalVector)
    ∧ exec .mend s = .next (s.withHart fun h => { h with matrix := none }).completed
    ∧ ((p.split = true ∧ 4 ≤ tl.val) → exec (.mzero tl) s = s.illegalVector)
    ∧ (¬(p.split = true ∧ 4 ≤ tl.val) → exec (.mzero tl) s = .next (s.setAcc tl 0).completed)
    ∧ (p.usable false [v] = true → moveShape tl x p = true →
      (holdsNext (exec (.mrd tl c v a) s) fun t =>
        vectorDone s t ∧ t.mem = s.mem ∧ t.hart.k = s.hart.k ∧ t.hart.fcsr = s.hart.fcsr
        ∧ elemsBecome s t v p.sew p.allPositions fun row col => tileElem (s.getAcc tl) wide (elemOf row col).1 (elemOf row col).2)
      ∧ (holdsNext (exec (.mwr tl c v a) s) fun t =>
        tileDone s t tl ∧ t.hart.fcsr = s.hart.fcsr ∧ t.hart.mxflags = s.hart.mxflags
        ∧ (∀ y ∈ p.allPositions, tileElem (t.getAcc tl) wide (elemOf y.1 y.2).1 (elemOf y.1 y.2).2 = s.elem v p.sew y.1 y.2)
        ∧ (∀ i j, i < viewSide wide → j < viewSide wide → (∀ y ∈ p.allPositions, elemOf y.1 y.2 ≠ (i, j)) →
            tileElem (t.getAcc tl) wide i j = tileElem (s.getAcc tl) wide i j)
        ∧ (∀ i, viewSide wide ≤ i → i < 64 → tileRow (t.getAcc tl) i = tileRow (s.getAcc tl) i)))

/-- In matrix mode with a pair of formats that is not an MX one, MPROD adds to each element of an active tile row the exact sum of its d products,
rounded once, or modulo 2^32 for INT8, and MPRODN subtracts it; MPRODS does the first for an MX pair, with an element of a block whose scale is NaN
or that holds a code that is not finite contributing zero, and sets MXINV where such a block is an operand.  Rows whose mask bit is 0, the other tiles
and every other register stay; the flags of the steps are ORed.  That such a zero is +0 (log 67) and that a NaN sum is canonical (log 40) are the
model's choices. -/
def Obligations.OuterProductResults : Prop :=
  ∀ (s : State) (tl : Tile) (d a b : VReg) (k : MReg) (y : Fmt × Fmt × MatPair), s.hart.sound → s.hart.engine = [] → y ∈ matrixPairs →
    s.hart.matrix = some (y.1, y.2.1) → s.hart.shape.usable false [] = true → tileValid s.hart.shape tl = true →
    let m := y.2.2
    let n := m.side * m.depth
    let xs := operandCodes y.1 n (s.getV a)
    let ys := operandCodes y.2.1 n (s.getV b)
    let blk := vtBlk s.hart.shape.vtype
    let sa := fun i => elemAt (s.getV d) 8 i
    let sb := fun i => elemAt (s.getV d) 8 (n / blk + i)
    let old := fun i j => tileElem (s.getAcc tl) m.wide i j
    let terms := fun (neg : Bool) (i j : Nat) => (upTo m.depth).map fun q =>
      matTerm neg (operandAt y.1 m.mx blk xs sa (i * m.depth + q)) (operandAt y.2.1 m.mx blk ys sb (j * m.depth + q))
    let sum := fun (i j : Nat) => ((upTo m.depth).map fun q =>
      signedOf 8 (xs.getD (i * m.depth + q) 0) * signedOf 8 (ys.getD (j * m.depth + q) 0)).foldl (fun u v => u + v) 0
    let step := fun (neg : Bool) (i j : Nat) =>
      if s.maskAt k 0 i = false then (old i j, 0)
      else if m.int then (((signedOf 32 (old i j) + if neg then -sum i j else sum i j) % 2 ^ 32).toNat, 0)
      else stepFp m.wide (old i j) (terms neg i j)
    let flags := fun (neg : Bool) (t : State) => ∀ e : Nat, t.hart.fcsr.getLsbD e =
      (s.hart.fcsr.getLsbD e || decide (3 ≤ e ∧ e < 8 ∧ ∃ i < m.side, ∃ j < m.side, (step neg i j).2.getLsbD (e - 3) = true))
    let becomes := fun (i : Instr) (neg : Bool) (mx : BitVec 2) => holdsNext (exec i s) fun t =>
      tileDone s t tl ∧ tileBecomes s t tl m.wide (fun i j => (step neg i j).1) ∧ flags neg t ∧ t.hart.mxflags = s.hart.mxflags ||| mx
    let active := fun i => i < m.side ∧ s.maskAt k 0 i = true
    let badA := ∃ i q, active i ∧ q < m.depth ∧ blockValid y.1 blk xs (sa ((i * m.depth + q) / blk)) ((i * m.depth + q) / blk) = false
    let badB := (∃ i, active i) ∧ ∃ j < n / blk, blockValid y.2.1 blk ys (sb j) j = false
    (m.mx = false → becomes (.mprod tl a b k) false 0 ∧ becomes (.mprodn tl a b k) true 0)
    ∧ (m.mx = true → (badA ∨ badB → becomes (.mprods tl d a b k) false 2) ∧ (¬(badA ∨ badB) → becomes (.mprods tl d a b k) false 0))
    ∧ (m.mx = true → exec (.mprod tl a b k) s = s.illegalVector ∧ exec (.mprodn tl a b k) s = s.illegalVector)
    ∧ (m.mx = false → exec (.mprods tl d a b k) s = s.illegalVector)


/-! ## Engines -/

/-- Each engine instruction adds its command with its operands behind the hart's others, not accepted, and moves on with VSTART 0; MLD and MST
need a usable shape with SEW 32 or 64 and a tile of the lane mode, HDRAIN a declared handle that names a claim, SWB a declared window.  CCWAIT
waits while a command is not accepted or its counter is not below its threshold, and then goes on, or raises Engine Error with the failing
address; CCRD returns the counter's value and clears ERR and ECODE.  That the Engine Error leaves VSTART (log 33) and that HDRAIN raises Bad Handle
with VSTART 0 (log 68) are the model's readings. -/
def Obligations.EngineIssueResults : Prop :=
  ∀ (s : State) (c : CReg) (tl : Tile) (col : Bool) (a b : SReg) (h : Handle) (w : WinId) (n : Fin 32), s.hart.sound →
    let x := s.getS a
    let y := s.getS b
    let p := s.hart.shape
    let cc := s.getCC c
    let wide := vtSewCode p.vtype == 3
    let idle := s.hart.engine.all (fun e => e.accepted) = true
    exec (.mtgemm c a) s = s.issued .mtgemm c x
    ∧ exec (.xcopy c a) s = s.issued .xcopy c x
    ∧ exec (.xfill c a) s = s.issued .xfill c x
    ∧ exec (.czero c a b) s = s.issued (.czero y) c x
    ∧ (p.usable false [] = true → ¬(p.split = true ∧ 4 ≤ tl.val) → 2 ≤ vtSewCode p.vtype →
        exec (.mld c tl col a b) s = s.issued (.mld tl.val col wide y) c x
        ∧ exec (.mst c tl col a b) s = s.issued (.mst tl.val col wide y) c x)
    ∧ ((p.usable false [] = false ∨ (p.split = true ∧ 4 ≤ tl.val) ∨ vtSewCode p.vtype < 2) →
        exec (.mld c tl col a b) s = s.illegalVector ∧ exec (.mst c tl col a b) s = s.illegalVector)
    ∧ (s.hart.declared.hash ≤ h.val → exec (.hdrain c a h) s = s.illegalVector)
    ∧ (h.val < s.hart.declared.hash → (s.getClaim h).claimed = false →
        exec (.hdrain c a h) s = (s.setStart 0).trapped (Trap.of .badHandle (s.hart.ir.zeroExtend 64)))
    ∧ (h.val < s.hart.declared.hash → (s.getClaim h).claimed = true → exec (.hdrain c a h) s = s.issued (.hdrain h) c x)
    ∧ (w.val < s.hart.declared.windows → exec (.swb c w) s = s.issued (.swb w) c 0)
    ∧ (s.hart.declared.windows ≤ w.val → exec (.swb c w) s = s.illegalVector)
    ∧ (¬ idle ∨ n.val ≤ cc.count.toNat → exec (.ccwait c n) s = .next (s.waitFor .ccwait))
    ∧ (idle → cc.count.toNat < n.val → cc.err = true → exec (.ccwait c n) s = s.trapped (Trap.of .engineError cc.fail))
    ∧ (idle → cc.count.toNat < n.val → cc.err = false → exec (.ccwait c n) s = .next s.completed)
    ∧ (idle → exec (.ccrd c a) s
        = .next ((s.setCC c { cc with err := false, ecode := 0 }).setS a
            (BitVec.ofNat 64 (cc.count.toNat + 4096 * cc.ecode.toNat + 32768 * bit cc.err))).completed)

/-- A lone command that waits for acceptance, with its counter below 255 and room for its entries, is accepted: the core sees the vector writes
made before, the lines of its operands are reserved, and its counter counts up; what makes it malformed, a count above 2^24, an address or stride
that is not aligned, or a descriptor that keeps no rule, is noted as its failure, which the counter shows only when the command completes (the
model's choice, log 71).  MTGEMM with ZERO clears its tiles then.  A lone accepted command whose accesses are granted completes: CZERO clears its
cells, MLD loads its tile and MST stores it in row or column order, XFILL stores its pattern, XCOPY copies, HDRAIN stores the count and the entries
of its table in order, SWB hands the modified lines to their homes, and MTGEMM gives the active elements of its tiles their steps over its
operands; each changes no other byte and no other tile, and counts down.  The premise of the completions and of the descriptors is that no write is
outstanding. -/
def Obligations.EngineEventResults : Prop :=
  ∀ (s : State) (c : EngineCmd) (tl : Tile) (col wide : Bool) (n st : Word) (h : Handle) (w : WinId) (p : Word → Place), s.hart.engine = [c] →
    c.finished = false → c.wrote = [] → c.broke = [] →
    let lines := fun (base : Word) (stride : Int) (rows len : Nat) (write : Bool) => rowsRange base stride rows len write
    let room := fun (ranges : List Range) => c.accepted = false ∧ (s.getCC c.cc).count.toNat < 255 ∧ c.ranges = [] ∧ c.read = []
      ∧ s.entryCount + ranges.length ≤ 64
    let fails := fun (e : BitVec 3) => exec .engineAccept s = .next (s.acceptedWith c [] (some (e, c.addr)))
    let takes := fun (ranges : List Range) => exec .engineAccept s = .next (s.acceptedWith c ranges none)
    let table := s.getClaim h
    let word := fun (va : Word) => Memory.read s.mem (p va).pa 8
    let at_ := fun (i : Nat) => c.addr + BitVec.ofNat 64 (8 * i)
    let d := (upTo 8).flatMap fun i => leBytes 8 (word (at_ i))
    let quiet := s.writes = [] ∧ s.hart.reads = [] ∧ c.pages = []
    let grant := fun (need : Needs) (va : Word) => (p va).kind = 0 ∧ s.granted s.hart.ctxE need 8 8 va (p va) = true
    let descRead := quiet ∧ s.hart.sound ∧ c.addr.toNat % 64 = 0 ∧ ∀ i < 8, grant Needs.load (at_ i)
    let reads := fun (desc : List Byte) (ranges : List Range) (failure : Option (BitVec 3 × Word)) (zero : List Nat) =>
      holdsNext (exec .engineAccept s) fun t =>
        (∃ pages, t.hart = { (s.acceptedAs { c with desc := desc, ranges := descRange c ++ ranges, failure := failure, pages := pages }).hart with
            acc := t.hart.acc, priv := { s.hart.priv with adirty := t.hart.priv.adirty } })
        ∧ t.mem = s.mem ∧ t.others = s.others ∧ t.writes = s.writes
        ∧ ∀ q : Tile, t.getAcc q = if q.val ∈ zero then 0 else s.getAcc q
    let bad := fun (desc : List Byte) => reads desc [] (some (1, c.addr)) []
    let cell := fun (i : Nat) => c.addr + BitVec.ofNat 64 (64 * i)
    let unit := fun (row byte : Nat) => c.addr + BitVec.ofNat 64 row * st + BitVec.ofNat 64 (byte / 8 * 8)
    let eb := viewBits wide / 8
    let ready := c.accepted = true ∧ c.failure = none ∧ quiet ∧ s.hart.sound
    let loads := fun (vas : List Word) => ∀ va ∈ vas, grant Needs.load va
    let stores := fun (vas : List Word) => (∀ va ∈ vas, grant Needs.store va) ∧ vas.Pairwise fun x y => apart (p x).pa 8 (p y).pa 8
    let done := fun (P : State → Prop) => holdsNext (exec (.engineComplete 0) s) fun t => commandDone s t c ∧ P t
    let kept := fun (t : State) => t.hart.fcsr = s.hart.fcsr ∧ t.hart.mxflags = s.hart.mxflags ∧ t.hart.queue = s.hart.queue
    let writes := fun (xs : List (Word × Nat)) => stores (xs.map Prod.fst) → done fun t =>
      kept t ∧ t.hart.acc = s.hart.acc ∧ (∀ x ∈ xs, Memory.read t.mem (p x.1).pa 8 = x.2 % 2 ^ 64)
      ∧ ∀ z, (∀ x ∈ xs, z < (p x.1).pa ∨ (p x.1).pa + 8 ≤ z) → Memory.get t.mem z = Memory.get s.mem z
    let g := Gemm.ofBytes c.desc
    (c.op = .czero n →
      (2 ^ 24 < n.toNat → room [] → fails 1) ∧ (n.toNat ≤ 2 ^ 24 → c.addr.toNat % 64 ≠ 0 → room [] → fails 2)
      ∧ (n.toNat ≤ 2 ^ 24 → c.addr.toNat % 64 = 0 →
          room (lines c.addr 0 1 (64 * n.toNat) true) → takes (lines c.addr 0 1 (64 * n.toNat) true)))
    ∧ (c.op = .mld tl.val col wide st ∨ c.op = .mst tl.val col wide st →
      let r := lines c.addr st.toInt (viewSide wide) 256 (decide (c.op = .mst tl.val col wide st))
      (c.addr.toNat % 8 ≠ 0 ∨ st.toNat % 8 ≠ 0 → room [] → fails 2) ∧ (c.addr.toNat % 8 = 0 → st.toNat % 8 = 0 → room r → takes r))
    ∧ (c.op = .hdrain h →
      let r := lines c.addr 0 1 (8 + (table.liveCount + table.unread.length) * (if table.slots = 14 then 8 else 16)) true
        ++ lines table.spillBase 0 1 (32 * table.used) false
      (c.addr.toNat % 8 ≠ 0 → room [] → fails 2) ∧ (c.addr.toNat % 8 = 0 → room r → takes r))
    ∧ (c.op = .swb w → room [] →
      let u := (s.raise (fun w => s.mine w && w.stream == .vector) .core).afterWindow w
      holdsNext (exec .engineAccept s) fun t => ∃ ls, t = u.acceptedAs { c with read := ls, desc := [], ranges := [], failure := none }
        ∧ ∀ v l, (v, l) ∈ ls ↔ (.window s.hart.ident.hartid.toNat w.val v, l) ∈ u.windowLines s.hart w
            ∧ u.owner l = some (.window s.hart.ident.hartid.toNat w.val v))
    ∧ (c.op = .xcopy ∨ c.op = .xfill ∨ c.op = .mtgemm → c.addr.toNat % 64 ≠ 0 → room [] → fails 1)
    ∧ (c.op = .xcopy → descRead →
      let x := copySource d
      let y := copyDest d
      let good := x.aligned = true ∧ y.aligned = true ∧ allZero (d.drop 0x28) = true
        ∧ ∀ a ∈ x.ranges false, ∀ b ∈ y.ranges true, a.overlaps b.base b.len = false
      (good → room (descRange c ++ x.ranges false ++ y.ranges true) → reads d (x.ranges false ++ y.ranges true) none [])
      ∧ (¬good → room (descRange c) → bad d))
    ∧ (c.op = .xfill → descRead →
      let y := fillDest d
      let good := y.aligned = true ∧ allZero (d.drop 0x20) = true
      (good → room (descRange c ++ y.ranges true) → reads d (y.ranges true) none []) ∧ (¬good → room (descRange c) → bad d))
    ∧ (c.op = .mtgemm → descRead →
      let x := Gemm.ofBytes d
      (x.ok s.hart.shape.split = false → room (descRange c) → bad d)
      ∧ (x.ok s.hart.shape.split = true → x.hasOutl = false → room (descRange c ++ x.ranges) →
          reads (d ++ leBytes 8 0) x.ranges none (if x.zero then gemmTiles x.ctl else [])))
    ∧ (ready → c.op = .czero n → n.toNat ≤ 2 ^ 24 →
      (∀ i < n.toNat, 2 ≤ (p (cell i)).kind ∧ s.granted s.hart.ctxE Needs.store 64 64 (cell i) (p (cell i)) = true) →
      done fun t => kept t ∧ t.hart.acc = s.hart.acc
        ∧ (∀ i < n.toNat, ∀ x, (p (cell i)).pa ≤ x → x < (p (cell i)).pa + 64 → Memory.get t.mem x = 0)
        ∧ (∀ x, (∀ i < n.toNat, x < (p (cell i)).pa ∨ (p (cell i)).pa + 64 ≤ x) → Memory.get t.mem x = Memory.get s.mem x))
    ∧ (ready → c.read = [] → c.op = .mld tl.val col wide st →
      loads ((upTo (viewSide wide)).flatMap fun i => (upTo 32).map fun j => unit i (8 * j)) →
      done fun t => kept t ∧ t.mem = s.mem ∧ (∀ q, q ≠ tl → t.getAcc q = s.getAcc q)
        ∧ tileBecomes s t tl wide fun i j =>
            let row := if col then j else i
            let byte := eb * if col then i else j
            Memory.read s.mem ((p (unit row byte)).pa + byte % 8) eb)
    ∧ (ready → c.op = .mst tl.val col wide st →
      writes ((upTo (viewSide wide)).flatMap fun i => (upTo 32).map fun j => (unit i (8 * j), leNat ((upTo 8).map fun b =>
        let e := (8 * j + b) / eb
        BitVec.ofNat 8 (bitsAt (tileElem (s.getAcc tl) wide (if col then e else i) (if col then i else e)) (8 * (b % eb)) 8)))))
    ∧ (ready → c.op = .xfill →
      let y := fillDest c.desc
      (∀ va ∈ y.units, grant Needs.store va) → done fun t => kept t ∧ t.hart.acc = s.hart.acc
        ∧ (∀ z, (∃ va ∈ y.units, (p va).pa ≤ z ∧ z < (p va).pa + 8) ∨ Memory.get t.mem z = Memory.get s.mem z)
        ∧ (y.units.Pairwise (fun a b => (p a).pa = (p b).pa ∨ apart (p a).pa 8 (p b).pa 8) →
            ∀ va ∈ y.units, Memory.read t.mem (p va).pa 8 = leAt c.desc 0x10 8))
    ∧ (ready → c.read = [] → c.op = .xcopy → loads (copySource c.desc).units →
      writes (((copySource c.desc).units.zip (copyDest c.desc).units).map fun x => (x.2, word x.1)))
    ∧ (ready → c.read = [] → c.op = .hdrain h → table.used = 0 → ∃ xs : List (Nat × Nat),
      xs.Perm (table.resident.map fun x => x.2.2)
      ∧ (xs.Pairwise fun x y => table.home x.1 < table.home y.1 ∨ (table.home x.1 = table.home y.1 ∧ x.1 ≤ y.1))
      ∧ writes ((xs.length :: xs.flatMap fun x =>
          if table.slots = 14 then [x.1 % 2 ^ 32 + 2 ^ 32 * (x.2 % 2 ^ 32)] else [x.1, x.2]).zipIdx.map fun x => (at_ x.2, x.1)))
    ∧ (ready → c.op = .swb w → s.intact → (∀ l ∈ c.read, s.reaches s.hart.ctxU false (l.2 * 128) = true) →
      done fun t => kept t ∧ t.hart.acc = s.hart.acc ∧ t.mem = s.mem ∧ t.copies = s.copies
        ∧ ∀ l ∈ c.read, t.owner l.2 ≠ some (.window s.hart.ident.hartid.toNat w.val l.1))
    ∧ ∀ f e m, ready → c.op = .mtgemm → g.pair = some (f, e, m) → g.ok s.hart.shape.split = true → c.desc ≠ [] → loads (gemmUnits c) →
      (∀ x ∈ c.read, x.2 = word (BitVec.ofNat 64 x.1)) →
      let rows := rowsFor g f e m (fun _ a => word (BitVec.ofNat 64 a)) (leAt c.desc 64 8)
      let elem := fun (i j old : Nat) => gemmElem g f e m (rows i j) old
      let tile := fun (i : Nat) => (Fin.ofNat 8 (g.tile0 + i) : Tile)
      let active := fun (i r k : Nat) => i / g.nN * m.side + r < g.m ∧ i % g.nN * m.side + k < g.n
      let old := fun (i r k : Nat) => tileElem (s.getAcc (tile i)) m.wide r k
      done fun t => t.mem = s.mem ∧ t.hart.queue.map QueueEntry.word = s.hart.queue.map QueueEntry.word
        ∧ (∀ i < g.nM * g.nN, tileBecomes s t (tile i) m.wide fun r k =>
            if active i r k then (elem (i / g.nN * m.side + r) (i % g.nN * m.side + k) (old i r k)).1 else old i r k)
        ∧ (∀ q : Tile, (∀ i < g.nM * g.nN, q ≠ tile i) → t.getAcc q = s.getAcc q)
        ∧ ∀ b : Nat, t.hart.fcsr.getLsbD b = (s.hart.fcsr.getLsbD b || decide (3 ≤ b ∧ b < 8 ∧ ∃ i < g.nM * g.nN, ∃ r < m.side, ∃ k < m.side,
            active i r k ∧ (elem (i / g.nN * m.side + r) (i % g.nN * m.side + k) (old i r k)).2.getLsbD (b - 3) = true))

/-! ## Windows and hash tables -/

/-- SMAP of a good range in a free window of the hart that meets no other and fits the pool maps it and writes 0; elsewhere it writes a status that
applies, 1 for the pool, 2 for a mapped window, 3 for an overlap, 4 for a range that is not good, and maps nothing.  SUNMAP of a mapped window, where
no unit of memory and no window line is in error, performs the writes that it takes, hands each of its modified lines to its home, drops all its
lines and unmaps it; of a free one it does nothing.  An undeclared window raises Illegal Configuration. -/
def Obligations.WindowResults : Prop :=
  ∀ (s : State) (d a b : SReg) (w : WinId), s.hart.sound →
    let base := s.getS a
    let len := s.getS b
    let good := base.toNat % 128 = 0 ∧ len.toNat % 128 = 0 ∧ 0 < len.toNat ∧ len.toNat ≤ 524288 ∧ base.toNat + len.toNat ≤ 2 ^ 64
      ∧ canonical base = true ∧ canonical (base + len - 1) = true
    let pool := 24 < s.poolUse + (len.toNat + 65535) / 65536
    let taken := (s.getWindow w).len ≠ 0
    let meets := s.overlapsWindow base.toNat len.toNat = true
    let u := s.afterWindow w
    let x := s.getWindow w
    (s.hart.declared.windows ≤ w.val → exec (.smap d a b w) s = s.illegalVector ∧ exec (.sunmap w) s = s.illegalVector)
    ∧ (w.val < s.hart.declared.windows →
      (good ∧ ¬ pool ∧ ¬ taken ∧ ¬ meets → exec (.smap d a b w) s
        = .next (((s.setWindow w { base := base, len := len.toNat }).dropLookahead base.toNat len.toNat).setS d 0).completed)
      ∧ (¬(good ∧ ¬ pool ∧ ¬ taken ∧ ¬ meets) → ∃ (n f : Nat),
          ((n = 1 ∧ pool) ∨ (n = 2 ∧ taken) ∨ (n = 3 ∧ meets) ∨ (n = 4 ∧ ¬ good))
          ∧ exec (.smap d a b w) s = .next (({ s with fresh := f } : State).setS d (BitVec.ofNat 64 n)).completed)
      ∧ (x.len = 0 → exec (.sunmap w) s = .next s.completed)
      ∧ (x.len ≠ 0 → s.intact → holdsNext (exec (.sunmap w) s) fun t =>
          t.hart.pc = s.hart.pc + 4 ∧ t.getWindow w = { base := 0, len := 0 } ∧ (∀ q, q ≠ w → t.getWindow q = s.getWindow q)
          ∧ t.hart.s = s.hart.s ∧ t.hart.v = s.hart.v ∧ t.hart.k = s.hart.k ∧ t.mem = u.mem ∧ t.writes = u.writes ∧ t.others = s.others
          ∧ t.windowLines s.hart w = [] ∧ ∀ y ∈ u.windowLines s.hart w, t.owner y.2 ≠ some y.1))

/-- HCLAIM of a granted descriptor writes 2 for a claimed handle, else 3 for a descriptor that R271 does not allow, else 1 for a full pool, else
claims an empty table and writes 0.  HREL frees the handle; HSTAT writes the claim's state, 0 without one.  On a table with no spill HINS
and HACC take their active lanes in sweep order, each on the table that the earlier lanes left, and write ordinals; HPROBE writes the found values, or
0 with the mask bit cleared; HDEL deletes the found entries.  To HINS, HACC, HPROBE and HDEL a handle with no claim raises Bad Handle, with VSTART 0
by the model's choice (log 68). -/
def Obligations.HashResults : Prop :=
  ∀ (s : State) (d a b : SReg) (vd va vb : VReg) (h : Handle) (k : MReg) (f : HAccOp) (p : Nat → Place), s.hart.sound →
    let c := s.getClaim h
    let x := s.getS a
    let q := s.hart.shape
    let u := s.afterFences Fence.vector
    let word := fun i => leNat (u.bytes (.stream .vector) (p i).pa 8)
    let act := s.activeFrom k
    let lane := fun (y : Nat × Nat) => (s.elem va c.keyBits y.1 y.2, s.elem vb c.valBits y.1 y.2)
    let key := fun (y : Nat × Nat) => s.elem va c.keyBits y.1 y.2
    let claimed := fun (n : Nat) (table : Claim) => holdsNext (exec (.hclaim d a h) s) fun t =>
      t.hart = ((s.setClaim h table).setS d (BitVec.ofNat 64 n)).completed.hart ∧ t.mem = u.mem ∧ t.writes = u.writes ∧ t.others = s.others
    let inserts := fun (i : Instr) (acc : Option HAccOp) => holdsNext (exec i s) fun t =>
      let r := c.insertAll acc (act.map lane)
      t.hart.pc = s.hart.pc + 4 ∧ t.hart.shape = { q with vstart := 0 } ∧ t.mem = s.mem ∧ t.hart.s = s.hart.s ∧ t.hart.k = s.hart.k
      ∧ t.hart.claims = s.hart.claims.set h r.1
      ∧ (∀ e : Nat, t.hart.fcsr.getLsbD e = (s.hart.fcsr.getLsbD e || decide (3 ≤ e ∧ e < 8 ∧ ∃ y ∈ r.2, y.2.getLsbD (e - 3) = true)))
      ∧ elemsBecome s t vd 32 act fun row col => (((act.zip r.2).lookup (row, col)).map Prod.fst).getD 0
    let noHandle := (s.setStart 0).trapped (Trap.of .badHandle (s.hart.ir.zeroExtend 64))
    (s.hart.declared.hash ≤ h.val → ∀ i ∈ ([.hclaim d a h, .hrel h, .hstat d h] : List Instr), exec i s = s.illegalVector)
    ∧ (h.val < s.hart.declared.hash → s.quiet → u.nearWrites → x.toNat % 32 = 0 →
      (∀ i < 4, (p i).kind = 0 ∧ u.granted s.vectorCtx Needs.load 8 8 (x + BitVec.ofNat 64 (8 * i)) (p i) = true) →
      (c.claimed = true → claimed 2 c)
      ∧ (c.claimed = false → claimOf (word 0) (word 1) (word 2) (word 3) = none → claimed 3 c)
      ∧ (∀ table, c.claimed = false → claimOf (word 0) (word 1) (word 2) (word 3) = some table →
          (24 < s.poolUse + 2 ^ table.size → claimed 1 c) ∧ (s.poolUse + 2 ^ table.size ≤ 24 → claimed 0 table)))
    ∧ (h.val < s.hart.declared.hash → s.hart.engine = [] → exec (.hrel h) s = .next (s.setClaim h Claim.free).completed)
    ∧ (h.val < s.hart.declared.hash → s.hart.engine = [] → c.unread = [] →
      exec (.hstat d h) s = .next (s.setS d (if c.claimed then
        BitVec.ofNat 64 (2 ^ 63 + bit c.fail * 2 ^ 62 + c.used % 2 ^ 24 * 2 ^ 32 + (c.resident.length + c.spilled) % 2 ^ 32) else 0)).completed)
    ∧ (s.tableReady h →
      (q.usable true [vd, va, vb] = true → insertShape vd va vb q c = true → inserts (.hins vd va vb h k) none)
      ∧ (q.usable true [vd, va, vb] = true → insertShape vd va vb q c = true → accFits f c = true → inserts (.hacc f vd va vb h k) (some f))
      ∧ (q.usable true [vd, va] = true → widthsFit q [c.keyBits, c.valBits] = true → groupsMeet q.group vd va = false →
        holdsNext (exec (.hprobe vd va h k) s) fun t =>
          t.hart.pc = s.hart.pc + 4 ∧ t.hart.shape = { q with vstart := 0 } ∧ t.mem = s.mem ∧ t.hart.claims = s.hart.claims
          ∧ elemsBecome s t vd c.valBits act (fun row col => ((c.slotOf (key (row, col))).map c.valueAt).getD 0)
          ∧ (if k = 0 then t.hart.k = s.hart.k
             else bitsBecome s t k (act.filter fun y => (c.slotOf (key y)).isNone) fun _ _ => false))
      ∧ (q.usable true [va] = true → widthsFit q [c.keyBits] = true →
        exec (.hdel va h k) s = .next (s.setClaim h ((act.map key).foldl (fun u y => match u.slotOf y with
          | some z => u.killAt z
          | none => u) c)).completed))
    ∧ (h.val < s.hart.declared.hash → c.claimed = false →
      (q.usable true [va] = true → exec (.hdel va h k) s = noHandle)
      ∧ (q.usable true [vd, va] = true → exec (.hprobe vd va h k) s = noHandle)
      ∧ (q.usable true [vd, va, vb] = true → exec (.hins vd va vb h k) s = noHandle ∧ exec (.hacc f vd va vb h k) s = noHandle))

/-! ## The control processor -/

/-- A command message of its source's turn is entered in the books and takes its effect: IMAGE.LOAD places the sections and answers the handle,
IMAGE.DROP forgets an unused image, LAUNCH queues a gang, GRAPH.DEFINE, PATCH and REPLAY keep, change and start a graph, SYNC waits, QUERY answers a
gang's state, PARTITION.SET moves dies, DIE.RESET closes a die, evicts its gangs and starts the routine, ATTEST writes a report, POLICY.LOAD keeps
the policy for its completion; a command that is refused has the status of its check and no other effect, but that a malformed GRAPH.DEFINE
discards the open definition of its id.  A message out of turn is answered with 0x0E.  A completion message carries the code, source, SEQ, status
and RESULT of a command that has its status, or of a SYNC once every earlier command of its source has its; with that of a POLICY.LOAD the policy
takes over, unless a gang has come or the fused minimum has risen above it.  Where objects and memory are read or written, the premise is that no
unit of memory and no window line is in error and no outstanding write has come beyond its core.  The model's choices here: what IMAGE.DROP, SYNC
and QUERY need of the policy and that 0x2001 is granted all (log 25), that GRAPH.REPLAY and GRAPH.PATCH know complete graphs alone (log 48), what a
malformed GRAPH.DEFINE discards (log 49), the order in which statuses are checked (logs 51 and 82), and the takeover of a policy with its completion
message (log 52). -/
def Obligations.CommandResults : Prop :=
  ∀ (s : State) (m : Msg),
    let e := s.enterCommand m
    let b := m.body
    let src := m.source.toNat
    let object := Memory.readBytes e.mem (leAt b 0 8) (leAt b 8 8)
    let readable := e.grantedRange src (leAt b 0 8) (leAt b 8 8) = true ∧ e.intact ∧ e.nearWrites
    let graph := BitVec.ofNat 32 (leAt b 0 4)
    let gang := BitVec.ofNat 32 (leAt b 0 4)
    let handle := wordAt b 0
    (s.accepts m →
      (m.opcode = 1 → ∀ whole body xs text ks ss, readable → checkObject object 1 (leAt b 8 8) e.control.policy.keys = .ok (whole, body) →
        parseImage body = some (xs, text, ks, ss) →
        let place := (xs.filter Section.loads).all fun x => e.grantedRange src x.loadPa x.mem
        let i : Image := { handle := e.control.nextImage, digest := Config.sha384 whole, textVa := BitVec.ofNat 64 text.vaddr
                           textLen := text.mem, kernels := ks, stops := ss }
        let books := e.withControl fun c => { c with images := c.images ++ [i], nextImage := c.nextImage + 1 }
        (place = true → holdsNext (exec (.imageLoad m) s) fun t =>
          t.mem = (xs.filter Section.loads).foldl (fun mem x => Memory.writeBytes mem x.loadPa (sliceBytes (x.bytes body) 0 x.mem)) e.mem
          ∧ t.control = (books.finishCommand m.source m.seq 0 (leBytes 8 i.handle.toNat)).control
          ∧ t.harts = s.harts ∧ t.dies = s.dies ∧ t.outbox = s.outbox)
        ∧ (place = false → ∃ u, cachesOnly e u ∧ exec (.imageLoad m) s = u.answered m 0x0D []))
      ∧ (m.opcode = 2 → exec (.imageDrop m) s =
          if (e.findImage handle).isNone then e.answered m 0x02 []
          else if e.control.policy.grantsSome src = false then e.answered m 0x0D []
          else if e.control.gangs.any (fun g => g.launch.image == handle) || e.control.graphs.any (fun g => g.nodes.any fun n => n.launch.image == handle)
            then e.answered m 0x06 []
          else (e.withControl fun c => { c with images := c.images.filter fun i => i.handle ≠ handle }).answered m 0 [])
      ∧ (m.opcode = 3 → ∀ l, Launch.parse b = some l →
          (∀ i k, e.launchStatus src l = 0 → e.kernelOf l = some (i, k) →
            exec (.launch m) s = .next (e.queueGang l i k (.command m.source m.seq)))
          ∧ (e.launchStatus src l ≠ 0 → exec (.launch m) s = e.answered m (e.launchStatus src l) []))
      ∧ (m.opcode = 4 → ∀ g, e.defineGraph m = .ok g →
          exec (.graphDefine m) s = (e.withControl fun c => { c with graphs := setGraph g c.graphs }).answered m 0 (leBytes 4 g.nodes.length))
      ∧ (m.opcode = 5 → leAt b 4 4 = 0 →
          (e.definedGraph graph = none → exec (.graphReplay m) s = e.answered m 0x0C [])
          ∧ (∀ g, e.definedGraph graph = some g →
              ((∃ n ∈ g.nodes, e.control.policy.grantsPart src n.launch.part = false) → exec (.graphReplay m) s = e.answered m 0x0D [])
              ∧ ((∀ n ∈ g.nodes, e.control.policy.grantsPart src n.launch.part = true) →
                exec (.graphReplay m) s = .next (e.withControl fun c =>
                  { c with nextReplay := c.nextReplay + 1
                           replays := c.replays ++ [{ id := c.nextReplay, graph := g.id, source := m.source, seq := m.seq, nodes := g.nodes
                                                      states := g.nodes.map fun _ => .waiting, failed := none }] }))))
      ∧ (m.opcode = 6 → ∀ g n, e.definedGraph graph = some g → g.nodes[leAt b 4 4]? = some n →
          let off := leAt b 8 2
          let len := leAt b 10 2
          1 ≤ len → off + len ≤ 256 → leAt b 12 4 = 0 → b.length = 16 + (len + 7) / 8 * 8 → allZero (b.drop (16 + len)) = true →
          (e.control.policy.grantsPart src n.launch.part = false → exec (.graphPatch m) s = e.answered m 0x0D [])
          ∧ (e.control.policy.grantsPart src n.launch.part = true → exec (.graphPatch m) s = (e.withControl fun c =>
            { c with graphs := setGraph { g with nodes := setAt g.nodes (leAt b 4 4) { n with params := patchParams n.params ((b.drop 16).take len) off } }
                                 c.graphs }).answered m 0 []))
      ∧ (m.opcode = 7 → (e.control.policy.grantsSome src = true → exec (.sync m) s = .next e)
          ∧ (e.control.policy.grantsSome src = false → exec (.sync m) s = e.answered m 0x0D []))
      ∧ (m.opcode = 8 → leAt b 4 4 = 0 →
          (e.findGang gang = none → exec (.query m) s = e.answered m 0 [3, 0, 0, 0])
          ∧ (∀ g, e.findGang gang = some g →
              (e.control.policy.grantsPart src g.launch.part = true →
                exec (.query m) s = e.answered m 0 (leBytes 4 g.state.code ++ leBytes 4 g.prio ++ leBytes 4 g.passes))
              ∧ (e.control.policy.grantsPart src g.launch.part = false → exec (.query m) s = e.answered m 0x0D [])))
      ∧ (m.opcode = 9 → ∀ map : Fin 4 → Fin 4, b.take 4 = [map 0, map 1, map 2, map 3].map (fun p => BitVec.ofNat 8 p.val) → leAt b 4 4 = 0 →
          let moved := fun p => ∃ d : Fin 4, (dieAt s d.val).part ≠ map d ∧ (p = (dieAt s d.val).part.val ∨ p = (map d).val)
          (e.control.policy.grantsCommand src 9 = false → exec (.partitionSet m) s = e.answered m 0x0D [])
          ∧ (e.control.policy.grantsCommand src 9 = true → (∃ g ∈ e.control.gangs, moved g.launch.part) →
              exec (.partitionSet m) s = e.answered m 0x06 [])
          ∧ (e.control.policy.grantsCommand src 9 = true → (∀ g ∈ e.control.gangs, ¬ moved g.launch.part) →
              holdsNext (exec (.partitionSet m) s) fun t =>
                (∀ d : Fin 4, t.dies[d] = { s.dies[d] with part := map d }) ∧ t.mem = s.mem ∧ t.harts = s.harts
                ∧ (∀ r, r ∈ t.control.roots ↔ r ∈ s.control.roots ∧ ¬ moved r.part)))
      ∧ (m.opcode = 0xA → ∀ d : Fin 4, b = BitVec.ofNat 8 d.val :: List.replicate 7 0 →
          let x := s.dies[d]
          (e.control.policy.grantsCommand src 0xA = false → exec (.dieReset m) s = e.answered m 0x0D [])
          ∧ (e.control.policy.grantsCommand src 0xA = true → x.resetting.isSome = true → exec (.dieReset m) s = e.answered m 0x06 [])
          ∧ (e.control.policy.grantsCommand src 0xA = true → x.resetting = none →
              holdsNext (exec (.dieReset m) s) fun t =>
                t.dies = s.dies.set d { x with resetting := some (m.source, m.seq)
                                               routine := some { pc := 0, s11 := 0, s12 := 0, s13 := 0, s14 := 0 } } ∧ t.mem = s.mem
                ∧ (∀ g ∈ e.gangsOn d.val, (∀ h ∈ t.harts, h.ident.gangid = g → h.resident = false)
                    ∧ ∀ y ∈ t.control.gangs, y.id = g → y.ending.isSome = true)
                ∧ t.control.roots = s.control.roots.filter fun r => r.part != x.part.val))
      ∧ (m.opcode = 0xB →
          let nonce := Memory.readBytes e.mem (leAt b 0 8) 48
          let r := e.report nonce
          e.grantedRange src (leAt b 0 8) 48 = true → e.grantedRange src (leAt b 8 8) r.length = true → e.intact → e.nearWrites →
          holdsNext (exec (.attest m) s) fun t =>
            t.mem = Memory.writeBytes e.mem (leAt b 8 8) r ∧ t.control = (e.finishCommand m.source m.seq 0 (leBytes 8 r.length)).control
            ∧ t.harts = s.harts ∧ t.dies = s.dies)
      ∧ (m.opcode = 0xC → e.control.policy.grantsCommand src 0xC = true → ∀ whole body p, readable →
          checkObject object 2 (leAt b 8 8) ownerKeys = .ok (whole, body) → Policy.parse body (Config.sha384 whole) = some p →
          ∃ u, cachesOnly e u
            ∧ (p.version.toNat < e.supply.minimum.toNat → exec (.policyLoad m) s = u.answered m 0x0D [])
            ∧ (e.supply.minimum.toNat ≤ p.version.toNat → e.control.gangs ≠ [] → exec (.policyLoad m) s = u.answered m 0x06 [])
            ∧ (e.supply.minimum.toNat ≤ p.version.toNat → e.control.gangs = [] →
                exec (.policyLoad m) s = (u.withControl fun c => { c with commands := c.commands.map fun x =>
                  if x.source = m.source && x.seq = m.seq then { x with policy := some (p, leAt body 5 1 == 1) } else x }).answered m 0 [])))
    ∧ (s.supply.up = true → isCommander src = true → s.linked src = true → s.mustHold m.source = false →
        (m.seq ≠ expectedSeq m.source s.control.expected → m.opcode = 8 → exec (.query m) s = .next (s.complete m.opcode m.source m.seq 0x0E []))
        ∧ (m.seq = expectedSeq m.source s.control.expected → s.supply.failed = none → messageOk m = false → m.opcode = 4 →
          e.definedGraph graph = none →
          exec (.graphDefine m) s = (e.withControl fun c => { c with graphs := c.graphs.filter fun g => g.id ≠ graph }).answered m 0x01 []))
    ∧ (∀ n c st r, s.control.commands[n]? = some c → s.control.held = [] →
        (c.done = some (st, r) ∨ (c.done = none ∧ c.opcode = 7 ∧ st = 0 ∧ r = []
          ∧ ∀ i < n, ∀ y, s.control.commands[i]? = some y → y.source = c.source → (y.done.isSome = true ∧ y.policy = none) ∨ y.opcode = 7)) →
        let sends := fun (status : Nat) (supply : Supply) (policy : Policy) =>
          exec (.completionMessage n) s = .next { s with
            outbox := s.outbox ++ [.message { opcode := BitVec.ofNat 16 (0x8000 + c.opcode.toNat), source := 0x2000, length := 64
                                              seq := s.control.seq, zero := 0
                                              body := leBytes 2 c.source.toNat ++ [0, 0] ++ leBytes 4 status ++ leBytes 8 c.seq.toNat
                                                ++ sliceBytes r 0 48 }]
            supply := supply
            control := { s.control with seq := s.control.seq + 1, commands := s.control.commands.eraseIdx n, policy := policy } }
        (c.policy = none → sends st s.supply s.control.policy)
        ∧ (∀ (p : Policy) (on : Bool), c.policy = some (p, on) →
            (p.version < s.supply.minimum → sends 0x0D s.supply s.control.policy)
            ∧ (¬ p.version < s.supply.minimum → s.control.gangs ≠ [] → sends 0x06 s.supply s.control.policy)
            ∧ (¬ p.version < s.supply.minimum → s.control.gangs = [] →
                sends st (if on = true ∧ s.supply.minimum < p.version then { s.supply with minimum := p.version } else s.supply) p)))

/-- While a DIE.RESET of a die runs, the write of a die-control command in a state that lists it starts the command's action, and in another
state, or while an action runs, is ignored.  The end of an action moves the die to the action's state and records it: FENCE clears UE and
STRAY, QUIESCE stops the harts of the die and abandons their outstanding writes, FLUSH leaves no modified line that is homed or held there and no
copy of a line homed there, RESET drops what its caches hold, and TRAIN can fail.  The control processor's routine writes DCTL at 0x08 and reads
DSTAT at 0x0C; as it returns, the DIE.RESET completes, with 0x00 where its result is 0 and UE is 0, which opens the die, and with 0x0A elsewhere; a
die that failed stops its partition.  That a die that tripped and is still at 95 degrees stays closed (log 53), that the commands come from the
control processor's routine (log 16), and that FENCE ends after the store buffers' stores to the die (log 83), are the model's readings. -/
def Obligations.DieControlResults : Prop :=
  ∀ (s : State) (x : Fin 4) (f : Bool) (source : BitVec 16) (seq : Word) (r : Routine),
    let d := s.dies[x]
    let starts : List (Instr × BitVec 4 × List DieState) := [(.dctlFence x, 1, [.run, .failed]), (.dctlQuiesce x, 2, [.fenced]),
      (.dctlFlush x, 3, [.quiesced]), (.dctlSelfref x, 4, [.flushed]), (.dctlReset x, 5, [.selfref]), (.dctlTrain x, 6, [.reset]),
      (.dctlAdmit x, 7, [.trained])]
    let ends := fun (u : State) (d' : Die) (code value : Nat) =>
      ({ u with dies := s.dies.set x { d' with busy := false } } : State).dieRecord x.val code value
    let done := exec (.dieActionComplete x false) s
    d.resetting = some (source, seq) →
    (s.supply.up = true → ∀ y ∈ starts,
      (d.busy = false → d.state ∈ y.2.2 → exec y.1 s = .next { s with dies := s.dies.set x { d with cmd := y.2.1, busy := true } })
      ∧ (d.busy = true ∨ d.state ∉ y.2.2 → exec y.1 s = .next s))
    ∧ (d.busy = true →
      (d.cmd = 1 → s.heldFor x.val = false → done = .next (ends s { d with state := .fenced, ue := false, stray := 0, strayLogged := false } 0x201 0))
      ∧ (d.cmd = 2 → done = .next (ends (s.quiesce x) { d with state := .quiesced } 0x202 0)
          ∧ (∀ h ∈ (s.quiesce x).harts, h.ident.die = x.val → h.resident = false)
          ∧ ∀ w ∈ (s.quiesce x).writes, s.coreOn x.val w.core = false)
      ∧ (d.cmd = 3 → s.intact → holdsNext done fun t =>
          t.dies[x].state = .flushed ∧ t.dies[x].busy = false ∧ (∀ z ∈ t.dirty, s.homedOn x.val z.line = false)
          ∧ (∀ z ∈ t.dirty, ∀ k, z.holder = some k → s.cacheOn x.val k = false)
          ∧ (∀ z ∈ t.copies, s.homedOn x.val z.2 = false) ∧ (∀ z ∈ t.lookahead, s.homedOn x.val z.2 = false)
          ∧ (∀ z ∈ t.leadL1, s.homedOn x.val z.2 = false))
      ∧ (d.cmd = 4 → done = .next (ends s { d with state := .selfref } 0x204 0))
      ∧ (d.cmd = 5 → done = .next (ends (s.clearDie x) { d with state := .reset } 0x205 0)
          ∧ (∀ z ∈ (s.clearDie x).tlb, z.die ≠ x.val) ∧ (∀ z ∈ (s.clearDie x).icache, s.coreOn x.val z.core = false)
          ∧ ∀ z ∈ (s.clearDie x).slices, s.homedOn x.val z = false)
      ∧ (d.cmd = 6 → done = .next (ends s { d with state := .trained } 0x206 0)
          ∧ exec (.dieActionComplete x true) s = .next (ends s { d with state := .failed } 0x206 1))
      ∧ (d.cmd = 7 → done = .next (ends s { d with state := .run } 0x207 d.stray.toNat)))
    ∧ (d.routine = some r → s.supply.up = true →
      (r.pc = 0x08 → ∀ y ∈ starts, r.s11 = y.2.1.zeroExtend 64 →
        runRoutine x s = exec y.1 { s with dies := s.dies.set x { d with routine := some { r with pc := 0x0C } } })
      ∧ (r.pc = 0x0C → runRoutine x s = .next { s with dies := s.dies.set x { d with routine := some { r with s12 := d.dstat, pc := 0x10 } } })
      ∧ (r.pc = 0x2C →
        holdsNext (runRoutine x s) fun t =>
          t.dies[x].routine = none ∧ t.dies[x].resetting = none ∧ t.dies[x].state = d.state ∧ t.control.round = true ∧ t.mem = s.mem
          ∧ t.control.commands = finishCommand source seq (if r.s13 = 0 ∧ d.ue = false then 0 else 0x0A) [] s.control.commands
          ∧ (r.s13 = 0 → d.ue = false →
            t.dies[x].closed = (d.closed && d.tripped && decide (760 ≤ d.temp)) ∧ t.dies[x].tripped = (d.tripped && decide (760 ≤ d.temp)))
          ∧ (r.s13 ≠ 0 ∨ d.ue = true →
            ∀ y : Fin 4, t.dies[y].closed = (s.dies[y].closed || (d.state == .failed && s.dies[y].part == d.part)))))

/-- A round with one queued gang, which has no save area, fits on the package and is not of the domain, places it: its harts start on distinct free
cores that its record allows, each at the kernel's entry with the argument block, its index and the size in s3, s4 and s5.  A stopping gang
whose harts have all stopped joins the tail of its level; a gang that ends leaves the books, its harts leave the package and its
launch has its status.  A ready node of a replay has its parameters written and is queued, or ends with 0x0B where its launch fails, which is the
model's reading (log 50).  The oldest service request of a resident hart is answered. -/
def Obligations.SchedulingResults : Prop :=
  ∀ (s : State) (g : Gang) (id : BitVec 32) (r n : Nat) (p : Nat → Place),
    (s.control.round = true → s.supply.up = true → s.control.gangs = [g] → g.state = .queued → g.ending = none → g.launch.part < 4 → g.prio < 8 →
      g.launch.domain = false → g.launch.saveBase = 0 → g.launch.size.toNat ≤ (s.localIds [] g).length →
      holdsNext (exec .dispatchRound s) fun t =>
        ∃ ids hs, ids.length = g.launch.size.toNat ∧ ids.Nodup ∧ (∀ x ∈ ids, x ∈ s.localIds [] g)
          ∧ t.others = s.others ++ hs ∧ hs.length = ids.length ∧ t.hart = s.hart ∧ t.mem = s.mem ∧ t.control.round = false
          ∧ t.control.gangs = [{ g with state := .resident, prio := g.launch.prio, passes := 0, placed := s.control.placements + 1
                                        cores := ids, reserved := [], victims := [], room := [] }]
          ∧ ∀ j x h, ids[j]? = some x → hs[j]? = some h →
              h.ident = { hartid := x, gangid := g.id, gangsize := g.launch.size, hartidx := BitVec.ofNat 16 j }
              ∧ h.pc = g.kernel.entry ∧ h.s[(3 : SReg)] = g.launch.argBlock ∧ h.s[(4 : SReg)] = BitVec.ofNat 64 j
              ∧ h.s[(5 : SReg)] = g.launch.size.setWidth 64 ∧ h.status = .running ∧ h.launched = true ∧ h.priv.level = false
              ∧ h.priv.trap = false ∧ h.priv.tvec = g.launch.tvec ∧ h.priv.ptroot = g.launch.ptroot ∧ h.priv.asid = g.launch.asid
              ∧ h.priv.partid = BitVec.ofNat 2 g.launch.part ∧ h.shape.split = g.launch.half)
    ∧ (s.findGang id = some g → g.state = .stopping → g.ending = none →
      (∀ h ∈ s.gangHarts id, h.status = .stopped ∨ h.status = .exited) → (∃ h ∈ s.gangHarts id, h.status = .stopped) →
      exec (.gangStopComplete id) s = .next (s.withControl fun c =>
        { c.requeue { g with state := .stopped, prio := g.launch.prio, passes := 0 } with round := true }))
    ∧ (∀ st, s.findGang id = some g →
      (g.ending = some st ∨ (g.ending = none ∧ st = 0 ∧ g.cores ≠ [] ∧ g.state ≠ .stopped ∧ (∀ h ∈ s.gangHarts id, h.status = .exited)
        ∧ (s.gangHarts id).length = g.launch.size.toNat ∧ g.farPair s.pkg.val = false)) →
      let u := (s.withControl fun c => { c.unlink id with round := true }).dropHarts id
      exec (.gangEnd id) s = .next (match g.origin with
        | .command source seq => u.finishCommand source seq st (launchResult id st g.halt)
        | .node r n => u.endNode r n st)
      ∧ (∀ h ∈ u.harts, h.ident.gangid = id → h.status = .vacant) ∧ (∀ y ∈ u.control.gangs, y.id ≠ id))
    ∧ (∀ x node i k, s.control.replays.find? (fun y => y.id == r) = some x → s.supply.up = true → s.nodeReady x n = true →
      x.nodes[n]? = some node → s.kernelOf node.launch = some (i, k) →
      (s.launchStatus (s.graphSource x) node.launch ≠ 0 → exec (.graphNodeQueue r n) s = .next (s.endNode r n 0x0B))
      ∧ (s.launchStatus (s.graphSource x) node.launch = 0 →
          (∀ j < node.params.length, (p j).kind = 0
            ∧ s.granted node.launch.ctx Needs.store 1 1 (node.launch.argBlock + BitVec.ofNat 64 j) (p j) = true) →
          (∀ j < node.params.length, ∀ l < j, (p j).pa ≠ (p l).pa) → s.nearWrites →
          holdsNext (exec (.graphNodeQueue r n) s) fun t =>
            t.control.gangs = s.control.gangs ++ [s.newGang node.launch i k (.node r n)] ∧ t.control.round = true
            ∧ t.control.replays = s.control.replays.map (fun y => if y.id = r then { y with states := setAt y.states n .queued } else y)
            ∧ (∀ j b, node.params[j]? = some b → Memory.get t.mem (p j).pa = b)
            ∧ (∀ a, (∀ j < node.params.length, (p j).pa ≠ a) → Memory.get t.mem a = Memory.get s.mem a)))
    ∧ (∀ c cs, s.hart.service.unanswered = c :: cs → s.hart.resident = true → s.hart.resume = none →
      exec .cpServiceReply s = .next (s.withHart fun h =>
        { h with service := { h.service with replies := h.service.replies ++ [s.serviceReply c], unanswered := cs } }))


/-! ## Asynchronous causes, homes and errors -/

/-- A pending Watchdog of a resident hart is taken where PSTAT.TRAP is 0, with its wait as TVAL, and is kept where it is 1.  A pre-emption request is
taken with the save area as TVAL: at once as class P, or in class L at a listed address with its live masks; a class L request falls back to class P
in a wait and after 4,096 instructions at no listed address.  A word that is no instruction raises
Illegal Instruction with the word; a fetch at an address that is misaligned or not canonical raises its cause.  A vector wait ends, and a barrier
wait whose episode is complete; an outstanding write that no earlier one precedes performs; an uncorrectable error marks its unit; an eviction
takes a line that no cache holds and no engine pins out of its slice and writes it where it is modified, and takes no other, nor one of the keep hint
while its slice has others to give; a scrub of a line in order changes nothing.  The model's choices here: the VEC bit of a word that is no
instruction (log 17), the TVAL of a Watchdog in SPIN (log 4), a listed stop at VSTART 0 alone (log 58), errors in registers of a hart with nothing
queued alone (log 18), and the answer to an event that cannot happen (log 2). -/
def Obligations.AsynchronousResults : Prop :=
  ∀ (s : State) (w : BitVec 32) (g : BitVec 32) (x : Fin 4) (n : Nat) (id : Word) (r : SReg) (v : VReg) (k : MReg) (tl : Tile) (hd : Handle),
    let h := s.hart
    let p := h.priv
    let due := h.watchdog = true ∨ (p.wdlimit ≠ 0 ∧ p.wdlimit ≤ p.wdcount)
    let async := fun (u : State) (c : Cause) (tv : Word) => Host.Outcome.next (u.takeTrap { Trap.of c tv with async := true })
    let marks : List (EccUnit × (Ecc → Ecc)) :=
      [(.vector id v, fun e => { e with v := e.v ||| 1#32 <<< v.val }), (.tile id tl, fun e => { e with t := e.t ||| 1#8 <<< tl.val }),
        (.hash id hd, fun e => { e with h := e.h ||| 1#4 <<< hd.val })]
      ++ (if r = 0 then [] else [(.scalar id r, fun e => { e with s := e.s ||| 1#32 <<< r.val })])
      ++ (if k = 0 then [] else [(.mask id k, fun e => { e with k := e.k ||| 1#8 <<< k.val })])
    let hit := fun (y : Hart) => y.resident = true ∧ y.queue = [] ∧ y.lanesCut = none ∧ y.ident.hartid.setWidth 64 = id
    let waitsDone := fun (y : Hart) => y.status = .waiting .barrier ∧ y.launched = true ∧ y.ident.gangid = g
      ∧ (y.gbarWait.getLsbD x.val = true ∨ y.barrier[x].pending = true)
      ∧ ∀ z ∈ s.harts, z.launched = true → z.ident.gangid = g → z.reached x y.barrier[x].arrivals = true
    (h.resident = true → due →
      (p.trap = false → h.queue = [] → h.lanesCut = none → exec .watchdog s = async (s.withHart fun h => { h with watchdog := false }) .watchdog h.status.waitCode)
      ∧ (p.trap = true → h.watchdog = false → exec .watchdog s = .next (s.withHart fun h => { h with watchdog := true })))
    ∧ (∀ area, h.resident = true → p.trap = false → ¬ due → h.queue = [] → h.lanesCut = none → h.preempt.pending = some area →
      let taken := fun (classL : Bool) (live : StopEntry) =>
        Host.Outcome.next (stopChildren ((s.withHart fun h =>
          { h with preempt := { pending := none, runOn := none, fell := false, serves := true, classL := classL, live := live } }).takeTrap
            { Trap.of .preemptionRequest area with async := true }))
      let asP := h.preempt.runOn = none ∨ h.preempt.fell = true ∨ h.status.waits = true
      (asP → exec .preemptionRequest s = taken false StopEntry.allLive)
      ∧ (¬ asP → ∀ e, s.listedStop = some e → exec .preemptionRequest s = taken true e)
      ∧ (¬ asP → s.listedStop = none → exec .preemptionRequest s = .fault .eventNotEnabled))
    ∧ (∀ m, h.preempt.pending.isSome = true → h.preempt.runOn = some m →
      (4096 ≤ m → s.listedAt = none → s.runOut.hart.preempt.fell = true)
      ∧ (m < 4096 ∨ s.listedAt ≠ none → s.runOut.hart.preempt = h.preempt)
      ∧ ∀ k : WaitKind, k.listed = true → (s.waitFor k).hart.preempt.fell = true)
    ∧ exec (.illegalInstruction w) s = s.trapped { Trap.of .illegalInstruction (w.setWidth 64) with noWord := true }
    ∧ (h.pc.toNat % 4 ≠ 0 → exec (.fetchFault h.pc) s = s.trapped { Trap.of .misaligned h.pc with noWord := true })
    ∧ (h.pc.toNat % 4 = 0 → canonical h.pc = false → exec (.fetchFault h.pc) s = s.trapped { Trap.of .notPresent h.pc with noWord := true })
    ∧ (h.status = .waiting .vector ∨ h.status = .waiting .queue →
      exec .vectorInstructionCompletion s = .next (s.withHart fun h => { h with status := .running }))
    ∧ (∀ y, s.coreWrites[n]? = some y → y.early = 0 → y.level ≠ .home →
      (∀ i z, i ≠ n → s.coreWrites[i]? = some z → z ≠ y ∧ (i < n →
        (z.seenBy y.ident (.stream y.stream) = true → y.pa + y.len ≤ z.pa ∨ z.pa + z.len ≤ y.pa)
        ∧ (z.isOf y.ident = true → z.stream = .vector → y.stream = .vector → y.level = .stream → y.strip ≤ z.strip))) →
      let u := ({ s with writes := s.writes.filter (fun z => z.core ≠ h.ident.coreKey) ++ s.coreWrites.eraseIdx n } : State).performWrite y
      exec (.accessPerforms n) s = .next u ∧ u.hart = h
      ∧ ∀ d, y.op = .store d → u.mem = Memory.writeBytes s.mem y.pa d)
    ∧ ((∃ y ∈ s.harts, waitsDone y) →
      holdsNext (exec (.barrierEpisodeComplete g x) s) fun t =>
        t.mem = s.mem ∧ t.harts.length = s.harts.length
        ∧ ∀ (i : Nat) (y z : Hart), s.harts[i]? = some y → t.harts[i]? = some z →
            (waitsDone y → z = { y with status := .running }) ∧ (¬ waitsDone y → z = y))
    ∧ (paPopulated (8 * n) = true → paPkg (8 * n) = s.pkg.val →
      holdsNext (exec (.uncorrectableError (.memory n)) s) fun t => t = { s with poison := t.poison } ∧ ∀ u, u ∈ t.poison ↔ u ∈ s.poison ∨ u = n)
    ∧ (∀ y ∈ marks, (∃ z ∈ s.harts, hit z) →
      holdsNext (exec (.uncorrectableError y.1) s) fun t =>
        t.mem = s.mem ∧ t.harts.length = s.harts.length
        ∧ ∀ (i : Nat) (u z : Hart), s.harts[i]? = some u → t.harts[i]? = some z → (hit u → z = { u with ecc := y.2 u.ecc }) ∧ (¬ hit u → z = u))
    ∧ (let heldBy := fun (y : DirtyLine) => y.line = n ∧ y.holder ≠ none
       let pinned := ∃ y ∈ s.harts, ∃ c ∈ y.engine, n ∈ c.pins
       let copied := (∃ y ∈ s.copies, y.2 = n) ∨ (∃ y ∈ s.lookahead, y.2 = n) ∨ ∃ y ∈ s.leadL1, y.2 = n
       let retained := n ∈ s.retained ∧ ∃ l ∈ s.victims (lineSlice n), l ∉ s.retained
       ((∀ y ∈ s.dirty, ¬ heldBy y) → ¬ pinned → ¬ copied → ¬ retained → s.badLine n = false →
          exec (.l2LineEviction n) s = .next { s with dirty := s.dirty.filter fun y => y.line ≠ n, slices := s.slices.filter fun l => l ≠ n
                                                      retained := s.retained.filter fun l => l ≠ n })
       ∧ (pinned ∨ copied ∨ retained → exec (.l2LineEviction n) s = .fault .eventNotEnabled))
    ∧ (s.badLine n = false → exec (.patrolScrub n .none) s = .next s)

/-! ## The lead -/

/-- The lead's instruction changes no outcome: beside the lead's own context only table entries that its walks read may be cached, and marks and lines
that are there already be used; where the lead has fetched no instruction it waits.  A prefetch that returns with whole data leaves the lead's list and
is held in the stash window that its address lies in, in the lookahead area, or for a scalar load in the lead L1; one in error is held nowhere. -/
def Obligations.LeadResults : Prop :=
  ∀ (s : State),
    let l := s.hart.lead
    (s.hart.leadIssues = true →
      (∀ i, l.fetched = some (some i) → holdsNext (exec .leadInstruction s) fun t =>
        t = { s with hart := { s.hart with lead := t.hart.lead }, tlb := t.tlb, slice := t.slice, leadL1 := t.leadL1 }
        ∧ (∀ e ∈ t.tlb, e ∈ s.tlb ∨ s.walkRead s.hart.ctxU e.at_ = .ok e.pte)
        ∧ (∀ y ∈ t.slice, y ∈ s.slice) ∧ ∀ y ∈ t.leadL1, y ∈ s.leadL1)
      ∧ (l.fetched = some none → exec .leadInstruction s = .next (s.withHart fun h =>
          { h with lead := { l with fetched := none, buffer := l.buffer ++ [.stop l.pc], mode := .waiting } })))
    ∧ (∀ n x, l.prefetch[n]? = some x → s.reaches s.hart.ctxU false (128 * x.line) = true →
      (s.badLine x.line = false → s.owner x.line = none → holdsNext (exec (.leadPrefetchFill n) s) fun t =>
        t = { s with hart := { s.hart with lead := { l with prefetch := l.prefetch.eraseIdx n } }, lookahead := t.lookahead, leadL1 := t.leadL1
                     copies := t.copies, slices := t.slices, retained := t.retained }
        ∧ (x.vector = false → (s.hart.ident.coreKey, x.line) ∈ t.leadL1 ∧ t.lookahead = s.lookahead ∧ t.copies = s.copies)
        ∧ (x.vector = true → t.leadL1 = s.leadL1
            ∧ (s.windowAt x.va = none → (s.hart.ident.coreKey, x.line) ∈ t.lookahead ∧ t.copies = s.copies)
            ∧ ∀ h, s.windowAt x.va = some h → (h, x.line) ∈ t.copies ∧ t.lookahead = s.lookahead))
      ∧ (s.badLine x.line = true → holdsNext (exec (.leadPrefetchFill n) s) fun t =>
          t.lookahead = s.lookahead ∧ t.leadL1 = s.leadL1 ∧ t.copies = s.copies ∧ t.mem = s.mem
          ∧ t.hart = { s.hart with lead := { l with prefetch := l.prefetch.eraseIdx n } }))

/-! ## Power and heat -/

/-- The kettle takes the sustained limit less the mean power, within 0 and 3,000 J, and sets the limit; a cap step moves each core at most one step,
down while the power or the heat of its die asks for it, and gives each resident hart its width; a voltage update sets every rail; a
temperature is kept as the hottest of the die's sensors, with a record for each threshold crossed; a trip stops the die's partition.  Power-up with
nothing in the flash and no failing step boots the default policy with a full kettle and the rails set; where step 4 fails the policy is in force
all the same; power-down leaves what the management controller and the fuses keep.  The policy in force after a failed step 4 (log 54), one step of
the ladder for heat above 105 degrees (log 61) and the values of the rails (log 24) are the model's choices. -/
def Obligations.PowerResults : Prop :=
  ∀ (s : State) (w : Nat) (x : Fin 4) (c : Int) (rom : Word),
    let ps := match s.power.side with
      | some n => min s.control.policy.watts n
      | none => s.control.policy.watts
    let e := min 3000000 (s.power.kettle + ps - w)
    let d := s.dies[x]
    (s.supply.up = true →
      exec (.kettleUpdate w) s
        = .next { s with power := { s.power with kettle := e, limit := if 0 < e then min (12 * ps) 48000 else 10 * ps, watts := w } }
      ∧ (holdsNext (exec (.capStep w) s) fun t =>
          (∀ y : Fin 4, ∀ q < 72,
            let old := s.capStep (s.coreKey y.val q)
            t.capStep (s.coreKey y.val q) = if s.power.limit < 10 * w ∨ 840 < s.dies[y].temp then min 6 (old + 1) else old - 1)
          ∧ t.mem = s.mem ∧ t.harts.length = s.harts.length
          ∧ ∀ (i : Nat) (u z : Hart), s.harts[i]? = some u → t.harts[i]? = some z →
              z = if u.resident then { u with shape := { u.shape with width := capWidth (t.capStep u.ident.coreKey) u.shape.split } } else u)
      ∧ (holdsNext (exec .voltageUpdate s) fun t =>
          t = { s with dies := t.dies }
          ∧ ∀ y : Fin 4, t.dies[y] = { s.dies[y] with rails := [0, 1, 2].map fun r => Config.railVoltage y.val r s.dies[y].temp })
      ∧ (holdsNext (exec (.temperatureCrossing x c) s) fun t =>
          t.dies[x].temp = c ∧ t.mem = s.mem ∧ t.harts = s.harts
          ∧ t.dies[x].sensors.length = 64 ∧ c ∈ t.dies[x].sensors ∧ (∀ z ∈ t.dies[x].sensors, z ≤ c)
          ∧ t.outbox.length = s.outbox.length + (max (heatBand c) d.band - min (heatBand c) d.band))
      ∧ (d.tripped = false → 960 ≤ d.temp → holdsNext (exec (.thermalTrip x) s) fun t =>
          t.dies[x].tripped = true ∧ (∀ y : Fin 4, t.dies[y].closed = (s.dies[y].closed || s.dies[y].part == d.part))
          ∧ (∀ h ∈ t.harts, h.priv.partid.toNat = d.part.val → h.resident = false)
          ∧ (∀ g ∈ t.control.gangs, g.launch.part = d.part.val → g.ending.isSome = true))
      ∧ exec .mainPowerDown s = .next s.offState)
    ∧ (s.supply.up = false → holdsNext (exec (.mainPowerUp { failStep := none, flash := none, romVersion := rom, ports := [] }) s) fun t =>
        t.supply.up = true ∧ t.supply.failed = none ∧ t.supply.rom = rom ∧ t.supply.minimum = s.supply.minimum
        ∧ t.control.policy = Policy.default ∧ t.mem = [] ∧ t.hart = Hart.reset ∧ t.others = [] ∧ t.members = [0]
        ∧ t.power.kettle = 3000000 ∧ ∀ d : Fin 4, t.dies[d].rails = [0, 1, 2].map fun r => Config.railVoltage d.val r s.dies[d].temp)
    ∧ (s.supply.up = false → holdsNext (exec (.mainPowerUp { failStep := some 4, flash := none, romVersion := rom, ports := [] }) s) fun t =>
        t.supply.up = true ∧ t.supply.failed = some 4 ∧ t.control.policy = Policy.default ∧ t.mem = [] ∧ t.hart = Hart.reset)
    ∧ s.offState.mem = [] ∧ s.offState.hart = Hart.reset ∧ s.offState.others = [] ∧ s.offState.supply.up = false
    ∧ s.offState.supply.minimum = s.supply.minimum ∧ s.offState.eventLog = s.eventLog ∧ s.offState.power.side = s.power.side


/-! ## Links, the host and the side band -/

/-- A port that trains is up with 16 or 8 lanes and the far number; one that goes down drops them, the host port with its transfers, and a gang that
loses a barrier flit ends with 0x0F; RETRY counts to 0xFFFF and is cleared by a read.  A host access of bytes in one unit that the source's policy
grants and the bound root translates reads or writes them, one of more units is made unit by unit, and one of a partition not granted draws an
error reply.  Another package's read, write, atomic or cell add acts at the home where the domain tags agree, and elsewhere draws an error reply;
its TLBINV drops the translations that it names.  Side-band requests answer values and the log, refuse a firmware update, and set the limit for
the next update.  That FAR is kept while a port is down (log 59), that a side-band limit counts only from the next update (log 55), and that a port
goes down after the stores in store buffers that it carries (log 84), are the model's readings. -/
def Obligations.LinkResults : Prop :=
  ∀ (s : State) (x : Fin 9) (n : Nat) (far : Fin 8) (g : Gang) (r : HostReq) (root : BitVec 36) (p : Place) (q : PeerReq) (tag : BitVec 8) (d : Fin 4)
      (sensor : Fin 64),
    let port := s.ports[x]
    let c : Ctx := { root := root.toNat * 65536, asid := r.asid, part := r.partition.val, sup := false, die := 4, core := none, view := .home }
    let grants := s.control.policy.grantsPart r.source.toNat r.partition.val
    let units := unitsOf r.va.toNat r.n
    let behind := (s.control.held.filter fun m => m.source == r.source).length
    let transfer := fun (write : Bool) =>
      (s.transfers ++ [{ behind := behind, write := write, req := r, todo := units, got := [], failed := false }])
    let old := Memory.readBytes s.mem q.pa q.n
    let arg := leNat (q.data.take q.n)
    let answers := fun (bs : List Byte) (f : State → State) =>
      ∃ u, cachesOnly s u ∧ exec (.peerRequest q) s = .next ((f u).emit (.peerReply q.pkg false bs))
    (port.up = false → s.supply.up = true → exec (.portUp x n far) s = .next (if n < 8 then s else
      { s with ports := s.ports.set x { port with up := true, lanes := if n < 16 then 8 else 16, far := if x = 0 then 0 else BitVec.ofNat 8 far.val } }))
    ∧ (port.up = true → (s.heldStore fun w => paPkg w.pa != s.pkg.val && s.portFor w.pa == some x) = false →
      (let v : State := { s with ports := s.ports.set x { port with up := false, lanes := 0 } }
       exec (.portDown x []) s = .next { v with transfers := if x = 0 then [] else s.transfers }
       ∧ (x ≠ 0 → s.findGang g.id = some g → g.state = .resident → g.usesPort port = true →
          holdsNext (exec (.portDown x [g.id]) s) fun t =>
            t.ports = v.ports ∧ (∀ h ∈ t.harts, h.ident.gangid = g.id → h.resident = false)
            ∧ t.control.gangs = endGang g.id 0x0F [] s.control.gangs))
      ∧ exec (.linkFlitRetry x) s
          = .next { s with ports := s.ports.set x { port with retry := if port.retry = 0xFFFF then port.retry else port.retry + 1 } })
    ∧ exec (.portstatRead x) s = .next (({ s with ports := s.ports.set x { port with retry := 0 } } : State).emit (.portValue x
        (BitVec.ofNat 64 (port.far.toNat * 2 ^ 32 + port.retry.toNat * 2 ^ 16 + port.lanes.toNat * 2 ^ 8 + bit port.up))))
    ∧ (s.supply.up = true → s.ports[(0 : Fin 9)].up = true → r.source.toNat < 256 →
      (grants = false ∨ s.boundRoot r.partition.val r.asid = none →
        exec (.hostRead r) s = .next (s.emit (.hostReply r.source true [])) ∧ exec (.hostWrite r) s = .next (s.emit (.hostReply r.source true [])))
      ∧ (grants = true → s.boundRoot r.partition.val r.asid = some root →
        (1 < units.length → exec (.hostRead r) s = .next { s with transfers := transfer false }
          ∧ exec (.hostWrite r) s = .next { s with transfers := transfer true })
        ∧ (0 < r.n → r.va.toNat % 8 + r.n ≤ 8 → p.kind = 0 → (∀ y ∈ s.transfers, y.req.source ≠ r.source) →
          (s.granted c Needs.load 1 r.n r.va p = true →
            ∃ u, cachesOnly s u ∧ exec (.hostRead r) s = .next (u.emit (.hostReply r.source false (Memory.readBytes s.mem p.pa r.n))))
          ∧ (s.granted c Needs.store 1 r.n r.va p = true →
            ∃ u, cachesOnly s u
              ∧ exec (.hostWrite r) s = .next ((u.perform none none p.pa (r.data.take r.n)).emit (.hostReply r.source false []))))))
    ∧ (s.supply.up = true → s.portTo q.pkg.val = true → s.nearWrites →
      (s.peerOk q = false → s.peerTlbInv q = false →
        exec (.peerRequest q) s = .next ((s.noteReply q.pa).emit (.peerReply q.pkg true [])))
      ∧ (s.peerOk q = true → s.badUnits q.pa q.n = false → s.modifiedWhole = true →
        (q.op = .read → answers old (fun u => u) ∧ holdsNext (exec (.peerRequest q) s) fun t => t.holds (.remote q.pkg.val) (paLine q.pa) = true)
        ∧ (q.op = .write → answers [] fun u => u.perform none none q.pa (q.data.take q.n))
        ∧ (∀ o, q.op = .rmw o → answers (leBytes q.n (leNat old)) fun u => u.perform none none q.pa (leBytes q.n (peerNew o q.n (leNat old) arg)))
        ∧ (∀ f e0, q.op = .cellAdd f e0 → s.badUnits q.pa 64 = false →
          answers [] fun u => u.perform none none q.pa (cellAdded (Memory.readBytes s.mem q.pa 64) f (cellWide f) e0 arg)))
      ∧ (∀ ctl base len, q.op = .tlbInv ctl base len → q.pkg ∈ s.members → q.pkg ≠ s.pkg → s.buffered ctl = false →
        base.toNat + len.toNat ≤ 2 ^ 64 → s.intact →
        let lo := if len = 0 then 0 else base.toNat / 65536 * 65536
        let hi := if len = 0 then 2 ^ 64 else (base.toNat + len.toNat + 65535) / 65536 * 65536
        holdsNext (exec (.peerRequest q) s) fun t => ∀ e, e ∈ t.tlb ↔ e ∈ s.tlb ∧ e.dropped ctl lo hi = false))
    ∧ exec (.sidebandPldmRequest tag .discovery) s = .next (s.emit (.sideband tag [0, 2] true))
    ∧ exec (.sidebandPldmRequest tag (.dieSensor d)) s = .next (s.emit (.sideband tag [s.dies[d].temp] s.supply.up))
    ∧ exec (.sidebandPldmRequest tag (.dieSensorAt d sensor)) s
        = .next (s.emit (.sideband tag [s.dies[d].sensors.getD sensor.val 0] s.supply.up))
    ∧ exec (.sidebandPldmRequest tag .packagePower) s = .next (s.emit (.sideband tag [(s.power.watts : Int)] s.supply.up))
    ∧ exec (.sidebandPldmRequest tag .eventLog) s = .next (s.emit (.sidebandLog tag s.eventLog))
    ∧ exec (.sidebandPldmRequest tag .firmwareUpdate) s = .next (s.emit (.sidebandRefused tag))
    ∧ exec (.sidebandPowerLimit n) s = .next { s with power := { s.power with side := some n } }

/-! ## The encoding -/

/-- Every instruction word decodes to the instruction that its encoding gives, and no other word does: decoding the encoding of an instruction whose
operands the encoding admits gives it back, and a word that decodes is the encoding of what it decodes to, which is well formed. -/
def Obligations.EncodingRoundTrips : Prop :=
  (∀ (i : Instr) (w : BitVec 32), wellFormed i = true → encode i = some w → decodeWord w = .ok i)
    ∧ ∀ (w : BitVec 32) (i : Instr), decodeWord w = .ok i → wellFormed i = true ∧ encode i = some w

/-- Words written out from the encodings of the manual decode to their instructions, and words that the manual reserves to none. -/
def Obligations.DecodedWords : Prop :=
  decodeWord 0x056C680B = .ok (.sltu 11 12 13) ∧ decodeWord 0xA4002803 = .ok (.svc 5) ∧ decodeWord 0xA4000004 = .ok .brk
    ∧ decodeWord 0x87E00002 = .ok (.bne 31 0 2) ∧ decodeWord 0x0BFFFFF2 = .ok (.addi 31 31 (-14))
    ∧ decodeWord 0x356C6B84 = .ok (.fmadd .double .rne 11 12 13 14) ∧ decodeWord 0xA8000000 = .ok .eret
    ∧ decodeWord 0xF56C6A08 = .ok (.smap 11 12 13 2) ∧ decodeWord 0xF0000010 = .ok .mend
    ∧ (∀ i, decodeWord 0x00000000 ≠ .ok i) ∧ (∀ i, decodeWord 0xFFFFFFFF ≠ .ok i) ∧ (∀ i, decodeWord 0x38000000 ≠ .ok i)

/-! ## The machine -/

/-- After reset memory lists nothing and has its canonical form, the shape registers hold VTYPE with VILL alone, VL 0, VROWS 1 and VSTART 0, FCSR and
MXFLAGS are 0, the hart is at U level outside a handler with its lead enabled and its maximal distance 8,192, every counter and claim is
free, nothing is queued or outstanding, every die runs and the kettle holds 3,000 J. -/
def Obligations.ResetState : Prop :=
  let s := State.reset
  let h := s.hart
  s.memoryOk ∧ s.hartsOk ∧ s.mem = [] ∧ h.shape.vtype = 0x8000 ∧ h.shape.vl = 0 ∧ h.shape.vrows = 1 ∧ h.shape.vstart = 0
    ∧ h.fcsr = 0 ∧ h.mxflags = 0 ∧ h.leadOn = true ∧ h.priv.level = false ∧ h.priv.trap = false ∧ h.priv.leadOn = true ∧ h.priv.maxdist = 8192
    ∧ (∀ c : CReg, h.cc[c] = Counter.zero) ∧ (∀ x : Handle, h.claims[x].claimed = false) ∧ h.queue = [] ∧ h.engine = [] ∧ s.writes = []
    ∧ (∀ d : Fin 4, s.dies[d].state = .run) ∧ s.power.kettle = 3000000

/-- Every step from a state whose memory has its canonical form leaves memory in that form. -/
def Obligations.StepKeepsMemory : Prop := ∀ (s t : State), s.memoryOk → step s = .next t → t.memoryOk

/-- Every step from a state in which every hart's shape registers and return stack hold values that the manual lets them hold leaves them so: VTYPE is
legal or holds VILL alone, VROWS is 1 to 8, VL at most 1,024, and the hardware return stack holds at most 16 entries. -/
def Obligations.StepKeepsHarts : Prop := ∀ (s t : State), s.hartsOk → step s = .next t → t.hartsOk

/-- Every step answers a next state, and so does every instruction word in every state: what it cannot do it waits for, or takes as a trap.
No event is refused.  That an event which cannot happen changes nothing but the time is the model's choice (log 2). -/
def Obligations.StepAnswers : Prop :=
  (∀ s, ∃ t, step s = .next t) ∧ (∀ (i : Instr) (s : State), (encode i).isSome = true → ∃ t, exec i s = .next t)
    ∧ (∀ (i : Instr) (s : State) (r : Refusal), exec i s ≠ .refused r)

/-- When the move of a step is an instruction of the current hart with nothing queued, no asynchronous cause is due, its fetch at the PC is granted
and finds no stale word in the instruction cache, and the word there decodes, the step is the instruction's meaning on the state with that word
fetched, which differs in caches alone, and with its address' sources performed, with what follows an instruction, the turn at the lanes that it
took, and the time that passes. -/
def Obligations.StepRunsDecoded : Prop :=
  ∀ (s : State) (cs : List Nat) (p : Place) (i : Instr),
    let u0 : State := { s with choices := cs, idle := 1, tick := s.tick + 1 }
    let u := u0.wake
    let h := s.hart
    let c := u.hart.ctx .core
    let w := BitVec.ofNat 32 (leNat (u.bytes .core p.pa 4))
    let pass := fun (t : State) => t.passTime (Config.laneCycles (s.tick + 1))
    h.resident = true → h.queue = [] → s.idle = 0 → s.choices = 0 :: cs → boundary u0 = none → u0.asyncCause = none → s.nearWrites →
    u.granted c Needs.fetch 4 4 h.pc p = true → (∀ x ∈ u.fetched h.pc, x = w) → decodeWord w = .ok i → engineGate h w = false →
    (endsRun i = true → h.preempt.pending = none ∨ h.priv.trap = true) → (usesLanes w = true → u.laneTurn = true) →
    ∃ k l, let v := (({ k with icache := l } : State).setIr w).fallBack (endsRun i)
      cachesOnly u k
      ∧ (∀ x ∈ l, x ∈ s.icache ∨ x = { core := h.ident.coreKey, gang := h.ident.gangid, asid := h.priv.asid, va := h.pc, word := w })
      ∧ step s = match exec i (v.beforeAccess i) with
        | .next t =>
          let noted := if retiredBy v.hart t.hart then t.noteSources v i else t
          let after := noted.afterInstr v.hart i
          .next (pass (if usesLanes w then after.noteLanes v.hart else after).trimmed)
        | .fault .eventNotEnabled => .next (pass u0)
        | .refused r => .refused r
end

