-- ==== Sys2Proof/Laws/Memory.lean ====
section
/-! SUPPORT. The laws of memory: a read after a write, and the canonical form that every operation keeps. -/

namespace Sys2Proof.Machine.Memory

/-! ## Reading after placing and filtering -/

theorem get_filter_same (m : Memory) (a : Nat) : get (m.filter fun c => c.1 ≠ a) a = 0 := by
  induction m with
  | nil => rfl
  | cons c m ih =>
    obtain ⟨x, b⟩ := c
    by_cases h : x = a
    · simpa [List.filter_cons, h] using ih
    · simpa [List.filter_cons, h, get] using ih

theorem get_filter_other (m : Memory) (a x : Nat) (h : x ≠ a) : get (m.filter fun c => c.1 ≠ a) x = get m x := by
  induction m with
  | nil => rfl
  | cons c m ih =>
    obtain ⟨y, b⟩ := c
    by_cases hy : y = a
    · have : y ≠ x := fun e => h (e ▸ hy)
      simpa [List.filter_cons, hy, get, Ne.symm h] using ih
    · by_cases hx : y = x
      · simp [List.filter_cons, hy, get, hx, h]
      · simpa [List.filter_cons, hy, get, hx] using ih

theorem get_place_same (m : Memory) (a : Nat) (b : Byte) (h : ∀ c ∈ m, c.1 ≠ a) : get (place (a, b) m) a = b := by
  induction m with
  | nil => simp [place, get]
  | cons c m ih =>
    obtain ⟨y, d⟩ := c
    have hy : y ≠ a := h _ (List.mem_cons_self ..)
    have ih' := ih fun c hc => h c (List.mem_cons_of_mem _ hc)
    unfold place
    split
    · simp [get]
    · simpa [get, hy] using ih'

theorem get_place_other (m : Memory) (a : Nat) (b : Byte) (x : Nat) (h : x ≠ a) : get (place (a, b) m) x = get m x := by
  induction m with
  | nil => simp [place, get, Ne.symm h]
  | cons c m ih =>
    obtain ⟨y, d⟩ := c
    unfold place
    split
    · simp [get, Ne.symm h]
    · simp only [get]; split <;> first | rfl | exact ih

/-- A write of one byte is read back. -/
theorem get_set_same (m : Memory) (a : Nat) (b : Byte) : get (set m a b) a = b := by
  unfold set
  split
  next h => rw [h]; exact get_filter_same m a
  next h => exact get_place_same _ a b fun c hc => by simpa using (List.mem_filter.mp hc).2

/-- A write of one byte leaves every other byte. -/
theorem get_set_other (m : Memory) (a : Nat) (b : Byte) (x : Nat) (h : x ≠ a) : get (set m a b) x = get m x := by
  unfold set
  split
  · exact get_filter_other m a x h
  · rw [get_place_other _ _ _ _ h, get_filter_other m a x h]

/-- What a byte reads as after bytes are written. -/
theorem get_writeBytes (bs : List Byte) : ∀ (m : Memory) (a x : Nat),
    get (writeBytes m a bs) x = if a ≤ x ∧ x < a + bs.length then bs.getD (x - a) 0 else get m x := by
  induction bs with
  | nil => intro m a x; rw [if_neg (by simp)]; rfl
  | cons b bs ih =>
    intro m a x
    rw [writeBytes, ih]
    by_cases h : x = a
    · subst h
      rw [if_neg (by omega), get_set_same, if_pos (by simp)]
      simp
    · rw [get_set_other _ _ _ _ h]
      by_cases h1 : a + 1 ≤ x ∧ x < a + 1 + bs.length
      · obtain ⟨k, hk⟩ : ∃ k, x - a = k + 1 := ⟨x - a - 1, by omega⟩
        have hk' : x - (a + 1) = k := by omega
        rw [if_pos h1, if_pos (by simp; omega), hk, hk']
        simp
      · rw [if_neg h1, if_neg (by simp; omega)]

/-- Bytes outside those written stay. -/
theorem get_writeBytes_other (bs : List Byte) (m : Memory) (a x : Nat) (h : x < a ∨ a + bs.length ≤ x) :
    get (writeBytes m a bs) x = get m x := by
  rw [get_writeBytes, if_neg (by omega)]

/-! ## The canonical form -/

theorem sortedFrom_mono (m : Memory) (lo lo' : Nat) (h : lo' ≤ lo) (w : sortedFrom lo m = true) : sortedFrom lo' m = true := by
  cases m with
  | nil => rfl
  | cons c m =>
    obtain ⟨a, b⟩ := c
    simp [sortedFrom] at w ⊢
    exact ⟨⟨by omega, w.1.2⟩, w.2⟩

theorem sortedFrom_filter (m : Memory) (a : Nat) : ∀ lo, sortedFrom lo m = true →
    sortedFrom lo (m.filter fun c => c.1 ≠ a) = true := by
  induction m with
  | nil => intro lo _; rfl
  | cons c m ih =>
    intro lo w
    obtain ⟨x, b⟩ := c
    simp [sortedFrom] at w
    have ih' := ih _ w.2
    by_cases h : x = a
    · have := sortedFrom_mono _ _ lo (by omega) ih'
      simpa [List.filter_cons, h] using this
    · have e : (((x, b) :: m).filter fun c => c.1 ≠ a) = (x, b) :: m.filter fun c => c.1 ≠ a := by simp [List.filter_cons, h]
      rw [e, sortedFrom, ih']
      simp [w.1]

theorem sortedFrom_place (m : Memory) (a : Nat) (b : Byte) (hb : b ≠ 0) (h : ∀ c ∈ m, c.1 ≠ a) : ∀ lo, lo ≤ a →
    sortedFrom lo m = true → sortedFrom lo (place (a, b) m) = true := by
  induction m with
  | nil =>
    intro lo hl _
    have hb' : (b != 0) = true := by simpa using hb
    rw [place, sortedFrom, hb', sortedFrom]
    simp [hl]
  | cons c m ih =>
    intro lo hl w
    obtain ⟨x, d⟩ := c
    have hx : x ≠ a := h _ (List.mem_cons_self ..)
    simp [sortedFrom] at w
    unfold place
    split
    next hlt =>
      simp at hlt
      have hb' : (b != 0) = true := by simpa using hb
      have hd' : (d != 0) = true := by simpa using w.1.2
      simp only [sortedFrom, hb', hd', w.2]
      simp [hl]
      omega
    next hge =>
      simp at hge
      have := ih (fun c hc => h c (List.mem_cons_of_mem _ hc)) (x + 1) (by omega) w.2
      simp [sortedFrom, w.1, this]

/-- A write of one byte keeps the canonical form. -/
theorem wf_set (m : Memory) (a : Nat) (b : Byte) (w : wf m = true) : wf (set m a b) = true := by
  have hf := sortedFrom_filter m a 0 w
  unfold set wf
  split
  · exact hf
  next hb => exact sortedFrom_place _ a b hb (fun c hc => by simpa using (List.mem_filter.mp hc).2) 0 (Nat.zero_le _) hf

/-- A write of bytes keeps the canonical form. -/
theorem wf_writeBytes (bs : List Byte) : ∀ (m : Memory) (a : Nat), wf m = true → wf (writeBytes m a bs) = true := by
  induction bs with
  | nil => intro m a w; exact w
  | cons b bs ih => intro m a w; exact ih _ _ (wf_set m a b w)

theorem wf_write (m : Memory) (a n x : Nat) (w : wf m = true) : wf (write m a n x) = true := wf_writeBytes _ _ _ w

theorem wf_nil : wf [] = true := rfl

theorem sortedFrom_get_low (m : Memory) : ∀ lo x, sortedFrom lo m = true → x < lo → get m x = 0 := by
  induction m with
  | nil => intro _ _ _ _; rfl
  | cons c m ih =>
    intro lo x w h
    obtain ⟨a, b⟩ := c
    simp [sortedFrom] at w
    have : a ≠ x := by omega
    simpa [get, this] using ih (a + 1) x w.2 (by omega)

theorem sortedFrom_ext (m : Memory) : ∀ lo m', sortedFrom lo m = true → sortedFrom lo m' = true →
    (∀ x, get m x = get m' x) → m = m' := by
  induction m with
  | nil =>
    intro lo m' _ w' e
    cases m' with
    | nil => rfl
    | cons d m' =>
      obtain ⟨a, b⟩ := d
      simp [sortedFrom] at w'
      have := e a
      simp [get] at this
      exact absurd this.symm w'.1.2
  | cons c m ih =>
    intro lo m' w w' e
    obtain ⟨a, b⟩ := c
    simp [sortedFrom] at w
    cases m' with
    | nil =>
      have := e a
      simp [get] at this
      exact absurd this w.1.2
    | cons d m' =>
      obtain ⟨a', b'⟩ := d
      simp [sortedFrom] at w'
      have hm := fun x hx => sortedFrom_get_low m (a + 1) x w.2 hx
      have hm' := fun x hx => sortedFrom_get_low m' (a' + 1) x w'.2 hx
      have haa : a = a' := by
        refine Decidable.byContradiction fun hne => ?_
        rcases Nat.lt_or_gt_of_ne hne with h | h
        · have := e a
          have h2 : a' ≠ a := by omega
          simp [get, h2, hm' a (by omega)] at this
          exact w.1.2 this
        · have := e a'
          simp [get, hne, hm a' (by omega)] at this
          exact w'.1.2 this.symm
      subst haa
      have hb : b = b' := by simpa [get] using e a
      subst hb
      have := ih (a + 1) m' w.2 w'.2 fun x => by
        by_cases hx : a = x
        · subst hx; rw [hm a (by omega), hm' a (by omega)]
        · simpa [get, hx] using e x
      rw [this]

/-- Canonical memories that read the same are the same list. -/
theorem ext (m m' : Memory) (w : wf m = true) (w' : wf m' = true) (e : ∀ x, get m x = get m' x) : m = m' :=
  sortedFrom_ext m 0 m' w w' e

end Sys2Proof.Machine.Memory

namespace Sys2Proof.Machine

/-! ## Writes that perform (04 R82) -/

/-- What a write that performs does to memory. -/
theorem State.perform_get (s : State) (keep : Option Nat) (holder : Option Holder) (pa : Nat) (bs : List Byte) (x : Nat) :
    Memory.get (s.perform keep holder pa bs).mem x
      = if pa ≤ x ∧ x < pa + bs.length then bs.getD (x - pa) 0 else Memory.get s.mem x :=
  Memory.get_writeBytes bs s.mem pa x

@[simp] theorem State.perform_mem (s : State) (keep : Option Nat) (holder : Option Holder) (pa : Nat) (bs : List Byte) :
    (s.perform keep holder pa bs).mem = Memory.writeBytes s.mem pa bs := rfl
@[simp] theorem State.perform_hart (s : State) (keep : Option Nat) (holder : Option Holder) (pa : Nat) (bs : List Byte) :
    (s.perform keep holder pa bs).hart = s.hart := rfl
@[simp] theorem State.perform_others (s : State) (keep : Option Nat) (holder : Option Holder) (pa : Nat) (bs : List Byte) :
    (s.perform keep holder pa bs).others = s.others := rfl
@[simp] theorem State.perform_writes (s : State) (keep : Option Nat) (holder : Option Holder) (pa : Nat) (bs : List Byte) :
    (s.perform keep holder pa bs).writes = s.writes := rfl
@[simp] theorem State.perform_control (s : State) (keep : Option Nat) (holder : Option Holder) (pa : Nat) (bs : List Byte) :
    (s.perform keep holder pa bs).control = s.control := rfl

theorem State.perform_wf (s : State) (keep : Option Nat) (holder : Option Holder) (pa : Nat) (bs : List Byte) (w : Memory.wf s.mem = true) :
    Memory.wf (s.perform keep holder pa bs).mem = true := Memory.wf_writeBytes bs s.mem pa w

/-- Where a line stands after a write says nothing of what memory and the harts hold. -/
@[simp] theorem State.placed_mem (s : State) (hint : VHint) (holder : Option Holder) (keep : Option Nat) (line : Nat) :
    (s.placed hint holder keep line).mem = s.mem := rfl
@[simp] theorem State.placed_hart (s : State) (hint : VHint) (holder : Option Holder) (keep : Option Nat) (line : Nat) :
    (s.placed hint holder keep line).hart = s.hart := rfl
@[simp] theorem State.placed_others (s : State) (hint : VHint) (holder : Option Holder) (keep : Option Nat) (line : Nat) :
    (s.placed hint holder keep line).others = s.others := rfl
@[simp] theorem State.placed_writes (s : State) (hint : VHint) (holder : Option Holder) (keep : Option Nat) (line : Nat) :
    (s.placed hint holder keep line).writes = s.writes := rfl

/-- An outstanding write that performs writes bytes at its address, and moves no hart and no other outstanding write. -/
theorem State.performWrite_spec (s : State) (w : PendingWrite) : (∃ bs, (s.performWrite w).mem = Memory.writeBytes s.mem w.pa bs) ∧
    (s.performWrite w).hart = s.hart ∧ (s.performWrite w).others = s.others ∧ (s.performWrite w).writes = s.writes := by
  have add : ∀ bs, (∃ bs', ({ s.perform none none w.pa bs with poison := s.poison } : State).mem = Memory.writeBytes s.mem w.pa bs') ∧
      ({ s.perform none none w.pa bs with poison := s.poison } : State).hart = s.hart ∧
      ({ s.perform none none w.pa bs with poison := s.poison } : State).others = s.others ∧
      ({ s.perform none none w.pa bs with poison := s.poison } : State).writes = s.writes := fun bs => ⟨⟨bs, rfl⟩, rfl, rfl, rfl⟩
  unfold State.performWrite
  split
  · exact ⟨⟨_, (State.placed_mem ..).trans (State.perform_mem ..)⟩, (State.placed_hart ..).trans (State.perform_hart ..),
      (State.placed_others ..).trans (State.perform_others ..), (State.placed_writes ..).trans (State.perform_writes ..)⟩
  · exact add _

@[simp] theorem State.performWrite_hart (s : State) (w : PendingWrite) : (s.performWrite w).hart = s.hart := (s.performWrite_spec w).2.1
@[simp] theorem State.performWrite_others (s : State) (w : PendingWrite) : (s.performWrite w).others = s.others := (s.performWrite_spec w).2.2.1
@[simp] theorem State.performWrite_writes (s : State) (w : PendingWrite) : (s.performWrite w).writes = s.writes := (s.performWrite_spec w).2.2.2
theorem State.performWrite_wf (s : State) (w : PendingWrite) (h : Memory.wf s.mem = true) : Memory.wf (s.performWrite w).mem = true := by
  obtain ⟨⟨_, e⟩, -⟩ := s.performWrite_spec w; rw [e]; exact Memory.wf_writeBytes _ _ _ h

/-- What a write that performs keeps, writes that perform in turn keep. -/
theorem State.performAll_keeps {P : State → Prop} (h : ∀ (s : State) w, P s → P (s.performWrite w)) (ws : List PendingWrite) :
    ∀ s : State, P s → P (s.performAll ws) := by
  induction ws with
  | nil => intro s hs; exact hs
  | cons w ws ih => intro s hs; exact ih _ (h s w hs)

/-- Writes that come to a level: a list of outstanding writes is left, and others have performed. -/
theorem State.raiseOn_eq (s : State) (core : Nat) (f : PendingWrite → Bool) (t : Level) :
    ∃ ws ps, s.raiseOn core f t = ({ s with writes := ws } : State).performAll ps := by
  unfold State.raiseOn
  simp only
  split
  · exact ⟨_, _, rfl⟩
  · exact ⟨s.writes, [], rfl⟩

/-- What a write that performs keeps, and what the list of outstanding writes does not touch, a rise keeps. -/
theorem State.raiseOn_keeps {P : State → Prop} (h : ∀ (s : State) w, P s → P (s.performWrite w))
    (hw : ∀ (s : State) ws, P s → P { s with writes := ws }) (s : State) (core : Nat) (f : PendingWrite → Bool) (t : Level) (hs : P s) :
    P (s.raiseOn core f t) := by
  obtain ⟨ws, ps, e⟩ := s.raiseOn_eq core f t
  rw [e]
  exact State.performAll_keeps h ps _ (hw s ws hs)

@[simp] theorem State.raise_hart (s : State) (f : PendingWrite → Bool) (t : Level) : (s.raise f t).hart = s.hart :=
  State.raiseOn_keeps (P := fun u => u.hart = s.hart) (fun u w h => by simpa using h) (fun _ _ h => h) s _ f t rfl
@[simp] theorem State.raise_others (s : State) (f : PendingWrite → Bool) (t : Level) : (s.raise f t).others = s.others :=
  State.raiseOn_keeps (P := fun u => u.others = s.others) (fun u w h => by simpa using h) (fun _ _ h => h) s _ f t rfl
theorem State.raise_wf (s : State) (f : PendingWrite → Bool) (t : Level) (h : Memory.wf s.mem = true) : Memory.wf (s.raise f t).mem = true :=
  State.raiseOn_keeps (P := fun u => Memory.wf u.mem = true) (fun u w h => u.performWrite_wf w h) (fun _ _ h => h) s _ f t h

theorem State.drain_wf (s : State) (f : PendingWrite → Bool) (w : Memory.wf s.mem = true) : Memory.wf (s.drain f).mem = true :=
  s.raise_wf _ _ w
@[simp] theorem State.drain_hart (s : State) (f : PendingWrite → Bool) : (s.drain f).hart = s.hart := s.raise_hart _ _
/-- Where no write of a list is picked, each stays at its level. -/
theorem raiseTargets_none {f : PendingWrite → Bool} (t : Level) {ws : List PendingWrite} (h : ∀ w ∈ ws, f w = false) :
    raiseTargets f t ws = ws.map fun w => (w, w.level) := by
  have hs : ∀ a : Level, a.max .stream = a := fun a => by cases a <;> rfl
  induction ws with
  | nil => rfl
  | cons x xs ih =>
    have hf : ∀ (l : List PendingWrite) (u : Level), (l.map fun w => (w, w.level)).foldl (fun u y => u.max (x.due y.1 y.2)) u = u := by
      intro l
      induction l with
      | nil => intro u; rfl
      | cons y l ih' =>
        intro u
        have hd : x.due y y.level = .stream := by simp [PendingWrite.due]
        simp only [List.map_cons, List.foldl_cons, hd, hs]
        exact ih' u
    simp only [raiseTargets, ih fun w hw => h w (List.mem_cons_of_mem _ hw), h x (List.mem_cons_self ..), List.map_cons, hf, Bool.false_and,
      Bool.false_eq_true, if_false, hs]

theorem mem_commitOrder {ws : List PendingWrite} {w : PendingWrite} (h : w ∈ commitOrder ws) : w ∈ ws := by
  simp only [commitOrder, List.mem_flatMap, List.mem_filter] at h
  obtain ⟨_, _, h, _⟩ := h
  exact h

/-- Where no outstanding write is picked, nothing changes. -/
theorem State.raiseOn_none {s : State} {f : PendingWrite → Bool} (h : ∀ w ∈ s.writes, f w = false) (core : Nat) (t : Level) :
    s.raiseOn core f t = s := by
  unfold State.raiseOn
  simp only
  rw [raiseTargets_none t fun w hw => h w (List.mem_filter.mp (mem_commitOrder hw)).1, if_neg]
  simp
theorem State.raise_none {s : State} {f : PendingWrite → Bool} (h : ∀ w ∈ s.writes, f w = false) (t : Level) : s.raise f t = s :=
  State.raiseOn_none h _ t
theorem State.raiseAll_none {s : State} {f : PendingWrite → Bool} (h : ∀ w ∈ s.writes, f w = false) (t : Level) : s.raiseAll f t = s := by
  have e : s.writes.filter f = [] := List.filter_eq_nil_iff.mpr fun w hw => by simp [h w hw]
  unfold State.raiseAll
  rw [e]
  rfl

/-- Where nothing is outstanding, nothing performs. -/
theorem State.raise_nil {s : State} (h : s.writes = []) (f : PendingWrite → Bool) (t : Level) : s.raise f t = s :=
  State.raise_none (by simp [h]) t
theorem State.raiseAll_nil {s : State} (h : s.writes = []) (f : PendingWrite → Bool) (t : Level) : s.raiseAll f t = s :=
  State.raiseAll_none (by simp [h]) t

/-- What a write that performs keeps, and what the list of outstanding writes does not touch, a rise on every core keeps. -/
theorem State.raiseAll_keeps {P : State → Prop} (h : ∀ (s : State) w, P s → P (s.performWrite w))
    (hw : ∀ (s : State) ws, P s → P { s with writes := ws }) (s : State) (f : PendingWrite → Bool) (t : Level) (hs : P s) :
    P (s.raiseAll f t) := by
  unfold State.raiseAll
  generalize distinct ((s.writes.filter f).map PendingWrite.core) = cs
  induction cs generalizing s with
  | nil => exact hs
  | cons c cs ih => exact ih _ (State.raiseOn_keeps h hw s c f t hs)

@[simp] theorem State.raiseAll_hart (s : State) (f : PendingWrite → Bool) (t : Level) : (s.raiseAll f t).hart = s.hart :=
  State.raiseAll_keeps (P := fun u => u.hart = s.hart) (fun u w h => by simpa using h) (fun _ _ h => h) s f t rfl
@[simp] theorem State.raiseAll_others (s : State) (f : PendingWrite → Bool) (t : Level) : (s.raiseAll f t).others = s.others :=
  State.raiseAll_keeps (P := fun u => u.others = s.others) (fun u w h => by simpa using h) (fun _ _ h => h) s f t rfl
theorem State.raiseAll_wf (s : State) (f : PendingWrite → Bool) (t : Level) (h : Memory.wf s.mem = true) :
    Memory.wf (s.raiseAll f t).mem = true :=
  State.raiseAll_keeps (P := fun u => Memory.wf u.mem = true) (fun u w h => u.performWrite_wf w h) (fun _ _ h => h) s f t h

/-- A release moves writes and no hart. -/
@[simp] theorem State.released_hart (s : State) (sc : Scope) : (s.released sc).hart = s.hart := by
  unfold State.released; split <;> simp
theorem State.released_wf (s : State) (sc : Scope) (h : Memory.wf s.mem = true) : Memory.wf (s.released sc).mem = true := by
  unfold State.released
  split
  · exact s.raise_wf _ _ h
  · exact s.raiseAll_wf _ _ h

/-- What a rise keeps, the fences keep: they are one rise for each level. -/
theorem State.afterFences_keeps {P : State → Prop} (h : ∀ (s : State) f t, P s → P (s.raiseAll f t)) (s : State) (k : Fence → Bool)
    (hs : P s) : P (s.afterFences k) := by
  unfold State.afterFences
  generalize [Level.hart, .core, .die, .package, .domain, .home] = ts
  induction ts generalizing s with
  | nil => exact hs
  | cons t ts ih => exact ih _ (h s _ _ hs)

@[simp] theorem State.afterFences_hart (s : State) (k : Fence → Bool) : (s.afterFences k).hart = s.hart :=
  State.afterFences_keeps (P := fun u => u.hart = s.hart) (fun u f t h => by simpa using h) s k rfl
theorem State.afterFences_wf (s : State) (k : Fence → Bool) (w : Memory.wf s.mem = true) : Memory.wf (s.afterFences k).mem = true :=
  State.afterFences_keeps (P := fun u => Memory.wf u.mem = true) (fun u f t h => u.raiseAll_wf f t h) s k w
/-- Where nothing is outstanding, the fences ask nothing. -/
theorem State.afterFences_nil {s : State} (h : s.writes = []) (k : Fence → Bool) : s.afterFences k = s :=
  State.afterFences_keeps (P := fun u => u = s) (fun u f t e => by rw [e]; exact State.raiseAll_nil h f t) s k rfl

end Sys2Proof.Machine
end

