-- ==== Sys2Proof/Laws/Run.lean ====
section
/-! SUPPORT. Meanings of several steps: what an action can do, said once and composed (`Does`), and what a run of actions gives. -/

namespace Sys2Proof.Machine

/-! ## What an action can do -/

/-- Whatever state the action starts in, `R` holds of that state and the one it leaves, and `E` of the way it stops. -/
def Does (R : State → State → Prop) (E : Stop → Prop) {α : Type} (m : M α) : Prop :=
  ∀ s, match m s with
    | .ok _ t => R s t
    | .error e t => R s t ∧ E e

/-- A relation that holds of a state and itself, and along two actions. -/
structure Chains (R : State → State → Prop) : Prop where
  refl : ∀ s, R s s
  trans : ∀ s t u, R s t → R t u → R s u

/-- Keeping a property chains. -/
theorem Chains.keeps (P : State → Prop) : Chains fun s t => P s → P t :=
  ⟨fun _ h => h, fun _ _ _ f g h => g (f h)⟩

/-- Leaving a part of the state chains. -/
theorem Chains.same {β : Type} (f : State → β) : Chains fun s t => f t = f s :=
  ⟨fun _ => rfl, fun _ _ _ h g => g.trans h⟩

theorem Does.pure {R E} (c : Chains R) {α : Type} (a : α) : Does R E (Pure.pure a : M α) := fun s => c.refl s

theorem Does.bind {R E} (c : Chains R) {α β : Type} {m : M α} {f : α → M β} (hm : Does R E m) (hf : ∀ a, Does R E (f a)) :
    Does R E (m >>= f) := by
  intro s
  have h := hm s
  show match EStateM.bind m f s with | .ok _ t => R s t | .error e t => R s t ∧ E e
  unfold EStateM.bind
  cases hms : m s with
  | error e t => rw [hms] at h; exact h
  | ok a t =>
    rw [hms] at h
    have h2 := hf a t
    simp only
    cases hfs : f a t with
    | error e u => rw [hfs] at h2; exact ⟨c.trans _ _ _ h h2.1, h2.2⟩
    | ok b u => rw [hfs] at h2; exact c.trans _ _ _ h h2

theorem Does.get {R E} (c : Chains R) : Does R E (MonadState.get : M State) := fun s => c.refl s

theorem Does.modify {R E} {f : State → State} (h : ∀ s, R s (f s)) : Does R E (modify f : M Unit) := fun s => h s

theorem Does.throw {R E} (c : Chains R) {α : Type} {e : Stop} (h : E e) : Does R E (throw e : M α) := fun s => ⟨c.refl s, h⟩

theorem Does.ite {R E} {α : Type} {b : Prop} [Decidable b] {m n : M α} (hm : b → Does R E m) (hn : ¬b → Does R E n) :
    Does R E (if b then m else n) := by
  split
  next h => exact hm h
  next h => exact hn h

theorem Does.raise {R E} (c : Chains R) {α : Type} (x : Cause) (v : Word) (h : E (.trap (Trap.of x v))) : Does R E (raise x v : M α) :=
  Does.throw c h

theorem Does.each {R E} (c : Chains R) {α : Type} {f : α → M Unit} (xs : List α) (h : ∀ x ∈ xs, Does R E (f x)) :
    Does R E (each f xs) := by
  induction xs with
  | nil => exact Does.pure c ()
  | cons x xs ih =>
    exact Does.bind c (h x (List.mem_cons_self ..)) fun _ => ih fun y hy => h y (List.mem_cons_of_mem _ hy)

theorem Does.collect {R E} (c : Chains R) {α β : Type} {f : α → M β} (xs : List α) (h : ∀ x ∈ xs, Does R E (f x)) :
    Does R E (collect f xs) := by
  induction xs with
  | nil => exact Does.pure c []
  | cons x xs ih =>
    exact Does.bind c (h x (List.mem_cons_self ..)) fun _ =>
      Does.bind c (ih fun y hy => h y (List.mem_cons_of_mem _ hy)) fun _ => Does.pure c _

theorem Does.attempt {R E} {α : Type} {m : M α} (h : Does R E m) : Does R E (attempt m) := by
  intro s
  have hs := h s
  unfold Machine.attempt
  cases hm : m s with
  | ok a t => rw [hm] at hs; exact hs
  | error e t =>
    rw [hm] at hs
    cases e with
    | trap x => exact hs.1
    | wait k => exact hs
    | fault f => exact hs
    | ended => exact hs

theorem Does.atPosition {R E} (c : Chains R) (hr : ∀ s x, R s (s.setStart x)) {α : Type} {m : M α} (row col : Nat) (h : Does R E m) :
    Does R E (atPosition row col m) := by
  intro s
  have hs := h s
  unfold Machine.atPosition
  cases hm : m s with
  | ok a t => rw [hm] at hs; exact hs
  | error e t => rw [hm] at hs; exact ⟨c.trans _ _ _ hs.1 (hr _ _), hs.2⟩

/-! ## Outcomes -/

/-- A meaning that raises no fault answers a next state. -/
theorem run_answers {R E} {m : M Unit} (h : Does R E m) (hE : ∀ f, ¬ E (.fault f)) (s : State) : ∃ t, run m s = .next t := by
  have hs := h s
  unfold run finish
  cases hm : m s with
  | ok a t => exact ⟨t, rfl⟩
  | error e t =>
    rw [hm] at hs
    cases e with
    | trap x => exact ⟨_, rfl⟩
    | wait k => exact ⟨_, rfl⟩
    | fault f => exact absurd hs.2 (hE f)
    | ended => exact ⟨_, rfl⟩

/-- A meaning is never refused. -/
theorem run_not_refused (m : M Unit) (s : State) (r : Refusal) : run m s ≠ .refused r := by
  unfold run finish
  cases m s with
  | ok a t => intro h; cases h
  | error e t => cases e <;> intro h <;> cases h

/-- A meaning keeps what its action, a trap and a wait keep. -/
theorem run_keeps {P : State → Prop} {E} {m : M Unit} (h : Does (fun s t => P s → P t) E m)
    (ht : ∀ s x, P s → P (s.takeTrap x)) (hw : ∀ s k, P s → P (s.waitFor k)) {s t : State} (hs : P s) (e : run m s = .next t) : P t := by
  have hd := h s
  unfold run finish at e
  cases hm : m s with
  | ok a u => rw [hm] at hd e; cases e; exact hd hs
  | error x u =>
    rw [hm] at hd e
    cases x with
    | trap y => cases e; exact ht _ _ (hd.1 hs)
    | wait k => cases e; exact hw _ _ (hd.1 hs)
    | fault f => cases e
    | ended => cases e; exact hd.1 hs

theorem run_of_ok {m : M Unit} {s t : State} {a : Unit} (h : m s = .ok a t) : run m s = .next t := by simp [run, finish, h]
theorem run_of_trap {m : M Unit} {s t : State} {x : Trap} (h : m s = .error (.trap x) t) : run m s = .next (t.takeTrap x) := by
  simp [run, finish, h]
theorem run_of_wait {m : M Unit} {s t : State} {k : WaitKind} (h : m s = .error (.wait k) t) : run m s = .next (t.waitFor k) := by
  simp [run, finish, h]

/-! ## Runs of actions -/

theorem bind_of_ok {α β : Type} {m : M α} {f : α → M β} {s t : State} {a : α} (h : m s = .ok a t) : (m >>= f) s = f a t := by
  show EStateM.bind m f s = _
  simp [EStateM.bind, h]
theorem bind_of_error {α β : Type} {m : M α} {f : α → M β} {s t : State} {e : Stop} (h : m s = .error e t) :
    (m >>= f) s = .error e t := by
  show EStateM.bind m f s = _
  simp [EStateM.bind, h]

@[simp] theorem pure_run {α : Type} (a : α) (s : State) : (pure a : M α) s = .ok a s := rfl
@[simp] theorem get_run (s : State) : (get : M State) s = .ok s s := rfl
@[simp] theorem set_run (s t : State) : (set t : M PUnit) s = .ok ⟨⟩ t := rfl
@[simp] theorem modify_run (f : State → State) (s : State) : (modify f : M PUnit) s = .ok ⟨⟩ (f s) := rfl
@[simp] theorem throw_run {α : Type} (e : Stop) (s : State) : (throw e : M α) s = .error e s := rfl
@[simp] theorem bind_get_run {β : Type} (f : State → M β) (s : State) : ((get : M State) >>= f) s = f s s := rfl
@[simp] theorem bind_modify_run {β : Type} (g : State → State) (f : PUnit → M β) (s : State) :
    ((modify g : M PUnit) >>= f) s = f ⟨⟩ (g s) := rfl
@[simp] theorem bind_set_run {β : Type} (t : State) (f : PUnit → M β) (s : State) : ((set t : M PUnit) >>= f) s = f ⟨⟩ t := rfl

/-- Reading a register that is not in error. -/
theorem readS_ok {s : State} {r : SReg} (h : s.badS r = false) : readS r s = .ok (s.getS r) s := by simp [readS, h]
theorem readS_bad {s : State} {r : SReg} (h : s.badS r = true) : readS r s = .error (.trap Trap.register) s := by simp [readS, h]
theorem readV_ok {s : State} {r : VReg} (h : s.badV r = false) : readV r s = .ok (s.getV r) s := by simp [readV, h]
theorem readK_ok {s : State} {r : MReg} (h : s.badK r = false) : readK r s = .ok (s.getK r) s := by simp [readK, h]
theorem readT_ok {s : State} {t : Tile} (h : s.badT t = false) : readT t s = .ok (s.getAcc t) s := by simp [readT, h]

/-- A hart without errors reads every register. -/
theorem badS_of_sound {s : State} (h : s.hart.ecc = Ecc.none) (r : SReg) : s.badS r = false := by simp [State.badS, h, Ecc.none]
theorem badV_of_sound {s : State} (h : s.hart.ecc = Ecc.none) (r : VReg) : s.badV r = false := by simp [State.badV, h, Ecc.none]
theorem badK_of_sound {s : State} (h : s.hart.ecc = Ecc.none) (r : MReg) : s.badK r = false := by simp [State.badK, h, Ecc.none]
theorem badT_of_sound {s : State} (h : s.hart.ecc = Ecc.none) (t : Tile) : s.badT t = false := by simp [State.badT, h, Ecc.none]

/-- The checks of a vector instruction pass. -/
theorem checkShape_ok {s : State} {e : Bool} {rs : List VReg} {f : Shape → Bool}
    (h : (s.hart.shape.usable e rs && f s.hart.shape) = true) : checkShape e rs f s = .ok s.hart.shape s := by
  show (needVector (s.hart.shape.usable e rs && f s.hart.shape) >>= fun _ => pure s.hart.shape) s = _
  rw [h]; rfl

/-- The checks of a vector instruction fail: Illegal Configuration at position (0, 0). -/
theorem checkShape_bad {s : State} {e : Bool} {rs : List VReg} {f : Shape → Bool}
    (h : (s.hart.shape.usable e rs && f s.hart.shape) = false) :
    checkShape e rs f s = .error (.trap (Trap.of .illegalConfiguration (s.hart.ir.zeroExtend 64))) (s.setStart 0) := by
  show (needVector (s.hart.shape.usable e rs && f s.hart.shape) >>= fun _ => pure s.hart.shape) s = _
  rw [h]; rfl

end Sys2Proof.Machine
end

