-- ==== Sys2Proof/Laws/State.lean ====
section
/-! SUPPORT. The small lemmas of the named operations on State: for each operation and each field that it leaves alone, that it does,
and for the registers what a read after a write gives. -/

namespace Sys2Proof.Machine

/-! ## setS -/

@[simp] theorem State.setS_others (s : State) (r : SReg) (x : Word) : (s.setS r x).others = s.others := by unfold State.setS; split <;> rfl
@[simp] theorem State.setS_mem (s : State) (r : SReg) (x : Word) : (s.setS r x).mem = s.mem := by unfold State.setS; split <;> rfl
@[simp] theorem State.setS_poison (s : State) (r : SReg) (x : Word) : (s.setS r x).poison = s.poison := by unfold State.setS; split <;> rfl
@[simp] theorem State.setS_dirty (s : State) (r : SReg) (x : Word) : (s.setS r x).dirty = s.dirty := by unfold State.setS; split <;> rfl
@[simp] theorem State.setS_writes (s : State) (r : SReg) (x : Word) : (s.setS r x).writes = s.writes := by unfold State.setS; split <;> rfl
@[simp] theorem State.setS_copies (s : State) (r : SReg) (x : Word) : (s.setS r x).copies = s.copies := by unfold State.setS; split <;> rfl
@[simp] theorem State.setS_slices (s : State) (r : SReg) (x : Word) : (s.setS r x).slices = s.slices := by unfold State.setS; split <;> rfl
@[simp] theorem State.setS_tlb (s : State) (r : SReg) (x : Word) : (s.setS r x).tlb = s.tlb := by unfold State.setS; split <;> rfl
@[simp] theorem State.setS_icache (s : State) (r : SReg) (x : Word) : (s.setS r x).icache = s.icache := by unfold State.setS; split <;> rfl
@[simp] theorem State.setS_lookahead (s : State) (r : SReg) (x : Word) : (s.setS r x).lookahead = s.lookahead := by unfold State.setS; split <;> rfl
@[simp] theorem State.setS_dies (s : State) (r : SReg) (x : Word) : (s.setS r x).dies = s.dies := by unfold State.setS; split <;> rfl
@[simp] theorem State.setS_control (s : State) (r : SReg) (x : Word) : (s.setS r x).control = s.control := by unfold State.setS; split <;> rfl
@[simp] theorem State.setS_pkg (s : State) (r : SReg) (x : Word) : (s.setS r x).pkg = s.pkg := by unfold State.setS; split <;> rfl
@[simp] theorem State.setS_ports (s : State) (r : SReg) (x : Word) : (s.setS r x).ports = s.ports := by unfold State.setS; split <;> rfl
@[simp] theorem State.setS_fresh (s : State) (r : SReg) (x : Word) : (s.setS r x).fresh = s.fresh := by unfold State.setS; split <;> rfl
@[simp] theorem State.setS_hart_pc (s : State) (r : SReg) (x : Word) : (s.setS r x).hart.pc = s.hart.pc := by unfold State.setS; split <;> rfl
@[simp] theorem State.setS_hart_ir (s : State) (r : SReg) (x : Word) : (s.setS r x).hart.ir = s.hart.ir := by unfold State.setS; split <;> rfl
@[simp] theorem State.setS_hart_v (s : State) (r : SReg) (x : Word) : (s.setS r x).hart.v = s.hart.v := by unfold State.setS; split <;> rfl
@[simp] theorem State.setS_hart_k (s : State) (r : SReg) (x : Word) : (s.setS r x).hart.k = s.hart.k := by unfold State.setS; split <;> rfl
@[simp] theorem State.setS_hart_acc (s : State) (r : SReg) (x : Word) : (s.setS r x).hart.acc = s.hart.acc := by unfold State.setS; split <;> rfl
@[simp] theorem State.setS_hart_shape (s : State) (r : SReg) (x : Word) : (s.setS r x).hart.shape = s.hart.shape := by unfold State.setS; split <;> rfl
@[simp] theorem State.setS_hart_fcsr (s : State) (r : SReg) (x : Word) : (s.setS r x).hart.fcsr = s.hart.fcsr := by unfold State.setS; split <;> rfl
@[simp] theorem State.setS_hart_mxflags (s : State) (r : SReg) (x : Word) : (s.setS r x).hart.mxflags = s.hart.mxflags := by unfold State.setS; split <;> rfl
@[simp] theorem State.setS_hart_ident (s : State) (r : SReg) (x : Word) : (s.setS r x).hart.ident = s.hart.ident := by unfold State.setS; split <;> rfl
@[simp] theorem State.setS_hart_rs (s : State) (r : SReg) (x : Word) : (s.setS r x).hart.rs = s.hart.rs := by unfold State.setS; split <;> rfl
@[simp] theorem State.setS_hart_matrix (s : State) (r : SReg) (x : Word) : (s.setS r x).hart.matrix = s.hart.matrix := by unfold State.setS; split <;> rfl
@[simp] theorem State.setS_hart_cc (s : State) (r : SReg) (x : Word) : (s.setS r x).hart.cc = s.hart.cc := by unfold State.setS; split <;> rfl
@[simp] theorem State.setS_hart_engine (s : State) (r : SReg) (x : Word) : (s.setS r x).hart.engine = s.hart.engine := by unfold State.setS; split <;> rfl
@[simp] theorem State.setS_hart_windows (s : State) (r : SReg) (x : Word) : (s.setS r x).hart.windows = s.hart.windows := by unfold State.setS; split <;> rfl
@[simp] theorem State.setS_hart_claims (s : State) (r : SReg) (x : Word) : (s.setS r x).hart.claims = s.hart.claims := by unfold State.setS; split <;> rfl
@[simp] theorem State.setS_hart_queue (s : State) (r : SReg) (x : Word) : (s.setS r x).hart.queue = s.hart.queue := by unfold State.setS; split <;> rfl
@[simp] theorem State.setS_hart_taken (s : State) (r : SReg) (x : Word) : (s.setS r x).hart.taken = s.hart.taken := by unfold State.setS; split <;> rfl
@[simp] theorem State.setS_hart_priv (s : State) (r : SReg) (x : Word) : (s.setS r x).hart.priv = s.hart.priv := by unfold State.setS; split <;> rfl
@[simp] theorem State.setS_hart_status (s : State) (r : SReg) (x : Word) : (s.setS r x).hart.status = s.hart.status := by unfold State.setS; split <;> rfl
@[simp] theorem State.setS_hart_barrier (s : State) (r : SReg) (x : Word) : (s.setS r x).hart.barrier = s.hart.barrier := by unfold State.setS; split <;> rfl
@[simp] theorem State.setS_hart_lead (s : State) (r : SReg) (x : Word) : (s.setS r x).hart.lead = s.hart.lead := by unfold State.setS; split <;> rfl

/-! ## setV -/

@[simp] theorem State.setV_others (s : State) (r : VReg) (x : VBits) : (s.setV r x).others = s.others := rfl
@[simp] theorem State.setV_mem (s : State) (r : VReg) (x : VBits) : (s.setV r x).mem = s.mem := rfl
@[simp] theorem State.setV_poison (s : State) (r : VReg) (x : VBits) : (s.setV r x).poison = s.poison := rfl
@[simp] theorem State.setV_dirty (s : State) (r : VReg) (x : VBits) : (s.setV r x).dirty = s.dirty := rfl
@[simp] theorem State.setV_writes (s : State) (r : VReg) (x : VBits) : (s.setV r x).writes = s.writes := rfl
@[simp] theorem State.setV_copies (s : State) (r : VReg) (x : VBits) : (s.setV r x).copies = s.copies := rfl
@[simp] theorem State.setV_slices (s : State) (r : VReg) (x : VBits) : (s.setV r x).slices = s.slices := rfl
@[simp] theorem State.setV_tlb (s : State) (r : VReg) (x : VBits) : (s.setV r x).tlb = s.tlb := rfl
@[simp] theorem State.setV_icache (s : State) (r : VReg) (x : VBits) : (s.setV r x).icache = s.icache := rfl
@[simp] theorem State.setV_lookahead (s : State) (r : VReg) (x : VBits) : (s.setV r x).lookahead = s.lookahead := rfl
@[simp] theorem State.setV_dies (s : State) (r : VReg) (x : VBits) : (s.setV r x).dies = s.dies := rfl
@[simp] theorem State.setV_control (s : State) (r : VReg) (x : VBits) : (s.setV r x).control = s.control := rfl
@[simp] theorem State.setV_pkg (s : State) (r : VReg) (x : VBits) : (s.setV r x).pkg = s.pkg := rfl
@[simp] theorem State.setV_ports (s : State) (r : VReg) (x : VBits) : (s.setV r x).ports = s.ports := rfl
@[simp] theorem State.setV_fresh (s : State) (r : VReg) (x : VBits) : (s.setV r x).fresh = s.fresh := rfl
@[simp] theorem State.setV_hart_pc (s : State) (r : VReg) (x : VBits) : (s.setV r x).hart.pc = s.hart.pc := rfl
@[simp] theorem State.setV_hart_ir (s : State) (r : VReg) (x : VBits) : (s.setV r x).hart.ir = s.hart.ir := rfl
@[simp] theorem State.setV_hart_s (s : State) (r : VReg) (x : VBits) : (s.setV r x).hart.s = s.hart.s := rfl
@[simp] theorem State.setV_hart_k (s : State) (r : VReg) (x : VBits) : (s.setV r x).hart.k = s.hart.k := rfl
@[simp] theorem State.setV_hart_acc (s : State) (r : VReg) (x : VBits) : (s.setV r x).hart.acc = s.hart.acc := rfl
@[simp] theorem State.setV_hart_shape (s : State) (r : VReg) (x : VBits) : (s.setV r x).hart.shape = s.hart.shape := rfl
@[simp] theorem State.setV_hart_fcsr (s : State) (r : VReg) (x : VBits) : (s.setV r x).hart.fcsr = s.hart.fcsr := rfl
@[simp] theorem State.setV_hart_mxflags (s : State) (r : VReg) (x : VBits) : (s.setV r x).hart.mxflags = s.hart.mxflags := rfl
@[simp] theorem State.setV_hart_ident (s : State) (r : VReg) (x : VBits) : (s.setV r x).hart.ident = s.hart.ident := rfl
@[simp] theorem State.setV_hart_rs (s : State) (r : VReg) (x : VBits) : (s.setV r x).hart.rs = s.hart.rs := rfl
@[simp] theorem State.setV_hart_matrix (s : State) (r : VReg) (x : VBits) : (s.setV r x).hart.matrix = s.hart.matrix := rfl
@[simp] theorem State.setV_hart_cc (s : State) (r : VReg) (x : VBits) : (s.setV r x).hart.cc = s.hart.cc := rfl
@[simp] theorem State.setV_hart_engine (s : State) (r : VReg) (x : VBits) : (s.setV r x).hart.engine = s.hart.engine := rfl
@[simp] theorem State.setV_hart_windows (s : State) (r : VReg) (x : VBits) : (s.setV r x).hart.windows = s.hart.windows := rfl
@[simp] theorem State.setV_hart_claims (s : State) (r : VReg) (x : VBits) : (s.setV r x).hart.claims = s.hart.claims := rfl
@[simp] theorem State.setV_hart_queue (s : State) (r : VReg) (x : VBits) : (s.setV r x).hart.queue = s.hart.queue := rfl
@[simp] theorem State.setV_hart_taken (s : State) (r : VReg) (x : VBits) : (s.setV r x).hart.taken = s.hart.taken := rfl
@[simp] theorem State.setV_hart_status (s : State) (r : VReg) (x : VBits) : (s.setV r x).hart.status = s.hart.status := rfl
@[simp] theorem State.setV_hart_barrier (s : State) (r : VReg) (x : VBits) : (s.setV r x).hart.barrier = s.hart.barrier := rfl
@[simp] theorem State.setV_hart_lead (s : State) (r : VReg) (x : VBits) : (s.setV r x).hart.lead = s.hart.lead := rfl

/-! ## setK -/

@[simp] theorem State.setK_others (s : State) (r : MReg) (x : VBits) : (s.setK r x).others = s.others := by unfold State.setK; split <;> rfl
@[simp] theorem State.setK_mem (s : State) (r : MReg) (x : VBits) : (s.setK r x).mem = s.mem := by unfold State.setK; split <;> rfl
@[simp] theorem State.setK_poison (s : State) (r : MReg) (x : VBits) : (s.setK r x).poison = s.poison := by unfold State.setK; split <;> rfl
@[simp] theorem State.setK_dirty (s : State) (r : MReg) (x : VBits) : (s.setK r x).dirty = s.dirty := by unfold State.setK; split <;> rfl
@[simp] theorem State.setK_writes (s : State) (r : MReg) (x : VBits) : (s.setK r x).writes = s.writes := by unfold State.setK; split <;> rfl
@[simp] theorem State.setK_copies (s : State) (r : MReg) (x : VBits) : (s.setK r x).copies = s.copies := by unfold State.setK; split <;> rfl
@[simp] theorem State.setK_slices (s : State) (r : MReg) (x : VBits) : (s.setK r x).slices = s.slices := by unfold State.setK; split <;> rfl
@[simp] theorem State.setK_tlb (s : State) (r : MReg) (x : VBits) : (s.setK r x).tlb = s.tlb := by unfold State.setK; split <;> rfl
@[simp] theorem State.setK_icache (s : State) (r : MReg) (x : VBits) : (s.setK r x).icache = s.icache := by unfold State.setK; split <;> rfl
@[simp] theorem State.setK_lookahead (s : State) (r : MReg) (x : VBits) : (s.setK r x).lookahead = s.lookahead := by unfold State.setK; split <;> rfl
@[simp] theorem State.setK_dies (s : State) (r : MReg) (x : VBits) : (s.setK r x).dies = s.dies := by unfold State.setK; split <;> rfl
@[simp] theorem State.setK_control (s : State) (r : MReg) (x : VBits) : (s.setK r x).control = s.control := by unfold State.setK; split <;> rfl
@[simp] theorem State.setK_pkg (s : State) (r : MReg) (x : VBits) : (s.setK r x).pkg = s.pkg := by unfold State.setK; split <;> rfl
@[simp] theorem State.setK_ports (s : State) (r : MReg) (x : VBits) : (s.setK r x).ports = s.ports := by unfold State.setK; split <;> rfl
@[simp] theorem State.setK_fresh (s : State) (r : MReg) (x : VBits) : (s.setK r x).fresh = s.fresh := by unfold State.setK; split <;> rfl
@[simp] theorem State.setK_hart_pc (s : State) (r : MReg) (x : VBits) : (s.setK r x).hart.pc = s.hart.pc := by unfold State.setK; split <;> rfl
@[simp] theorem State.setK_hart_ir (s : State) (r : MReg) (x : VBits) : (s.setK r x).hart.ir = s.hart.ir := by unfold State.setK; split <;> rfl
@[simp] theorem State.setK_hart_s (s : State) (r : MReg) (x : VBits) : (s.setK r x).hart.s = s.hart.s := by unfold State.setK; split <;> rfl
@[simp] theorem State.setK_hart_v (s : State) (r : MReg) (x : VBits) : (s.setK r x).hart.v = s.hart.v := by unfold State.setK; split <;> rfl
@[simp] theorem State.setK_hart_acc (s : State) (r : MReg) (x : VBits) : (s.setK r x).hart.acc = s.hart.acc := by unfold State.setK; split <;> rfl
@[simp] theorem State.setK_hart_shape (s : State) (r : MReg) (x : VBits) : (s.setK r x).hart.shape = s.hart.shape := by unfold State.setK; split <;> rfl
@[simp] theorem State.setK_hart_fcsr (s : State) (r : MReg) (x : VBits) : (s.setK r x).hart.fcsr = s.hart.fcsr := by unfold State.setK; split <;> rfl
@[simp] theorem State.setK_hart_mxflags (s : State) (r : MReg) (x : VBits) : (s.setK r x).hart.mxflags = s.hart.mxflags := by unfold State.setK; split <;> rfl
@[simp] theorem State.setK_hart_ident (s : State) (r : MReg) (x : VBits) : (s.setK r x).hart.ident = s.hart.ident := by unfold State.setK; split <;> rfl
@[simp] theorem State.setK_hart_rs (s : State) (r : MReg) (x : VBits) : (s.setK r x).hart.rs = s.hart.rs := by unfold State.setK; split <;> rfl
@[simp] theorem State.setK_hart_matrix (s : State) (r : MReg) (x : VBits) : (s.setK r x).hart.matrix = s.hart.matrix := by unfold State.setK; split <;> rfl
@[simp] theorem State.setK_hart_cc (s : State) (r : MReg) (x : VBits) : (s.setK r x).hart.cc = s.hart.cc := by unfold State.setK; split <;> rfl
@[simp] theorem State.setK_hart_engine (s : State) (r : MReg) (x : VBits) : (s.setK r x).hart.engine = s.hart.engine := by unfold State.setK; split <;> rfl
@[simp] theorem State.setK_hart_windows (s : State) (r : MReg) (x : VBits) : (s.setK r x).hart.windows = s.hart.windows := by unfold State.setK; split <;> rfl
@[simp] theorem State.setK_hart_claims (s : State) (r : MReg) (x : VBits) : (s.setK r x).hart.claims = s.hart.claims := by unfold State.setK; split <;> rfl
@[simp] theorem State.setK_hart_queue (s : State) (r : MReg) (x : VBits) : (s.setK r x).hart.queue = s.hart.queue := by unfold State.setK; split <;> rfl
@[simp] theorem State.setK_hart_taken (s : State) (r : MReg) (x : VBits) : (s.setK r x).hart.taken = s.hart.taken := by unfold State.setK; split <;> rfl
@[simp] theorem State.setK_hart_priv (s : State) (r : MReg) (x : VBits) : (s.setK r x).hart.priv = s.hart.priv := by unfold State.setK; split <;> rfl
@[simp] theorem State.setK_hart_status (s : State) (r : MReg) (x : VBits) : (s.setK r x).hart.status = s.hart.status := by unfold State.setK; split <;> rfl
@[simp] theorem State.setK_hart_barrier (s : State) (r : MReg) (x : VBits) : (s.setK r x).hart.barrier = s.hart.barrier := by unfold State.setK; split <;> rfl
@[simp] theorem State.setK_hart_lead (s : State) (r : MReg) (x : VBits) : (s.setK r x).hart.lead = s.hart.lead := by unfold State.setK; split <;> rfl

/-! ## setAcc -/

@[simp] theorem State.setAcc_others (s : State) (t : Tile) (x : TileBits) : (s.setAcc t x).others = s.others := rfl
@[simp] theorem State.setAcc_mem (s : State) (t : Tile) (x : TileBits) : (s.setAcc t x).mem = s.mem := rfl
@[simp] theorem State.setAcc_poison (s : State) (t : Tile) (x : TileBits) : (s.setAcc t x).poison = s.poison := rfl
@[simp] theorem State.setAcc_dirty (s : State) (t : Tile) (x : TileBits) : (s.setAcc t x).dirty = s.dirty := rfl
@[simp] theorem State.setAcc_writes (s : State) (t : Tile) (x : TileBits) : (s.setAcc t x).writes = s.writes := rfl
@[simp] theorem State.setAcc_copies (s : State) (t : Tile) (x : TileBits) : (s.setAcc t x).copies = s.copies := rfl
@[simp] theorem State.setAcc_slices (s : State) (t : Tile) (x : TileBits) : (s.setAcc t x).slices = s.slices := rfl
@[simp] theorem State.setAcc_tlb (s : State) (t : Tile) (x : TileBits) : (s.setAcc t x).tlb = s.tlb := rfl
@[simp] theorem State.setAcc_icache (s : State) (t : Tile) (x : TileBits) : (s.setAcc t x).icache = s.icache := rfl
@[simp] theorem State.setAcc_lookahead (s : State) (t : Tile) (x : TileBits) : (s.setAcc t x).lookahead = s.lookahead := rfl
@[simp] theorem State.setAcc_dies (s : State) (t : Tile) (x : TileBits) : (s.setAcc t x).dies = s.dies := rfl
@[simp] theorem State.setAcc_control (s : State) (t : Tile) (x : TileBits) : (s.setAcc t x).control = s.control := rfl
@[simp] theorem State.setAcc_pkg (s : State) (t : Tile) (x : TileBits) : (s.setAcc t x).pkg = s.pkg := rfl
@[simp] theorem State.setAcc_ports (s : State) (t : Tile) (x : TileBits) : (s.setAcc t x).ports = s.ports := rfl
@[simp] theorem State.setAcc_fresh (s : State) (t : Tile) (x : TileBits) : (s.setAcc t x).fresh = s.fresh := rfl
@[simp] theorem State.setAcc_hart_pc (s : State) (t : Tile) (x : TileBits) : (s.setAcc t x).hart.pc = s.hart.pc := rfl
@[simp] theorem State.setAcc_hart_ir (s : State) (t : Tile) (x : TileBits) : (s.setAcc t x).hart.ir = s.hart.ir := rfl
@[simp] theorem State.setAcc_hart_s (s : State) (t : Tile) (x : TileBits) : (s.setAcc t x).hart.s = s.hart.s := rfl
@[simp] theorem State.setAcc_hart_v (s : State) (t : Tile) (x : TileBits) : (s.setAcc t x).hart.v = s.hart.v := rfl
@[simp] theorem State.setAcc_hart_k (s : State) (t : Tile) (x : TileBits) : (s.setAcc t x).hart.k = s.hart.k := rfl
@[simp] theorem State.setAcc_hart_shape (s : State) (t : Tile) (x : TileBits) : (s.setAcc t x).hart.shape = s.hart.shape := rfl
@[simp] theorem State.setAcc_hart_fcsr (s : State) (t : Tile) (x : TileBits) : (s.setAcc t x).hart.fcsr = s.hart.fcsr := rfl
@[simp] theorem State.setAcc_hart_mxflags (s : State) (t : Tile) (x : TileBits) : (s.setAcc t x).hart.mxflags = s.hart.mxflags := rfl
@[simp] theorem State.setAcc_hart_ident (s : State) (t : Tile) (x : TileBits) : (s.setAcc t x).hart.ident = s.hart.ident := rfl
@[simp] theorem State.setAcc_hart_rs (s : State) (t : Tile) (x : TileBits) : (s.setAcc t x).hart.rs = s.hart.rs := rfl
@[simp] theorem State.setAcc_hart_matrix (s : State) (t : Tile) (x : TileBits) : (s.setAcc t x).hart.matrix = s.hart.matrix := rfl
@[simp] theorem State.setAcc_hart_cc (s : State) (t : Tile) (x : TileBits) : (s.setAcc t x).hart.cc = s.hart.cc := rfl
@[simp] theorem State.setAcc_hart_engine (s : State) (t : Tile) (x : TileBits) : (s.setAcc t x).hart.engine = s.hart.engine := rfl
@[simp] theorem State.setAcc_hart_windows (s : State) (t : Tile) (x : TileBits) : (s.setAcc t x).hart.windows = s.hart.windows := rfl
@[simp] theorem State.setAcc_hart_claims (s : State) (t : Tile) (x : TileBits) : (s.setAcc t x).hart.claims = s.hart.claims := rfl
@[simp] theorem State.setAcc_hart_queue (s : State) (t : Tile) (x : TileBits) : (s.setAcc t x).hart.queue = s.hart.queue := rfl
@[simp] theorem State.setAcc_hart_taken (s : State) (t : Tile) (x : TileBits) : (s.setAcc t x).hart.taken = s.hart.taken := rfl
@[simp] theorem State.setAcc_hart_status (s : State) (t : Tile) (x : TileBits) : (s.setAcc t x).hart.status = s.hart.status := rfl
@[simp] theorem State.setAcc_hart_barrier (s : State) (t : Tile) (x : TileBits) : (s.setAcc t x).hart.barrier = s.hart.barrier := rfl
@[simp] theorem State.setAcc_hart_lead (s : State) (t : Tile) (x : TileBits) : (s.setAcc t x).hart.lead = s.hart.lead := rfl

/-! ## setCC -/

@[simp] theorem State.setCC_others (s : State) (c : CReg) (x : Counter) : (s.setCC c x).others = s.others := rfl
@[simp] theorem State.setCC_mem (s : State) (c : CReg) (x : Counter) : (s.setCC c x).mem = s.mem := rfl
@[simp] theorem State.setCC_poison (s : State) (c : CReg) (x : Counter) : (s.setCC c x).poison = s.poison := rfl
@[simp] theorem State.setCC_dirty (s : State) (c : CReg) (x : Counter) : (s.setCC c x).dirty = s.dirty := rfl
@[simp] theorem State.setCC_writes (s : State) (c : CReg) (x : Counter) : (s.setCC c x).writes = s.writes := rfl
@[simp] theorem State.setCC_copies (s : State) (c : CReg) (x : Counter) : (s.setCC c x).copies = s.copies := rfl
@[simp] theorem State.setCC_slices (s : State) (c : CReg) (x : Counter) : (s.setCC c x).slices = s.slices := rfl
@[simp] theorem State.setCC_tlb (s : State) (c : CReg) (x : Counter) : (s.setCC c x).tlb = s.tlb := rfl
@[simp] theorem State.setCC_icache (s : State) (c : CReg) (x : Counter) : (s.setCC c x).icache = s.icache := rfl
@[simp] theorem State.setCC_lookahead (s : State) (c : CReg) (x : Counter) : (s.setCC c x).lookahead = s.lookahead := rfl
@[simp] theorem State.setCC_dies (s : State) (c : CReg) (x : Counter) : (s.setCC c x).dies = s.dies := rfl
@[simp] theorem State.setCC_control (s : State) (c : CReg) (x : Counter) : (s.setCC c x).control = s.control := rfl
@[simp] theorem State.setCC_pkg (s : State) (c : CReg) (x : Counter) : (s.setCC c x).pkg = s.pkg := rfl
@[simp] theorem State.setCC_ports (s : State) (c : CReg) (x : Counter) : (s.setCC c x).ports = s.ports := rfl
@[simp] theorem State.setCC_fresh (s : State) (c : CReg) (x : Counter) : (s.setCC c x).fresh = s.fresh := rfl
@[simp] theorem State.setCC_hart_pc (s : State) (c : CReg) (x : Counter) : (s.setCC c x).hart.pc = s.hart.pc := rfl
@[simp] theorem State.setCC_hart_ir (s : State) (c : CReg) (x : Counter) : (s.setCC c x).hart.ir = s.hart.ir := rfl
@[simp] theorem State.setCC_hart_s (s : State) (c : CReg) (x : Counter) : (s.setCC c x).hart.s = s.hart.s := rfl
@[simp] theorem State.setCC_hart_v (s : State) (c : CReg) (x : Counter) : (s.setCC c x).hart.v = s.hart.v := rfl
@[simp] theorem State.setCC_hart_k (s : State) (c : CReg) (x : Counter) : (s.setCC c x).hart.k = s.hart.k := rfl
@[simp] theorem State.setCC_hart_acc (s : State) (c : CReg) (x : Counter) : (s.setCC c x).hart.acc = s.hart.acc := rfl
@[simp] theorem State.setCC_hart_shape (s : State) (c : CReg) (x : Counter) : (s.setCC c x).hart.shape = s.hart.shape := rfl
@[simp] theorem State.setCC_hart_fcsr (s : State) (c : CReg) (x : Counter) : (s.setCC c x).hart.fcsr = s.hart.fcsr := rfl
@[simp] theorem State.setCC_hart_mxflags (s : State) (c : CReg) (x : Counter) : (s.setCC c x).hart.mxflags = s.hart.mxflags := rfl
@[simp] theorem State.setCC_hart_ident (s : State) (c : CReg) (x : Counter) : (s.setCC c x).hart.ident = s.hart.ident := rfl
@[simp] theorem State.setCC_hart_rs (s : State) (c : CReg) (x : Counter) : (s.setCC c x).hart.rs = s.hart.rs := rfl
@[simp] theorem State.setCC_hart_matrix (s : State) (c : CReg) (x : Counter) : (s.setCC c x).hart.matrix = s.hart.matrix := rfl
@[simp] theorem State.setCC_hart_engine (s : State) (c : CReg) (x : Counter) : (s.setCC c x).hart.engine = s.hart.engine := rfl
@[simp] theorem State.setCC_hart_windows (s : State) (c : CReg) (x : Counter) : (s.setCC c x).hart.windows = s.hart.windows := rfl
@[simp] theorem State.setCC_hart_claims (s : State) (c : CReg) (x : Counter) : (s.setCC c x).hart.claims = s.hart.claims := rfl
@[simp] theorem State.setCC_hart_queue (s : State) (c : CReg) (x : Counter) : (s.setCC c x).hart.queue = s.hart.queue := rfl
@[simp] theorem State.setCC_hart_taken (s : State) (c : CReg) (x : Counter) : (s.setCC c x).hart.taken = s.hart.taken := rfl
@[simp] theorem State.setCC_hart_priv (s : State) (c : CReg) (x : Counter) : (s.setCC c x).hart.priv = s.hart.priv := rfl
@[simp] theorem State.setCC_hart_status (s : State) (c : CReg) (x : Counter) : (s.setCC c x).hart.status = s.hart.status := rfl
@[simp] theorem State.setCC_hart_ecc (s : State) (c : CReg) (x : Counter) : (s.setCC c x).hart.ecc = s.hart.ecc := rfl
@[simp] theorem State.setCC_hart_barrier (s : State) (c : CReg) (x : Counter) : (s.setCC c x).hart.barrier = s.hart.barrier := rfl
@[simp] theorem State.setCC_hart_lead (s : State) (c : CReg) (x : Counter) : (s.setCC c x).hart.lead = s.hart.lead := rfl

/-! ## setClaim -/

@[simp] theorem State.setClaim_others (s : State) (h : Handle) (x : Claim) : (s.setClaim h x).others = s.others := rfl
@[simp] theorem State.setClaim_mem (s : State) (h : Handle) (x : Claim) : (s.setClaim h x).mem = s.mem := rfl
@[simp] theorem State.setClaim_poison (s : State) (h : Handle) (x : Claim) : (s.setClaim h x).poison = s.poison := rfl
@[simp] theorem State.setClaim_dirty (s : State) (h : Handle) (x : Claim) : (s.setClaim h x).dirty = s.dirty := rfl
@[simp] theorem State.setClaim_writes (s : State) (h : Handle) (x : Claim) : (s.setClaim h x).writes = s.writes := rfl
@[simp] theorem State.setClaim_copies (s : State) (h : Handle) (x : Claim) : (s.setClaim h x).copies = s.copies := rfl
@[simp] theorem State.setClaim_slices (s : State) (h : Handle) (x : Claim) : (s.setClaim h x).slices = s.slices := rfl
@[simp] theorem State.setClaim_tlb (s : State) (h : Handle) (x : Claim) : (s.setClaim h x).tlb = s.tlb := rfl
@[simp] theorem State.setClaim_icache (s : State) (h : Handle) (x : Claim) : (s.setClaim h x).icache = s.icache := rfl
@[simp] theorem State.setClaim_lookahead (s : State) (h : Handle) (x : Claim) : (s.setClaim h x).lookahead = s.lookahead := rfl
@[simp] theorem State.setClaim_dies (s : State) (h : Handle) (x : Claim) : (s.setClaim h x).dies = s.dies := rfl
@[simp] theorem State.setClaim_control (s : State) (h : Handle) (x : Claim) : (s.setClaim h x).control = s.control := rfl
@[simp] theorem State.setClaim_pkg (s : State) (h : Handle) (x : Claim) : (s.setClaim h x).pkg = s.pkg := rfl
@[simp] theorem State.setClaim_ports (s : State) (h : Handle) (x : Claim) : (s.setClaim h x).ports = s.ports := rfl
@[simp] theorem State.setClaim_fresh (s : State) (h : Handle) (x : Claim) : (s.setClaim h x).fresh = s.fresh := rfl
@[simp] theorem State.setClaim_hart_pc (s : State) (h : Handle) (x : Claim) : (s.setClaim h x).hart.pc = s.hart.pc := rfl
@[simp] theorem State.setClaim_hart_ir (s : State) (h : Handle) (x : Claim) : (s.setClaim h x).hart.ir = s.hart.ir := rfl
@[simp] theorem State.setClaim_hart_s (s : State) (h : Handle) (x : Claim) : (s.setClaim h x).hart.s = s.hart.s := rfl
@[simp] theorem State.setClaim_hart_v (s : State) (h : Handle) (x : Claim) : (s.setClaim h x).hart.v = s.hart.v := rfl
@[simp] theorem State.setClaim_hart_k (s : State) (h : Handle) (x : Claim) : (s.setClaim h x).hart.k = s.hart.k := rfl
@[simp] theorem State.setClaim_hart_acc (s : State) (h : Handle) (x : Claim) : (s.setClaim h x).hart.acc = s.hart.acc := rfl
@[simp] theorem State.setClaim_hart_shape (s : State) (h : Handle) (x : Claim) : (s.setClaim h x).hart.shape = s.hart.shape := rfl
@[simp] theorem State.setClaim_hart_fcsr (s : State) (h : Handle) (x : Claim) : (s.setClaim h x).hart.fcsr = s.hart.fcsr := rfl
@[simp] theorem State.setClaim_hart_mxflags (s : State) (h : Handle) (x : Claim) : (s.setClaim h x).hart.mxflags = s.hart.mxflags := rfl
@[simp] theorem State.setClaim_hart_ident (s : State) (h : Handle) (x : Claim) : (s.setClaim h x).hart.ident = s.hart.ident := rfl
@[simp] theorem State.setClaim_hart_rs (s : State) (h : Handle) (x : Claim) : (s.setClaim h x).hart.rs = s.hart.rs := rfl
@[simp] theorem State.setClaim_hart_matrix (s : State) (h : Handle) (x : Claim) : (s.setClaim h x).hart.matrix = s.hart.matrix := rfl
@[simp] theorem State.setClaim_hart_cc (s : State) (h : Handle) (x : Claim) : (s.setClaim h x).hart.cc = s.hart.cc := rfl
@[simp] theorem State.setClaim_hart_engine (s : State) (h : Handle) (x : Claim) : (s.setClaim h x).hart.engine = s.hart.engine := rfl
@[simp] theorem State.setClaim_hart_windows (s : State) (h : Handle) (x : Claim) : (s.setClaim h x).hart.windows = s.hart.windows := rfl
@[simp] theorem State.setClaim_hart_queue (s : State) (h : Handle) (x : Claim) : (s.setClaim h x).hart.queue = s.hart.queue := rfl
@[simp] theorem State.setClaim_hart_taken (s : State) (h : Handle) (x : Claim) : (s.setClaim h x).hart.taken = s.hart.taken := rfl
@[simp] theorem State.setClaim_hart_priv (s : State) (h : Handle) (x : Claim) : (s.setClaim h x).hart.priv = s.hart.priv := rfl
@[simp] theorem State.setClaim_hart_status (s : State) (h : Handle) (x : Claim) : (s.setClaim h x).hart.status = s.hart.status := rfl
@[simp] theorem State.setClaim_hart_ecc (s : State) (h : Handle) (x : Claim) : (s.setClaim h x).hart.ecc = s.hart.ecc := rfl
@[simp] theorem State.setClaim_hart_barrier (s : State) (h : Handle) (x : Claim) : (s.setClaim h x).hart.barrier = s.hart.barrier := rfl
@[simp] theorem State.setClaim_hart_lead (s : State) (h : Handle) (x : Claim) : (s.setClaim h x).hart.lead = s.hart.lead := rfl

/-! ## setWindow -/

@[simp] theorem State.setWindow_others (s : State) (w : WinId) (x : Window) : (s.setWindow w x).others = s.others := rfl
@[simp] theorem State.setWindow_mem (s : State) (w : WinId) (x : Window) : (s.setWindow w x).mem = s.mem := rfl
@[simp] theorem State.setWindow_poison (s : State) (w : WinId) (x : Window) : (s.setWindow w x).poison = s.poison := rfl
@[simp] theorem State.setWindow_dirty (s : State) (w : WinId) (x : Window) : (s.setWindow w x).dirty = s.dirty := rfl
@[simp] theorem State.setWindow_writes (s : State) (w : WinId) (x : Window) : (s.setWindow w x).writes = s.writes := rfl
@[simp] theorem State.setWindow_copies (s : State) (w : WinId) (x : Window) : (s.setWindow w x).copies = s.copies := rfl
@[simp] theorem State.setWindow_slices (s : State) (w : WinId) (x : Window) : (s.setWindow w x).slices = s.slices := rfl
@[simp] theorem State.setWindow_tlb (s : State) (w : WinId) (x : Window) : (s.setWindow w x).tlb = s.tlb := rfl
@[simp] theorem State.setWindow_icache (s : State) (w : WinId) (x : Window) : (s.setWindow w x).icache = s.icache := rfl
@[simp] theorem State.setWindow_lookahead (s : State) (w : WinId) (x : Window) : (s.setWindow w x).lookahead = s.lookahead := rfl
@[simp] theorem State.setWindow_dies (s : State) (w : WinId) (x : Window) : (s.setWindow w x).dies = s.dies := rfl
@[simp] theorem State.setWindow_control (s : State) (w : WinId) (x : Window) : (s.setWindow w x).control = s.control := rfl
@[simp] theorem State.setWindow_pkg (s : State) (w : WinId) (x : Window) : (s.setWindow w x).pkg = s.pkg := rfl
@[simp] theorem State.setWindow_ports (s : State) (w : WinId) (x : Window) : (s.setWindow w x).ports = s.ports := rfl
@[simp] theorem State.setWindow_fresh (s : State) (w : WinId) (x : Window) : (s.setWindow w x).fresh = s.fresh := rfl
@[simp] theorem State.setWindow_hart_pc (s : State) (w : WinId) (x : Window) : (s.setWindow w x).hart.pc = s.hart.pc := rfl
@[simp] theorem State.setWindow_hart_ir (s : State) (w : WinId) (x : Window) : (s.setWindow w x).hart.ir = s.hart.ir := rfl
@[simp] theorem State.setWindow_hart_s (s : State) (w : WinId) (x : Window) : (s.setWindow w x).hart.s = s.hart.s := rfl
@[simp] theorem State.setWindow_hart_v (s : State) (w : WinId) (x : Window) : (s.setWindow w x).hart.v = s.hart.v := rfl
@[simp] theorem State.setWindow_hart_k (s : State) (w : WinId) (x : Window) : (s.setWindow w x).hart.k = s.hart.k := rfl
@[simp] theorem State.setWindow_hart_acc (s : State) (w : WinId) (x : Window) : (s.setWindow w x).hart.acc = s.hart.acc := rfl
@[simp] theorem State.setWindow_hart_shape (s : State) (w : WinId) (x : Window) : (s.setWindow w x).hart.shape = s.hart.shape := rfl
@[simp] theorem State.setWindow_hart_fcsr (s : State) (w : WinId) (x : Window) : (s.setWindow w x).hart.fcsr = s.hart.fcsr := rfl
@[simp] theorem State.setWindow_hart_mxflags (s : State) (w : WinId) (x : Window) : (s.setWindow w x).hart.mxflags = s.hart.mxflags := rfl
@[simp] theorem State.setWindow_hart_ident (s : State) (w : WinId) (x : Window) : (s.setWindow w x).hart.ident = s.hart.ident := rfl
@[simp] theorem State.setWindow_hart_rs (s : State) (w : WinId) (x : Window) : (s.setWindow w x).hart.rs = s.hart.rs := rfl
@[simp] theorem State.setWindow_hart_matrix (s : State) (w : WinId) (x : Window) : (s.setWindow w x).hart.matrix = s.hart.matrix := rfl
@[simp] theorem State.setWindow_hart_cc (s : State) (w : WinId) (x : Window) : (s.setWindow w x).hart.cc = s.hart.cc := rfl
@[simp] theorem State.setWindow_hart_engine (s : State) (w : WinId) (x : Window) : (s.setWindow w x).hart.engine = s.hart.engine := rfl
@[simp] theorem State.setWindow_hart_claims (s : State) (w : WinId) (x : Window) : (s.setWindow w x).hart.claims = s.hart.claims := rfl
@[simp] theorem State.setWindow_hart_queue (s : State) (w : WinId) (x : Window) : (s.setWindow w x).hart.queue = s.hart.queue := rfl
@[simp] theorem State.setWindow_hart_taken (s : State) (w : WinId) (x : Window) : (s.setWindow w x).hart.taken = s.hart.taken := rfl
@[simp] theorem State.setWindow_hart_priv (s : State) (w : WinId) (x : Window) : (s.setWindow w x).hart.priv = s.hart.priv := rfl
@[simp] theorem State.setWindow_hart_status (s : State) (w : WinId) (x : Window) : (s.setWindow w x).hart.status = s.hart.status := rfl
@[simp] theorem State.setWindow_hart_ecc (s : State) (w : WinId) (x : Window) : (s.setWindow w x).hart.ecc = s.hart.ecc := rfl
@[simp] theorem State.setWindow_hart_barrier (s : State) (w : WinId) (x : Window) : (s.setWindow w x).hart.barrier = s.hart.barrier := rfl
@[simp] theorem State.setWindow_hart_lead (s : State) (w : WinId) (x : Window) : (s.setWindow w x).hart.lead = s.hart.lead := rfl

/-! ## setPc -/

@[simp] theorem State.setPc_others (s : State) (x : Word) : (s.setPc x).others = s.others := rfl
@[simp] theorem State.setPc_mem (s : State) (x : Word) : (s.setPc x).mem = s.mem := rfl
@[simp] theorem State.setPc_poison (s : State) (x : Word) : (s.setPc x).poison = s.poison := rfl
@[simp] theorem State.setPc_dirty (s : State) (x : Word) : (s.setPc x).dirty = s.dirty := rfl
@[simp] theorem State.setPc_writes (s : State) (x : Word) : (s.setPc x).writes = s.writes := rfl
@[simp] theorem State.setPc_copies (s : State) (x : Word) : (s.setPc x).copies = s.copies := rfl
@[simp] theorem State.setPc_slices (s : State) (x : Word) : (s.setPc x).slices = s.slices := rfl
@[simp] theorem State.setPc_tlb (s : State) (x : Word) : (s.setPc x).tlb = s.tlb := rfl
@[simp] theorem State.setPc_icache (s : State) (x : Word) : (s.setPc x).icache = s.icache := rfl
@[simp] theorem State.setPc_lookahead (s : State) (x : Word) : (s.setPc x).lookahead = s.lookahead := rfl
@[simp] theorem State.setPc_dies (s : State) (x : Word) : (s.setPc x).dies = s.dies := rfl
@[simp] theorem State.setPc_control (s : State) (x : Word) : (s.setPc x).control = s.control := rfl
@[simp] theorem State.setPc_pkg (s : State) (x : Word) : (s.setPc x).pkg = s.pkg := rfl
@[simp] theorem State.setPc_ports (s : State) (x : Word) : (s.setPc x).ports = s.ports := rfl
@[simp] theorem State.setPc_fresh (s : State) (x : Word) : (s.setPc x).fresh = s.fresh := rfl
@[simp] theorem State.setPc_hart_ir (s : State) (x : Word) : (s.setPc x).hart.ir = s.hart.ir := rfl
@[simp] theorem State.setPc_hart_s (s : State) (x : Word) : (s.setPc x).hart.s = s.hart.s := rfl
@[simp] theorem State.setPc_hart_v (s : State) (x : Word) : (s.setPc x).hart.v = s.hart.v := rfl
@[simp] theorem State.setPc_hart_k (s : State) (x : Word) : (s.setPc x).hart.k = s.hart.k := rfl
@[simp] theorem State.setPc_hart_acc (s : State) (x : Word) : (s.setPc x).hart.acc = s.hart.acc := rfl
@[simp] theorem State.setPc_hart_shape (s : State) (x : Word) : (s.setPc x).hart.shape = s.hart.shape := rfl
@[simp] theorem State.setPc_hart_fcsr (s : State) (x : Word) : (s.setPc x).hart.fcsr = s.hart.fcsr := rfl
@[simp] theorem State.setPc_hart_mxflags (s : State) (x : Word) : (s.setPc x).hart.mxflags = s.hart.mxflags := rfl
@[simp] theorem State.setPc_hart_ident (s : State) (x : Word) : (s.setPc x).hart.ident = s.hart.ident := rfl
@[simp] theorem State.setPc_hart_rs (s : State) (x : Word) : (s.setPc x).hart.rs = s.hart.rs := rfl
@[simp] theorem State.setPc_hart_matrix (s : State) (x : Word) : (s.setPc x).hart.matrix = s.hart.matrix := rfl
@[simp] theorem State.setPc_hart_cc (s : State) (x : Word) : (s.setPc x).hart.cc = s.hart.cc := rfl
@[simp] theorem State.setPc_hart_engine (s : State) (x : Word) : (s.setPc x).hart.engine = s.hart.engine := rfl
@[simp] theorem State.setPc_hart_windows (s : State) (x : Word) : (s.setPc x).hart.windows = s.hart.windows := rfl
@[simp] theorem State.setPc_hart_claims (s : State) (x : Word) : (s.setPc x).hart.claims = s.hart.claims := rfl
@[simp] theorem State.setPc_hart_queue (s : State) (x : Word) : (s.setPc x).hart.queue = s.hart.queue := rfl
@[simp] theorem State.setPc_hart_taken (s : State) (x : Word) : (s.setPc x).hart.taken = s.hart.taken := rfl
@[simp] theorem State.setPc_hart_priv (s : State) (x : Word) : (s.setPc x).hart.priv = s.hart.priv := rfl
@[simp] theorem State.setPc_hart_status (s : State) (x : Word) : (s.setPc x).hart.status = s.hart.status := rfl
@[simp] theorem State.setPc_hart_ecc (s : State) (x : Word) : (s.setPc x).hart.ecc = s.hart.ecc := rfl
@[simp] theorem State.setPc_hart_barrier (s : State) (x : Word) : (s.setPc x).hart.barrier = s.hart.barrier := rfl
@[simp] theorem State.setPc_hart_lead (s : State) (x : Word) : (s.setPc x).hart.lead = s.hart.lead := rfl

/-! ## advance -/

@[simp] theorem State.advance_others (s : State) : s.advance.others = s.others := rfl
@[simp] theorem State.advance_mem (s : State) : s.advance.mem = s.mem := rfl
@[simp] theorem State.advance_poison (s : State) : s.advance.poison = s.poison := rfl
@[simp] theorem State.advance_dirty (s : State) : s.advance.dirty = s.dirty := rfl
@[simp] theorem State.advance_writes (s : State) : s.advance.writes = s.writes := rfl
@[simp] theorem State.advance_copies (s : State) : s.advance.copies = s.copies := rfl
@[simp] theorem State.advance_slices (s : State) : s.advance.slices = s.slices := rfl
@[simp] theorem State.advance_tlb (s : State) : s.advance.tlb = s.tlb := rfl
@[simp] theorem State.advance_icache (s : State) : s.advance.icache = s.icache := rfl
@[simp] theorem State.advance_lookahead (s : State) : s.advance.lookahead = s.lookahead := rfl
@[simp] theorem State.advance_dies (s : State) : s.advance.dies = s.dies := rfl
@[simp] theorem State.advance_control (s : State) : s.advance.control = s.control := rfl
@[simp] theorem State.advance_pkg (s : State) : s.advance.pkg = s.pkg := rfl
@[simp] theorem State.advance_ports (s : State) : s.advance.ports = s.ports := rfl
@[simp] theorem State.advance_fresh (s : State) : s.advance.fresh = s.fresh := rfl
@[simp] theorem State.advance_hart_ir (s : State) : s.advance.hart.ir = s.hart.ir := rfl
@[simp] theorem State.advance_hart_s (s : State) : s.advance.hart.s = s.hart.s := rfl
@[simp] theorem State.advance_hart_v (s : State) : s.advance.hart.v = s.hart.v := rfl
@[simp] theorem State.advance_hart_k (s : State) : s.advance.hart.k = s.hart.k := rfl
@[simp] theorem State.advance_hart_acc (s : State) : s.advance.hart.acc = s.hart.acc := rfl
@[simp] theorem State.advance_hart_shape (s : State) : s.advance.hart.shape = s.hart.shape := rfl
@[simp] theorem State.advance_hart_fcsr (s : State) : s.advance.hart.fcsr = s.hart.fcsr := rfl
@[simp] theorem State.advance_hart_mxflags (s : State) : s.advance.hart.mxflags = s.hart.mxflags := rfl
@[simp] theorem State.advance_hart_ident (s : State) : s.advance.hart.ident = s.hart.ident := rfl
@[simp] theorem State.advance_hart_rs (s : State) : s.advance.hart.rs = s.hart.rs := rfl
@[simp] theorem State.advance_hart_matrix (s : State) : s.advance.hart.matrix = s.hart.matrix := rfl
@[simp] theorem State.advance_hart_cc (s : State) : s.advance.hart.cc = s.hart.cc := rfl
@[simp] theorem State.advance_hart_engine (s : State) : s.advance.hart.engine = s.hart.engine := rfl
@[simp] theorem State.advance_hart_windows (s : State) : s.advance.hart.windows = s.hart.windows := rfl
@[simp] theorem State.advance_hart_claims (s : State) : s.advance.hart.claims = s.hart.claims := rfl
@[simp] theorem State.advance_hart_queue (s : State) : s.advance.hart.queue = s.hart.queue := rfl
@[simp] theorem State.advance_hart_taken (s : State) : s.advance.hart.taken = s.hart.taken := rfl
@[simp] theorem State.advance_hart_priv (s : State) : s.advance.hart.priv = s.hart.priv := rfl
@[simp] theorem State.advance_hart_status (s : State) : s.advance.hart.status = s.hart.status := rfl
@[simp] theorem State.advance_hart_ecc (s : State) : s.advance.hart.ecc = s.hart.ecc := rfl
@[simp] theorem State.advance_hart_barrier (s : State) : s.advance.hart.barrier = s.hart.barrier := rfl
@[simp] theorem State.advance_hart_lead (s : State) : s.advance.hart.lead = s.hart.lead := rfl

/-! ## setStart -/

@[simp] theorem State.setStart_others (s : State) (x : BitVec 15) : (s.setStart x).others = s.others := rfl
@[simp] theorem State.setStart_mem (s : State) (x : BitVec 15) : (s.setStart x).mem = s.mem := rfl
@[simp] theorem State.setStart_poison (s : State) (x : BitVec 15) : (s.setStart x).poison = s.poison := rfl
@[simp] theorem State.setStart_dirty (s : State) (x : BitVec 15) : (s.setStart x).dirty = s.dirty := rfl
@[simp] theorem State.setStart_writes (s : State) (x : BitVec 15) : (s.setStart x).writes = s.writes := rfl
@[simp] theorem State.setStart_copies (s : State) (x : BitVec 15) : (s.setStart x).copies = s.copies := rfl
@[simp] theorem State.setStart_slices (s : State) (x : BitVec 15) : (s.setStart x).slices = s.slices := rfl
@[simp] theorem State.setStart_tlb (s : State) (x : BitVec 15) : (s.setStart x).tlb = s.tlb := rfl
@[simp] theorem State.setStart_icache (s : State) (x : BitVec 15) : (s.setStart x).icache = s.icache := rfl
@[simp] theorem State.setStart_lookahead (s : State) (x : BitVec 15) : (s.setStart x).lookahead = s.lookahead := rfl
@[simp] theorem State.setStart_dies (s : State) (x : BitVec 15) : (s.setStart x).dies = s.dies := rfl
@[simp] theorem State.setStart_control (s : State) (x : BitVec 15) : (s.setStart x).control = s.control := rfl
@[simp] theorem State.setStart_pkg (s : State) (x : BitVec 15) : (s.setStart x).pkg = s.pkg := rfl
@[simp] theorem State.setStart_ports (s : State) (x : BitVec 15) : (s.setStart x).ports = s.ports := rfl
@[simp] theorem State.setStart_fresh (s : State) (x : BitVec 15) : (s.setStart x).fresh = s.fresh := rfl
@[simp] theorem State.setStart_hart_pc (s : State) (x : BitVec 15) : (s.setStart x).hart.pc = s.hart.pc := rfl
@[simp] theorem State.setStart_hart_ir (s : State) (x : BitVec 15) : (s.setStart x).hart.ir = s.hart.ir := rfl
@[simp] theorem State.setStart_hart_s (s : State) (x : BitVec 15) : (s.setStart x).hart.s = s.hart.s := rfl
@[simp] theorem State.setStart_hart_v (s : State) (x : BitVec 15) : (s.setStart x).hart.v = s.hart.v := rfl
@[simp] theorem State.setStart_hart_k (s : State) (x : BitVec 15) : (s.setStart x).hart.k = s.hart.k := rfl
@[simp] theorem State.setStart_hart_acc (s : State) (x : BitVec 15) : (s.setStart x).hart.acc = s.hart.acc := rfl
@[simp] theorem State.setStart_hart_fcsr (s : State) (x : BitVec 15) : (s.setStart x).hart.fcsr = s.hart.fcsr := rfl
@[simp] theorem State.setStart_hart_mxflags (s : State) (x : BitVec 15) : (s.setStart x).hart.mxflags = s.hart.mxflags := rfl
@[simp] theorem State.setStart_hart_ident (s : State) (x : BitVec 15) : (s.setStart x).hart.ident = s.hart.ident := rfl
@[simp] theorem State.setStart_hart_rs (s : State) (x : BitVec 15) : (s.setStart x).hart.rs = s.hart.rs := rfl
@[simp] theorem State.setStart_hart_matrix (s : State) (x : BitVec 15) : (s.setStart x).hart.matrix = s.hart.matrix := rfl
@[simp] theorem State.setStart_hart_cc (s : State) (x : BitVec 15) : (s.setStart x).hart.cc = s.hart.cc := rfl
@[simp] theorem State.setStart_hart_engine (s : State) (x : BitVec 15) : (s.setStart x).hart.engine = s.hart.engine := rfl
@[simp] theorem State.setStart_hart_windows (s : State) (x : BitVec 15) : (s.setStart x).hart.windows = s.hart.windows := rfl
@[simp] theorem State.setStart_hart_claims (s : State) (x : BitVec 15) : (s.setStart x).hart.claims = s.hart.claims := rfl
@[simp] theorem State.setStart_hart_queue (s : State) (x : BitVec 15) : (s.setStart x).hart.queue = s.hart.queue := rfl
@[simp] theorem State.setStart_hart_taken (s : State) (x : BitVec 15) : (s.setStart x).hart.taken = s.hart.taken := rfl
@[simp] theorem State.setStart_hart_priv (s : State) (x : BitVec 15) : (s.setStart x).hart.priv = s.hart.priv := rfl
@[simp] theorem State.setStart_hart_status (s : State) (x : BitVec 15) : (s.setStart x).hart.status = s.hart.status := rfl
@[simp] theorem State.setStart_hart_ecc (s : State) (x : BitVec 15) : (s.setStart x).hart.ecc = s.hart.ecc := rfl
@[simp] theorem State.setStart_hart_barrier (s : State) (x : BitVec 15) : (s.setStart x).hart.barrier = s.hart.barrier := rfl
@[simp] theorem State.setStart_hart_lead (s : State) (x : BitVec 15) : (s.setStart x).hart.lead = s.hart.lead := rfl

/-! ## orFlags -/

@[simp] theorem State.orFlags_others (s : State) (f : BitVec 5) : (s.orFlags f).others = s.others := rfl
@[simp] theorem State.orFlags_mem (s : State) (f : BitVec 5) : (s.orFlags f).mem = s.mem := rfl
@[simp] theorem State.orFlags_poison (s : State) (f : BitVec 5) : (s.orFlags f).poison = s.poison := rfl
@[simp] theorem State.orFlags_dirty (s : State) (f : BitVec 5) : (s.orFlags f).dirty = s.dirty := rfl
@[simp] theorem State.orFlags_writes (s : State) (f : BitVec 5) : (s.orFlags f).writes = s.writes := rfl
@[simp] theorem State.orFlags_copies (s : State) (f : BitVec 5) : (s.orFlags f).copies = s.copies := rfl
@[simp] theorem State.orFlags_slices (s : State) (f : BitVec 5) : (s.orFlags f).slices = s.slices := rfl
@[simp] theorem State.orFlags_tlb (s : State) (f : BitVec 5) : (s.orFlags f).tlb = s.tlb := rfl
@[simp] theorem State.orFlags_icache (s : State) (f : BitVec 5) : (s.orFlags f).icache = s.icache := rfl
@[simp] theorem State.orFlags_lookahead (s : State) (f : BitVec 5) : (s.orFlags f).lookahead = s.lookahead := rfl
@[simp] theorem State.orFlags_dies (s : State) (f : BitVec 5) : (s.orFlags f).dies = s.dies := rfl
@[simp] theorem State.orFlags_control (s : State) (f : BitVec 5) : (s.orFlags f).control = s.control := rfl
@[simp] theorem State.orFlags_pkg (s : State) (f : BitVec 5) : (s.orFlags f).pkg = s.pkg := rfl
@[simp] theorem State.orFlags_ports (s : State) (f : BitVec 5) : (s.orFlags f).ports = s.ports := rfl
@[simp] theorem State.orFlags_fresh (s : State) (f : BitVec 5) : (s.orFlags f).fresh = s.fresh := rfl
@[simp] theorem State.orFlags_hart_pc (s : State) (f : BitVec 5) : (s.orFlags f).hart.pc = s.hart.pc := rfl
@[simp] theorem State.orFlags_hart_ir (s : State) (f : BitVec 5) : (s.orFlags f).hart.ir = s.hart.ir := rfl
@[simp] theorem State.orFlags_hart_s (s : State) (f : BitVec 5) : (s.orFlags f).hart.s = s.hart.s := rfl
@[simp] theorem State.orFlags_hart_v (s : State) (f : BitVec 5) : (s.orFlags f).hart.v = s.hart.v := rfl
@[simp] theorem State.orFlags_hart_k (s : State) (f : BitVec 5) : (s.orFlags f).hart.k = s.hart.k := rfl
@[simp] theorem State.orFlags_hart_acc (s : State) (f : BitVec 5) : (s.orFlags f).hart.acc = s.hart.acc := rfl
@[simp] theorem State.orFlags_hart_shape (s : State) (f : BitVec 5) : (s.orFlags f).hart.shape = s.hart.shape := rfl
@[simp] theorem State.orFlags_hart_mxflags (s : State) (f : BitVec 5) : (s.orFlags f).hart.mxflags = s.hart.mxflags := rfl
@[simp] theorem State.orFlags_hart_ident (s : State) (f : BitVec 5) : (s.orFlags f).hart.ident = s.hart.ident := rfl
@[simp] theorem State.orFlags_hart_rs (s : State) (f : BitVec 5) : (s.orFlags f).hart.rs = s.hart.rs := rfl
@[simp] theorem State.orFlags_hart_matrix (s : State) (f : BitVec 5) : (s.orFlags f).hart.matrix = s.hart.matrix := rfl
@[simp] theorem State.orFlags_hart_cc (s : State) (f : BitVec 5) : (s.orFlags f).hart.cc = s.hart.cc := rfl
@[simp] theorem State.orFlags_hart_engine (s : State) (f : BitVec 5) : (s.orFlags f).hart.engine = s.hart.engine := rfl
@[simp] theorem State.orFlags_hart_windows (s : State) (f : BitVec 5) : (s.orFlags f).hart.windows = s.hart.windows := rfl
@[simp] theorem State.orFlags_hart_claims (s : State) (f : BitVec 5) : (s.orFlags f).hart.claims = s.hart.claims := rfl
@[simp] theorem State.orFlags_hart_queue (s : State) (f : BitVec 5) : (s.orFlags f).hart.queue = s.hart.queue := rfl
@[simp] theorem State.orFlags_hart_taken (s : State) (f : BitVec 5) : (s.orFlags f).hart.taken = s.hart.taken := rfl
@[simp] theorem State.orFlags_hart_priv (s : State) (f : BitVec 5) : (s.orFlags f).hart.priv = s.hart.priv := rfl
@[simp] theorem State.orFlags_hart_status (s : State) (f : BitVec 5) : (s.orFlags f).hart.status = s.hart.status := rfl
@[simp] theorem State.orFlags_hart_ecc (s : State) (f : BitVec 5) : (s.orFlags f).hart.ecc = s.hart.ecc := rfl
@[simp] theorem State.orFlags_hart_barrier (s : State) (f : BitVec 5) : (s.orFlags f).hart.barrier = s.hart.barrier := rfl
@[simp] theorem State.orFlags_hart_lead (s : State) (f : BitVec 5) : (s.orFlags f).hart.lead = s.hart.lead := rfl

/-! ## orMx -/

@[simp] theorem State.orMx_others (s : State) (f : BitVec 2) : (s.orMx f).others = s.others := rfl
@[simp] theorem State.orMx_mem (s : State) (f : BitVec 2) : (s.orMx f).mem = s.mem := rfl
@[simp] theorem State.orMx_poison (s : State) (f : BitVec 2) : (s.orMx f).poison = s.poison := rfl
@[simp] theorem State.orMx_dirty (s : State) (f : BitVec 2) : (s.orMx f).dirty = s.dirty := rfl
@[simp] theorem State.orMx_writes (s : State) (f : BitVec 2) : (s.orMx f).writes = s.writes := rfl
@[simp] theorem State.orMx_copies (s : State) (f : BitVec 2) : (s.orMx f).copies = s.copies := rfl
@[simp] theorem State.orMx_slices (s : State) (f : BitVec 2) : (s.orMx f).slices = s.slices := rfl
@[simp] theorem State.orMx_tlb (s : State) (f : BitVec 2) : (s.orMx f).tlb = s.tlb := rfl
@[simp] theorem State.orMx_icache (s : State) (f : BitVec 2) : (s.orMx f).icache = s.icache := rfl
@[simp] theorem State.orMx_lookahead (s : State) (f : BitVec 2) : (s.orMx f).lookahead = s.lookahead := rfl
@[simp] theorem State.orMx_dies (s : State) (f : BitVec 2) : (s.orMx f).dies = s.dies := rfl
@[simp] theorem State.orMx_control (s : State) (f : BitVec 2) : (s.orMx f).control = s.control := rfl
@[simp] theorem State.orMx_pkg (s : State) (f : BitVec 2) : (s.orMx f).pkg = s.pkg := rfl
@[simp] theorem State.orMx_ports (s : State) (f : BitVec 2) : (s.orMx f).ports = s.ports := rfl
@[simp] theorem State.orMx_fresh (s : State) (f : BitVec 2) : (s.orMx f).fresh = s.fresh := rfl
@[simp] theorem State.orMx_hart_pc (s : State) (f : BitVec 2) : (s.orMx f).hart.pc = s.hart.pc := rfl
@[simp] theorem State.orMx_hart_ir (s : State) (f : BitVec 2) : (s.orMx f).hart.ir = s.hart.ir := rfl
@[simp] theorem State.orMx_hart_s (s : State) (f : BitVec 2) : (s.orMx f).hart.s = s.hart.s := rfl
@[simp] theorem State.orMx_hart_v (s : State) (f : BitVec 2) : (s.orMx f).hart.v = s.hart.v := rfl
@[simp] theorem State.orMx_hart_k (s : State) (f : BitVec 2) : (s.orMx f).hart.k = s.hart.k := rfl
@[simp] theorem State.orMx_hart_acc (s : State) (f : BitVec 2) : (s.orMx f).hart.acc = s.hart.acc := rfl
@[simp] theorem State.orMx_hart_shape (s : State) (f : BitVec 2) : (s.orMx f).hart.shape = s.hart.shape := rfl
@[simp] theorem State.orMx_hart_fcsr (s : State) (f : BitVec 2) : (s.orMx f).hart.fcsr = s.hart.fcsr := rfl
@[simp] theorem State.orMx_hart_ident (s : State) (f : BitVec 2) : (s.orMx f).hart.ident = s.hart.ident := rfl
@[simp] theorem State.orMx_hart_rs (s : State) (f : BitVec 2) : (s.orMx f).hart.rs = s.hart.rs := rfl
@[simp] theorem State.orMx_hart_matrix (s : State) (f : BitVec 2) : (s.orMx f).hart.matrix = s.hart.matrix := rfl
@[simp] theorem State.orMx_hart_cc (s : State) (f : BitVec 2) : (s.orMx f).hart.cc = s.hart.cc := rfl
@[simp] theorem State.orMx_hart_engine (s : State) (f : BitVec 2) : (s.orMx f).hart.engine = s.hart.engine := rfl
@[simp] theorem State.orMx_hart_windows (s : State) (f : BitVec 2) : (s.orMx f).hart.windows = s.hart.windows := rfl
@[simp] theorem State.orMx_hart_claims (s : State) (f : BitVec 2) : (s.orMx f).hart.claims = s.hart.claims := rfl
@[simp] theorem State.orMx_hart_queue (s : State) (f : BitVec 2) : (s.orMx f).hart.queue = s.hart.queue := rfl
@[simp] theorem State.orMx_hart_taken (s : State) (f : BitVec 2) : (s.orMx f).hart.taken = s.hart.taken := rfl
@[simp] theorem State.orMx_hart_priv (s : State) (f : BitVec 2) : (s.orMx f).hart.priv = s.hart.priv := rfl
@[simp] theorem State.orMx_hart_status (s : State) (f : BitVec 2) : (s.orMx f).hart.status = s.hart.status := rfl
@[simp] theorem State.orMx_hart_ecc (s : State) (f : BitVec 2) : (s.orMx f).hart.ecc = s.hart.ecc := rfl
@[simp] theorem State.orMx_hart_barrier (s : State) (f : BitVec 2) : (s.orMx f).hart.barrier = s.hart.barrier := rfl
@[simp] theorem State.orMx_hart_lead (s : State) (f : BitVec 2) : (s.orMx f).hart.lead = s.hart.lead := rfl

/-! ## What an operation gives to the field it changes -/

@[simp] theorem State.setPc_hart_pc (s : State) (x : Word) : (s.setPc x).hart.pc = x := rfl
@[simp] theorem State.advance_hart_pc (s : State) : s.advance.hart.pc = s.hart.pc + 4 := rfl
@[simp] theorem State.setStart_hart_vstart (s : State) (x : BitVec 15) : (s.setStart x).hart.shape.vstart = x := rfl
@[simp] theorem State.setV_hart_tvec (s : State) (r : VReg) (x : VBits) : (s.setV r x).hart.priv.tvec = s.hart.priv.tvec := rfl
@[simp] theorem State.setV_hart_vdirty (s : State) (r : VReg) (x : VBits) :
    (s.setV r x).hart.priv.vdirty = s.hart.priv.vdirty ||| 1#32 <<< r.val := rfl
@[simp] theorem State.setAcc_hart_adirty (s : State) (t : Tile) (x : TileBits) :
    (s.setAcc t x).hart.priv.adirty = s.hart.priv.adirty ||| 1#8 <<< t.val := rfl

/-! ## Reads after writes -/

theorem State.getS_zero (s : State) : s.getS 0 = 0 := rfl

theorem State.getS_setS_same (s : State) (r : SReg) (x : Word) (h : r ≠ 0) : (s.setS r x).getS r = x := by
  simp [State.getS, State.setS, h]

theorem State.getS_setS_other (s : State) (r q : SReg) (x : Word) (h : q ≠ r) : (s.setS r x).getS q = s.getS q := by
  have : ¬ r.val = q.val := fun e => h (Fin.ext e.symm)
  unfold State.getS State.setS
  split
  · rfl
  · split
    · rfl
    · simp [Vector.getElem_set_ne, this]

@[simp] theorem State.getS_advance (s : State) (r : SReg) : s.advance.getS r = s.getS r := rfl
@[simp] theorem State.getS_setPc (s : State) (r : SReg) (x : Word) : (s.setPc x).getS r = s.getS r := rfl

theorem State.getV_setV_same (s : State) (r : VReg) (x : VBits) : (s.setV r x).getV r = x := by
  simp [State.getV, State.setV]

theorem State.getV_setV_other (s : State) (r q : VReg) (x : VBits) (h : q ≠ r) : (s.setV r x).getV q = s.getV q := by
  have : ¬ r.val = q.val := fun e => h (Fin.ext e.symm)
  simp [State.getV, State.setV, Vector.getElem_set_ne, this]

theorem State.getK_zero (s : State) : s.getK 0 = -1 := rfl

theorem State.getK_setK_same (s : State) (r : MReg) (x : VBits) (h : r ≠ 0) : (s.setK r x).getK r = x := by
  simp [State.getK, State.setK, h]

theorem State.getK_setK_other (s : State) (r q : MReg) (x : VBits) (h : q ≠ r) : (s.setK r x).getK q = s.getK q := by
  have : ¬ r.val = q.val := fun e => h (Fin.ext e.symm)
  unfold State.getK State.setK
  split
  · rfl
  · split
    · rfl
    · simp [Vector.getElem_set_ne, this]

theorem State.getAcc_setAcc_same (s : State) (t : Tile) (x : TileBits) : (s.setAcc t x).getAcc t = x := by
  simp [State.getAcc, State.setAcc]

theorem State.getAcc_setAcc_other (s : State) (t u : Tile) (x : TileBits) (h : u ≠ t) : (s.setAcc t x).getAcc u = s.getAcc u := by
  have : ¬ t.val = u.val := fun e => h (Fin.ext e.symm)
  simp [State.getAcc, State.setAcc, Vector.getElem_set_ne, this]

theorem State.orFlags_zero (s : State) : s.orFlags 0 = s := by
  simp [State.orFlags]

theorem State.orMx_zero (s : State) : s.orMx 0 = s := by
  simp [State.orMx]

/-! ## The error log (18 R320) -/

/-- A log entry changes the dies, what is sent and the count of free values. -/
theorem State.logEntry_eq (s : State) (d : Nat) (e : LogEntry) : s.logEntry d e =
    { s with dies := (s.logEntry d e).dies, outbox := (s.logEntry d e).outbox, eventLog := (s.logEntry d e).eventLog, fresh := s.fresh + 2 } := by
  simp only [State.logEntry, State.dieRecord, State.setDie]

theorem State.logMemory_eq (s : State) (pa : Nat) (k : LogKind) : s.logMemory pa k =
    { s with dies := (s.logMemory pa k).dies, outbox := (s.logMemory pa k).outbox, eventLog := (s.logMemory pa k).eventLog
             fresh := (s.logMemory pa k).fresh } := by
  unfold State.logMemory
  split
  · rfl
  · split
    · rw [State.logEntry_eq]
    · rw [State.logEntry_eq]

/-- What a trap logs changes the dies, what is sent and the count of free values. -/
theorem State.logTrap_eq (s : State) (t : Trap) : s.logTrap t =
    { s with dies := (s.logTrap t).dies, outbox := (s.logTrap t).outbox, eventLog := (s.logTrap t).eventLog, fresh := (s.logTrap t).fresh } := by
  unfold State.logTrap
  split
  · rfl
  · split
    · split
      · rw [← State.logMemory_eq]
      · rfl
    · exact State.logEntry_eq ..

@[simp] theorem State.logTrap_hart (s : State) (t : Trap) : (s.logTrap t).hart = s.hart := by rw [State.logTrap_eq]
@[simp] theorem State.logTrap_others (s : State) (t : Trap) : (s.logTrap t).others = s.others := by rw [State.logTrap_eq]
@[simp] theorem State.logTrap_mem (s : State) (t : Trap) : (s.logTrap t).mem = s.mem := by rw [State.logTrap_eq]
@[simp] theorem State.logTrap_writes (s : State) (t : Trap) : (s.logTrap t).writes = s.writes := by rw [State.logTrap_eq]
@[simp] theorem State.logTrap_control (s : State) (t : Trap) : (s.logTrap t).control = s.control := by rw [State.logTrap_eq]
/-- Only a Memory Error is logged. -/
theorem State.logTrap_other (s : State) (t : Trap) (h : t.cause ≠ .memoryError) : s.logTrap t = s := by simp [State.logTrap, h]

/-! ## Traps (18 R310) -/

@[simp] theorem State.halt_mem (s : State) (x : List Word) : (s.halt x).mem = s.mem := rfl
@[simp] theorem State.enterTrap_mem (s : State) (t : Trap) : (s.enterTrap t).mem = s.mem := rfl
@[simp] theorem State.waitFor_mem (s : State) (k : WaitKind) : (s.waitFor k).mem = s.mem := rfl
@[simp] theorem State.takeTrap_mem (s : State) (t : Trap) : (s.takeTrap t).mem = s.mem := by
  unfold State.takeTrap
  split
  · split <;> simp
  · simp

/-- Outside a handler a trap is logged and enters the handler. -/
theorem State.takeTrap_enter (s : State) (t : Trap) (h : s.hart.priv.trap = false) : s.takeTrap t = (s.logTrap t).enterTrap t := by
  simp [State.takeTrap, h]

/-- In a handler a synchronous trap halts the hart once its engine commands have completed. -/
theorem State.takeTrap_double (s : State) (t : Trap) (h : s.hart.priv.trap = true) (a : t.async = false) : s.takeTrap t =
    if s.hart.engineBusy then s.waitFor .engines else (s.logTrap t).halt [t.cause.code.zeroExtend 64, s.hart.pc] := by
  simp [State.takeTrap, h, a]

end Sys2Proof.Machine
end

