-- ==== Sys2Proof/Laws/Access.lean ====
section
/-! SUPPORT. What recalls, walks and translation do where the manual grants an access: each is said once, and a meaning that makes such
an access cites it. -/

namespace Sys2Proof.Machine

/-- The numbers below n, as the library lists them. -/
theorem upTo_eq (n : Nat) : upTo n = List.range n := by
  induction n with
  | zero => rfl
  | succ n ih => rw [upTo, ih, List.range_succ]

/-! ## Changes of the caches alone -/

theorem cachesOnly.refl (s : State) : cachesOnly s s := rfl
theorem cachesOnly.trans {s t u : State} (h : cachesOnly s t) (g : cachesOnly t u) : cachesOnly s u := by
  unfold cachesOnly at *; rw [g, h]

section
variable {s t : State} (h : cachesOnly s t)
include h
theorem cachesOnly.mem : t.mem = s.mem := by rw [h]
theorem cachesOnly.hart : t.hart = s.hart := by rw [h]
theorem cachesOnly.others : t.others = s.others := by rw [h]
theorem cachesOnly.writes : t.writes = s.writes := by rw [h]
theorem cachesOnly.poison : t.poison = s.poison := by rw [h]
theorem cachesOnly.pkg : t.pkg = s.pkg := by rw [h]
theorem cachesOnly.reaches (c : Ctx) (held : Bool) (pa : Nat) : t.reaches c held pa = s.reaches c held pa := by rw [h]; rfl
theorem cachesOnly.badUnits (pa n : Nat) : t.badUnits pa n = s.badUnits pa n := by rw [h]; rfl
theorem cachesOnly.badCopy (x : Holder) : t.badCopy x = s.badCopy x := by rw [h]; rfl
theorem cachesOnly.byte (v : View) (a : Nat) : t.byte v a = s.byte v a := by rw [h]; rfl
theorem cachesOnly.bytes (v : View) (n : Nat) : ∀ pa, t.bytes v pa n = s.bytes v pa n := by
  induction n with
  | zero => intro pa; rfl
  | succ n ih => intro pa; rw [State.bytes, State.bytes, h.byte, ih]
theorem cachesOnly.walkRead (c : Ctx) (pa : Nat) : t.walkRead c pa = s.walkRead c pa := by
  unfold State.walkRead; rw [h.reaches, h.badUnits, h.bytes]
theorem cachesOnly.walkFrom (c : Ctx) (va : Word) (n : Nat) : ∀ table, t.walkFrom c va n table = s.walkFrom c va n table := by
  induction n with
  | zero => intro table; rfl
  | succ n ih =>
    intro table
    simp only [State.walkFrom, h.walkRead]
    split
    · rfl
    · split
      · rfl
      · split
        · rfl
        · exact ih _
theorem cachesOnly.walk (c : Ctx) (va : Word) : t.walk c va = s.walk c va := h.walkFrom c va 3 c.root
end

/-! ## Recalls (04 R82) -/

theorem State.find_markDirty_ne (d : List DirtyLine) (line l : Nat) (h : l ≠ line) :
    (markDirty d line none).find? (fun x => x.line == l) = d.find? fun x => x.line == l := by
  unfold markDirty
  have hn : (line == l) = false := by simpa using Ne.symm h
  rw [List.find?_cons_of_neg (by simpa using Ne.symm h)]
  induction d with
  | nil => rfl
  | cons x d ih =>
    by_cases hx : x.line = line
    · simp only [hx, ne_eq, not_true_eq_false, decide_false, Bool.false_eq_true, not_false_eq_true, List.filter_cons_of_neg, ih,
        List.find?_cons, hn]
    · simp only [ne_eq, hx, not_false_eq_true, decide_true, List.filter_cons_of_pos, List.find?_cons, ih]

theorem State.modifiedWhole_line {s : State} (h : s.modifiedWhole = true) {x : DirtyLine} (hx : x ∈ s.dirty) :
    s.badLine x.line = false ∧ s.badHeld x.line = false := by
  simp only [State.modifiedWhole, List.all_eq_true, Bool.and_eq_true, Bool.not_eq_true'] at h
  exact h x hx

/-- A line that goes to its home stays whole, and so do the others. -/
theorem toHome_ok {s : State} (h : s.modifiedWhole = true) {x : DirtyLine} (hx : x ∈ s.dirty) :
    ∃ u, toHome x.line s = .ok ⟨⟩ u ∧ cachesOnly s u ∧ u.tlb = s.tlb ∧ u.modifiedWhole = true := by
  obtain ⟨hb, hh⟩ := State.modifiedWhole_line h hx
  refine ⟨{ s with dirty := markDirty s.dirty x.line none, slices := touch x.line s.slices }, ?_, rfl, rfl, ?_⟩
  · unfold toHome
    rw [bind_get_run]
    simp only [hb, hh, Bool.or_self, Bool.false_eq_true, if_false]
    rfl
  · simp only [State.modifiedWhole, List.all_eq_true, Bool.and_eq_true, Bool.not_eq_true']
    intro y hy
    by_cases hl : y.line = x.line
    · rw [hl]
      refine ⟨hb, ?_⟩
      simp [State.badHeld, State.owner, markDirty]
    · have hm : y ∈ s.dirty := by
        rcases List.mem_cons.mp hy with e | e
        · exact absurd (by rw [e]) hl
        · exact (List.mem_filter.mp e).1
      obtain ⟨h1, h2⟩ := State.modifiedWhole_line h hm
      refine ⟨h1, ?_⟩
      simp only [State.badHeld, State.owner, State.find_markDirty_ne _ _ _ hl] at h2 ⊢
      exact h2

/-- A recall changes caches alone where no modified line is in error. -/
theorem recall_ok {s : State} (h : s.modifiedWhole = true) (mine : Option Holder) (line : Nat) :
    ∃ u, recallLine mine line s = .ok ⟨⟩ u ∧ cachesOnly s u ∧ u.tlb = s.tlb ∧ u.modifiedWhole = true := by
  unfold recallLine
  rw [bind_get_run]
  cases ho : s.owner line with
  | none => exact ⟨s, rfl, rfl, rfl, h⟩
  | some k =>
    by_cases hm : mine = some k
    · simp only [hm, ne_eq, not_true_eq_false, if_false]
      exact ⟨s, rfl, rfl, rfl, h⟩
    · simp only [ne_eq, hm, not_false_eq_true, if_true]
      simp only [State.owner, Option.bind_eq_some_iff] at ho
      obtain ⟨x, hx, _⟩ := ho
      have hl : x.line = line := by simpa using List.find?_some hx
      rw [← hl]
      exact toHome_ok h (List.mem_of_find?_eq_some hx)

/-! ## Walks (21 R361, R366) -/

/-- An action that leaves the hart as it is goes on under `untilStopped`. -/
theorem untilStopped_ok {α : Type} {m : M α} {a : α} {s u : State} (h : m s = .ok a u) (hh : u.hart = s.hart) :
    untilStopped m s = .ok a u := by
  unfold untilStopped
  rw [bind_get_run, bind_of_ok h, bind_get_run, hh, if_neg (by simp)]
  rfl

/-- Where no outstanding write of a view meets the bytes, none owed to the die does. -/
theorem State.unowed {s : State} {v : View} {pa n : Nat} (h : ∀ w ∈ s.writes, s.meets v pa n w = false) :
    ∀ w ∈ s.writes, (w.owedTo (.die s.hart.ident.die) && w.overlaps pa n) = false := by
  intro w hw
  have := h w hw
  simp only [State.meets, PendingWrite.seenBy, Bool.and_eq_false_imp, Bool.or_eq_true] at this ⊢
  exact fun ho => this (.inl ho)

/-- Where no outstanding write of a view meets the bytes, an access waits for none. -/
theorem settle_ok {s : State} {v : View} {pa n : Nat} (h : ∀ w ∈ s.writes, s.meets v pa n w = false) : settle v pa n s = .ok ⟨⟩ s := by
  have hh : s.heldOver v pa n = false := by
    simp only [State.heldOver, List.any_eq_false, Bool.and_eq_true, not_and]
    intro w hw g
    rw [h w hw] at g
    cases g
  have ha : s.afterWrites v pa n = s := by
    unfold State.afterWrites State.askedHere State.asked
    simp only [State.raiseAll_none (State.unowed h)]
    exact State.raise_none h _
  unfold settle
  rw [bind_get_run, if_neg (by simp [hh])]
  show EStateM.Result.ok () (s.afterWrites v pa n) = _
  rw [ha]

/-- A read of a walk that the home answers. -/
theorem readEntry_ok {s : State} {c : Ctx} {pa : Nat} {e : Word} (hw : s.walkRead c pa = .ok e) (hp : paPkg pa = s.pkg.val)
    (ho : ∀ w ∈ s.writes, s.meets c.view pa 8 w = false) (h : s.modifiedWhole = true) :
    ∃ u, readEntry c pa s = .ok e u ∧ cachesOnly s u ∧ u.tlb = s.tlb ∧ u.modifiedWhole = true := by
  obtain ⟨u, hu, hc, ht, hm⟩ := recall_ok h none (paLine pa)
  have ho' : ∀ w ∈ u.writes, u.meets c.view pa 8 w = false := by
    intro w hw'
    rw [hc.writes] at hw'
    have := ho w hw'
    unfold State.meets at this ⊢
    rwa [hc.hart]
  refine ⟨u, ?_, hc, ht, hm⟩
  unfold readEntry
  rw [bind_get_run]
  simp only [hw, hp, ne_eq, not_true_eq_false, if_false]
  show (untilStopped _ >>= _) s = _
  rw [bind_of_ok (untilStopped_ok hu hc.hart), bind_of_ok (settle_ok ho')]
  rfl

/-- The cached table entries of a level after an entry of another level has been cached. -/
theorem mem_keepFirst {α : Type} (p : α → Bool) (x : α) : ∀ (n : Nat) (l : List α), x ∈ keepFirst p n l → x ∈ l := by
  intro n l
  induction l generalizing n with
  | nil => intro h; exact h
  | cons y l ih =>
    intro h
    unfold keepFirst at h
    split at h
    · cases n with
      | zero => exact List.mem_cons_of_mem _ (ih 0 h)
      | succ n =>
        rcases List.mem_cons.mp h with e | e
        · exact e ▸ List.mem_cons_self ..
        · exact List.mem_cons_of_mem _ (ih n e)
    · rcases List.mem_cons.mp h with e | e
      · exact e ▸ List.mem_cons_self ..
      · exact List.mem_cons_of_mem _ (ih n e)

theorem State.cacheIn_tlb (s : State) (core : Option Nat) (c : Ctx) (va : Word) (lvl at_ : Nat) (e : Word) :
    ∃ l, s.cacheIn core c va lvl at_ e = { s with tlb := l } ∧ ∀ x ∈ l, x ∈ s.tlb ∨ x.lvl = lvl ∧ x.pte = e := by
  unfold State.cacheIn
  simp only
  split
  · exact ⟨s.tlb, rfl, fun x hx => .inl hx⟩
  · refine ⟨_, rfl, fun x hx => ?_⟩
    rcases List.mem_cons.mp (mem_keepFirst _ _ _ _ hx) with rfl | h
    · exact .inr ⟨rfl, rfl⟩
    · exact .inl h

/-- A fill caches the entry of its level and no other. -/
theorem State.fillEntry_tlb (s : State) (c : Ctx) (va : Word) (lvl at_ : Nat) (e : Word) :
    ∃ l, s.fillEntry c va lvl at_ e = { s with tlb := l } ∧ ∀ x ∈ l, x ∈ s.tlb ∨ x.lvl = lvl ∧ x.pte = e := by
  unfold State.fillEntry
  split
  · exact ⟨s.tlb, rfl, fun x hx => .inl hx⟩
  · obtain ⟨l, hl, hx⟩ := s.cacheIn_tlb none c va lvl at_ e
    simp only [hl]
    split
    · obtain ⟨l', hl', hx'⟩ := State.cacheIn_tlb { s with tlb := l } c.core c va lvl at_ e
      refine ⟨l', by rw [hl'], fun x h => ?_⟩
      rcases hx' x h with h | h
      · exact hx x h
      · exact .inr h
    · exact ⟨l, rfl, hx⟩

/-- Where no cached entry differs from an entry, that entry is chosen. -/
theorem chooseEntry_same {α : Type} [DecidableEq α] {e : α} {xs : List α} (h : ∀ x ∈ xs, x = e) (s : State) :
    chooseEntry (some e) xs s = .ok (some e) s := by
  have hf : xs.filter (fun y => decide (some y ≠ some e)) = [] := by
    rw [List.filter_eq_nil_iff]
    intro x hx
    simp [h x hx]
  unfold chooseEntry
  rw [hf]
  rfl

/-- One level of a walk whose entry is good and cached by no other value. -/
theorem walkEntry_ok {s : State} {c : Ctx} {va : Word} {lvl pa : Nat} {e : Word} (hw : s.walkRead c pa = .ok e) (hp : paPkg pa = s.pkg.val)
    (hs : ∀ w ∈ s.writes, s.meets c.view pa 8 w = false) (hg : pteV e = true ∧ pteMalformed lvl e = false) (hc : ∀ x ∈ s.cachedTables c lvl va, x = e) (h : s.modifiedWhole = true) :
    ∃ u, walkEntry c va lvl pa s = .ok e u ∧ cachesOnly s u ∧ u.modifiedWhole = true ∧ ∀ x ∈ u.tlb, x ∈ s.tlb ∨ x.lvl = lvl ∧ x.pte = e := by
  obtain ⟨u, hu, ho, ht, hm⟩ := readEntry_ok hw hp hs h
  obtain ⟨l, hl, hx⟩ := u.fillEntry_tlb c va lvl pa e
  refine ⟨u.fillEntry c va lvl pa e, ?_, ?_, ?_, ?_⟩
  · have hgood : s.goodEntry c lvl pa = some e := by simp [State.goodEntry, hw, hg.1, hg.2]
    unfold walkEntry
    rw [bind_get_run]
    simp only [hgood]
    rw [bind_of_ok (chooseEntry_same hc s)]
    simp only [if_true]
    show (readEntry c pa >>= _) s = _
    rw [bind_of_ok hu]
    simp only [hg.1, hg.2, Bool.not_true, Bool.or_self, Bool.false_eq_true, if_false]
    rfl
  · rw [hl]; exact ho.trans rfl
  · rw [hl]; exact hm
  · rw [hl]; intro x h; exact ht ▸ hx x h

/-- The path of a walk stays good where the cache takes entries of upper levels. -/
theorem State.pathOk_mono {s u : State} {c : Ctx} {va : Word} (h : cachesOnly s u) (n : Nat) :
    ∀ table, (∀ x ∈ u.tlb, x ∈ s.tlb ∨ x.lvl < 3 - (n - 1)) → s.pathOk c va n table = true → u.pathOk c va n table = true := by
  induction n with
  | zero => intro _ _ _; rfl
  | succ n ih =>
    intro table hx hp
    unfold State.pathOk at hp ⊢
    have hmt : ∀ a, u.writes.all (fun w => !u.meets c.view a 8 w) = s.writes.all fun w => !s.meets c.view a 8 w := by
      intro a; unfold State.meets; rw [h.writes, h.hart]
    simp only [h.walkRead, h.pkg, hmt, Bool.and_eq_true] at hp ⊢
    refine ⟨hp.1, ?_⟩
    have h2 := hp.2
    split at h2
    next e hw =>
      simp only [Bool.and_eq_true, Bool.or_eq_true, List.all_eq_true] at h2 ⊢
      refine ⟨fun x hm => h2.1 x ?_, h2.2.imp id fun g => ih _ (fun x hm => (hx x hm).imp id fun g => by omega) g⟩
      simp only [State.cachedTables, List.mem_map, List.mem_filter, Bool.and_eq_true, beq_iff_eq] at hm ⊢
      obtain ⟨y, ⟨hy, hq⟩, rfl⟩ := hm
      refine ⟨y, ⟨(hx y hy).resolve_right fun g => ?_, hq⟩, rfl⟩
      have := hq.1.2
      simp only [Nat.add_sub_cancel] at g
      omega
    next => cases h2

/-- A walk through entries that no cache holds with another value gives memory's leaf, and changes caches alone. -/
theorem walkThrough_ok {c : Ctx} {va : Word} {l : Leaf} (n : Nat) : ∀ (s : State) (table : Nat), n ≤ 3 → s.walkFrom c va n table = .ok l →
    s.pathOk c va n table = true → s.modifiedWhole = true →
    ∃ u, walkThrough c va n table s = .ok l u ∧ cachesOnly s u ∧ u.modifiedWhole = true := by
  induction n with
  | zero => intro s table _ hw; cases hw
  | succ n ih =>
    intro s table hn hw hp hm
    unfold State.walkFrom at hw
    unfold State.pathOk at hp
    simp only [Bool.and_eq_true, beq_iff_eq, List.all_eq_true, Bool.not_eq_true'] at hp
    simp only at hw
    obtain ⟨⟨hpk, hst⟩, h2⟩ := hp
    cases hr : s.walkRead c (entryAddr table n va) with
    | error t => rw [hr] at hw; cases hw
    | ok e =>
      rw [hr] at hw h2
      simp only [Bool.and_eq_true, Bool.or_eq_true, List.all_eq_true, beq_iff_eq] at h2
      dsimp only at hw
      by_cases hv : (!pteV e || pteMalformed (3 - n) e) = true
      · rw [if_pos hv] at hw; cases hw
      · rw [if_neg hv] at hw
        simp only [Bool.or_eq_true, Bool.not_eq_true', not_or, Bool.not_eq_false, Bool.not_eq_true] at hv
        obtain ⟨u, hu, hc, hmu, ht⟩ := walkEntry_ok (va := va) (lvl := 3 - n) hr hpk hst hv h2.1 hm
        unfold walkThrough
        simp only
        rw [bind_of_ok hu]
        by_cases hl : pteLeaf e = true
        · rw [if_pos hl] at hw ⊢
          cases hw
          exact ⟨u, rfl, hc, hmu⟩
        · rw [if_neg hl] at hw ⊢
          have hpu : u.pathOk c va n (ptePa e) = true := by
            refine State.pathOk_mono hc n _ (fun x hx => (ht x hx).imp id fun g => ?_) (h2.2.resolve_left hl)
            cases n with
            | zero => cases hw
            | succ n => omega
          rw [← hc.walkFrom] at hw
          obtain ⟨v, hv', hcv, hmv⟩ := ih u _ (by omega) hw hpu hmu
          exact ⟨v, hv', hc.trans hcv, hmv⟩

/-! ## Granted accesses -/

/-- The leaf of an address that translates by it is found, and caches alone change. -/
theorem findLeaf_ok {s : State} {c : Ctx} {va : Word} {l : Leaf} (h : s.finds c va l = true) :
    ∃ u, findLeaf c va s = .ok l u ∧ cachesOnly s u ∧ u.modifiedWhole = true := by
  simp only [State.finds, Bool.and_eq_true, beq_iff_eq, List.all_eq_true] at h
  obtain ⟨⟨⟨hl, hc⟩, hp⟩, hm⟩ := h
  have hw : s.walk c va = .ok l := by
    unfold State.leafOf at hl
    split at hl
    next x hx => rw [hx]; cases hl; rfl
    next => cases hl
  have hwalk := walkThrough_ok 3 s c.root (Nat.le_refl 3) hw hp hm
  unfold findLeaf
  rw [bind_get_run]
  cases hls : s.cached c va with
  | nil => exact hwalk
  | cons x xs =>
    rw [hls] at hc
    simp only [hw]
    rw [bind_of_ok (chooseEntry_same hc s)]
    have hin : (x :: xs).contains l = true := by simp [hc x (List.mem_cons_self ..)]
    simp only [hin, if_true]
    exact ⟨s, rfl, rfl, hm⟩

theorem State.granted_leaf {s : State} {c : Ctx} {need : Needs} {size n : Nat} {va : Word} {p : Place}
    (h : s.granted c need size n va p = true) :
    ∃ l, s.finds c va l = true ∧ permits c need l.pte = true ∧ lacksBits l.pte need.w = false ∧ l.place va = p := by
  simp only [State.granted, Bool.and_eq_true] at h
  obtain ⟨⟨⟨⟨_, hl⟩, _⟩, _⟩, _⟩ := h
  split at hl
  next l _ =>
    simp only [Bool.and_eq_true, Bool.not_eq_true', decide_eq_true_eq] at hl
    exact ⟨l, hl.1.1.1, hl.1.1.2, hl.1.2, hl.2⟩
  next => cases hl

theorem State.granted_aligned {s : State} {c : Ctx} {need : Needs} {size n : Nat} {va : Word} {p : Place}
    (h : s.granted c need size n va p = true) : va.toNat % size = 0 ∧ canonical va = true := by
  simp only [State.granted, Bool.and_eq_true, beq_iff_eq] at h
  exact h.1.1.1.1

theorem State.granted_answer {s : State} {c : Ctx} {need : Needs} {size n : Nat} {va : Word} {p : Place}
    (h : s.granted c need size n va p = true) :
    s.reaches c false p.pa = true ∧ paPkg p.pa = s.pkg.val ∧ s.badUnits p.pa n = false := by
  simp only [State.granted, Bool.and_eq_true, beq_iff_eq, Bool.not_eq_true'] at h
  exact ⟨h.1.1.2, h.1.2, h.2⟩

/-- The checks of a leaf pass. -/
theorem checkLeaf_ok {s : State} {c : Ctx} {need : Needs} {kind : Place → Option Cause} {va : Word} {l : Leaf}
    (hp : permits c need l.pte = true) (hk : kind (l.place va) = none) : checkLeaf c need kind va l s = .ok ⟨⟩ s := by
  unfold checkLeaf
  simp only [hp, hk, Bool.not_true, Bool.false_eq_true, if_false]
  rfl

/-- A granted access translates to its place, and caches alone change. -/
theorem translate_granted {s : State} {c : Ctx} {need : Needs} {kind : Place → Option Cause} {size n : Nat} {va : Word} {p : Place}
    (h : s.granted c need size n va p = true) (hk : kind p = none) :
    ∃ u, translate c need kind size va s = .ok p u ∧ cachesOnly s u ∧ u.modifiedWhole = true := by
  obtain ⟨l, hf, hp, hb, rfl⟩ := State.granted_leaf h
  obtain ⟨ha, hcan⟩ := State.granted_aligned h
  obtain ⟨u, hu, hc, hm⟩ := findLeaf_ok hf
  refine ⟨u, ?_, hc, hm⟩
  unfold translate
  simp only [ha, hcan, ne_eq, not_true_eq_false, if_false, Bool.not_true, Bool.false_eq_true]
  rw [bind_of_ok hu, bind_of_ok (checkLeaf_ok hp hk)]
  unfold markUsed
  simp only [hb, Bool.not_false, if_true]
  rfl

/-! ## Replies -/

theorem State.reaches_held {s : State} {c : Ctx} {pa : Nat} (h : s.reaches c false pa = true) (held : Bool) :
    s.reaches c held pa = true := by
  unfold State.reaches at *
  cases held
  · exact h
  · simp only [Bool.and_eq_true] at h ⊢
    refine ⟨h.1, ?_⟩
    split
    next hp =>
      have h2 := h.2
      rw [if_pos hp] at h2
      simp only [Bool.and_false, Bool.or_false, Bool.and_eq_true, Bool.and_true] at h2 ⊢
      exact ⟨h2.1, by simp [h2.2]⟩
    next => rfl

/-- The home of this package answers. -/
theorem reply_ok {s : State} {c : Ctx} {pa : Nat} {va : Word} {held : Bool} (h : s.reaches c held pa = true) (hp : paPkg pa = s.pkg.val) :
    reply c held pa va s = .ok ⟨⟩ s := by
  unfold reply
  rw [bind_get_run]
  simp only [h, hp, Bool.not_true, Bool.false_eq_true, if_false, bne_self_eq_false, Bool.false_and]
  rfl

theorem wholeData_ok {s : State} {pa n : Nat} {va : Word} (h : s.badUnits pa n = false) : wholeData pa n va s = .ok ⟨⟩ s := by
  unfold wholeData
  rw [bind_get_run]
  simp only [h, Bool.false_eq_true, if_false]
  rfl

theorem wholeUnits_ok {s : State} {pa n : Nat} {va : Word} (h : s.badUnits pa n = false) : wholeUnits pa n va s = .ok ⟨⟩ s := by
  have hf : (clearUnits s.poison pa n).any (fun u => decide (pa / 8 ≤ u) && decide (u ≤ (pa + n - 1) / 8)) = false := by
    rw [List.any_eq_false]
    intro u hu
    have hm : u ∈ s.poison := (List.mem_filter.mp hu).1
    simp only [State.badUnits, List.any_eq_false] at h
    exact h u hm
  unfold wholeUnits
  rw [bind_get_run]
  simp only [hf, Bool.false_eq_true, if_false]
  rfl

/-- A populated address lies in no aperture. -/
theorem paAper_of_reaches {s : State} {c : Ctx} {held : Bool} {pa : Nat} (h : s.reaches c held pa = true) : paAper pa = false := by
  have hp : paPopulated pa = true := by
    simp only [State.reaches, Bool.and_eq_true] at h
    exact h.1
  simp only [paPopulated, Bool.and_eq_true, decide_eq_true_eq] at hp
  have ha : pa / 2 ^ 51 = 0 := Nat.div_eq_of_lt (by omega)
  unfold paAper bitAt
  rw [ha]
  rfl

/-! ## Vector accesses -/

theorem interlock_ok {s : State} {va : Word} {n : Nat} {w : Bool} (h : s.hart.engine = []) : interlock va n w s = .ok ⟨⟩ s := by
  unfold interlock
  rw [bind_get_run]
  simp [State.entries, h]

theorem orderDet_ok {s : State} (h : s.hart.det = false) : orderDet s = .ok ⟨⟩ s := by
  unfold orderDet
  rw [bind_get_run]
  simp [h]

end Sys2Proof.Machine
end

