-- ==== Sys2Proof/Laws/PerInstr.lean ====
section
/-! SUPPORT. What is said of every instruction as syntax, one lemma for each constructor: which rows of the opcode table are instruction
words, and which are events that no word stands for. -/

namespace Sys2Proof.Laws

/-- The rows of the opcode table that are events of the package. -/
def isEvent : Instr → Bool
  | .imageLoad .. | .imageDrop .. | .launch .. | .graphDefine .. | .graphReplay .. | .graphPatch .. | .sync .. | .query ..
  | .partitionSet .. | .dieReset .. | .attest .. | .policyLoad .. | .completionMessage .. | .dctlFence .. | .dctlQuiesce ..
  | .dctlFlush .. | .dctlSelfref .. | .dctlReset .. | .dctlTrain .. | .dctlAdmit .. | .dieActionComplete .. | .dispatchRound
  | .preemptionRequest | .gangStopComplete .. | .gangEnd .. | .graphNodeQueue .. | .cpServiceReply | .watchdog | .engineAccept
  | .engineComplete .. | .barrierEpisodeComplete .. | .leadInstruction | .leadPrefetchFill .. | .l2LineEviction .. | .patrolScrub ..
  | .voltageUpdate | .capStep .. | .kettleUpdate .. | .temperatureCrossing .. | .thermalTrip .. | .mainPowerUp .. | .mainPowerDown
  | .portDown .. | .linkFlitRetry .. | .portstatRead .. | .hostRead .. | .hostWrite .. | .peerRequest .. | .sidebandPldmRequest ..
  | .sidebandPowerLimit .. | .illegalInstruction .. | .fetchFault .. | .vectorInstructionCompletion | .accessPerforms ..
  | .uncorrectableError .. | .portUp .. => true
  | _ => false

/-- An instruction has a word exactly where it is no event. -/
def Words.Statement (i : Instr) : Prop := (encode i).isSome = !isEvent i

theorem Words.add (d : SReg) (a : SReg) (b : SReg) : Words.Statement (.add d a b) := rfl
theorem Words.sub (d : SReg) (a : SReg) (b : SReg) : Words.Statement (.sub d a b) := rfl
theorem Words.and (d : SReg) (a : SReg) (b : SReg) : Words.Statement (.and d a b) := rfl
theorem Words.or (d : SReg) (a : SReg) (b : SReg) : Words.Statement (.or d a b) := rfl
theorem Words.xor (d : SReg) (a : SReg) (b : SReg) : Words.Statement (.xor d a b) := rfl
theorem Words.andn (d : SReg) (a : SReg) (b : SReg) : Words.Statement (.andn d a b) := rfl
theorem Words.sll (d : SReg) (a : SReg) (b : SReg) : Words.Statement (.sll d a b) := rfl
theorem Words.srl (d : SReg) (a : SReg) (b : SReg) : Words.Statement (.srl d a b) := rfl
theorem Words.sra (d : SReg) (a : SReg) (b : SReg) : Words.Statement (.sra d a b) := rfl
theorem Words.ror (d : SReg) (a : SReg) (b : SReg) : Words.Statement (.ror d a b) := rfl
theorem Words.slt (d : SReg) (a : SReg) (b : SReg) : Words.Statement (.slt d a b) := rfl
theorem Words.sltu (d : SReg) (a : SReg) (b : SReg) : Words.Statement (.sltu d a b) := rfl
theorem Words.min (d : SReg) (a : SReg) (b : SReg) : Words.Statement (.min d a b) := rfl
theorem Words.max (d : SReg) (a : SReg) (b : SReg) : Words.Statement (.max d a b) := rfl
theorem Words.minu (d : SReg) (a : SReg) (b : SReg) : Words.Statement (.minu d a b) := rfl
theorem Words.maxu (d : SReg) (a : SReg) (b : SReg) : Words.Statement (.maxu d a b) := rfl
theorem Words.clz (d : SReg) (a : SReg) : Words.Statement (.clz d a) := rfl
theorem Words.ctz (d : SReg) (a : SReg) : Words.Statement (.ctz d a) := rfl
theorem Words.popc (d : SReg) (a : SReg) : Words.Statement (.popc d a) := rfl
theorem Words.brev (d : SReg) (a : SReg) : Words.Statement (.brev d a) := rfl
theorem Words.sextb (d : SReg) (a : SReg) : Words.Statement (.sextb d a) := rfl
theorem Words.sexth (d : SReg) (a : SReg) : Words.Statement (.sexth d a) := rfl
theorem Words.sextw (d : SReg) (a : SReg) : Words.Statement (.sextw d a) := rfl
theorem Words.zextw (d : SReg) (a : SReg) : Words.Statement (.zextw d a) := rfl
theorem Words.addi (d : SReg) (a : SReg) (i : BitVec 16) : Words.Statement (.addi d a i) := rfl
theorem Words.andi (d : SReg) (a : SReg) (i : BitVec 16) : Words.Statement (.andi d a i) := rfl
theorem Words.ori (d : SReg) (a : SReg) (i : BitVec 16) : Words.Statement (.ori d a i) := rfl
theorem Words.xori (d : SReg) (a : SReg) (i : BitVec 16) : Words.Statement (.xori d a i) := rfl
theorem Words.slli (d : SReg) (a : SReg) (n : Fin 64) : Words.Statement (.slli d a n) := rfl
theorem Words.srli (d : SReg) (a : SReg) (n : Fin 64) : Words.Statement (.srli d a n) := rfl
theorem Words.srai (d : SReg) (a : SReg) (n : Fin 64) : Words.Statement (.srai d a n) := rfl
theorem Words.rori (d : SReg) (a : SReg) (n : Fin 64) : Words.Statement (.rori d a n) := rfl
theorem Words.slti (d : SReg) (a : SReg) (i : BitVec 16) : Words.Statement (.slti d a i) := rfl
theorem Words.sltiu (d : SReg) (a : SReg) (i : BitVec 16) : Words.Statement (.sltiu d a i) := rfl
theorem Words.lui (d : SReg) (i : BitVec 16) : Words.Statement (.lui d i) := rfl
theorem Words.addpc (d : SReg) (i : BitVec 16) : Words.Statement (.addpc d i) := rfl
theorem Words.mul (d : SReg) (a : SReg) (b : SReg) : Words.Statement (.mul d a b) := rfl
theorem Words.mulh (d : SReg) (a : SReg) (b : SReg) : Words.Statement (.mulh d a b) := rfl
theorem Words.mulhu (d : SReg) (a : SReg) (b : SReg) : Words.Statement (.mulhu d a b) := rfl
theorem Words.mulhsu (d : SReg) (a : SReg) (b : SReg) : Words.Statement (.mulhsu d a b) := rfl
theorem Words.div (d : SReg) (a : SReg) (b : SReg) : Words.Statement (.div d a b) := rfl
theorem Words.divu (d : SReg) (a : SReg) (b : SReg) : Words.Statement (.divu d a b) := rfl
theorem Words.rem (d : SReg) (a : SReg) (b : SReg) : Words.Statement (.rem d a b) := rfl
theorem Words.remu (d : SReg) (a : SReg) (b : SReg) : Words.Statement (.remu d a b) := rfl
theorem Words.fadd (w : FWidth) (m : Rm) (d : SReg) (a : SReg) (b : SReg) : Words.Statement (.fadd w m d a b) := rfl
theorem Words.fsub (w : FWidth) (m : Rm) (d : SReg) (a : SReg) (b : SReg) : Words.Statement (.fsub w m d a b) := rfl
theorem Words.fmul (w : FWidth) (m : Rm) (d : SReg) (a : SReg) (b : SReg) : Words.Statement (.fmul w m d a b) := rfl
theorem Words.fdiv (w : FWidth) (m : Rm) (d : SReg) (a : SReg) (b : SReg) : Words.Statement (.fdiv w m d a b) := rfl
theorem Words.fsqrt (w : FWidth) (m : Rm) (d : SReg) (a : SReg) : Words.Statement (.fsqrt w m d a) := rfl
theorem Words.fmin (w : FWidth) (d : SReg) (a : SReg) (b : SReg) : Words.Statement (.fmin w d a b) := rfl
theorem Words.fmax (w : FWidth) (d : SReg) (a : SReg) (b : SReg) : Words.Statement (.fmax w d a b) := rfl
theorem Words.fcopys (w : FWidth) (d : SReg) (a : SReg) (b : SReg) : Words.Statement (.fcopys w d a b) := rfl
theorem Words.fcopyns (w : FWidth) (d : SReg) (a : SReg) (b : SReg) : Words.Statement (.fcopyns w d a b) := rfl
theorem Words.fxors (w : FWidth) (d : SReg) (a : SReg) (b : SReg) : Words.Statement (.fxors w d a b) := rfl
theorem Words.feq (w : FWidth) (d : SReg) (a : SReg) (b : SReg) : Words.Statement (.feq w d a b) := rfl
theorem Words.flt (w : FWidth) (d : SReg) (a : SReg) (b : SReg) : Words.Statement (.flt w d a b) := rfl
theorem Words.fle (w : FWidth) (d : SReg) (a : SReg) (b : SReg) : Words.Statement (.fle w d a b) := rfl
theorem Words.fclass (w : FWidth) (d : SReg) (a : SReg) : Words.Statement (.fclass w d a) := rfl
theorem Words.fcvtfi (w : FWidth) (m : Rm) (d : SReg) (a : SReg) : Words.Statement (.fcvtfi w m d a) := rfl
theorem Words.fcvtfu (w : FWidth) (m : Rm) (d : SReg) (a : SReg) : Words.Statement (.fcvtfu w m d a) := rfl
theorem Words.fcvtif (w : FWidth) (m : Rm) (d : SReg) (a : SReg) : Words.Statement (.fcvtif w m d a) := rfl
theorem Words.fcvtuf (w : FWidth) (m : Rm) (d : SReg) (a : SReg) : Words.Statement (.fcvtuf w m d a) := rfl
theorem Words.fcvtff (w : FWidth) (m : Rm) (d : SReg) (a : SReg) : Words.Statement (.fcvtff w m d a) := rfl
theorem Words.fmadd (w : FWidth) (m : Rm) (d : SReg) (a : SReg) (b : SReg) (c : SReg) : Words.Statement (.fmadd w m d a b c) := rfl
theorem Words.fmsub (w : FWidth) (m : Rm) (d : SReg) (a : SReg) (b : SReg) (c : SReg) : Words.Statement (.fmsub w m d a b c) := rfl
theorem Words.fnmadd (w : FWidth) (m : Rm) (d : SReg) (a : SReg) (b : SReg) (c : SReg) : Words.Statement (.fnmadd w m d a b c) := rfl
theorem Words.fnmsub (w : FWidth) (m : Rm) (d : SReg) (a : SReg) (b : SReg) (c : SReg) : Words.Statement (.fnmsub w m d a b c) := rfl
theorem Words.ldb (d : SReg) (a : SReg) (i : BitVec 16) : Words.Statement (.ldb d a i) := rfl
theorem Words.ldbu (d : SReg) (a : SReg) (i : BitVec 16) : Words.Statement (.ldbu d a i) := rfl
theorem Words.ldh (d : SReg) (a : SReg) (i : BitVec 16) : Words.Statement (.ldh d a i) := rfl
theorem Words.ldhu (d : SReg) (a : SReg) (i : BitVec 16) : Words.Statement (.ldhu d a i) := rfl
theorem Words.ldw (d : SReg) (a : SReg) (i : BitVec 16) : Words.Statement (.ldw d a i) := rfl
theorem Words.ldwu (d : SReg) (a : SReg) (i : BitVec 16) : Words.Statement (.ldwu d a i) := rfl
theorem Words.ldd (d : SReg) (a : SReg) (i : BitVec 16) : Words.Statement (.ldd d a i) := rfl
theorem Words.stb (d : SReg) (a : SReg) (i : BitVec 16) : Words.Statement (.stb d a i) := rfl
theorem Words.sth (d : SReg) (a : SReg) (i : BitVec 16) : Words.Statement (.sth d a i) := rfl
theorem Words.stw (d : SReg) (a : SReg) (i : BitVec 16) : Words.Statement (.stw d a i) := rfl
theorem Words.std (d : SReg) (a : SReg) (i : BitVec 16) : Words.Statement (.std d a i) := rfl
theorem Words.ldaqW (sc : Scope) (d : SReg) (a : SReg) : Words.Statement (.ldaqW sc d a) := rfl
theorem Words.ldaqD (sc : Scope) (d : SReg) (a : SReg) : Words.Statement (.ldaqD sc d a) := rfl
theorem Words.strlW (sc : Scope) (d : SReg) (a : SReg) : Words.Statement (.strlW sc d a) := rfl
theorem Words.strlD (sc : Scope) (d : SReg) (a : SReg) : Words.Statement (.strlD sc d a) := rfl
theorem Words.amoadd (sc : Scope) (o : Order) (w : AWidth) (d : SReg) (a : SReg) (b : SReg) : Words.Statement (.amoadd sc o w d a b) := rfl
theorem Words.amoand (sc : Scope) (o : Order) (w : AWidth) (d : SReg) (a : SReg) (b : SReg) : Words.Statement (.amoand sc o w d a b) := rfl
theorem Words.amoor (sc : Scope) (o : Order) (w : AWidth) (d : SReg) (a : SReg) (b : SReg) : Words.Statement (.amoor sc o w d a b) := rfl
theorem Words.amoxor (sc : Scope) (o : Order) (w : AWidth) (d : SReg) (a : SReg) (b : SReg) : Words.Statement (.amoxor sc o w d a b) := rfl
theorem Words.amomin (sc : Scope) (o : Order) (w : AWidth) (d : SReg) (a : SReg) (b : SReg) : Words.Statement (.amomin sc o w d a b) := rfl
theorem Words.amomax (sc : Scope) (o : Order) (w : AWidth) (d : SReg) (a : SReg) (b : SReg) : Words.Statement (.amomax sc o w d a b) := rfl
theorem Words.amominu (sc : Scope) (o : Order) (w : AWidth) (d : SReg) (a : SReg) (b : SReg) : Words.Statement (.amominu sc o w d a b) := rfl
theorem Words.amomaxu (sc : Scope) (o : Order) (w : AWidth) (d : SReg) (a : SReg) (b : SReg) : Words.Statement (.amomaxu sc o w d a b) := rfl
theorem Words.amoswap (sc : Scope) (o : Order) (w : AWidth) (d : SReg) (a : SReg) (b : SReg) : Words.Statement (.amoswap sc o w d a b) := rfl
theorem Words.amocas (sc : Scope) (o : Order) (w : AWidth) (d : SReg) (a : SReg) (b : SReg) : Words.Statement (.amocas sc o w d a b) := rfl
theorem Words.amofadd (sc : Scope) (o : Order) (w : AWidth) (d : SReg) (a : SReg) (b : SReg) : Words.Statement (.amofadd sc o w d a b) := rfl
theorem Words.pref (h : PrefHint) (a : SReg) (i : BitVec 16) : Words.Statement (.pref h a i) := rfl
theorem Words.beq (d : SReg) (a : SReg) (i : BitVec 16) : Words.Statement (.beq d a i) := rfl
theorem Words.bne (d : SReg) (a : SReg) (i : BitVec 16) : Words.Statement (.bne d a i) := rfl
theorem Words.blt (d : SReg) (a : SReg) (i : BitVec 16) : Words.Statement (.blt d a i) := rfl
theorem Words.bge (d : SReg) (a : SReg) (i : BitVec 16) : Words.Statement (.bge d a i) := rfl
theorem Words.bltu (d : SReg) (a : SReg) (i : BitVec 16) : Words.Statement (.bltu d a i) := rfl
theorem Words.bgeu (d : SReg) (a : SReg) (i : BitVec 16) : Words.Statement (.bgeu d a i) := rfl
theorem Words.call (i : BitVec 26) : Words.Statement (.call i) := rfl
theorem Words.jmp (i : BitVec 26) : Words.Statement (.jmp i) := rfl
theorem Words.jalr (d : SReg) (a : SReg) : Words.Statement (.jalr d a) := rfl
theorem Words.callr (a : SReg) : Words.Statement (.callr a) := rfl
theorem Words.ret : Words.Statement (.ret) := rfl
theorem Words.jr (a : SReg) : Words.Statement (.jr a) := rfl
theorem Words.fence (p : StreamSet) (q : StreamSet) (sc : Scope) : Words.Statement (.fence p q sc) := rfl
theorem Words.spin : Words.Statement (.spin) := rfl
theorem Words.leadhold : Words.Statement (.leadhold) := rfl
theorem Words.svc (n : Fin 32) : Words.Statement (.svc n) := rfl
theorem Words.brk : Words.Statement (.brk) := rfl
theorem Words.rdsr (d : SReg) (r : UReg) : Words.Statement (.rdsr d r) := rfl
theorem Words.wrsr (r : UReg) (d : SReg) : Words.Statement (.wrsr r d) := rfl
theorem Words.fork (d : SReg) (a : SReg) : Words.Statement (.fork d a) := rfl
theorem Words.join : Words.Statement (.join) := rfl
theorem Words.exit : Words.Statement (.exit) := rfl
theorem Words.gbar (x : Fin 4) : Words.Statement (.gbar x) := rfl
theorem Words.gbara (x : Fin 4) : Words.Statement (.gbara x) := rfl
theorem Words.gbarw (x : Fin 4) : Words.Statement (.gbarw x) := rfl
theorem Words.eret : Words.Statement (.eret) := rfl
theorem Words.tlbinv (d : SReg) (a : SReg) (b : SReg) : Words.Statement (.tlbinv d a b) := rfl
theorem Words.cwb (a : SReg) (b : SReg) : Words.Statement (.cwb a b) := rfl
theorem Words.cinv (a : SReg) (b : SReg) : Words.Statement (.cinv a b) := rfl
theorem Words.ctxsave (a : SReg) : Words.Statement (.ctxsave a) := rfl
theorem Words.ctxload (a : SReg) : Words.Statement (.ctxload a) := rfl
theorem Words.waitev (d : SReg) : Words.Statement (.waitev d) := rfl
theorem Words.hsig (a : SReg) (b : SReg) : Words.Statement (.hsig a b) := rfl
theorem Words.prdsr (d : SReg) (r : PReg) : Words.Statement (.prdsr d r) := rfl
theorem Words.pwrsr (r : PReg) (d : SReg) : Words.Statement (.pwrsr r d) := rfl
theorem Words.halt : Words.Statement (.halt) := rfl
theorem Words.setvl (d : SReg) (a : SReg) (b : SReg) : Words.Statement (.setvl d a b) := rfl
theorem Words.setvlx (d : SReg) (a : SReg) (b : SReg) : Words.Statement (.setvlx d a b) := rfl
theorem Words.settype (d : SReg) (a : SReg) : Words.Statement (.settype d a) := rfl
theorem Words.setrows (d : SReg) (a : SReg) : Words.Statement (.setrows d a) := rfl
theorem Words.setvli (d : SReg) (a : SReg) (r : Fin 8) (v : BitVec 9) : Words.Statement (.setvli d a r v) := rfl
theorem Words.vadd (d : VReg) (a : VReg) (b : Src2) (k : MReg) : Words.Statement (.vadd d a b k) := rfl
theorem Words.vsub (d : VReg) (a : VReg) (b : Src2) (k : MReg) : Words.Statement (.vsub d a b k) := rfl
theorem Words.vrsub (d : VReg) (a : VReg) (b : Src2) (k : MReg) : Words.Statement (.vrsub d a b k) := rfl
theorem Words.vmul (d : VReg) (a : VReg) (b : Src2) (k : MReg) : Words.Statement (.vmul d a b k) := rfl
theorem Words.vmulh (d : VReg) (a : VReg) (b : Src2) (k : MReg) : Words.Statement (.vmulh d a b k) := rfl
theorem Words.vmulhu (d : VReg) (a : VReg) (b : Src2) (k : MReg) : Words.Statement (.vmulhu d a b k) := rfl
theorem Words.vmacc (d : VReg) (a : VReg) (b : Src2) (k : MReg) : Words.Statement (.vmacc d a b k) := rfl
theorem Words.vmin (d : VReg) (a : VReg) (b : Src2) (k : MReg) : Words.Statement (.vmin d a b k) := rfl
theorem Words.vmax (d : VReg) (a : VReg) (b : Src2) (k : MReg) : Words.Statement (.vmax d a b k) := rfl
theorem Words.vminu (d : VReg) (a : VReg) (b : Src2) (k : MReg) : Words.Statement (.vminu d a b k) := rfl
theorem Words.vmaxu (d : VReg) (a : VReg) (b : Src2) (k : MReg) : Words.Statement (.vmaxu d a b k) := rfl
theorem Words.vand (d : VReg) (a : VReg) (b : Src2) (k : MReg) : Words.Statement (.vand d a b k) := rfl
theorem Words.vor (d : VReg) (a : VReg) (b : Src2) (k : MReg) : Words.Statement (.vor d a b k) := rfl
theorem Words.vxor (d : VReg) (a : VReg) (b : Src2) (k : MReg) : Words.Statement (.vxor d a b k) := rfl
theorem Words.vsll (d : VReg) (a : VReg) (b : Src2) (k : MReg) : Words.Statement (.vsll d a b k) := rfl
theorem Words.vsrl (d : VReg) (a : VReg) (b : Src2) (k : MReg) : Words.Statement (.vsrl d a b k) := rfl
theorem Words.vsra (d : VReg) (a : VReg) (b : Src2) (k : MReg) : Words.Statement (.vsra d a b k) := rfl
theorem Words.vsadd (d : VReg) (a : VReg) (b : Src2) (k : MReg) : Words.Statement (.vsadd d a b k) := rfl
theorem Words.vsaddu (d : VReg) (a : VReg) (b : Src2) (k : MReg) : Words.Statement (.vsaddu d a b k) := rfl
theorem Words.vssub (d : VReg) (a : VReg) (b : Src2) (k : MReg) : Words.Statement (.vssub d a b k) := rfl
theorem Words.vssubu (d : VReg) (a : VReg) (b : Src2) (k : MReg) : Words.Statement (.vssubu d a b k) := rfl
theorem Words.vclz (d : VReg) (a : VReg) (k : MReg) : Words.Statement (.vclz d a k) := rfl
theorem Words.vpopc (d : VReg) (a : VReg) (k : MReg) : Words.Statement (.vpopc d a k) := rfl
theorem Words.vwadd (d : VReg) (a : VReg) (b : Src2) (k : MReg) : Words.Statement (.vwadd d a b k) := rfl
theorem Words.vwmul (d : VReg) (a : VReg) (b : Src2) (k : MReg) : Words.Statement (.vwmul d a b k) := rfl
theorem Words.vnshr (d : VReg) (a : VReg) (b : Src2) (k : MReg) : Words.Statement (.vnshr d a b k) := rfl
theorem Words.vmerge (d : VReg) (a : VReg) (b : Src2) (k : MReg) : Words.Statement (.vmerge d a b k) := rfl
theorem Words.vid (d : VReg) (k : MReg) : Words.Statement (.vid d k) := rfl
theorem Words.vmv (d : VReg) (b : Src2) (k : MReg) : Words.Statement (.vmv d b k) := rfl
theorem Words.vdiv (d : VReg) (a : VReg) (b : Src2) (k : MReg) : Words.Statement (.vdiv d a b k) := rfl
theorem Words.vrem (d : VReg) (a : VReg) (b : Src2) (k : MReg) : Words.Statement (.vrem d a b k) := rfl
theorem Words.vfadd (d : VReg) (a : VReg) (b : Src2) (k : MReg) : Words.Statement (.vfadd d a b k) := rfl
theorem Words.vfsub (d : VReg) (a : VReg) (b : Src2) (k : MReg) : Words.Statement (.vfsub d a b k) := rfl
theorem Words.vfmul (d : VReg) (a : VReg) (b : Src2) (k : MReg) : Words.Statement (.vfmul d a b k) := rfl
theorem Words.vfdiv (d : VReg) (a : VReg) (b : Src2) (k : MReg) : Words.Statement (.vfdiv d a b k) := rfl
theorem Words.vfsqrt (d : VReg) (a : VReg) (k : MReg) : Words.Statement (.vfsqrt d a k) := rfl
theorem Words.vfrsqe (d : VReg) (a : VReg) (k : MReg) : Words.Statement (.vfrsqe d a k) := rfl
theorem Words.vfrece (d : VReg) (a : VReg) (k : MReg) : Words.Statement (.vfrece d a k) := rfl
theorem Words.vfmin (d : VReg) (a : VReg) (b : Src2) (k : MReg) : Words.Statement (.vfmin d a b k) := rfl
theorem Words.vfmax (d : VReg) (a : VReg) (b : Src2) (k : MReg) : Words.Statement (.vfmax d a b k) := rfl
theorem Words.vfcopys (d : VReg) (a : VReg) (b : Src2) (k : MReg) : Words.Statement (.vfcopys d a b k) := rfl
theorem Words.vfcopyns (d : VReg) (a : VReg) (b : Src2) (k : MReg) : Words.Statement (.vfcopyns d a b k) := rfl
theorem Words.vfxors (d : VReg) (a : VReg) (b : Src2) (k : MReg) : Words.Statement (.vfxors d a b k) := rfl
theorem Words.vfscale (d : VReg) (a : VReg) (b : Src2) (k : MReg) : Words.Statement (.vfscale d a b k) := rfl
theorem Words.vfexpo (d : VReg) (a : VReg) (k : MReg) : Words.Statement (.vfexpo d a k) := rfl
theorem Words.vfclass (d : VReg) (a : VReg) (k : MReg) : Words.Statement (.vfclass d a k) := rfl
theorem Words.vfwadd (d : VReg) (a : VReg) (b : Src2) (k : MReg) : Words.Statement (.vfwadd d a b k) := rfl
theorem Words.vfwmul (d : VReg) (a : VReg) (b : Src2) (k : MReg) : Words.Statement (.vfwmul d a b k) := rfl
theorem Words.vfma (d : VReg) (a : VReg) (b : VReg) (c : VReg) (k : MReg) : Words.Statement (.vfma d a b c k) := rfl
theorem Words.vfms (d : VReg) (a : VReg) (b : VReg) (c : VReg) (k : MReg) : Words.Statement (.vfms d a b c k) := rfl
theorem Words.vfnma (d : VReg) (a : VReg) (b : VReg) (c : VReg) (k : MReg) : Words.Statement (.vfnma d a b c k) := rfl
theorem Words.vfnms (d : VReg) (a : VReg) (b : VReg) (c : VReg) (k : MReg) : Words.Statement (.vfnms d a b c k) := rfl
theorem Words.vfwma (d : VReg) (a : VReg) (b : VReg) (c : VReg) (k : MReg) : Words.Statement (.vfwma d a b c k) := rfl
theorem Words.vimac (d : VReg) (a : VReg) (b : VReg) (c : VReg) (k : MReg) : Words.Statement (.vimac d a b c k) := rfl
theorem Words.vcmpEq (j : MReg) (a : VReg) (b : Src2) (k : MReg) : Words.Statement (.vcmpEq j a b k) := rfl
theorem Words.vcmpNe (j : MReg) (a : VReg) (b : Src2) (k : MReg) : Words.Statement (.vcmpNe j a b k) := rfl
theorem Words.vcmpLt (j : MReg) (a : VReg) (b : Src2) (k : MReg) : Words.Statement (.vcmpLt j a b k) := rfl
theorem Words.vcmpLe (j : MReg) (a : VReg) (b : Src2) (k : MReg) : Words.Statement (.vcmpLe j a b k) := rfl
theorem Words.vcmpLtu (j : MReg) (a : VReg) (b : Src2) (k : MReg) : Words.Statement (.vcmpLtu j a b k) := rfl
theorem Words.vcmpLeu (j : MReg) (a : VReg) (b : Src2) (k : MReg) : Words.Statement (.vcmpLeu j a b k) := rfl
theorem Words.vfcmpEq (j : MReg) (a : VReg) (b : Src2) (k : MReg) : Words.Statement (.vfcmpEq j a b k) := rfl
theorem Words.vfcmpLt (j : MReg) (a : VReg) (b : Src2) (k : MReg) : Words.Statement (.vfcmpLt j a b k) := rfl
theorem Words.vfcmpLe (j : MReg) (a : VReg) (b : Src2) (k : MReg) : Words.Statement (.vfcmpLe j a b k) := rfl
theorem Words.vfcmpUn (j : MReg) (a : VReg) (b : Src2) (k : MReg) : Words.Statement (.vfcmpUn j a b k) := rfl
theorem Words.kand (j : MReg) (x : MReg) (y : MReg) (k : MReg) : Words.Statement (.kand j x y k) := rfl
theorem Words.kor (j : MReg) (x : MReg) (y : MReg) (k : MReg) : Words.Statement (.kor j x y k) := rfl
theorem Words.kxor (j : MReg) (x : MReg) (y : MReg) (k : MReg) : Words.Statement (.kxor j x y k) := rfl
theorem Words.kandn (j : MReg) (x : MReg) (y : MReg) (k : MReg) : Words.Statement (.kandn j x y k) := rfl
theorem Words.kprex (j : MReg) (x : MReg) (k : MReg) : Words.Statement (.kprex j x k) := rfl
theorem Words.kprin (j : MReg) (x : MReg) (k : MReg) : Words.Statement (.kprin j x k) := rfl
theorem Words.ksufin (j : MReg) (x : MReg) (k : MReg) : Words.Statement (.ksufin j x k) := rfl
theorem Words.kpopc (d : SReg) (x : MReg) (k : MReg) : Words.Statement (.kpopc d x k) := rfl
theorem Words.kfirst (d : SReg) (x : MReg) (k : MReg) : Words.Statement (.kfirst d x k) := rfl
theorem Words.kmov (j : MReg) (x : MReg) (k : MReg) : Words.Statement (.kmov j x k) := rfl
theorem Words.ktov (d : VReg) (x : MReg) (k : MReg) : Words.Statement (.ktov d x k) := rfl
theorem Words.vtok (j : MReg) (a : VReg) (k : MReg) : Words.Statement (.vtok j a k) := rfl
theorem Words.kset (j : MReg) (k : MReg) : Words.Statement (.kset j k) := rfl
theorem Words.vcvt (c : Fmt) (m : Rm) (s : Bool) (d : VReg) (a : VReg) (k : MReg) : Words.Statement (.vcvt c m s d a k) := rfl
theorem Words.vredsum (t : RedDst) (b : VReg) (k : MReg) : Words.Statement (.vredsum t b k) := rfl
theorem Words.vredmax (t : RedDst) (b : VReg) (k : MReg) : Words.Statement (.vredmax t b k) := rfl
theorem Words.vredmin (t : RedDst) (b : VReg) (k : MReg) : Words.Statement (.vredmin t b k) := rfl
theorem Words.vredand (t : RedDst) (b : VReg) (k : MReg) : Words.Statement (.vredand t b k) := rfl
theorem Words.vredor (t : RedDst) (b : VReg) (k : MReg) : Words.Statement (.vredor t b k) := rfl
theorem Words.vredxor (t : RedDst) (b : VReg) (k : MReg) : Words.Statement (.vredxor t b k) := rfl
theorem Words.vfredsum (t : RedDst) (b : VReg) (k : MReg) : Words.Statement (.vfredsum t b k) := rfl
theorem Words.vfredmax (t : RedDst) (b : VReg) (k : MReg) : Words.Statement (.vfredmax t b k) := rfl
theorem Words.vfredmin (t : RedDst) (b : VReg) (k : MReg) : Words.Statement (.vfredmin t b k) := rfl
theorem Words.vscan (d : VReg) (a : SReg) (b : VReg) (k : MReg) : Words.Statement (.vscan d a b k) := rfl
theorem Words.vfscan (d : VReg) (a : SReg) (b : VReg) (k : MReg) : Words.Statement (.vfscan d a b k) := rfl
theorem Words.vcompress (d : VReg) (a : VReg) (k : MReg) : Words.Statement (.vcompress d a k) := rfl
theorem Words.vexpand (d : VReg) (a : VReg) (k : MReg) : Words.Statement (.vexpand d a k) := rfl
theorem Words.vtopk (d : VReg) (a : VReg) (b : SReg) (k : MReg) : Words.Statement (.vtopk d a b k) := rfl
theorem Words.vslideup (d : VReg) (a : VReg) (b : Src2) (k : MReg) : Words.Statement (.vslideup d a b k) := rfl
theorem Words.vslidedn (d : VReg) (a : VReg) (b : Src2) (k : MReg) : Words.Statement (.vslidedn d a b k) := rfl
theorem Words.vperm (d : VReg) (a : VReg) (b : VReg) (k : MReg) : Words.Statement (.vperm d a b k) := rfl
theorem Words.vextr (d : SReg) (a : VReg) (b : SReg) (k : MReg) : Words.Statement (.vextr d a b k) := rfl
theorem Words.vins (d : VReg) (a : SReg) (b : SReg) (k : MReg) : Words.Statement (.vins d a b k) := rfl
theorem Words.viota (d : VReg) (x : MReg) (k : MReg) : Words.Statement (.viota d x k) := rfl
theorem Words.vrowbc (d : VReg) (a : VReg) (b : SReg) (k : MReg) : Words.Statement (.vrowbc d a b k) := rfl
theorem Words.vld (d : VReg) (a : SReg) (k : MReg) (e : EWidth) (x : Bool) (h : VHint) : Words.Statement (.vld d a k e x h) := rfl
theorem Words.vlds (d : VReg) (a : SReg) (b : SReg) (k : MReg) (e : EWidth) (x : Bool) (h : VHint) : Words.Statement (.vlds d a b k e x h) := rfl
theorem Words.vldx (d : VReg) (a : SReg) (b : VReg) (k : MReg) (e : EWidth) (x : Bool) (h : XHint) : Words.Statement (.vldx d a b k e x h) := rfl
theorem Words.vldff (d : VReg) (a : SReg) (k : MReg) (e : EWidth) (x : Bool) (h : VHint) : Words.Statement (.vldff d a k e x h) := rfl
theorem Words.vldw (d : VReg) (a : SReg) (b : VReg) (k : MReg) (e : EWidth) (x : Bool) (h : XHint) : Words.Statement (.vldw d a b k e x h) := rfl
theorem Words.vldmx (d : VReg) (a : SReg) (b : VReg) (k : MReg) (x : Bool) (h : VHint) : Words.Statement (.vldmx d a b k x h) := rfl
theorem Words.vldaq (d : VReg) (a : SReg) (k : MReg) (e : EWidth) (x : Bool) (h : VHint) : Words.Statement (.vldaq d a k e x h) := rfl
theorem Words.vst (d : VReg) (a : SReg) (k : MReg) (e : EWidth) (h : VHint) : Words.Statement (.vst d a k e h) := rfl
theorem Words.vsts (d : VReg) (a : SReg) (b : SReg) (k : MReg) (e : EWidth) (h : VHint) : Words.Statement (.vsts d a b k e h) := rfl
theorem Words.vstx (d : VReg) (a : SReg) (b : VReg) (k : MReg) (e : EWidth) (h : XHint) : Words.Statement (.vstx d a b k e h) := rfl
theorem Words.vstp (d : VReg) (a : SReg) (k : MReg) (e : EWidth) (h : VHint) : Words.Statement (.vstp d a k e h) := rfl
theorem Words.vcommit (k : MReg) : Words.Statement (.vcommit k) := rfl
theorem Words.vamoadd (o : Order) (e : Bool) (d : VReg) (a : SReg) (b : VReg) (k : MReg) : Words.Statement (.vamoadd o e d a b k) := rfl
theorem Words.vamoand (o : Order) (e : Bool) (d : VReg) (a : SReg) (b : VReg) (k : MReg) : Words.Statement (.vamoand o e d a b k) := rfl
theorem Words.vamoor (o : Order) (e : Bool) (d : VReg) (a : SReg) (b : VReg) (k : MReg) : Words.Statement (.vamoor o e d a b k) := rfl
theorem Words.vamoxor (o : Order) (e : Bool) (d : VReg) (a : SReg) (b : VReg) (k : MReg) : Words.Statement (.vamoxor o e d a b k) := rfl
theorem Words.vamomin (o : Order) (e : Bool) (d : VReg) (a : SReg) (b : VReg) (k : MReg) : Words.Statement (.vamomin o e d a b k) := rfl
theorem Words.vamomax (o : Order) (e : Bool) (d : VReg) (a : SReg) (b : VReg) (k : MReg) : Words.Statement (.vamomax o e d a b k) := rfl
theorem Words.vamominu (o : Order) (e : Bool) (d : VReg) (a : SReg) (b : VReg) (k : MReg) : Words.Statement (.vamominu o e d a b k) := rfl
theorem Words.vamomaxu (o : Order) (e : Bool) (d : VReg) (a : SReg) (b : VReg) (k : MReg) : Words.Statement (.vamomaxu o e d a b k) := rfl
theorem Words.vamoswap (o : Order) (e : Bool) (d : VReg) (a : SReg) (b : VReg) (k : MReg) : Words.Statement (.vamoswap o e d a b k) := rfl
theorem Words.vamofadd (o : Order) (r : Bool) (e : Bool) (d : VReg) (a : SReg) (b : VReg) (k : MReg) : Words.Statement (.vamofadd o r e d a b k) := rfl
theorem Words.mbegin (d : SReg) (a : SReg) : Words.Statement (.mbegin d a) := rfl
theorem Words.mend : Words.Statement (.mend) := rfl
theorem Words.mzero (t : Tile) : Words.Statement (.mzero t) := rfl
theorem Words.mprod (t : Tile) (a : VReg) (b : VReg) (k : MReg) : Words.Statement (.mprod t a b k) := rfl
theorem Words.mprodn (t : Tile) (a : VReg) (b : VReg) (k : MReg) : Words.Statement (.mprodn t a b k) := rfl
theorem Words.mprods (t : Tile) (d : VReg) (a : VReg) (b : VReg) (k : MReg) : Words.Statement (.mprods t d a b k) := rfl
theorem Words.mrd (t : Tile) (s : Bool) (d : VReg) (a : SReg) : Words.Statement (.mrd t s d a) := rfl
theorem Words.mwr (t : Tile) (s : Bool) (d : VReg) (a : SReg) : Words.Statement (.mwr t s d a) := rfl
theorem Words.mld (c : CReg) (t : Tile) (s : Bool) (a : SReg) (b : SReg) : Words.Statement (.mld c t s a b) := rfl
theorem Words.mst (c : CReg) (t : Tile) (s : Bool) (a : SReg) (b : SReg) : Words.Statement (.mst c t s a b) := rfl
theorem Words.mtgemm (c : CReg) (a : SReg) : Words.Statement (.mtgemm c a) := rfl
theorem Words.xcopy (c : CReg) (a : SReg) : Words.Statement (.xcopy c a) := rfl
theorem Words.xfill (c : CReg) (a : SReg) : Words.Statement (.xfill c a) := rfl
theorem Words.czero (c : CReg) (a : SReg) (b : SReg) : Words.Statement (.czero c a b) := rfl
theorem Words.hdrain (c : CReg) (a : SReg) (h : Handle) : Words.Statement (.hdrain c a h) := rfl
theorem Words.ccwait (c : CReg) (b : Fin 32) : Words.Statement (.ccwait c b) := rfl
theorem Words.ccrd (c : CReg) (a : SReg) : Words.Statement (.ccrd c a) := rfl
theorem Words.smap (d : SReg) (a : SReg) (b : SReg) (w : WinId) : Words.Statement (.smap d a b w) := rfl
theorem Words.sunmap (w : WinId) : Words.Statement (.sunmap w) := rfl
theorem Words.swb (c : CReg) (w : WinId) : Words.Statement (.swb c w) := rfl
theorem Words.cadd (f : CellFmt) (a : SReg) (b : SReg) : Words.Statement (.cadd f a b) := rfl
theorem Words.vcadd (f : CellFmt) (d : VReg) (a : SReg) (b : VReg) (k : MReg) : Words.Statement (.vcadd f d a b k) := rfl
theorem Words.craw (d : VReg) (a : SReg) (k : MReg) : Words.Statement (.craw d a k) := rfl
theorem Words.cwraw (d : VReg) (a : SReg) (k : MReg) : Words.Statement (.cwraw d a k) := rfl
theorem Words.hclaim (d : SReg) (a : SReg) (h : Handle) : Words.Statement (.hclaim d a h) := rfl
theorem Words.hrel (h : Handle) : Words.Statement (.hrel h) := rfl
theorem Words.hins (d : VReg) (a : VReg) (b : VReg) (h : Handle) (k : MReg) : Words.Statement (.hins d a b h k) := rfl
theorem Words.hprobe (d : VReg) (a : VReg) (h : Handle) (k : MReg) : Words.Statement (.hprobe d a h k) := rfl
theorem Words.hdel (a : VReg) (h : Handle) (k : MReg) : Words.Statement (.hdel a h k) := rfl
theorem Words.hacc (f : HAccOp) (d : VReg) (a : VReg) (b : VReg) (h : Handle) (k : MReg) : Words.Statement (.hacc f d a b h k) := rfl
theorem Words.hstat (d : SReg) (h : Handle) : Words.Statement (.hstat d h) := rfl
theorem Words.imageLoad (m : Msg) : Words.Statement (.imageLoad m) := rfl
theorem Words.imageDrop (m : Msg) : Words.Statement (.imageDrop m) := rfl
theorem Words.launch (m : Msg) : Words.Statement (.launch m) := rfl
theorem Words.graphDefine (m : Msg) : Words.Statement (.graphDefine m) := rfl
theorem Words.graphReplay (m : Msg) : Words.Statement (.graphReplay m) := rfl
theorem Words.graphPatch (m : Msg) : Words.Statement (.graphPatch m) := rfl
theorem Words.sync (m : Msg) : Words.Statement (.sync m) := rfl
theorem Words.query (m : Msg) : Words.Statement (.query m) := rfl
theorem Words.partitionSet (m : Msg) : Words.Statement (.partitionSet m) := rfl
theorem Words.dieReset (m : Msg) : Words.Statement (.dieReset m) := rfl
theorem Words.attest (m : Msg) : Words.Statement (.attest m) := rfl
theorem Words.policyLoad (m : Msg) : Words.Statement (.policyLoad m) := rfl
theorem Words.completionMessage (n : Nat) : Words.Statement (.completionMessage n) := rfl
theorem Words.dctlFence (x : Fin 4) : Words.Statement (.dctlFence x) := rfl
theorem Words.dctlQuiesce (x : Fin 4) : Words.Statement (.dctlQuiesce x) := rfl
theorem Words.dctlFlush (x : Fin 4) : Words.Statement (.dctlFlush x) := rfl
theorem Words.dctlSelfref (x : Fin 4) : Words.Statement (.dctlSelfref x) := rfl
theorem Words.dctlReset (x : Fin 4) : Words.Statement (.dctlReset x) := rfl
theorem Words.dctlTrain (x : Fin 4) : Words.Statement (.dctlTrain x) := rfl
theorem Words.dctlAdmit (x : Fin 4) : Words.Statement (.dctlAdmit x) := rfl
theorem Words.dieActionComplete (x : Fin 4) (f : Bool) : Words.Statement (.dieActionComplete x f) := rfl
theorem Words.dispatchRound : Words.Statement (.dispatchRound) := rfl
theorem Words.preemptionRequest : Words.Statement (.preemptionRequest) := rfl
theorem Words.gangStopComplete (g : BitVec 32) : Words.Statement (.gangStopComplete g) := rfl
theorem Words.gangEnd (g : BitVec 32) : Words.Statement (.gangEnd g) := rfl
theorem Words.graphNodeQueue (r : Nat) (n : Nat) : Words.Statement (.graphNodeQueue r n) := rfl
theorem Words.cpServiceReply : Words.Statement (.cpServiceReply) := rfl
theorem Words.watchdog : Words.Statement (.watchdog) := rfl
theorem Words.engineAccept : Words.Statement (.engineAccept) := rfl
theorem Words.engineComplete (n : Nat) : Words.Statement (.engineComplete n) := rfl
theorem Words.barrierEpisodeComplete (g : BitVec 32) (x : Fin 4) : Words.Statement (.barrierEpisodeComplete g x) := rfl
theorem Words.leadInstruction : Words.Statement (.leadInstruction) := rfl
theorem Words.leadPrefetchFill (n : Nat) : Words.Statement (.leadPrefetchFill n) := rfl
theorem Words.l2LineEviction (l : Nat) : Words.Statement (.l2LineEviction l) := rfl
theorem Words.patrolScrub (l : Nat) (c : Corrected) : Words.Statement (.patrolScrub l c) := rfl
theorem Words.voltageUpdate : Words.Statement (.voltageUpdate) := rfl
theorem Words.capStep (p : Nat) : Words.Statement (.capStep p) := rfl
theorem Words.kettleUpdate (p : Nat) : Words.Statement (.kettleUpdate p) := rfl
theorem Words.temperatureCrossing (x : Fin 4) (c : Int) : Words.Statement (.temperatureCrossing x c) := rfl
theorem Words.thermalTrip (x : Fin 4) : Words.Statement (.thermalTrip x) := rfl
theorem Words.mainPowerUp (b : BootInput) : Words.Statement (.mainPowerUp b) := rfl
theorem Words.mainPowerDown : Words.Statement (.mainPowerDown) := rfl
theorem Words.portDown (x : Fin 9) (lost : List (BitVec 32)) : Words.Statement (.portDown x lost) := rfl
theorem Words.linkFlitRetry (x : Fin 9) : Words.Statement (.linkFlitRetry x) := rfl
theorem Words.portstatRead (x : Fin 9) : Words.Statement (.portstatRead x) := rfl
theorem Words.hostRead (r : HostReq) : Words.Statement (.hostRead r) := rfl
theorem Words.hostWrite (r : HostReq) : Words.Statement (.hostWrite r) := rfl
theorem Words.peerRequest (r : PeerReq) : Words.Statement (.peerRequest r) := rfl
theorem Words.sidebandPldmRequest (t : BitVec 8) (q : PldmReq) : Words.Statement (.sidebandPldmRequest t q) := rfl
theorem Words.sidebandPowerLimit (w : Nat) : Words.Statement (.sidebandPowerLimit w) := rfl
theorem Words.illegalInstruction (w : BitVec 32) : Words.Statement (.illegalInstruction w) := rfl
theorem Words.fetchFault (w : Word) : Words.Statement (.fetchFault w) := rfl
theorem Words.vectorInstructionCompletion : Words.Statement (.vectorInstructionCompletion) := rfl
theorem Words.accessPerforms (n : Nat) : Words.Statement (.accessPerforms n) := rfl
theorem Words.uncorrectableError (u : EccUnit) : Words.Statement (.uncorrectableError u) := rfl
theorem Words.portUp (x : Fin 9) (n : Nat) (far : Fin 8) : Words.Statement (.portUp x n far) := rfl

end Sys2Proof.Laws
end

