-- ==== Sys2Proof/Tests/Slice0.lean ====
section
/-! SUPPORT. Tests: words of the manual and what they decode to, ill-formed terms, single steps on small states with the values that the manual
gives, and for each statement that has hypotheses a state that meets them. -/

set_option Elab.async false

open Sys2Proof Sys2Proof.Machine

namespace Sys2Proof.Tests

/-! ## Words of the manual (06 to 18, worked programs of 06 to 17 and 24) -/

theorem test_decode_alu :
    decodeWord 0x056B7800 = .ok (.add 11 11 15) ∧ decodeWord 0x058C6801 = .ok (.sub 12 12 13) ∧ decodeWord 0x056C680B = .ok (.sltu 11 12 13) :=
  ⟨rfl, rfl, rfl⟩
theorem test_decode_immediates :
    decodeWord 0x0BFFFFF2 = .ok (.addi 31 31 (-14)) ∧ decodeWord 0x0FFF00FF = .ok (.andi 31 31 255) ∧ decodeWord 0x19ED0003 = .ok (.slli 15 13 3) :=
  ⟨rfl, rfl, rfl⟩
theorem test_decode_muldiv : decodeWord 0x2E932000 = .ok (.mul 20 19 4) ∧ decodeWord 0x2E942805 = .ok (.divu 20 20 5) := ⟨rfl, rfl⟩
theorem test_decode_fps_fmas :
    decodeWord 0x316C6F00 = .ok (.fadd .single .dyn 11 12 13) ∧ decodeWord 0x356C6B84 = .ok (.fmadd .double .rne 11 12 13 14)
      ∧ decodeWord 0x371BEE3F = .ok (.fnmsub .double .dyn 24 27 29 24) := ⟨rfl, rfl, rfl⟩
theorem test_decode_scalar_memory :
    decodeWord 0x51A30010 = .ok (.ldw 13 3 16) ∧ decodeWord 0x56710000 = .ok (.ldwu 19 17 0)
      ∧ decodeWord 0x59830008 = .ok (.ldd 12 3 8) ∧ decodeWord 0x65EC0000 = .ok (.stw 15 12 0) ∧ decodeWord 0x69CF0000 = .ok (.std 14 15 0) :=
  ⟨rfl, rfl, rfl, rfl, rfl⟩
theorem test_decode_sync :
    decodeWord 0x6FBC0301 = .ok (.ldaqD .package 29 28) ∧ decodeWord 0x6C0D0303 = .ok (.strlD .package 0 13)
      ∧ decodeWord 0x718D5B69 = .ok (.amocas .package .acquire .dword 12 13 11)
      ∧ decodeWord 0x735DCB00 = .ok (.amoadd .package .relaxed .word 26 29 25) := ⟨rfl, rfl, rfl, rfl⟩
theorem test_decode_branches :
    decodeWord 0x81A00008 = .ok (.beq 13 0 8) ∧ decodeWord 0x8980FFFF = .ok (.blt 12 0 (-1)) ∧ decodeWord 0x964B001E = .ok (.bgeu 18 11 30)
      ∧ decodeWord 0x9FFFFFF8 = .ok (.jmp (-8)) ∧ decodeWord 0xA0010003 = .ok (.jr 1) := ⟨rfl, rfl, rfl, rfl, rfl⟩
theorem test_decode_system :
    decodeWord 0xA4002803 = .ok (.svc 5) ∧ decodeWord 0xA5602805 = .ok (.rdsr 11 .vlcap) ∧ decodeWord 0xA6602006 = .ok (.wrsr .rowstr 19)
      ∧ decodeWord 0xA4410000 = .ok (.fence ⟨false, true, false⟩ ⟨true, false, false⟩ .hart) ∧ decodeWord 0xA4000009 = .ok .exit
      ∧ decodeWord 0xA400000A = .ok (.gbar 0) := ⟨rfl, rfl, rfl, rfl, rfl, rfl⟩
theorem test_decode_privileged :
    decodeWord 0xABF00808 = .ok (.prdsr 31 .tcause) ∧ decodeWord 0xA8000000 = .ok .eret ∧ decodeWord 0xA800000A = .ok .halt
      ∧ decodeWord 0xA80B6002 = .ok (.cwb 11 12) := ⟨rfl, rfl, rfl, rfl⟩
theorem test_decode_configuration :
    decodeWord 0xC16C6800 = .ok (.setvl 11 12 13) ∧ decodeWord 0xC56C06B1 = .ok (.setvli 11 12 3 0xB1) := ⟨rfl, rfl⟩
theorem test_decode_vector_arithmetic :
    decodeWord 0xC9087040 = .ok (.vadd 8 8 (.vs 14) 0) ∧ decodeWord 0xC94A490B = .ok (.vand 10 10 (.vv 9) 1)
      ∧ decodeWord 0xC9072990 = .ok (.vsra 8 7 (.vi 5) 1) ∧ decodeWord 0xC980001B = .ok (.vid 12 0)
      ∧ decodeWord 0xD110C208 = .ok (.vfma 8 16 24 8 1) := ⟨rfl, rfl, rfl, rfl, rfl⟩
theorem test_decode_masks :
    decodeWord 0xD44A0180 = .ok (.vcmpEq 2 10 (.vi 0) 1) ∧ decodeWord 0xD46CC844 = .ok (.vcmpLtu 3 12 (.vs 25) 0)
      ∧ decodeWord 0xD4420810 = .ok (.kand 2 2 1 0) ∧ decodeWord 0xD7220017 = .ok (.kpopc 25 2 0) ∧ decodeWord 0xD420001C = .ok (.kset 1 0) :=
  ⟨rfl, rfl, rfl, rfl, rfl⟩
theorem test_decode_transforms :
    decodeWord 0xD8882016 = .ok (.vcvt .e4m3 .dit true 4 8 0) ∧ decodeWord 0xD9670260 = .ok (.vcompress 11 7 2)
      ∧ decodeWord 0xD8905962 = .ok (.vtopk 4 16 11 1) := ⟨rfl, rfl, rfl⟩
/-- 0xDC00_0000 + (8 << 21) + (9 << 16) + (3 << 11) + 0x80 + 0x01: VSLIDEDN.VI v8, v9, 3 (06 R143). -/
theorem test_decode_permutations : decodeWord (0xDC000000 + 8 * 2 ^ 21 + 9 * 2 ^ 16 + 3 * 2 ^ 11 + 0x81) = .ok (.vslidedn 8 9 (.vi 3) 0) := rfl
theorem test_decode_vector_memory :
    decodeWord 0xE10B0018 = .ok (.vld 8 11 0 .w64 false .normal) ∧ decodeWord 0xE10B824C = .ok (.vldx 8 11 16 2 .w16 true ⟨false, false⟩)
      ∧ decodeWord 0xE60F0010 = .ok (.vst 16 15 0 .w32 .normal) ∧ decodeWord 0xE50C0160 = .ok (.vstp 8 12 1 .w8 .normal)
      ∧ decodeWord 0xE4000380 = .ok (.vcommit 3) := ⟨rfl, rfl, rfl, rfl, rfl⟩
theorem test_decode_vector_atomics : decodeWord 0xE94D4112 = .ok (.vamoor .relaxed true 10 13 8 1) := rfl
theorem test_decode_matrix_engine :
    decodeWord 0xF20E0066 = .ok (.mrd 3 false 16 14) ∧ decodeWord 0xF0000010 = .ok .mend ∧ decodeWord 0xF44B0000 = .ok (.mtgemm 2 11)
      ∧ decodeWord 0xF40B7003 = .ok (.czero 0 11 14) ∧ decodeWord 0xF4400806 = .ok (.ccwait 2 1) ∧ decodeWord 0xF56C6A08 = .ok (.smap 11 12 13 2) :=
  ⟨rfl, rfl, rfl, rfl, rfl, rfl⟩
theorem test_decode_cells_hashes :
    decodeWord 0xF80B6800 = .ok (.cadd .f32 11 13) ∧ decodeWord 0xF9EB0080 = .ok (.hclaim 15 11 0)
      ∧ decodeWord 0xF94848A0 = .ok (.hins 10 8 9 0 0) ∧ decodeWord 0xF4300040 = .ok (.hdrain 1 16 0) := ⟨rfl, rfl, rfl, rfl⟩

/-- Majors that the manual leaves unassigned, a reserved FN, a set bit that must be zero and an index with no register are no instruction
(06 R149). -/
theorem test_decode_refuses :
    (∀ i, decodeWord 0 ≠ .ok i) ∧ (∀ i, decodeWord 0x38000000 ≠ .ok i) ∧ (∀ i, decodeWord 0x04000018 ≠ .ok i) ∧ (∀ i, decodeWord 0x04000810 ≠ .ok i)
      ∧ (∀ i, decodeWord 0xA4000013 ≠ .ok i) ∧ (∀ i, decodeWord 0xFFFFFFFF ≠ .ok i) := by
  refine ⟨?_, ?_, ?_, ?_, ?_, ?_⟩ <;> (intro i h; cases h)

/-! ## Terms that are not well formed, one for each check -/

theorem test_ill_formed_scalar :
    wellFormed (.fadd .single .dit 1 2 3) = false ∧ wellFormed (.fsqrt .double .dit 1 2) = false ∧ wellFormed (.fmadd .single .dit 1 2 3 4) = false
      ∧ wellFormed (.wrsr .vl 1) = false ∧ wellFormed (.pwrsr .ptroot 1) = false := ⟨rfl, rfl, rfl, rfl, rfl⟩
theorem test_ill_formed_vector :
    wellFormed (.vsub 1 2 (.vi 3) 0) = false ∧ wellFormed (.vrsub 1 2 (.vv 3) 0) = false ∧ wellFormed (.vfadd 1 2 (.vi 3) 0) = false
      ∧ wellFormed (.vcmpEq 0 1 (.vv 2) 0) = false ∧ wellFormed (.vfcmpEq 1 2 (.vi 2) 0) = false ∧ wellFormed (.vfcmpEq 0 2 (.vv 2) 0) = false
      ∧ wellFormed (.kand 0 1 2 0) = false ∧ wellFormed (.kprex 0 1 0) = false ∧ wellFormed (.vtok 0 1 0) = false ∧ wellFormed (.kset 0 0) = false
      ∧ wellFormed (.vcvt .mxE4m3 .rne true 1 2 0) = false ∧ wellFormed (.vcvt .int8 .dit true 1 2 0) = false
      ∧ wellFormed (.vslideup 1 2 (.vv 3) 0) = false ∧ wellFormed (.vslidedn 1 2 (.vi (-1)) 0) = false :=
  ⟨rfl, rfl, rfl, rfl, rfl, rfl, rfl, rfl, rfl, rfl, rfl, rfl, rfl, rfl⟩
theorem test_ill_formed_memory_engine_hash :
    wellFormed (.vldw 1 2 3 0 .w32 false ⟨false, false⟩) = false ∧ wellFormed (.vldmx 1 2 3 0 false .normal) = false
      ∧ wellFormed (.hprobe 1 2 0 0) = false ∧ wellFormed (.ccwait 0 0) = false
      ∧ wellFormed (.hostWrite { source := 0, partition := 0, asid := 0, va := 0, n := 2, data := [1] }) = false := ⟨rfl, rfl, rfl, rfl, rfl⟩

/-! ## Small states -/

/-- A hart at U level, running at address 0 of a readable, writable and executable DATA page that maps the addresses up to 0xFFFF. -/
def world : State := State.reset.withFetchWord 32 0

/-- The same state with its hart changed, and with a value in a register. -/
def worldWith (f : Hart → Hart) : State := world.withHart f
def with1 (x : Word) : State := world.setS 1 x

/-- The same at S level. -/
def superWorld : State := worldWith fun h => { h with priv := { h.priv with level := true } }

/-- A state with the 64 KiB from an address 65536 * j on mapped, for reads and writes, with the KIND and the RAW bit of a page. -/
def addPage (s : State) (j kind raw : Nat) : State :=
  { s with mem := Memory.write s.mem (fetchBase s 3 + 8 * j) 8 (fetchBase s (4 + j) + 0xCB3 + 4 * kind + 0x100 * raw) }

/-- The place of an address of the first 512 MiB. -/
def placeAt (kind : Nat) (va : Word) : Place := { pa := 4 * 65536 + va.toNat, kind := kind, e0 := 0 }

/-- An address translates by a leaf of which a test is true. -/
def leafIs (s : State) (c : Ctx) (va : Word) (f : Leaf → Bool) : Bool :=
  match s.leafOf c va with
  | some l => s.finds c va l && f l
  | none => false

/-- An action answers a value and a state of which a test is true. -/
def okIs (r : EStateM.Result Stop State α) (f : α → State → Bool) : Bool :=
  match r with
  | .ok x t => f x t
  | .error .. => false

/-- An outcome is a next state of which a test is true. -/
def nextIs (o : Out1) (f : State → Bool) : Bool :=
  match o with
  | .next t => f t
  | _ => false

/-! ## Scalar statements: states that meet their hypotheses -/

theorem witness_registerFile : (1 : SReg) ≠ 0 ∧ (2 : SReg) ≠ 1 := by decide

theorem witness_integerResults :
    (with1 5).badS 1 = false ∧ (with1 5).badS 2 = false ∧ (worldWith fun h => { h with ecc := { h.ecc with s := 2 } }).badS 1 = true := by
  decide +kernel

/-- Operands of each clause: a zero divisor, the signed overflow, and neither. -/
theorem witness_mulDivResults :
    (with1 5).badS 1 = false ∧ (with1 5).badS 2 = false ∧ (with1 5).getS 2 = 0
      ∧ ((with1 (BitVec.intMin 64)).setS 2 (-1)).getS 1 = BitVec.intMin 64 ∧ ((with1 (BitVec.intMin 64)).setS 2 (-1)).getS 2 = -1
      ∧ ((with1 (-7)).setS 2 2).getS 2 ≠ 0 ∧ (worldWith fun h => { h with ecc := { h.ecc with s := 4 } }).badS 2 = true := by
  decide +kernel

theorem witness_fpRoundedResults :
    world.mode .dyn = some .rne ∧ world.mode .rmm = some .rmm ∧ world.badS 1 = false
      ∧ (worldWith fun h => { h with fcsr := 4 }).mode .dyn = some .rmm ∧ 5 ≤ (worldWith fun h => { h with fcsr := 5 }).hart.fcsr.toNat % 8
      ∧ 5 ≤ (worldWith fun h => { h with fcsr := 0xFF }).hart.fcsr.toNat % 8 := by
  decide +kernel

theorem witness_roundingResults :
    0 < (3 : Nat) ∧ 0x7FEFFFFFFFFFFFFF < 2 ^ FpFmt.fp64.bits ∧ (decodeFp .fp64 0x7FEFFFFFFFFFFFFF).isNaN = false
      ∧ (15 : Nat) < 2 ^ FpFmt.e2m1.bits ∧ (decodeFp .e2m1 15).isNaN = false := by
  decide +kernel

/-- Places of loads, stores and atomics of every width, at the last addresses of the page: for ScalarLoadResults, ScalarStoreResults,
ReleaseStoreAndPrefetch and AtomicResults. -/
theorem witness_scalarAccesses :
    world.badS 1 = false ∧ (placeAt 0 0xFFFF).kind = 0
      ∧ world.granted world.scalarCtx Needs.load 1 1 0xFFFF (placeAt 0 0xFFFF) = true
      ∧ world.granted world.scalarCtx Needs.load 2 2 0xFFFE (placeAt 0 0xFFFE) = true
      ∧ world.granted world.scalarCtx Needs.load 4 4 0xFFFC (placeAt 0 0xFFFC) = true
      ∧ world.granted world.scalarCtx Needs.load 8 8 0xFFF8 (placeAt 0 0xFFF8) = true
      ∧ world.granted world.scalarCtx Needs.store 1 1 0xFFFF (placeAt 0 0xFFFF) = true
      ∧ world.granted world.scalarCtx Needs.store 2 2 0xFFFE (placeAt 0 0xFFFE) = true
      ∧ world.granted world.scalarCtx Needs.store 4 4 0xFFFC (placeAt 0 0xFFFC) = true
      ∧ world.granted world.scalarCtx Needs.store 8 8 0xFFF8 (placeAt 0 0xFFF8) = true
      ∧ world.granted world.scalarCtx Needs.rmw 4 4 0xFFFC (placeAt 0 0xFFFC) = true
      ∧ world.granted world.scalarCtx Needs.addRmw 8 8 0xFFF8 (placeAt 0 0xFFF8) = true
      ∧ world.writes = [] ∧ world.hart.reads = [] ∧ world.modifiedWhole = true ∧ world.poison = [] ∧ world.hart.unsure = 0
      ∧ (let s := addPage (addPage world 1 1 0) 2 2 0
         s.granted s.scalarCtx Needs.load 8 8 0x10000 (placeAt 1 0x10000) = true ∧ s.granted s.scalarCtx Needs.store 1 1 0x1FFFF (placeAt 1 0x1FFFF) = true
           ∧ s.granted s.scalarCtx Needs.addRmw 4 64 0x20000 (placeAt 2 0x20000) = true ∧ (placeAt 2 0x20000).pa % 64 = 0) := by
  decide +kernel

/-- A misaligned address, the first that is not canonical, a page that permits no store, one that permits no load, a DEV page, and a CELL32 page at
a cell base and beside one. -/
theorem witness_scalarAccessTraps :
    (0xFFFD : Word).toNat % 2 ≠ 0 ∧ canonical 0x0040000000000000 = false ∧ canonical 0x10000 = true
      ∧ (let s := { world with mem := Memory.write world.mem (fetchBase world 3 + 8) 8 (fetchBase world 5 + 0x493) }
         leafIs s s.scalarCtx 0x10000 fun l => !permits s.scalarCtx Needs.store l.pte && permits s.scalarCtx Needs.load l.pte) = true
      ∧ (let s := { world with mem := Memory.write world.mem (fetchBase world 3 + 8) 8 (fetchBase world 5 + 0x403) }
         leafIs s s.scalarCtx 0x10000 fun l => !permits s.scalarCtx Needs.load l.pte) = true
      ∧ (let s := addPage world 1 1 0
         leafIs s s.scalarCtx 0x10000 fun l =>
           permits s.scalarCtx Needs.rmw l.pte && permits s.scalarCtx Needs.addRmw l.pte && pteKind l.pte == 1) = true
      ∧ (let s := addPage world 1 2 0
         let ok := fun (l : Leaf) => permits s.scalarCtx Needs.load l.pte && permits s.scalarCtx Needs.store l.pte && permits s.scalarCtx Needs.rmw l.pte
           && permits s.scalarCtx Needs.addRmw l.pte && pteKind l.pte == 2
         leafIs s s.scalarCtx 0x10000 (fun l => ok l && l.target 0x10000 % 64 == 0)
           ∧ leafIs s s.scalarCtx 0x10008 fun l => ok l && l.target 0x10008 % 64 != 0) := by
  decide +kernel

/-! ## Control flow, traps and system instructions -/

theorem witness_branchesAndJumps :
    world.badS 1 = false ∧ (with1 0x8000).getS 1 = 0x8000 ∧ (0x8000 : Word).toNat % 4 = 0 ∧ (0x8002 : Word).toNat % 4 ≠ 0
      ∧ okIs (push 4 world) (fun _ t => t.hart.rs.entries = [4]) = true
      ∧ okIs (pop (worldWith fun h => { h with rs := { entries := [0x40], depth := 1, rsp := 0 } })) (fun z _ => z = 0x40) = true := by
  decide +kernel

/-- Stacks of 15, 16, 1 and 0 entries, with slots on the page. -/
theorem witness_returnStackResults :
    let full : RetStack := { entries := List.replicate 16 4, depth := 16, rsp := 64 }
    let s := worldWith fun h => { h with rs := full }
    (List.replicate 15 (4 : Word)).length < 16 ∧ full.entries.length = 16 ∧ s.hart.priv.rslimit = 0 ∧ s.writes = [] ∧ s.hart.reads = []
      ∧ (∀ n < 8, s.granted s.scalarCtx Needs.store 8 8 ((full.rsp + BitVec.ofNat 61 n) ++ 0#3) (placeAt 0 ((full.rsp + BitVec.ofNat 61 n) ++ 0#3)) = true)
      ∧ (∀ n < 8, s.granted s.scalarCtx Needs.load 8 8 ((full.rsp - 8 + BitVec.ofNat 61 n) ++ 0#3)
          (placeAt 0 ((full.rsp - 8 + BitVec.ofNat 61 n) ++ 0#3)) = true)
      ∧ (8 : BitVec 32) ≠ 0 := by
  decide +kernel

/-- For TrapEntry: TRAP 0, and an asynchronous trap; for ReturnFromTrap: a hart at S level. -/
theorem witness_trapEntry :
    world.hart.priv.trap = false ∧ ({ Trap.of .watchdog 0 with async := true } : Trap).async = true ∧ world.hart.priv.level = false
      ∧ superWorld.hart.priv.level = true ∧ world.hart.resident = true := by
  decide +kernel

/-- A handler whose gang has another hart and is in the books. -/
theorem witness_doubleTrapHalts :
    let h := { world.hart with priv := { world.hart.priv with trap := true }, ident := { world.hart.ident with gangid := 7 } }
    let s := { world with hart := h, others := [{ h with status := .running }] }
    s.hart.priv.trap = true ∧ (Trap.of .breakpoint 0).async = false ∧ h.engineBusy = false
      ∧ ({ h with engine := [newCommand (.czero 1) 0 0] } : Hart).engineBusy = true ∧ (∀ x ∈ s.others, x.ident.gangid = s.hart.ident.gangid ∧ x.resident = true) := by
  decide +kernel

/-- A system call takes a hart from U level to S level. -/
theorem witness_userLevelHolds :
    (encode (.svc 3)).isSome = true ∧ world.hart.priv.level = false
      ∧ nextIs (exec (.svc 3) world) (fun t => t.hart.priv.level && t.hart.pc == 0) = true := by
  decide +kernel

/-- For SystemInstructions: sets of streams, engine commands in flight and none, and a SPIN that has not had its turn and one that has. -/
theorem witness_systemInstructions :
    noStreams ⟨false, false, false⟩ = true ∧ noStreams ⟨true, false, true⟩ = false ∧ world.hart.engineBusy = false
      ∧ (worldWith fun h => { h with engine := [newCommand (.czero 1) 0 0] }).hart.engineBusy = true ∧ world.hart.spun = false
      ∧ (worldWith fun h => { h with spun := true }).hart.spun = true := by
  decide +kernel

theorem witness_userRegisterResults : world.badS 1 = false ∧ UReg.fcsr.writable = true ∧ UReg.hartmode.writable = true := by
  decide +kernel

/-- A gang of one, one of two whose other hart has arrived, and one whose other hart has not. -/
def barrierWorld (mine theirs : BitVec 32) (pending : Bool) : State :=
  let h := { world.hart with declared := { world.hart.declared with barriers := 4 }
                             ident := { world.hart.ident with gangid := 7, gangsize := 2 } }
  { world with hart := { h with barrier := Vector.replicate 4 { arrivals := mine, pending := pending } }
               others := [{ h with barrier := Vector.replicate 4 { arrivals := theirs, pending := false } }] }

theorem witness_barrierResults :
    (barrierWorld 0 1 false).hart.launched = true ∧ (3 : Fin 4).val < (barrierWorld 0 1 false).hart.declared.barriers
      ∧ (barrierWorld 0 1 false).hart.barrier[(3 : Fin 4)].pending = false ∧ (barrierWorld 1 1 true).hart.barrier[(3 : Fin 4)].pending = true
      ∧ (barrierWorld 0 1 false).othersArrived 3 1 ∧ (barrierWorld 1 1 true).othersArrived 3 1
      ∧ (barrierWorld 0 1 false).hart.gbarWait.getLsbD 3 = false
      ∧ (∃ h ∈ (barrierWorld 0 0 false).others, h.launched = true ∧ h.ident.gangid = (barrierWorld 0 0 false).hart.ident.gangid ∧ h.reached 3 1 = false) := by
  unfold State.othersArrived
  decide +kernel

/-- A gang launched forkable; a split core; a hart in matrix mode. -/
theorem witness_forkResults :
    let s := worldWith fun h => { h with declared := { h.declared with fork := true } }
    s.badS 1 = false ∧ (s.getS 1).toNat % 4 = 0 ∧ s.hart.shape.split = false ∧ s.hart.declared.fork = true ∧ s.hart.matrix = none
      ∧ s.hart.usesHighTiles = false ∧ world.hart.declared.fork = false
      ∧ (s.withHart fun h => { h with engine := [newCommand (.mld 4 false false 256) 0 0] }).hart.usesHighTiles = true := by
  decide +kernel

/-- A parent whose child has retired, a child, and a hart in matrix mode. -/
def parentWorld : State :=
  let h := { world.hart with shape := { world.hart.shape with forked := true, split := true } }
  { world with hart := h, others := [{ h with launched := false, status := .exited, fcsr := 8 }] }

theorem witness_joinAndExitResults :
    world.intact ∧
    parentWorld.hart.matrix = none ∧ parentWorld.hart.shape.forked = true ∧ parentWorld.hart.launched = true ∧ parentWorld.child = none
      ∧ parentWorld.retired.isSome = true ∧ parentWorld.hart.countersZero = true ∧ parentWorld.hart.engineFailure = none
      ∧ world.hart.shape.forked = false ∧ world.hart.matrix = none ∧ world.hart.launched = true
      ∧ (worldWith fun h => { h with launched := false, shape := { h.shape with forked := true } }).hart.countersZero = true
      ∧ (worldWith fun h => { h with matrix := some (.fp32, .fp32) }).hart.matrix ≠ none
      ∧ ({ parentWorld with others := [{ parentWorld.hart with launched := false, status := .running }] } : State).child.isSome = true
      ∧ (worldWith fun h => { h with cc := h.cc.set 3 { err := false, ecode := 0, count := 1, fail := 0 } }).hart.countersZero = false
      ∧ (let h := (worldWith fun h => { h with cc := h.cc.set 3 { err := true, ecode := 5, count := 0, fail := 0x40 } }).hart
         h.countersZero = true ∧ h.engineFailure = some 0x40) := by
  unfold State.intact
  decide +kernel

theorem witness_privilegedRegisterResults :
    superWorld.hart.priv.level = true ∧ superWorld.badS 1 = false ∧ PReg.pstat.writable = true ∧ superWorld.hart.engineBusy = false
      ∧ (superWorld.withHart fun h => { h with engine := [newCommand (.czero 1) 0 0] }).hart.engineBusy = true := by
  decide +kernel

/-- A range that ends at 2^64, one that ends one byte later, an empty one, and a modified line in a page of the range. -/
theorem witness_cacheInstructions :
    superWorld.hart.priv.level = true ∧ superWorld.badS 1 = false ∧ (0xFFFFFFFFFFFF0000 : Word).toNat + (0x10000 : Word).toNat ≤ 2 ^ 64
      ∧ 2 ^ 64 < (0xFFFFFFFFFFFF0000 : Word).toNat + (0x10001 : Word).toNat ∧ (0x3FFFF : Word).toNat < 2 ^ 18 ∧ superWorld.hart.engineBusy = false
      ∧ superWorld.buffered 0 = false ∧ superWorld.intact
      ∧ (let s := { superWorld with dirty := [{ line := 4 * 512, holder := none }] }
         0 ∈ pagesOf 0 128 ∧ 4 * 65536 ∈ (s.raise s.mine .package).cleanFrames 0 ∧ (4 * 512) / 512 = 4 * 65536 / 65536)
      ∧ (superWorld.withHart fun h => { h with engine := [newCommand (.czero 1) 0 0] }).hart.engineBusy = true ∧ 2 ^ 18 ≤ (0x40000 : Word).toNat := by
  unfold State.intact
  decide +kernel

/-- Codes of a record and of requests of the control processor, at the edges of their range, and full and empty services. -/
theorem witness_eventsAndHalt :
    superWorld.hart.priv.level = true ∧ superWorld.badS 1 = false ∧ ¬((0x7FFFFFFF : Nat) ≥ 0x80000000) ∧ (0x80000000 : Nat) ≤ 0x8000FFFF
      ∧ superWorld.hart.service.replies.length + superWorld.hart.service.unanswered.length < 4 ∧ superWorld.hart.engineBusy = false
      ∧ (superWorld.withHart fun h => { h with service := { h.service with replies := [5] } }).hart.service.replies = [5] := by
  decide +kernel

/-- A hart in a handler that serves a request, with its save area on pages 16 to 19. -/
def saveWorld : State :=
  let s := addPage (addPage (addPage (addPage superWorld 16 0 0) 17 0 0) 18 0 0) 19 0 0
  (s.withHart fun h => { h with priv := { h.priv with trap := true }, preempt := { h.preempt with serves := true } }).setS 1 0x100000

def savePlace (j : Nat) : Place := { pa := (20 + j) * 65536, kind := 0, e0 := 0 }

theorem saveWorld_pages : saveWorld.recordPages (saveWorld.getS 1) savePlace := by
  unfold State.recordPages apart
  decide +kernel

theorem witness_contextSaveResults :
    saveWorld.hart.priv.level = true ∧ saveWorld.hart.sound ∧ saveWorld.hart.preempt.serves = true ∧ saveWorld.hart.engine = []
      ∧ saveWorld.hart.vstpRun = 0 ∧ saveWorld.child = none ∧ saveWorld.retired = none ∧ (∀ x : Handle, saveWorld.hart.claims[x].claimed = false)
      ∧ saveWorld.writes = [] ∧ saveWorld.hart.preempt.live = StopEntry.allLive
      ∧ (let s := saveWorld.withHart fun h => { h with windows := h.windows.set 0 { base := 0x1000, len := 256 } }
         s.hart.sound ∧ s.hart.preempt.serves = true ∧ (s.hart.windows[(0 : WinId)]).len ≠ 0 ∧ (s.hart.windows[(1 : WinId)]).len = 0) := by
  unfold Hart.sound
  decide +kernel

/-- The same hart with a record of a hart that holds nothing in its save area. -/
def loadWorld : State :=
  let base := 20 * 65536
  { saveWorld with mem := putBytes saveWorld.mem [(base, 8, 0x10000), (base + 0x20, 8, 1), (base + 0x28, 8, 0x8000)] }

theorem witness_contextLoadResults :
    let r := loadWorld.recordAt (savePlace 0).pa
    loadWorld.hart.priv.level = true ∧ loadWorld.hart.engine = [] ∧ loadWorld.writes = [] ∧ (∀ w : WinId, loadWorld.hart.windows[w].len = 0)
      ∧ r.ok loadWorld.hart.ident.hartid.toNat false = true ∧ r.hasChild = false ∧ r.blocks = 0
      ∧ (∀ n < 8, (r.window n).len = 0) ∧ (∀ n < 4, (Claim.ofBytes (r.claim n)).claimed = false) ∧ loadWorld.poolUse ≤ Config.poolBlocks
      ∧ (saveWorld.recordAt (savePlace 0).pa).ok saveWorld.hart.ident.hartid.toNat false = false := by
  decide +kernel

theorem loadWorld_pages : loadWorld.hart.sound ∧ loadWorld.recordPages (loadWorld.getS 1) savePlace := by
  unfold Hart.sound State.recordPages apart
  decide +kernel

/-! ## Vector statements -/

/-- Two positions in each of two rows, the sweep from the second of the first row, with 0x100 in s1 and 8 in s2, four bytes as the row stride,
1 in each 32-bit element of v8 but for the null index in the last, and k1 set for every position. -/
def vecWorld (vtype : Word) : State :=
  ((((worldWith fun h => { h with
      shape := { h.shape with vl := 2, vrows := 2, vtype := vtype, vstart := 1, rowstr := 64 }
      k := h.k.set 1 (BitVec.allOnes 8192) }).setS 1 0x100).setS 2 8).setV 8 0x0000000100000001).setV 9 0xFFFFFFFF00000005

/-- For TypeWrites and LengthGrants: a register that is not in error, and values that are legal and that are not. -/
theorem witness_typeWrites :
    let legal : Word → Bool := fun w =>
      decide (w.toNat < 2 ^ 9) && decide (w.toNat % 8 < 4) && decide (w.toNat / 32 % 4 ≠ 3)
        && (decide (w.toNat / 128 = 0) || (decide (w.toNat / 128 = 1) && decide (w.toNat % 8 ≤ 1)))
    world.badS 1 = false ∧ legal 0x5B = true ∧ legal 0xD9 = true ∧ legal 0xDA = false ∧ legal 0x4 = false ∧ legal 0x60 = false ∧ legal 0x200 = false := by
  decide +kernel

/-- A shape that an element-wise and a whole-register instruction accept, one that neither does, and a rounding mode. -/
theorem witness_vectorsCompleteOrTrap :
    vop (.vadd 4 6 (.vv 8) 1) = some (.lanes false anyShape 4 [6, 8]) ∧ wellFormed (.vadd 4 6 (.vv 8) 1) = true
      ∧ (vecWorld 0xA).hart.shape.usable true [4, 6, 8] = true ∧ (vecWorld 0xA).hart.shape.usable false [4, 6, 8] = false
      ∧ ((vecWorld 0xA).setStart 0).hart.shape.usable false [4, 6, 8] = true ∧ (vecWorld 0xA).hart.shape.usable true [5, 6, 8] = false
      ∧ (vecWorld 0xA).hart.fcsr.toNat % 8 < 5 ∧ fpShape (vecWorld 0xA).hart.shape = true ∧ fpShape (vecWorld 0x8).hart.shape = false
      ∧ world.hart.shape.usable true [] = false ∧ (vecWorld 0xA).hart.ecc = Ecc.none :=
  ⟨rfl, rfl, by decide +kernel⟩

/-- For VectorIntegerResults and VectorFloatAndMaskResults. -/
theorem witness_vectorArithmetic :
    Instr.vadd 4 6 (.vv 8) 1 ∈ intVectors 4 6 (.vv 8) 1 ∧ (vecWorld 0xA).hart.shape.usable true (4 :: 6 :: src2Groups (.vv 8)) = true
      ∧ (vecWorld 0xA).hart.sound ∧ (vecWorld 0xA).activeFrom 1 = [(0, 1), (1, 0), (1, 1)] ∧ (vecWorld 0xA).activeFrom 2 = []
      ∧ (Src2.vs 3).noImm = true ∧ 1 ≤ vtSewCode (vecWorld 0xA).hart.shape.vtype ∧ frmRounding (vecWorld 0xA).frm = some .rne ∧ (2 : MReg) ≠ 0 := by
  refine ⟨List.mem_cons_self, ?_⟩
  unfold Hart.sound
  decide +kernel

/-- `vready` as a test. -/
def readyFor (s : State) (i : Instr) : Bool :=
  wellFormed i && decide (s.hart.ecc = Ecc.none) && match vop i with
    | some o => s.hart.shape.usable o.ew o.groups && o.further s.hart.shape
    | none => false

theorem vready_of {s : State} {i : Instr} (h : readyFor s i = true) : s.vready i := by
  unfold readyFor at h
  cases ho : vop i with
  | none => simp [ho] at h
  | some o =>
    simp only [ho, Bool.and_eq_true, decide_eq_true_eq] at h
    exact ⟨h.1.1, h.1.2, o, ho, h.2.1, h.2.2⟩

/-- For the lists of VectorIntegerResults and VectorFloatAndMaskResults: a shape on which each of their instructions is ready. -/
theorem witness_vectorForms :
    let s := vecWorld 0xA
    let t := s.setStart 0
    let one := t.withHart fun h => { h with shape := { h.shape with vrows := 1 } }
    (s.intLanes 4 6 10 12 (.vv 8) 1).all (fun x => readyFor s x.1) = true ∧ readyFor s (.vmerge 4 6 (.vi 3) 1) = true
      ∧ (t.moveLanes 4 6 10 (.vs 3) 1 2 2 1).all (fun x => readyFor t x.1) = true ∧ readyFor t (.vextr 5 6 2 1) = true
      ∧ (intReductions 32 6 1).all (fun r => readyFor t (r.1 (.scalar 5 2)) && readyFor t (r.1 (.perRow 4))) = true
      ∧ readyFor t (.vscan 4 2 6 1) = true ∧ readyFor one (.vtopk 4 8 2 1) = true
      ∧ (s.fpLanes .rne 4 6 10 12 (.vv 8) 1).all (fun x => readyFor s x.1) = true
      ∧ (t.fpReductions .rne 6 1).all (fun r => readyFor t (r.1 (.scalar 5 2)) && readyFor t (r.1 (.perRow 4))) = true
      ∧ readyFor t (.vfscan 4 2 6 1) = true ∧ readyFor s (.vcvt .fp16 .dit true 4 6 1) = true ∧ readyFor s (.vcvt .e8m0 .dyn true 4 6 1) = true
      ∧ s.mode .dyn = some .rne ∧ (fpCompares s.hart.shape.fmt 2 6 (.vs 3) 1).all (fun x => readyFor s x.1) = true
      ∧ (maskScans 2 2 3 1).all (fun x => readyFor t x.1) = true ∧ readyFor t (.kpopc 5 2 1) = true ∧ readyFor t (.kfirst 5 2 1) = true
      ∧ readyFor s (.ktov 4 2 1) = true ∧ readyFor s (.vtok 2 6 1) = true := by
  decide +kernel

/-- Where nothing is outstanding, nothing meets an access and nothing performs before it. -/
theorem nothing_outstanding {s : State} (h : s.writes = []) :
    s.nearWrites ∧ s.plainWrites ∧ (∀ pa n, s.settled pa n) ∧ (∀ k, s.afterFences k = s) ∧ s.afterStrips = s
      ∧ (∀ sc, s.released sc = s) ∧ (∀ f, s.drain f = s) ∧ ∀ v pa n, s.afterWrites v pa n = s ∧ s.afterAdds v pa n = s ∧ s.heldOver v pa n = false := by
  simp [State.nearWrites, State.plainWrites, State.settled, State.afterFences_nil, State.afterStrips, State.released, State.drain, State.afterWrites,
    State.afterAdds, State.heldOver, State.askedHere, State.asked, State.raise_nil, State.raiseAll_nil, h]

/-- Loads, stores and atomics at the addresses of each mode; the last position of the indexed ones has the null index: for
VectorLoadResults, VectorStoreResults and VectorAtomicResults. -/
theorem witness_vectorMemory :
    let s := vecWorld 0xA
    let p := placeAt 0
    s.quiet ∧ s.writes = [] ∧ ewFits .w32 s.hart.shape = true ∧ s.hart.shape.usable true [4] = true ∧ s.hart.shape.usable true [4, 8] = true
      ∧ indexFits s.hart.shape 32 = true ∧ groupsMeet s.hart.shape.group 4 8 = false ∧ s.hart.vstpRun < 4 ∧ (1 : MReg) ≠ 0
      ∧ s.nonNull 1 8 32 = [(0, 1), (1, 0)] ∧ s.nulls 1 8 32 = [(1, 1)] ∧ vamoShape true 4 8 s.hart.shape = true
      ∧ s.vgranted Needs.load 4 (s.activeFrom 1) (s.unitAt 1 4) p ∧ s.vgranted Needs.store 4 (s.activeFrom 1) (s.unitAt 1 4) p
      ∧ s.vgranted Needs.load 4 (s.activeFrom 1) (s.strideAt 1 2) p ∧ s.vgranted Needs.store 4 (s.activeFrom 1) (s.strideAt 1 2) p
      ∧ s.vgranted Needs.load 4 (s.nonNull 1 8 32) (s.indexAt 1 8 32 4) p ∧ s.vgranted Needs.store 4 (s.nonNull 1 8 32) (s.indexAt 1 8 32 4) p
      ∧ s.vgranted Needs.rmw 4 (s.nonNull 1 8 32) (s.indexAt 1 8 32 4) p := by
  unfold State.quiet Hart.sound State.vgranted
  decide +kernel

/-- For VectorStoreResults and VectorAtomicResults: places that do not meet the tables of the walk, and lanes that do not meet. -/
theorem witness_vectorStores :
    let s := vecWorld 0xA
    let p := placeAt 0
    s.walksApart 4 (s.activeFrom 1) (s.unitAt 1 4) p ∧ s.walksApart 4 (s.activeFrom 1) (s.strideAt 1 2) p
      ∧ s.walksApart 4 (s.nonNull 1 8 32) (s.indexAt 1 8 32 4) p
      ∧ (s.nonNull 1 8 32).Pairwise (fun x y => (p (s.indexAt 1 8 32 4 x.1 x.2)).pa ≠ (p (s.indexAt 1 8 32 4 y.1 y.2)).pa)
      ∧ Instr.vamoadd .relaxed true 4 1 8 1 ∈ vamos .relaxed true false 4 1 8 1 := by
  refine ⟨?_, ?_, ?_, ?_, List.mem_cons_self⟩
  all_goals (try unfold State.walksApart apart); decide +kernel

/-- Recorded VSTP entries that VCOMMIT writes, the last of them masked off. -/
theorem witness_vcommit :
    let y : VstpBlock := { base := 0x100, rowstr := 64, ew := .w32, vrows := 2, vl := 2, mask := 0x3 <<< 1024, data := [5, 6] }
    let s := (vecWorld 0xA).withHart fun h => { h with vstp := [y], k := h.k.set 1 (1 <<< 1024) }
    y.entries = [(1, 0), (1, 1)] ∧ (y.entries.filter fun x => s.maskAt 1 x.1 x.2) = [(1, 0)]
      ∧ (∀ x ∈ y.entries, (placeAt 0 (y.addr x.1 x.2)).kind = 0
          ∧ s.granted s.vectorCtx Needs.store 4 4 (y.addr x.1 x.2) (placeAt 0 (y.addr x.1 x.2)) = true)
      ∧ (∀ x ∈ y.entries, ∀ z ∈ y.entries, ∀ e ∈ s.walkPath s.vectorCtx (y.addr z.1 z.2) 3 s.vectorCtx.root,
          apart (placeAt 0 (y.addr x.1 x.2)).pa 4 e 8) := by
  unfold apart
  decide +kernel

/-- Blocks of sixteen E4M3 elements, and packed ones of E2M1, with rows of sixteen columns. -/
def mxWorld : State := (vecWorld 0).withHart fun h => { h with shape := { h.shape with vl := 20, vrows := 1, vstart := 0, rowstr := 64 } }

theorem witness_gatherAndMxLoadResults :
    let s := mxWorld
    let q := s.hart.shape
    let scaleVa := fun (row j : Nat) => s.getS 2 + BitVec.ofInt 64 (row * (q.rowstr.toInt * 2 / 16)) + BitVec.ofNat 64 j
    let codeVa := fun (row col : Nat) => s.getS 1 + BitVec.ofNat 64 row * q.rowstr + BitVec.ofNat 64 (col / 2)
    s.quiet ∧ s.writes = [] ∧ q.usable true [4, 5] = true ∧ mxShape true 4 5 q = true ∧ mxShape false 4 5 q = true ∧ mxBlocks q = [(0, 0), (0, 1)]
      ∧ s.vgranted Needs.load 1 (mxBlocks q) scaleVa (placeAt 0)
      ∧ (∀ y ∈ mxBlocks q, s.vgranted Needs.load 1 ((mxCols q y.2).map fun col => (y.1, col)) codeVa (placeAt 0)) := by
  unfold State.quiet Hart.sound State.vgranted
  decide +kernel

/-! ## Cells, tiles, engines, windows and hash tables -/

/-- A page of CELL32 cells at 0x10000 with the RAW bit and one of CELL64 cells at 0x20000; s1 names the first, the fourth and fifth the two. -/
def cellWorld (vtype : Word) (vl : Nat) : State :=
  let s := addPage (addPage (vecWorld vtype) 1 2 1) 2 3 1
  ((s.withHart fun h => { h with shape := { h.shape with vl := vl, vrows := 1, vstart := 0 } }).setS 1 0x10000).setS 4 0x20000

theorem witness_cellAddResults :
    let s := cellWorld 0x2 2
    s.hart.sound ∧ s.hart.engine = [] ∧ s.writes = [] ∧ s.modifiedWhole = true ∧ s.hart.shape.usable true [4, 8] = true ∧ s.hart.shape.sew = cellFmtBits .f32
      ∧ indexFits s.hart.shape 32 = true ∧ s.granted s.vectorCtx Needs.store 64 64 (s.getS 1) (placeAt 2 0x10000) = true
      ∧ (placeAt 2 0x10000).kind = cellFmtKind .f32 ∧ s.granted s.vectorCtx Needs.store 64 64 (s.getS 4) (placeAt 3 0x20000) = true
      ∧ (placeAt 3 0x20000).kind = cellFmtKind .f64 ∧ s.nonNull 1 8 32 = [(0, 0), (0, 1)]
      ∧ s.cellsGranted Needs.store (fun n => n == cellFmtKind .f32) (s.nonNull 1 8 32) (s.indexAt 1 8 32 64) (placeAt 2)
      ∧ s.walksApart 64 (s.nonNull 1 8 32) (s.indexAt 1 8 32 64) (placeAt 2) := by
  unfold Hart.sound State.cellsGranted State.walksApart apart
  decide +kernel

theorem witness_cellRawAndReadResults :
    let s := cellWorld 0x3 16
    s.hart.sound ∧ s.hart.engine = [] ∧ s.hart.det = false ∧ s.writes = [] ∧ s.modifiedWhole = true ∧ s.hart.shape.usable true [4] = true
      ∧ rawShape s.hart.shape = true ∧ s.activeCells 1 = [(0, 0), (0, 8)] ∧ (placeAt 2 0x10000).pa % 64 = 0
      ∧ s.cellsGranted Needs.load (fun n => decide (2 ≤ n)) (s.activeCells 1) (s.cellVa 1) (placeAt 2)
      ∧ s.cellsGranted Needs.rawStore (fun n => decide (2 ≤ n)) (s.activeCells 1) (s.cellVa 1) (placeAt 2)
      ∧ s.walksApart 64 (s.activeCells 1) (s.cellVa 1) (placeAt 2)
      ∧ s.granted s.scalarCtx Needs.load 4 64 0x10000 (placeAt 2 0x10000) = true
      ∧ s.granted s.scalarCtx Needs.load 8 64 0x20000 (placeAt 3 0x20000) = true := by
  unfold Hart.sound State.cellsGranted State.walksApart apart
  decide +kernel

/-- The vector state with rows 66 bytes apart, so that the 4-byte positions of row 1 are misaligned. -/
def slipWorld : State := (vecWorld 0xA).withHart fun h => { h with shape := { h.shape with rowstr := 66 } }

/-- A position that fails after one that is granted, as VectorLoadResults, VectorStoreResults and VectorAtomicResults split their positions, and
one that fails first. -/
theorem witness_vectorFaults :
    let s := slipWorld
    let p := placeAt 0
    let misses := fun (va : Word) => va.toNat % 4 ≠ 0
    s.quiet ∧ s.writes = [] ∧ s.activeFrom 1 = [(0, 1)] ++ (1, 0) :: [(1, 1)] ∧ (s.setStart 0x1000).activeFrom 1 = [] ++ (1, 0) :: [(1, 1)]
      ∧ s.hart.begun = false ∧ s.elem 8 32 1 0 ≠ 2 ^ 32 - 1 ∧ s.elem 8 32 0 1 ≠ 2 ^ 32 - 1
      ∧ misses (s.unitAt 1 4 1 0) ∧ misses (s.strideAt 1 2 1 0) ∧ misses (s.indexAt 1 8 32 4 1 0)
      ∧ s.vgranted Needs.load 4 [(0, 1)] (s.unitAt 1 4) p ∧ s.vgranted Needs.store 4 [(0, 1)] (s.unitAt 1 4) p
      ∧ s.vgranted Needs.load 4 [(0, 1)] (s.strideAt 1 2) p ∧ s.vgranted Needs.store 4 [(0, 1)] (s.strideAt 1 2) p
      ∧ s.vgranted Needs.load 4 [(0, 1)] (s.indexAt 1 8 32 4) p ∧ s.vgranted Needs.store 4 [(0, 1)] (s.indexAt 1 8 32 4) p
      ∧ s.vgranted Needs.rmw 4 [(0, 1)] (s.indexAt 1 8 32 4) p
      ∧ s.walksApart 4 [(0, 1), (1, 0)] (s.unitAt 1 4) p ∧ s.walksApart 4 [(0, 1), (1, 0)] (s.strideAt 1 2) p
      ∧ s.walksApart 4 [(0, 1), (1, 0)] (s.indexAt 1 8 32 4) p := by
  unfold State.quiet Hart.sound State.vgranted State.walksApart apart
  decide +kernel

/-- Each way in which `elementFault` lets an access fail: alignment, form, permission, the kind of the page, an error reply and data in error. -/
theorem witness_elementFaults :
    let s := vecWorld 0xA
    let c := s.vectorCtx
    let page := fun (raw : Nat) => { s with mem := Memory.write s.mem (fetchBase world 3 + 8) 8 (fetchBase world 5 + raw) }
    let lost := { page (2 ^ 42 + 0xCB3) with dies := s.dies.set 1 { Die.reset with state := .failed } }
    (∃ t, s.elementFault Needs.load 4 (loadKinds 4) (s.badLoad 4) 0x102 t) ∧ (∃ t, s.elementFault Needs.load 4 (loadKinds 4) (s.badLoad 4) 0x0040000000000000 t)
      ∧ leafIs (page 0x493) c 0x10000 (fun l => !permits c Needs.store l.pte) = true
      ∧ leafIs (addPage s 1 1 0) c 0x10000 (fun l => permits c Needs.load l.pte && (loadKinds 4 (l.place 0x10000)).isSome && (storeKinds (l.place 0x10000)).isSome) = true
      ∧ leafIs (addPage s 1 2 0) c 0x10004 (fun l => permits c Needs.load l.pte && (loadKinds 4 (l.place 0x10004)).isSome && (addKinds .f64 (l.place 0x10004)).isSome) = true
      ∧ leafIs s c 0x100 (fun l => (rawKinds (l.place 0x100)).isSome) = true
      ∧ leafIs lost c 0x10000 (fun l => (loadKinds 4 (l.place 0x10000)).isNone && !lacksBits l.pte true
          && !lost.reaches c false (l.target 0x10000) && !lost.reaches c true (l.target 0x10000)) = true
      ∧ leafIs { s with poison := [(4 * 65536 + 0x100) / 8] } c 0x100 (fun l =>
          (loadKinds 4 (l.place 0x100)).isNone && State.badLoad { s with poison := [(4 * 65536 + 0x100) / 8] } 4 (l.place 0x100)
            && State.badStore { s with poison := [(4 * 65536 + 0x100) / 8] } 4 (l.place 0x100)) = true := by
  refine ⟨⟨_, .inl ⟨by decide +kernel, rfl⟩⟩, ⟨_, .inr ⟨by decide +kernel, .inl ⟨by decide +kernel, rfl⟩⟩⟩, ?_⟩
  decide +kernel

/-- For GatherAndMxLoadResults: a first live position whose address is misaligned, and blocks whose scale or whose code fails. -/
theorem witness_gatherFaults :
    (let s := (vecWorld 0xA).setS 1 0x102
     (s.nonNull 1 8 32).head? = some (0, 1) ∧ (s.indexAt 1 8 32 4 0 1).toNat % 4 ≠ 0 ∧ s.quiet)
      ∧ (let s := mxWorld
         let q := s.hart.shape
         let far : Word := 0x0040000000000000
         mxBlocks q = [] ++ (0, 0) :: [(0, 1)] ∧ canonical far = false ∧ ((mxCols q 0).map fun col => (0, col)) = [] ++ (0, 0) :: ((List.range 15).map fun j => (0, j + 1))
           ∧ (s.setS 2 far).quiet ∧ (s.setS 2 far).getS 2 = far ∧ (s.setS 1 far).getS 1 = far
           ∧ (s.setS 1 far).vgranted Needs.load 1 [(0, 0)] (fun _ _ => (8 : Word)) (placeAt 0)) := by
  unfold State.quiet Hart.sound State.vgranted
  decide +kernel

/-- For VectorStoreResults: a block that a VSTP goes on with, blocks that it does not, and a VCOMMIT whose second entry is misaligned. -/
theorem witness_vstp :
    let z : VstpBlock := { base := 0x100, rowstr := 64, ew := .w32, vrows := 2, vl := 2, mask := 1, data := [5] }
    let old := { z with base := 0x102 }
    let s := (vecWorld 0xA).withHart fun h => { h with vstp := [z], vstpRun := 1 }
    let u := (vecWorld 0xA).withHart fun h => { h with vstp := [z, old], k := h.k.set 1 1 }
    s.quiet ∧ s.hart.vstpRun < 4 ∧ s.hart.vstp.getLast? = some z ∧ s.hart.shape.vstart ≠ 0 ∧ z.base = s.getS 1 ∧ z.rowstr = s.hart.shape.rowstr
      ∧ z.vrows = s.hart.shape.vrows ∧ z.vl = s.hart.shape.vl ∧ (∀ x ∈ z.entries, startCode x.1 x.2 < s.hart.shape.vstart.toNat)
      ∧ old.base ≠ s.getS 1 ∧ (vecWorld 0xA).hart.vstp = []
      ∧ (u.hart.vstp.flatMap fun y => (y.entries.filter fun x => u.maskAt 1 x.1 x.2).map fun x => (y, x)) = [(z, (0, 0))] ++ (old, (0, 0)) :: []
      ∧ (old.addr 0 0).toNat % 4 ≠ 0 ∧ u.granted u.vectorCtx Needs.store 4 4 (z.addr 0 0) (placeAt 0 (z.addr 0 0)) = true := by
  unfold State.quiet Hart.sound
  decide +kernel

/-- For CellAddResults and CellRawAndReadResults: a cell that fails after one that is granted, and an operand that is no cell base. -/
theorem witness_cellFaults :
    (let s := (cellWorld 0x2 2).setV 8 0xFFFFFFFF0000040000000000
     let slip := s.withHart fun h => { h with shape := { h.shape with vl := 3 } }
     slip.activeFrom 1 = [(0, 0)] ++ (0, 1) :: [(0, 2)] ∧ slip.elem 8 32 0 1 ≠ 2 ^ 32 - 1 ∧ slip.hart.reads = []
       ∧ slip.cellsGranted Needs.store (fun n => n == cellFmtKind .f32) [(0, 0)] (slip.indexAt 1 8 32 64) (placeAt 2)
       ∧ leafIs slip slip.vectorCtx (slip.indexAt 1 8 32 64 0 1) (fun l => permits slip.vectorCtx Needs.store l.pte && (addKinds .f32 (l.place (slip.indexAt 1 8 32 64 0 1))).isSome) = true
       ∧ ((slip.setS 1 0x10008).getS 1).toNat % 64 ≠ 0)
      ∧ (let s := (cellWorld 0xB 16).withHart fun h => { h with shape := { h.shape with vrows := 2, rowstr := 0x88 } }
         s.activeCells 1 = [(0, 0), (0, 8)] ++ (1, 0) :: [(1, 8)] ∧ (s.cellVa 1 1 0).toNat % 64 ≠ 0 ∧ rawShape s.hart.shape = true ∧ s.hart.shape.usable true [4] = true
           ∧ s.hart.taken = [] ∧ s.hart.reads = []
           ∧ s.cellsGranted Needs.load (fun n => decide (2 ≤ n)) [(0, 0), (0, 8)] (s.cellVa 1) (placeAt 2)
           ∧ s.cellsGranted Needs.rawStore (fun n => decide (2 ≤ n)) [(0, 0), (0, 8)] (s.cellVa 1) (placeAt 2)
           ∧ s.walksApart 64 ([(0, 0), (0, 8)] ++ [(1, 0)]) (s.cellVa 1) (placeAt 2)) := by
  unfold State.cellsGranted State.walksApart apart
  decide +kernel

/-- Codes of a pair, of a pair with the bit above, of no pair, and with a bit above bit 8; shapes and tiles of the moves at their edges. -/
theorem witness_matrixModeAndMoves :
    (Fmt.fp32, Fmt.fp32, (⟨1, false, false, false⟩ : MatPair)) ∈ matrixPairs ∧ 0x111 % 256 = Fmt.fp32.code + 16 * Fmt.fp32.code ∧ 0x111 < 512
      ∧ (∀ y ∈ matrixPairs, 0x10 ≠ y.1.code + 16 * y.2.1.code) ∧ 512 ≤ 0x211
      ∧ (let s := ((vecWorld 0xA).setStart 0).setS 1 62
         s.hart.sound ∧ s.hart.engine = [] ∧ s.hart.shape.usable false [4] = true ∧ moveShape 7 62 s.hart.shape = true ∧ moveShape 7 63 s.hart.shape = false)
      ∧ (worldWith fun h => { h with shape := { h.shape with split := true } }).hart.shape.split = true ∧ 4 ≤ (4 : Tile).val := by
  unfold Hart.sound
  decide +kernel

theorem witness_outerProductResults :
    let mode := fun (a b : Fmt) => ((vecWorld 0xA).setStart 0).withHart fun h => { h with matrix := some (a, b) }
    (Fmt.int8, Fmt.int8, (⟨4, false, true, false⟩ : MatPair)) ∈ matrixPairs ∧ (Fmt.mxE4m3, Fmt.mxE5m2, (⟨4, false, false, true⟩ : MatPair)) ∈ matrixPairs
      ∧ (mode .int8 .int8).hart.matrix = some (.int8, .int8) ∧ (mode .int8 .int8).hart.shape.usable false [] = true
      ∧ (mode .mxE4m3 .mxE5m2).hart.sound ∧ (mode .mxE4m3 .mxE5m2).hart.engine = [] ∧ tileValid (mode .int8 .int8).hart.shape 7 = true
      ∧ blockValid .mxE4m3 32 (operandCodes .mxE4m3 256 0) 255 0 = false ∧ blockValid .mxE4m3 32 (operandCodes .mxE4m3 256 0) 127 0 = true := by
  unfold Hart.sound
  decide +kernel

/-- Declared and undeclared windows and handles, counters about a threshold, with and without an error, and commands in flight. -/
def engineWorld (c : EngineCmd) (n : BitVec 8) (err : Bool) : State :=
  ((vecWorld 0xA).setStart 0).withHart fun h =>
    { h with engine := [c], cc := h.cc.set 2 { err := err, ecode := if err then 1 else 0, count := n, fail := 0x40 }
             declared := { barriers := 0, hash := 2, windows := 1, fork := false }, claims := h.claims.set 1 { Claim.free with claimed := true } }

theorem witness_engineIssueResults :
    let waits := newCommand (.czero 1) 2 0x10000
    let s := engineWorld { waits with accepted := true } 1 true
    s.hart.sound ∧ s.hart.engine.all (fun e => e.accepted) = true ∧ (engineWorld waits 0 false).hart.engine.all (fun e => e.accepted) = false
      ∧ (1 : Fin 32).val ≤ (s.getCC 2).count.toNat ∧ (s.getCC 2).count.toNat < (2 : Fin 32).val ∧ (s.getCC 2).err = true
      ∧ ((engineWorld { waits with accepted := true } 0 false).getCC 2).err = false ∧ s.hart.shape.usable false [] = true
      ∧ 2 ≤ vtSewCode s.hart.shape.vtype ∧ s.hart.declared.hash ≤ (2 : Handle).val ∧ (1 : Handle).val < s.hart.declared.hash
      ∧ (s.getClaim 1).claimed = true ∧ (s.getClaim 0).claimed = false ∧ (0 : WinId).val < s.hart.declared.windows
      ∧ s.hart.declared.windows ≤ (1 : WinId).val := by
  unfold Hart.sound
  decide +kernel

/-- A command that waits with 254 on its counter, counts at and above 2^24, and accepted commands whose units are granted. -/
theorem witness_engineEventResults :
    let c := newCommand (.czero 0x1000000) 2 0x10000
    let s := engineWorld c 254 false
    s.hart.engine = [c] ∧ s.writes = [] ∧ c.finished = false ∧ c.read = [] ∧ c.wrote = [] ∧ c.pages = [] ∧ c.accepted = false ∧ (s.getCC 2).count.toNat < 255 ∧ c.ranges = [] ∧ s.entryCount < 64
      ∧ (0x1000000 : Word).toNat ≤ 2 ^ 24 ∧ 2 ^ 24 < (0x1000001 : Word).toNat ∧ c.addr.toNat % 64 = 0 ∧ (0x10008 : Word).toNat % 64 ≠ 0
      ∧ (let z := { newCommand (.czero 2) 2 0x10000 with accepted := true }
         let t := addPage (engineWorld z 1 false) 1 2 0
         t.hart.engine = [z] ∧ z.failure = none ∧ t.hart.resident = true ∧ t.writes = []
           ∧ ∀ i < 2, 2 ≤ (placeAt 2 (z.addr + BitVec.ofNat 64 (64 * i))).kind
               ∧ t.granted t.hart.ctxU Needs.store 64 64 (z.addr + BitVec.ofNat 64 (64 * i)) (placeAt 2 (z.addr + BitVec.ofNat 64 (64 * i))) = true) := by
  decide +kernel


/-- A range of the least and of the largest length, one too long, one that meets a mapped window, and a window that is mapped. -/
theorem witness_windowResults :
    let s := worldWith fun h => { h with declared := { h.declared with windows := 2 }, windows := h.windows.set 0 { base := 0x1000, len := 256 } }
    s.hart.sound ∧ (1 : WinId).val < s.hart.declared.windows ∧ s.hart.declared.windows ≤ (2 : WinId).val
      ∧ (0x80000 : Word).toNat ≤ 524288 ∧ ¬ (0x80080 : Word).toNat ≤ 524288 ∧ canonical 0x2000 = true ∧ canonical (0x2000 + 0x80000 - 1) = true
      ∧ s.poolUse + ((0x80000 : Word).toNat + 65535) / 65536 ≤ 24 ∧ (s.getWindow 1).len = 0 ∧ (s.getWindow 0).len ≠ 0
      ∧ s.overlapsWindow 0x2000 0x80000 = false ∧ s.overlapsWindow 0x1080 128 = true ∧ s.intact := by
  unfold Hart.sound State.intact
  decide +kernel

/-- Descriptors that claim the smallest and the largest table, one that is not allowed, and a table on which lanes act. -/
def hashWorld (vtype : Word) : State :=
  ((vecWorld vtype).setStart 0).withHart fun h =>
    { h with declared := { h.declared with hash := 2 }
             claims := h.claims.set 1 { Claim.free with claimed := true, kw := true } }

theorem witness_hashResults :
    let s := hashWorld 0xB
    s.hart.sound ∧ (1 : Handle).val < s.hart.declared.hash ∧ s.hart.declared.hash ≤ (2 : Handle).val ∧ s.hart.engine = [] ∧ s.hart.det = false
      ∧ (∀ i < 4, s.granted s.vectorCtx Needs.load 8 8 (0x100 + BitVec.ofNat 64 (8 * i)) (placeAt 0 (0x100 + BitVec.ofNat 64 (8 * i))) = true)
      ∧ (claimOf 0 0 0 0).isSome = true ∧ (claimOf 0 (4 * 2 ^ 32) 0 0).isSome = true ∧ claimOf 0 (5 * 2 ^ 32) 0 0 = none
      ∧ s.poolUse + 2 ^ 4 ≤ 24 ∧ (s.getClaim 0).claimed = false ∧ (s.getClaim 1).used = 0
      ∧ s.tableReady 1 ∧ s.hart.shape.usable true [4, 6, 8] = true ∧ insertShape 4 6 8 s.hart.shape (s.getClaim 1) = true
      ∧ accFits .f32 (s.getClaim 1) = true ∧ widthsFit s.hart.shape [64, 32] = true ∧ groupsMeet s.hart.shape.group 4 6 = false := by
  unfold Hart.sound State.tableReady
  decide +kernel

/-- Addresses of the first 64 KiB meet the same table entries. -/
theorem entryAddr_low {va : Word} (h : va.toNat < 65536) (table n : Nat) : entryAddr table n va = entryAddr table n 0 := by
  have h1 : va.toNat / 2 ^ (16 + 13 * n) = 0 :=
    Nat.div_eq_of_lt (Nat.lt_of_lt_of_le h (Nat.pow_le_pow_right (by decide) (by omega) : (2 : Nat) ^ 16 ≤ _))
  simp [entryAddr, bitsAt, h1]

/-- They are translated alike. -/
theorem walk_low {s : State} {c : Ctx} {va : Word} {l : Leaf} (ha : va.toNat < 65536) (hw : s.walk c 0 = .ok l) : s.walk c va = .ok l := by
  have key : ∀ n table, s.walkFrom c 0 n table = .ok l → s.walkFrom c va n table = .ok l := by
    intro n
    induction n with
    | zero => intro table h; simp [State.walkFrom] at h
    | succ n ih =>
      intro table h
      simp only [State.walkFrom, entryAddr_low ha] at h ⊢
      cases hr : s.walkRead c (entryAddr table n 0) with
      | error t => rw [hr] at h; cases h
      | ok e =>
        rw [hr] at h
        dsimp only at h ⊢
        by_cases hv : (!pteV e || pteMalformed (3 - n) e) = true
        · rw [if_pos hv] at h; cases h
        · rw [if_neg hv] at h ⊢
          by_cases hl : pteLeaf e = true
          · rw [if_pos hl] at h ⊢; exact h
          · rw [if_neg hl] at h ⊢; exact ih _ h
  exact key _ _ hw

/-- Where nothing is cached, their walks are good alike. -/
theorem path_low {s : State} {c : Ctx} {va : Word} (ha : va.toNat < 65536) (ht : s.tlb = []) (n : Nat) :
    ∀ table, s.pathOk c 0 n table = true → s.pathOk c va n table = true := by
  induction n with
  | zero => intro _ _; rfl
  | succ n ih =>
    intro table h
    unfold State.pathOk at h ⊢
    simp only [entryAddr_low ha, Bool.and_eq_true] at h ⊢
    refine ⟨h.1, ?_⟩
    have h2 := h.2
    split at h2
    · simp only [State.cachedTables, ht, List.filter_nil, List.map_nil, List.all_nil, Bool.true_and, Bool.or_eq_true] at h2 ⊢
      exact h2.imp id (ih _)
    · cases h2

def worldLeaf : Leaf := { pte := BitVec.ofNat 64 (codeLeaf (4 * 65536) true), at_ := 3 * 65536, big := false }

/-- Every aligned access to the first page is granted, in a state with the page tables of `world` and no unit in error. -/
theorem granted_low {s : State} {c : Ctx} {need : Needs} {n : Nat} {va : Word} (hs : s.finds c 0 worldLeaf = true) (ht : s.tlb = []) (hp : s.poison = [])
    (hn : permits c need worldLeaf.pte = true) (hk : s.pkg = 0) (hr : s.reaches c false (4 * 65536) = true)
    (ha : va.toNat % n = 0) (h : va.toNat < 65536) : s.granted c need n n va (placeAt 0 va) = true := by
  simp only [State.finds, Bool.and_eq_true, beq_iff_eq] at hs
  obtain ⟨⟨⟨hl0, _⟩, hpath⟩, hm⟩ := hs
  have hw : s.walk c 0 = .ok worldLeaf := by
    unfold State.leafOf at hl0
    split at hl0
    next x hx => rw [hx]; cases hl0; rfl
    next => cases hl0
  have hlo : s.leafOf c va = some worldLeaf := by unfold State.leafOf; rw [walk_low h hw]
  have hc : canonical va = true := by
    have : bitsAt va.toNat 54 10 = 0 := by unfold bitsAt; omega
    simp [canonical, this]
  have hpl : worldLeaf.place va = placeAt 0 va := by
    simp only [Leaf.place, Leaf.target, placeAt, worldLeaf, bitsAt]
    simp
    exact ⟨by rw [Nat.mod_eq_of_lt h]; rfl, rfl, rfl⟩
  have hpk : paPkg (4 * 65536 + va.toNat) = paPkg (4 * 65536) := by unfold paPkg bitsAt; omega
  have hpd : paDie (4 * 65536 + va.toNat) = paDie (4 * 65536) := by unfold paDie bitsAt; omega
  have hpo : paPopulated (4 * 65536 + va.toNat) = paPopulated (4 * 65536) := by
    have hb : Config.dieBytes = 103079215104 := by decide
    rw [show paPopulated (4 * 65536) = true by decide]
    simp only [paPopulated, paOff, bitsAt, hb, Bool.and_eq_true, decide_eq_true_eq]
    omega
  have hr' : s.reaches c false (4 * 65536 + va.toNat) = true := by
    unfold State.reaches at hr ⊢
    rw [hpo, hpk, hpd]
    exact hr
  have hf : s.finds c va worldLeaf = true := by
    simp [State.finds, hlo, State.cached, ht, path_low h ht _ _ hpath, hm]
  have hl : lacksBits worldLeaf.pte need.w = false := by cases need.w <;> decide
  have hz : paPkg (4 * 65536) = 0 := by decide
  simp only [State.granted, hlo, hf, hn, hc, ha, hpl, hl, State.badUnits, hp, hk]
  simp [placeAt, hpk, hr', hz]

theorem witness_tileLoad :
    let c := { newCommand (.mld 3 false false 256) 2 0x8000 with accepted := true }
    let t := engineWorld c 1 false
    t.hart.engine = [c] ∧ c.failure = none ∧ t.hart.resident = true ∧ t.hart.sound ∧ t.writes = []
      ∧ ∀ i < viewSide false, ∀ j < 32,
          t.granted t.hart.ctxU Needs.load 8 8 (0x8000 + BitVec.ofNat 64 i * 256 + BitVec.ofNat 64 (8 * j / 8 * 8))
            (placeAt 0 (0x8000 + BitVec.ofNat 64 i * 256 + BitVec.ofNat 64 (8 * j / 8 * 8))) = true := by
  refine ⟨by decide +kernel, by decide +kernel, by decide +kernel, (by unfold Hart.sound; decide +kernel), by decide +kernel, ?_⟩
  intro i hi j hj
  have hv : (0x8000 + BitVec.ofNat 64 i * 256 + BitVec.ofNat 64 (8 * j / 8 * 8) : Word).toNat = 0x8000 + i * 256 + j * 8 := by
    have : i < 64 := hi
    simp
    omega
  have : i < 64 := hi
  exact granted_low (by decide +kernel) (by decide +kernel) (by decide +kernel) (by decide +kernel) (by decide +kernel) (by decide +kernel)
    (by rw [hv]; omega) (by rw [hv]; omega)

/-- A command of an operation at 0x8000, whose descriptor holds eight words, with DATA pages at 0x10000 and 0x20000; waiting, and accepted with
what its descriptor was read as. -/
def waitWorld (op : EngineOp) (d : List Nat) : State :=
  let s := addPage (addPage (engineWorld (newCommand op 2 0x8000) 1 false) 1 0 0) 2 0 0
  { s with mem := Memory.writeBytes s.mem (4 * 65536 + 0x8000) (d.flatMap (leBytes 8)) }
def ranWorld (op : EngineOp) (d : List Nat) : State :=
  (waitWorld op d).withHart fun h => { h with engine := [{ newCommand op 2 0x8000 with accepted := true, desc := d.flatMap (leBytes 8) }] }

/-- Descriptors: a copy of two rows of 16 bytes, a fill of two rows, and a product of FP32 tiles that zeroes its tile first. -/
def copies : List Nat := [0x100, 0x10000, 24, 32, 16 + 2 ^ 32 * 2, 0, 0, 0]
def fills : List Nat := [0x10000, 24, 7, 16 + 2 ^ 32 * 2, 0, 0, 0, 0]
def products : List Nat := [0x100, 0x10000, 64 + 2 ^ 32 * 64, 2 + 2 ^ 32 + 2 ^ 48, 0, 0, 0, 0x11 + 2048 * 0 + 32768]

theorem witness_engineAcceptance :
    let reads := fun (s : State) => s.writes = [] ∧ s.hart.reads = [] ∧ s.hart.sound
      ∧ ∀ i < 8, s.granted s.hart.ctxE Needs.load 8 8 (0x8000 + BitVec.ofNat 64 (8 * i)) (placeAt 0 (0x8000 + BitVec.ofNat 64 (8 * i))) = true
    let bytes := fun (d : List Nat) => d.flatMap (leBytes 8)
    let meets := fun (d : List Nat) => ((copySource (bytes d)).ranges false).any fun a => ((copyDest (bytes d)).ranges true).any fun b => a.overlaps b.base b.len
    let onto := 0x100 :: 0x108 :: copies.drop 2
    reads (waitWorld .xcopy copies) ∧ reads (waitWorld .xfill fills) ∧ reads (waitWorld .mtgemm products)
      ∧ (waitWorld .xcopy copies).entryCount + 10 ≤ 64 ∧ (waitWorld .xcopy copies).hart.engine = [newCommand .xcopy 2 0x8000]
      ∧ (copySource (bytes copies)).aligned = true ∧ (copyDest (bytes copies)).aligned = true ∧ allZero ((bytes copies).drop 0x28) = true
      ∧ meets copies = false ∧ meets onto = true
      ∧ (fillDest (bytes fills)).aligned = true ∧ allZero ((bytes fills).drop 0x20) = true
      ∧ (fillDest (bytes [0x10000, 24, 7, 12 + 2 ^ 32])).aligned = false
      ∧ (Gemm.ofBytes (bytes products)).ok false = true ∧ (Gemm.ofBytes (bytes products)).hasOutl = false
      ∧ (Gemm.ofBytes (bytes products)).zero = true ∧ (Gemm.ofBytes (bytes (products.take 7 ++ [0x10]))).ok false = false
      ∧ (let s := engineWorld (newCommand (.hdrain 1) 2 0x8000) 1 false
         (s.getClaim 1).unread = [] ∧ s.entryCount = 0 ∧ (0x8004 : Word).toNat % 8 ≠ 0) := by
  unfold Hart.sound
  decide +kernel

theorem witness_engineCompletions :
    let grant := fun (s : State) (need : Needs) (va : Word) => s.granted s.hart.ctxE need 8 8 va (placeAt 0 va)
    let distinct := fun (vas : List Word) => decide (vas.Pairwise fun x y => x.toNat + 8 ≤ y.toNat ∨ y.toNat + 8 ≤ x.toNat)
    let ready := fun (s : State) => (s.hart.engine.all fun c => c.accepted && c.failure.isNone && c.pages.isEmpty && c.read.isEmpty && c.wrote.isEmpty
        && c.broke.isEmpty && !c.finished) && s.writes.isEmpty && s.hart.reads.isEmpty && decide (s.hart.ecc = Ecc.none) && s.poison.isEmpty
      && s.harts.all fun h => h.ecc.w.isEmpty
    let bytes := fun (d : List Nat) => d.flatMap (leBytes 8)
    (let s := ranWorld .xcopy copies
     ready s && (copySource (bytes copies)).units.all (grant s Needs.load) && (copyDest (bytes copies)).units.all (grant s Needs.store)
       && distinct (copyDest (bytes copies)).units) = true
      ∧ (let s := ranWorld .xfill fills
         ready s && (fillDest (bytes fills)).units.all (grant s Needs.store) && distinct (fillDest (bytes fills)).units) = true
      ∧ (let s := ranWorld (.hdrain 1) []
         ready s && (s.getClaim 1).used == 0 && (s.getClaim 1).resident.isEmpty && grant s Needs.store 0x8000) = true
      ∧ (let s := ranWorld (.swb 0) []
         ready s && s.reaches s.hart.ctxU false (2048 * 128)) = true
      ∧ (let s := (waitWorld .mtgemm products).withHart fun h =>
           { h with engine := [{ newCommand .mtgemm 2 0x8000 with accepted := true, desc := bytes products ++ leBytes 8 0 }] }
         let g := Gemm.ofBytes (bytes products ++ leBytes 8 0)
         ready s && g.pair.isSome && g.ok s.hart.shape.split && (s.hart.engine.flatMap gemmUnits).all (grant s Needs.load)) = true := by
  decide +kernel

/-- Every unit of a tile of 64 rows of 256 bytes from 0x8000 on: what MST stores is granted, and no two of them meet. -/
theorem witness_tileStore :
    let c := { newCommand (.mst 3 true false 256) 2 0x8000 with accepted := true }
    let t := engineWorld c 1 false
    let units := (upTo 64).flatMap fun i => (upTo 32).map fun j => (0x8000 + BitVec.ofNat 64 i * 256 + BitVec.ofNat 64 (8 * j / 8 * 8) : Word)
    t.hart.engine = [c] ∧ (∀ va ∈ units, (placeAt 0 va).kind = 0 ∧ t.granted t.hart.ctxE Needs.store 8 8 va (placeAt 0 va) = true)
      ∧ units.Pairwise fun x y => apart (placeAt 0 x).pa 8 (placeAt 0 y).pa 8 := by
  have key : ∀ i j : Nat, i < 64 → j < 32 →
      (0x8000 + BitVec.ofNat 64 i * 256 + BitVec.ofNat 64 (8 * j / 8 * 8) : Word).toNat = 0x8000 + i * 256 + j * 8 := by
    intro i j hi hj
    simp
    omega
  refine ⟨by decide +kernel, ?_, ?_⟩
  · intro va hva
    simp only [upTo_eq, List.mem_flatMap, List.mem_map, List.mem_range] at hva
    obtain ⟨i, hi, j, hj, rfl⟩ := hva
    exact ⟨rfl, granted_low (by decide +kernel) (by decide +kernel) (by decide +kernel) (by decide +kernel) (by decide +kernel) (by decide +kernel)
      (by rw [key i j hi hj]; omega) (by rw [key i j hi hj]; omega)⟩
  · have hp : ∀ va : Word, (placeAt 0 va).pa = 4 * 65536 + va.toNat := fun _ => rfl
    simp only [upTo_eq, apart, hp]
    rw [List.pairwise_flatMap]
    refine ⟨fun i hi => ?_, ?_⟩
    · rw [List.pairwise_map]
      refine List.Pairwise.imp_of_mem ?_ List.pairwise_lt_range
      intro a b ha hb hab
      rw [List.mem_range] at hi ha hb
      rw [key i a hi ha, key i b hi hb]
      omega
    · refine List.Pairwise.imp_of_mem ?_ List.pairwise_lt_range
      intro a b ha hb hab x hx y hy
      simp only [List.mem_map, List.mem_range] at hx hy ha hb
      obtain ⟨j, hj, rfl⟩ := hx
      obtain ⟨k, hk, rfl⟩ := hy
      rw [key a j ha hj, key b k hb hk]
      omega

/-! ## The control processor -/

/-- A command message of the management controller, the first of its source. -/
def command (op : Nat) (body : List Byte) : Msg :=
  { opcode := BitVec.ofNat 16 op, source := 0x2001, length := BitVec.ofNat 32 body.length, seq := 0, zero := 0, body := body }

/-- A launch of two harts of the first kernel of image 1 in partition 0, with its argument block at 0x8000, and what it names. -/
def aLaunch : Launch :=
  { image := 1, entry := 0, size := 2, half := false, fork := false, det := false, prio := 3, classL := false, barriers := 1, domain := false,
    argBlock := 0x8000, saveBase := 0, ptroot := 1, asid := 0, part := 0, place := 0, tvec := 0, wdlimit := 0, rsbase := 0, rslimit := 0 }
def aKernel : Kernel :=
  { entry := 0, argSize := 0, argAlign := 8, half := false, fork := false, barriers := 1, hash := 0, windows := 0 }
def anImage : Image := { handle := 1, digest := [], textVa := 0, textLen := 4, kernels := [aKernel], stops := [] }
def aGang (st : GangState) : Gang :=
  { id := 7, launch := aLaunch, kernel := aKernel, textVa := 0, stops := [], origin := .command 0x2001 0, state := st, prio := 3, passes := 0, placed := 0,
    cores := [], reserved := [], victims := [], room := [], ending := none, halt := [] }
def aNode : Node := { launch := aLaunch, params := [1, 2], deps := [] }
def aGraph : Graph := { id := 5, source := 0x2001, total := 1, nodes := [aNode] }
def aReplay : Replay := { id := 0, graph := 5, source := 0x2001, seq := 0, nodes := [aNode], states := [.waiting], failed := none }

def booksWorld (f : Control → Control) : State := world.withControl f

/-- The body of the LAUNCH of `aLaunch`. -/
def launchBody : List Byte :=
  leBytes 8 1 ++ leBytes 4 0 ++ leBytes 2 2 ++ leBytes 2 (3 * 8 + 128) ++ leBytes 8 0x8000 ++ leBytes 8 0 ++ leBytes 8 65536 ++ List.replicate 88 0

/-- The body of an image of one text, one kernel table and one empty stop table section. -/
def imageBody : List Byte :=
  leBytes 4 1 ++ leBytes 4 3 ++ leBytes 4 1 ++ List.replicate 52 0
  ++ (leBytes 4 1 ++ leBytes 4 0 ++ leBytes 8 0 ++ leBytes 8 0x50000 ++ leBytes 8 240 ++ leBytes 8 8 ++ leBytes 8 8)
  ++ (leBytes 4 4 ++ leBytes 4 0 ++ leBytes 8 0 ++ leBytes 8 0 ++ leBytes 8 208 ++ leBytes 8 32 ++ leBytes 8 32)
  ++ (leBytes 4 5 ++ leBytes 4 0 ++ leBytes 8 0 ++ leBytes 8 0 ++ leBytes 8 248 ++ leBytes 8 0 ++ leBytes 8 0)
  ++ (leBytes 8 0 ++ leBytes 4 0 ++ leBytes 4 8 ++ List.replicate 16 0) ++ leBytes 8 0

/-- Messages that are accepted, one for each command, in books that hold what it names. -/
theorem witness_commandsAccepted :
    ∀ m ∈ [command 1 (List.replicate 16 0), command 2 (leBytes 8 1), command 3 launchBody, command 4 (List.replicate 440 0),
        command 5 (leBytes 4 5 ++ leBytes 4 0), command 6 (leBytes 4 5 ++ leBytes 4 0 ++ leBytes 2 255 ++ leBytes 2 1 ++ leBytes 4 0 ++ leBytes 8 9), command 7 [],
        command 8 (leBytes 8 7), command 9 (List.replicate 8 0), command 10 (List.replicate 8 0),
        command 11 (List.replicate 16 0), command 12 (List.replicate 16 0)],
      world.accepts m := by
  unfold State.accepts
  decide +kernel

theorem witness_imageAndLaunch :
    (parseImage imageBody).isSome = true
      ∧ (match parseImage imageBody with
         | some x => (x.1.filter Section.loads).all fun y => world.grantedRange 0x2001 y.loadPa y.mem
         | none => false) = true
      ∧ Launch.parse launchBody = some aLaunch
      ∧ (booksWorld fun c => { c with images := [anImage] }).launchStatus 0x2001 aLaunch = 0
      ∧ (booksWorld fun c => { c with images := [anImage] }).kernelOf aLaunch = some (anImage, aKernel)
      ∧ world.launchStatus 0x2001 aLaunch = 2 ∧ world.intact ∧ world.control.policy.grantsSome 0x2001 = true
      ∧ world.control.policy.grantsSome 0x100 = false := by
  unfold State.intact
  decide +kernel

/-- Where a key's signatures verify, an object holds its body. -/
theorem witness_signedObjects (b key : List Byte) (h : headerOk b 1 b.length = true) (hz : headerZero (b.take (objectLen (leAt b 8 8))) = true)
    (hv : objectVerifies (b.take (objectLen (leAt b 8 8))) (leAt b 8 8) key = true) :
    checkObject b 1 b.length [key]
      = .ok (b.take (objectLen (leAt b 8 8)), ((b.take (objectLen (leAt b 8 8))).drop 0x80).take (leAt b 8 8)) := by
  simp [checkObject, h, hz, hv]

theorem witness_graphCommands :
    let s := booksWorld fun c => { c with images := [anImage], graphs := [aGraph] }
    let row := launchBody ++ List.replicate 24 0 ++ List.replicate 272 0
    s.definedGraph 5 = some aGraph ∧ world.definedGraph 5 = none ∧ s.control.policy.grantsPart 0x2001 aNode.launch.part = true
      ∧ s.control.policy.grantsPart 0x100 aNode.launch.part = false ∧ aGraph.nodes[0]? = some aNode ∧ row.length = nodeBytes
      ∧ (match (booksWorld fun c => { c with images := [anImage] }).defineGraph (command 4 (leBytes 4 5 ++ leBytes 4 1 ++ leBytes 4 0 ++ leBytes 4 1 ++ row)) with
         | .ok g => g.nodes.length == 1
         | .error _ => false) = true := by
  decide +kernel

theorem witness_dieCommands :
    world.control.policy.grantsCommand 0x2001 9 = true ∧ world.control.policy.grantsCommand 0x100 9 = false
      ∧ (world.dies[(3 : Fin 4)]).resetting = none ∧ world.grantedRange 0x2001 0 48 = true ∧ (booksWorld fun c => { c with gangs := [aGang .queued] }).findGang 7 = some (aGang .queued)
      ∧ (Policy.parse (leBytes 4 3 ++ List.replicate 140 0 ++ leBytes 4 1500 ++ List.replicate 12 0) []).isSome = true := by
  decide +kernel

/-- A command that is out of turn, a command that has its status, and a SYNC with every earlier command of its source done. -/
theorem witness_completions :
    let c := fun (op : BitVec 16) (d : Option (Nat × List Byte)) => ({ opcode := op, source := 0x2001, seq := 0, done := d, policy := none } : Command)
    let s := booksWorld fun b => { b with commands := [c 8 (some (0, [])), c 7 none, { c 12 (some (0, [])) with policy := some ({ Policy.default with version := 4 }, true) }] }
    (s.control.commands[2]?).isSome = true ∧ ¬ (4 : BitVec 32) < s.supply.minimum ∧ s.control.gangs = []
      ∧ ({ s with supply := { s.supply with minimum := 5 } } : State).supply.minimum > 4 ∧ (booksWorld fun b => { b with gangs := [aGang .queued] }).control.gangs ≠ []
      ∧ s.control.commands[0]? = some (c 8 (some (0, []))) ∧ s.control.commands[1]? = some (c 7 none) ∧ s.control.held = []
      ∧ (∀ i < 1, ∀ y ∈ s.control.commands[i]?, y.source = 0x2001 → y.done.isSome = true ∨ y.opcode = 7)
      ∧ isCommander 0x2001 = true ∧ world.linked 0x2001 = true ∧ world.mustHold 0x2001 = false ∧ (1 : Word) ≠ expectedSeq 0x2001 world.control.expected := by
  decide +kernel

/-- A die whose reset runs, in a state that lists a command and in one that does not. -/
def dieWorld (d : Die) : State := { world with dies := world.dies.set 3 { d with resetting := some (0x2001, 0) } }

theorem witness_dieControlResults :
    (dieWorld Die.reset).dies[(3 : Fin 4)].resetting = some (0x2001, 0) ∧ (dieWorld Die.reset).supply.up = true
      ∧ (dieWorld Die.reset).dies[(3 : Fin 4)].state = .run ∧ (dieWorld Die.reset).dies[(3 : Fin 4)].busy = false
      ∧ (dieWorld { Die.reset with state := .quiesced, busy := true, cmd := 3 }).dies[(3 : Fin 4)].busy = true
      ∧ (dieWorld { Die.reset with state := .quiesced, busy := true, cmd := 3 }).dies[(3 : Fin 4)].cmd = 3
      ∧ (dieWorld { Die.reset with state := .trained, busy := true, cmd := 7, ue := true }).dies[(3 : Fin 4)].ue = true
      ∧ (∀ pc ∈ [0x08, 0x0C, 0x2C], let r : Routine := { pc := pc, s11 := 1, s12 := 0, s13 := 0, s14 := 0 }
          (dieWorld { Die.reset with routine := some r }).dies[(3 : Fin 4)].routine = some r ∧ r.s11 = (1 : BitVec 4).zeroExtend 64)
      ∧ world.poison = [] ∧ (∀ h ∈ world.harts, h.ecc.w = []) := by
  decide +kernel

/-- One queued gang that fits, one whose harts have stopped, one that has ended, and a node that is ready. -/
theorem witness_schedulingResults :
    let s := booksWorld fun c => { c with gangs := [aGang .queued], round := true }
    let h := { Hart.reset with ident := { Hart.reset.ident with gangid := 7 }, status := .stopped }
    let t := { (booksWorld fun c => { c with gangs := [aGang .stopping] }) with others := [h] }
    let u := booksWorld fun c => { c with gangs := [{ aGang .resident with ending := some 0x0F }] }
    let v := booksWorld fun c => { c with images := [anImage], graphs := [aGraph], replays := [aReplay] }
    s.control.round = true ∧ s.supply.up = true ∧ s.control.gangs = [aGang .queued] ∧ aLaunch.part < 4 ∧ aLaunch.size.toNat ≤ (s.localIds [] (aGang .queued)).length
      ∧ t.findGang 7 = some (aGang .stopping) ∧ (t.gangHarts 7).map Hart.status = [.stopped]
      ∧ (u.findGang 7).map Gang.ending = some (some 0x0F) ∧ ({ aGang .resident with cores := [0, 2] } : Gang).farPair 0 = false
      ∧ v.control.replays.find? (fun y => y.id == 0) = some aReplay ∧ v.nodeReady aReplay 0 = true ∧ v.kernelOf aNode.launch = some (anImage, aKernel)
      ∧ v.launchStatus (v.graphSource aReplay) aNode.launch = 0
      ∧ (∀ j < 2, v.granted aLaunch.ctx Needs.store 1 1 (0x8000 + BitVec.ofNat 64 j) (placeAt 0 (0x8000 + BitVec.ofNat 64 j)) = true)
      ∧ (placeAt 0 0x8000).pa ≠ (placeAt 0 0x8001).pa
      ∧ (worldWith fun h => { h with service := { h.service with unanswered := [0x80000000] } }).hart.service.unanswered = [0x80000000] := by
  decide +kernel

/-! ## Asynchronous causes, the lead, power, links and steps -/

/-- A due watchdog, a request of class P, of class L at a listed address and at the limit of its run, and a barrier wait that is over. -/
theorem witness_asynchronousResults :
    let due := worldWith fun h => { h with priv := { h.priv with wdlimit := 5, wdcount := 5 } }
    let asked := fun (on : Option Nat) => worldWith fun h =>
      { h with preempt := { h.preempt with pending := some 0x100000, runOn := on }, ident := { h.ident with gangid := 7 } }
    let listed := (asked (some 0)).withControl fun c => { c with gangs := [{ aGang .resident with stops := [StopEntry.allLive] }] }
    let waits := fun (g : BitVec 32) => { barrierWorld 1 1 true with hart := { (barrierWorld 1 1 true).hart with status := .waiting .barrier, ident := { (barrierWorld 1 1 true).hart.ident with gangid := g } } }
    due.hart.resident = true ∧ due.hart.priv.wdlimit ≠ 0 ∧ due.hart.priv.wdlimit ≤ due.hart.priv.wdcount ∧ due.hart.priv.trap = false
      ∧ (asked none).hart.preempt.pending = some 0x100000 ∧ (asked none).hart.preempt.runOn = none ∧ listed.listedStop = some StopEntry.allLive
      ∧ (asked (some 4096)).listedStop = none ∧ (asked none).hart.watchdog = false
      ∧ (0x40002 : Word).toNat % 4 ≠ 0 ∧ canonical 0x0040000000000000 = false
      ∧ (worldWith fun h => { h with status := .waiting .queue }).hart.status = .waiting .queue
      ∧ (∃ y ∈ (waits 7).harts, y.status = .waiting .barrier ∧ y.launched = true ∧ y.ident.gangid = 7 ∧ y.barrier[(3 : Fin 4)].pending = true
          ∧ ∀ z ∈ (waits 7).harts, z.launched = true → z.ident.gangid = 7 → z.reached 3 y.barrier[(3 : Fin 4)].arrivals = true) := by
  decide +kernel

/-- Two outstanding writes to neighbouring bytes, a modified line that its slice alone holds, one that another cache holds, and one that a command
pins. -/
theorem witness_homes :
    let w : PendingWrite := { owner := 0, gang := 0, hint := .normal, stream := .vector, strip := 0, level := .stream, early := 0, holder := none, pa := 0x40000, op := .store [1], fences := [] }
    let y := { w with pa := 0x40001 }
    let s := { (worldWith fun h => { h with engine := [{ newCommand .xcopy 0 0 with pins := [11] }] }) with
      writes := [w, y], dirty := [{ line := 9, holder := none }], slices := [9, 10], copies := [(.remote 1, 10)] }
    s.coreWrites = [w, y] ∧ y.early = 0 ∧ y.level ≠ .home ∧ w ≠ y ∧ w.pa + w.len ≤ y.pa ∧ w.strip ≤ y.strip
      ∧ paPopulated (8 * 0x8000) = true ∧ paPkg (8 * 0x8000) = world.pkg.val
      ∧ (∃ z ∈ world.harts, z.resident = true ∧ z.queue = [] ∧ z.ident.hartid.setWidth 64 = (0 : Word))
      ∧ (∀ y ∈ s.dirty, ¬(y.line = 9 ∧ y.holder ≠ none)) ∧ (∀ y ∈ s.copies, y.2 ≠ 9) ∧ (∃ y ∈ s.copies, y.2 = 10)
      ∧ (∃ y ∈ s.harts, ∃ c ∈ y.engine, 11 ∈ c.pins) ∧ (∀ y ∈ s.harts, ∀ c ∈ y.engine, 9 ∉ c.pins) ∧ s.lookahead = [] ∧ s.leadL1 = []
      ∧ s.badLine 9 = false := by
  decide +kernel

/-- Prefetches of a vector load inside a stash window and outside all, of a scalar load, and of a line with a unit in error. -/
theorem witness_leadResults :
    let l := fun (n : Nat) (va : Word) (v : Bool) => ({ line := n, va := va, vector := v, hint := .normal } : LeadLine)
    let s := { (worldWith fun h => { h with windows := h.windows.set 0 { base := 0x480, len := 128 }
                                            lead := { h.lead with mode := .running, fetched := some none
                                                                  prefetch := [l 9 0x480 true, l 10 0x500 true, l 11 0x580 false, l 12 0x600 true] } }) with
      poison := [12 * 16 + 15] }
    s.hart.leadIssues = true ∧ s.hart.lead.fetched = some none ∧ (∀ n < 4, (s.hart.lead.prefetch[n]?).isSome = true)
      ∧ (∀ x ∈ s.hart.lead.prefetch, s.reaches s.hart.ctxU false (128 * x.line) = true ∧ s.owner x.line = none)
      ∧ (s.windowAt 0x480).isSome = true ∧ s.windowAt 0x500 = none ∧ s.badLine 9 = false ∧ s.badLine 10 = false ∧ s.badLine 11 = false
      ∧ s.badLine 12 = true := by
  decide +kernel

theorem witness_powerResults :
    let s := dieWorld { Die.reset with temp := 960 }
    world.supply.up = true ∧ s.dies[(3 : Fin 4)].tripped = false ∧ 960 ≤ s.dies[(3 : Fin 4)].temp ∧ world.offState.supply.up = false := by
  decide +kernel

/-- A port that is down, one that is up with a resident gang whose barriers use it, a host access that is granted and one that is not, and a request of
another package. -/
def linkWorld : State :=
  let s := booksWorld fun c => { c with gangs := [{ aGang .resident with cores := [0, 1024] }], roots := [{ part := 0, asid := 3, root := 1 }] }
  { s with members := [0, 1], ports := (s.ports.set 0 { up := true, lanes := 16, retry := 0, far := 0 }).set 1 { up := true, lanes := 8, retry := 0xFFFF, far := 1 } }

theorem witness_linkResults :
    let c : Ctx := { root := 65536, asid := 3, part := 0, sup := false, die := 4, core := none, view := .home }
    let q : PeerReq := { pkg := 1, tag := 0, op := .read, pa := 0x40000, n := 8, data := [] }
    world.ports[(1 : Fin 9)].up = false ∧ world.supply.up = true ∧ linkWorld.ports[(1 : Fin 9)].up = true ∧ (1 : Fin 9) ≠ 0
      ∧ (linkWorld.findGang 7).map Gang.state = some .resident ∧ (linkWorld.findGang 7).map (fun g => g.usesPort linkWorld.ports[(1 : Fin 9)]) = some true
      ∧ linkWorld.control.policy.grantsPart 255 0 = true ∧ linkWorld.control.policy.grantsPart 255 1 = false ∧ linkWorld.boundRoot 0 3 = some 1
      ∧ linkWorld.boundRoot 0 4 = none ∧ linkWorld.granted c Needs.load 1 8 0xFFF8 (placeAt 0 0xFFF8) = true
      ∧ linkWorld.granted c Needs.store 1 1 0xFFFF (placeAt 0 0xFFFF) = true ∧ linkWorld.portTo 1 = true ∧ linkWorld.peerOk q = true
      ∧ linkWorld.peerOk { q with tag := 1 } = false ∧ linkWorld.badUnits q.pa q.n = false ∧ linkWorld.modifiedWhole = true
      ∧ linkWorld.badUnits q.pa 64 = false ∧ linkWorld.transfers = [] ∧ (0xFFF8 : Word).toNat % 8 + 8 ≤ 8 ∧ 1 < (unitsOf 0xFFFC 8).length
      ∧ (let z := { q with op := .tlbInv 0 0x10000 0xFFFFFFFFFFFF0000 }
         linkWorld.peerTlbInv z = true ∧ linkWorld.peerTlbInv q = false ∧ linkWorld.buffered 0 = false
           ∧ (0x10000 : Word).toNat + (0xFFFFFFFFFFFF0000 : Word).toNat ≤ 2 ^ 64 ∧ z.pkg ∈ linkWorld.members ∧ z.pkg ≠ linkWorld.pkg)
      ∧ linkWorld.intact := by
  unfold State.intact
  decide +kernel

/-- The states of the invariants: reset, and a hart that breaks each clause. -/
theorem witness_invariants : State.reset.memoryOk ∧ State.reset.hartsOk := by
  unfold State.memoryOk State.hartsOk Hart.ok Front.ok Shape.legal RetStack.fitsHardware
  decide +kernel

theorem witness_encodingRoundTrips :
    wellFormed (.vldmx 31 30 29 7 true .keep) = true ∧ (encode (.vldmx 31 30 29 7 true .keep)).isSome = true
      ∧ decodeWord (0xE0000000 + 31 * 2 ^ 21 + 30 * 2 ^ 16 + 29 * 2 ^ 11 + 7 * 2 ^ 8 + 5 * 32 + 4 + 2) = .ok (.vldmx 31 30 29 7 true .keep) :=
  ⟨rfl, rfl, rfl⟩

/-- ADDI s1, s0, 9 where the next step fetches it: what the step statement needs of it, and what the step does. -/
theorem witness_stepRunsDecoded :
    decodeWord 0x08200009 = .ok (.addi 1 0 9) ∧
    let s := State.reset.withFetchWord 32 0x08200009
    let u0 : State := { s with choices := [], idle := 1, tick := s.tick + 1 }
    let u := u0.wake
    s.hart.resident = true ∧ s.hart.queue = [] ∧ s.idle = 0 ∧ s.choices = 0 :: [] ∧ (boundary u0).isNone = true ∧ u0.asyncCause.isNone = true
      ∧ usesLanes 0x08200009 = false ∧ u.laneTurn = true ∧ u.granted (u.hart.ctx .core) Needs.fetch 4 4 0 (placeAt 0 0) = true
      ∧ u.fetched 0 = [] ∧ BitVec.ofNat 32 (leNat (u.bytes .core (placeAt 0 0).pa 4)) = 0x08200009 ∧ engineGate s.hart 0x08200009 = false
      ∧ s.writes = [] ∧ s.hart.preempt.pending = none :=
  ⟨rfl, by decide +kernel⟩

theorem test_step_addi :
    nextIs (step (State.reset.withFetchWord 32 0x08200009)) (fun t => t.getS 1 == 9 && t.hart.pc == 4 && t.hart.status == .running) = true := by
  decide +kernel

/-- A stop inside a store of two rows of two columns, from column 1 of row 0 on (02 R35): two positions are done, and VSTART holds the third. -/
theorem test_part_vst :
    (doneUntil (.vst 8 1 0 .w32 .normal) 1 1 (vecWorld 0xA)).any (fun t =>
      t.hart.shape.vstart == 0x1001 && t.hart.shape.vl == 2 && t.hart.shape.vrows == 2 && t.hart.pc == (vecWorld 0xA).hart.pc
        && t.hart.status == .waiting .vector && t.writes.map (fun w => (w.pa % 65536, w.len)) == [(0x104, 4), (0x140, 4)]) = true := by
  decide +kernel

/-- For HashResults: a declared handle with no claim, and shapes that each keyed operation accepts; a claim with nothing unread. -/
theorem witness_badHandle :
    let s := hashWorld 0xB
    (0 : Handle).val < s.hart.declared.hash ∧ (s.getClaim 0).claimed = false ∧ s.hart.shape.usable true [6] = true
      ∧ s.hart.shape.usable true [4, 6] = true ∧ s.hart.shape.usable true [4, 6, 8] = true ∧ (s.getClaim 1).unread = [] ∧ s.quiet := by
  unfold State.quiet Hart.sound
  decide +kernel

/-- For CommandResults: a gang of a partition that a source is not granted, and a source that is granted none. -/
theorem witness_queries :
    let s := booksWorld fun c => { c with gangs := [{ aGang .queued with launch := { aLaunch with part := 1 } }] }
    (s.findGang 7).map (fun g => s.control.policy.grantsPart 0 g.launch.part) = some false
      ∧ (s.findGang 7).map (fun g => s.control.policy.grantsPart 0x2001 g.launch.part) = some true
      ∧ s.control.policy.grantsSome 0 = true ∧ isCommander 0 = true ∧ s.control.policy.grantsSome 0x100 = false
      ∧ ({ opcode := 7, source := 0, seq := 0, done := none, policy := none } : Command).policy = none := by
  decide +kernel

/-- For DieControlResults and LinkResults: a state in which no store waits in a store buffer. -/
theorem witness_heldStores : world.heldFor 3 = false ∧ linkWorld.heldStore (fun w => paPkg w.pa != linkWorld.pkg.val && linkWorld.portFor w.pa == some 1) = false
    ∧ (linkWorld.control.held.filter fun m => m.source == 0).length = 0 := by
  decide +kernel

/-- For AsynchronousResults: a request whose run has ended and one that has fallen back, a wait that its mark names, an eviction that each of a pin, a
copy and the hint to keep refuses, and a hart that errors may strike. -/
theorem witness_requestsAndEvictions :
    let asked := fun (m : Nat) (fell : Bool) => worldWith fun h =>
      { h with preempt := { h.preempt with pending := some 0x100000, runOn := some m, fell := fell } }
    (asked 4096 false).hart.preempt.runOn = some 4096 ∧ (asked 4096 false).listedAt = none ∧ (asked 4095 true).hart.preempt.fell = true
      ∧ (asked 0 false).hart.preempt.fell = false ∧ (asked 0 false).hart.status.waits = false ∧ (asked 0 false).hart.lanesCut = none
      ∧ WaitKind.listed .barrier = true
      ∧ (let listed := (asked 4096 false).withControl fun c => { c with gangs := [{ aGang .resident with stops := [StopEntry.allLive] }] }
         (listed.withHart fun h => { h with ident := { h.ident with gangid := 7 } }).listedAt ≠ none)
      ∧ (let y := (barrierWorld 1 1 false).withHart fun h => { h with gbarWait := 8, status := .waiting .barrier }
         y.hart.gbarWait.getLsbD (3 : Fin 4).val = true ∧ y.hart.status = .waiting .barrier)
      ∧ (let s := { world with retained := [9], slices := [9, 72] }
         9 ∈ s.retained ∧ (∃ l ∈ s.victims (lineSlice 9), l ∉ s.retained) ∧ ∀ l ∈ ({ s with slices := [9] } : State).victims (lineSlice 9), l ∈ s.retained)
      ∧ ((worldWith fun h => { h with engine := [{ newCommand .xcopy 0 0 with pins := [11] }] }).hart.engine.any fun c => c.pins.contains 11) = true
      ∧ ({ world with copies := [(.remote 1, 10)] } : State).copies.any (fun y => y.2 == 10) = true := by
  decide +kernel

/-! ## Worked values of the manual -/

/-- The worked conversions of 03 R60. -/
theorem test_conversions :
    fpConvert .fp32 .e4m3 .rne true 0x3F900000 = (0x39, 0) ∧ fpConvert .fp32 .e4m3 .rne true 0x43E60000 = (0x7E, fNX)
      ∧ fpConvert .fp32 .e4m3 .rne true 0x43FA0000 = (0x7E, fOF ||| fNX) ∧ fpConvert .fp32 .e4m3 .rne false 0x43FA0000 = (0x7F, fOF ||| fNX)
      ∧ fpConvert .fp32 .e4m3 .rtz true 0x43FA0000 = (0x7E, fOF ||| fNX) ∧ fpConvert .fp32 .e4m3 .rtz true 0x43EB0000 = (0x7E, fNX)
      ∧ fpConvert .fp32 .e5m2 .rne false 0x7F800000 = (0x7C, 0) ∧ fpConvert .fp32 .e4m3 .rne true 0x3A83126F = (0x01, fUF ||| fNX)
      ∧ fpConvert .fp64 .bf16 .rne true 0x3FD5555555555555 = (0x3EAB, fNX) ∧ fpConvert .fp32 .e2m1 .rne true 0xC0600000 = (0xE, fNX)
      ∧ fpConvert .fp32 .e2m1 .rtz true 0xC0600000 = (0xD, fNX) ∧ fpConvert .fp32 .e2m1 .rne false 0x41000000 = (0x7, fOF ||| fNX)
      ∧ roundInt true 8 .rne (decodeFp .fp32 0xC0300000) = (0xFD, fNX) ∧ roundInt true 8 .rtz (decodeFp .fp32 0x43960000) = (0x7F, fNV) := by
  decide +kernel

/-- The dithered group of 03 R63: 1.0625 to E4M3 at i = 0, 1, 2, 3, 7 and 8. -/
theorem test_dither :
    [0, 1, 2, 3, 7, 8].map (fun i => fpConvert .fp32 .e4m3 (.dit i) true 0x3F880000)
      = [0x38, 0x39, 0x38, 0x39, 0x39, 0x38].map fun c => (c, fNX) := by
  decide +kernel

/-- 07 R162: LUI of 0x1234 and 0x8000, and the ORI that completes a constant. -/
theorem test_constants :
    nextIs (exec (.lui 11 0x1234) world) (fun t => t.getS 11 == 0x12340000) = true ∧ nextIs (exec (.lui 11 0x8000) world) (fun t => t.getS 11 == 0xFFFFFFFF80000000) = true
      ∧ nextIs (exec (.ori 11 1 0xABCD) (with1 0x12340000)) (fun t => t.getS 11 == 0x1234ABCD) = true := by
  decide +kernel

/-- 07 R163: division by zero and the signed overflow. -/
theorem test_division :
    nextIs (exec (.div 3 1 2) (with1 (-5))) (fun t => t.getS 3 == 0x8000000000000000) = true
      ∧ nextIs (exec (.div 3 1 2) ((with1 0x8000000000000000).setS 2 (-1))) (fun t => t.getS 3 == 0x7FFFFFFFFFFFFFFF) = true
      ∧ nextIs (exec (.rem 3 1 2) ((with1 (-7)).setS 2 2)) (fun t => t.getS 3 == -1) = true := by
  decide +kernel

/-- 07 R166: FCLASS.D of -0.0, -1.0, infinity and the canonical NaN. -/
theorem test_fclass :
    [(0x8000000000000000, 0x08), (0xBFF0000000000000, 0x1A), (0x7FF0000000000000, 0x03), (0x7FF8000000000000, 0x04)].all
      (fun (x : Word × Word) => nextIs (exec (.fclass .double 2 1) (with1 x.1)) fun t => t.getS 2 == x.2) = true := by
  decide +kernel

/-- 07 R178: RSDEPTH after CALL 16, CALL 17, RET 9 and RET 10, and a CALL 17 that traps at its first slot with hardware and DEPTH as they were. -/
theorem test_return_stack :
    let of := fun (n d : Nat) (rsp : BitVec 61) => worldWith fun h => { h with rs := { entries := List.replicate n 4, depth := d, rsp := rsp } }
    [(16, 16), (9, 17), (0, 8), (7, 7)].map (fun (x : Nat × Nat) => (of x.1 x.2 0).hart.userReg .rsdepth)
        = [0x0000001000000010, 0x0000000900000011, 0x0000000000000008, 0x0000000700000007]
      ∧ nextIs (exec (.call 2) (of 15 15 0x20000)) (fun t => t.hart.userReg .rsdepth == 0x0000001000000010 && t.hart.userReg .rsp == 0x100000) = true
      ∧ nextIs (exec (.call 2) ((of 16 16 0x20000).withHart fun h => { h with priv := { h.priv with rslimit := 8 } })) (fun t =>
          t.hart.userReg .rsdepth == 0x0000001000000010 && t.hart.userReg .rsp == 0x100000 && t.hart.priv.tval == 0x100000) = true := by
  decide +kernel

/-- 08 R189: grants of BF16 in groups of four. -/
theorem test_grants :
    [(1000, 512), (100, 64), (40, 40), (-1, 512)].all (fun (x : Word × Word) =>
      nextIs (exec (.setvli 11 12 3 0xB1) (world.setS 12 x.1)) fun t => t.getS 11 == x.2 && t.hart.shape.vrows == 4 && t.hart.shape.vl == x.2.toNat) = true := by
  decide +kernel

/-- One row of a width and of a few positions, with registers of their values. -/
noncomputable def rowWorld (vtype : Word) (vl : Nat) (x : VBits) : State :=
  (worldWith fun h => { h with shape := { h.shape with vl := vl, vrows := 1, vtype := vtype } }).setV 16 x

/-- 08 R193: VFRECE of 3.0 and VFRSQE of 2.0. -/
theorem test_estimates :
    nextIs (exec (.vfrece 4 16 0) (rowWorld 2 1 0x40400000)) (fun t => t.elem 4 32 0 0 == 0x3EAAA000) = true
      ∧ nextIs (exec (.vfrsqe 4 16 0) (rowWorld 2 1 0x40000000)) (fun t => t.elem 4 32 0 0 == 0x3F350000) = true := by
  decide +kernel

/-- 08 R196: KPREX, KPRIN and KSUFIN of bits 2 and 4 of a row of eight. -/
theorem test_prefixes :
    let s := (rowWorld 0 8 0).withHart fun h => { h with k := h.k.set 2 0x14 }
    nextIs (exec (.kprex 3 2 0) s) (fun t => t.getK 3 == 0xF8) = true ∧ nextIs (exec (.kprin 3 2 0) s) (fun t => t.getK 3 == 0xFC) = true
      ∧ nextIs (exec (.ksufin 3 2 0) s) (fun t => t.getK 3 == 0x1F) = true := by
  decide +kernel

/-- 03 R71: the sum of 2^24, 1, 1 and -2^24 is 1.0 with NX. -/
theorem test_reduction :
    nextIs (exec (.vfredsum (.scalar 5 0) 16 0) (rowWorld 2 4 0xCB8000003F8000003F8000004B800000))
      (fun t => t.getS 5 == 0x3F800000 && t.hart.fcsr == 8) = true := by
  decide +kernel

/-- 08 R201: the eight largest of a row with a NaN and an inactive column. -/
theorem test_topk :
    let x : VBits := 0x411000003F000000FF8000004040000040F00000BF8000007FC0000040400000
    let s := ((rowWorld 2 8 x).setS 11 8).withHart fun h => { h with k := h.k.set 1 0xBF }
    nextIs (exec (.vtopk 4 16 11 1) s) (fun t =>
      (List.range 8).map (fun c => t.elem 4 32 0 c) == [0x41100000, 0x40F00000, 0x40400000, 0x40400000, 0xBF800000, 0xFF800000, 0xFF800000, 0xFF800000]
        && (List.range 8).map (fun c => t.elem 5 32 0 c) == [7, 3, 0, 4, 2, 5, 0xFFFFFFFF, 0xFFFFFFFF]) = true := by
  decide +kernel

/-- 03 R73: BF16 products of ones on 2^24 round once. -/
theorem test_outer_product :
    let s := (rowWorld 1 1 0x3F803F80).withHart fun h => { h with matrix := some (.bf16, .bf16), acc := h.acc.set 0 0x4B800000, k := h.k.set 1 1 }
    nextIs (exec (.mprod 0 16 16 1) s) (fun t => tileElem (t.getAcc 0) false 0 0 == 0x4B800001 && t.hart.fcsr == 0) = true := by
  decide +kernel

/-- 09 R221: three lanes that add one to a word that holds ten, under HARTMODE.DET = 1. -/
theorem test_vector_atomic :
    let h := (rowWorld 2 3 0x000000010000000100000001).withHart fun h => { h with det := true }
    let s := { h.setS 1 0x100 with mem := Memory.write world.mem (4 * 65536 + 0x100) 4 10 }
    nextIs (exec (.vamoadd .relaxed true 16 1 8 0) s) (fun t =>
      Memory.read t.mem (4 * 65536 + 0x100) 4 == 13 && (List.range 3).map (fun c => t.elem 16 32 0 c) == [10, 11, 12]) = true := by
  decide +kernel

/-- 11 R254: four adds to a CELL64 cell of E0 = -20, and what a load of it returns. -/
theorem test_cell :
    let c := [0x3FF0000000000000, 0x3EA0000000000000, 0x3EA0000000000000, 0x3EB8000000000000].foldl
      (fun (c : Cell) x => c.add true (-20) (decodeFp .fp64 x)) (Cell.ofBytes (List.replicate 64 0))
    c.bytes = leBytes 58 0x100002 ++ [4, 0, 0, 0, 0x10, 0] ∧ c.read true (-20) = (0x3FF0000200000000, 0) := by
  decide +kernel

/-- 12 R276: home buckets of four keys, and the ordinals that HINS writes for keys that the manual inserts. -/
theorem test_hash :
    [0, 2, 3, 7].map ({ Claim.free with claimed := true } : Claim).home = [0, 151, 482, 272]
      ∧ (let s := ((worldWith fun h =>
            { h with shape := { h.shape with vl := 8, vrows := 1, vtype := 2 }, declared := { h.declared with hash := 1 }
                     claims := h.claims.set 0 { Claim.free with claimed := true } }).setV 8 0x0000000200000000000000070000000300000002000000070000000300000007).setV 9
            0x0000000700000006000000050000000400000003000000020000000100000000
         nextIs (exec (.hins 10 8 9 0 0) s) fun t =>
           (List.range 8).map (fun c => t.elem 10 32 0 c) == [0x0EE0, 0x1A5C, 0x0EE0, 0x0842, 0x1A5C, 0x0EE0, 0, 0x0842]) = true := by
  decide +kernel

end Sys2Proof.Tests
end

section
/-! Length grants (02 R31, R37; 08 R189): what each configuration instruction does, and the statement LengthGrants. -/

namespace Sys2Proof.Machine

/-- A hart whose length-setting instruction has been granted columns and rows under a width: the strip closes with its pending entries, and
VSTART stays. -/
def State.lengthSet (s : State) (vtype : Word) (vl vrows width : Nat) : State :=
  s.withHart fun h => { h with shape := { s.hart.shape with vtype := vtype, vl := vl, vrows := vrows, granted := width }
                               strip := h.strip + 1, vstp := [], vstpRun := 0 }

theorem setLength_run (d : SReg) (vtype req rows : Word) (s : State) :
    setLength d vtype req rows s =
      let width := (s.hart.recordedWidth req rows vtype).getD s.hart.shape.width
      let g := s.hart.shape.grant width vtype req rows
      .ok ⟨⟩ ((s.lengthSet vtype g.1 g.2 width).setS d (BitVec.ofNat 64 g.1)).advance := rfl

theorem vtSew_eq (w : Word) : vtSew w = 8 * 2 ^ (w.toNat % 8) := by simp [vtSew, vtSewCode, bitsAt]
theorem vtGroup_eq (w : Word) : vtGroup w = 2 ^ (w.toNat / 8 % 4) := rfl

/-- The grant of R31 from the fields of VTYPE. -/
theorem Shape.grant_eq (p : Shape) (width : Nat) (vtype req rows : Word) :
    p.grant width vtype req rows = if vtype.getLsbD 15 then (0, 1)
      else (grantVl p.split width req.toNat (8 * 2 ^ (vtype.toNat % 8)), min (max rows.toNat 1) (2 ^ (vtype.toNat / 8 % 4))) := by
  rw [← vtSew_eq]; rfl

/-- What SETVL, SETVLX and SETVLI do once their registers are read. -/
theorem run_setLength (d : SReg) (vtype req rows : Word) (s : State) :
    run (setLength d vtype req rows) s =
      let width := (s.hart.recordedWidth req rows vtype).getD s.hart.shape.width
      let vl := grantVl s.hart.shape.split width req.toNat (8 * 2 ^ (vtype.toNat % 8))
      if vtype.getLsbD 15 then (s.lengthSet vtype 0 1 width).done d 0
      else (s.lengthSet vtype vl (min (max rows.toNat 1) (2 ^ (vtype.toNat / 8 % 4))) width).done d (BitVec.ofNat 64 vl) := by
  rw [run_of_ok (setLength_run d vtype req rows s)]
  simp only [Shape.grant_eq]
  split <;> rfl

/-- An action that begins by reading a register that is not in error. -/
theorem run_readS {s : State} {a : SReg} (h : s.badS a = false) (f : Word → M Unit) : run (readS a >>= f) s = run (f (s.getS a)) s :=
  congrArg finish (bind_of_ok (readS_ok h))

theorem exec_setvl {s : State} {a b : SReg} (ha : s.badS a = false) (hb : s.badS b = false) (d : SReg) :
    exec (.setvl d a b) s = run (setLength d s.hart.shape.vtype (s.getS a) (s.getS b)) s :=
  (run_readS ha _).trans (run_readS hb _)

theorem exec_setvlx {s : State} {a b : SReg} (ha : s.badS a = false) (hb : s.badS b = false) (d : SReg) :
    exec (.setvlx d a b) s =
      run (setLength d (vtWrite (s.getS b)) (s.getS a) (BitVec.ofNat 64 (vtGroup (vtWrite (s.getS b))))) s :=
  (run_readS ha _).trans (run_readS hb _)

theorem exec_setvli {s : State} {a : SReg} (ha : s.badS a = false) (d : SReg) (r : Fin 8) (v : BitVec 9) :
    exec (.setvli d a r v) s = run (setLength d (vtWrite (v.setWidth 64)) (s.getS a) (BitVec.ofNat 64 (r.val + 1))) s :=
  run_readS ha _

theorem exec_settype {s : State} {a : SReg} (ha : s.badS a = false) (d : SReg) :
    exec (.settype d a) s =
      (s.withHart fun h => { h with shape := { s.hart.shape with vtype := vtWrite (s.getS a) } }).done d (vtWrite (s.getS a)) :=
  run_readS ha _

/-- SETROWS keeps VTYPE, VL and the width of the last grant, but under VILL there are no columns. -/
theorem exec_setrows {s : State} {a : SReg} (ha : s.badS a = false) (d : SReg) :
    let p := s.hart.shape
    let rows := min (max (s.getS a).toNat 1) (2 ^ (p.vtype.toNat / 8 % 4))
    exec (.setrows d a) s = if p.vtype.getLsbD 15 then (s.lengthSet p.vtype 0 1 p.granted).done d 1
      else (s.lengthSet p.vtype p.vl rows p.granted).done d (BitVec.ofNat 64 rows) := by
  intro p rows
  have hrun : exec (.setrows d a) s =
      let g := p.grant p.width p.vtype 0 (s.getS a)
      (s.lengthSet p.vtype (if vtVill p.vtype then 0 else p.vl) g.2 p.granted).done d (BitVec.ofNat 64 g.2) := run_readS ha _
  rw [hrun, Shape.grant_eq]
  unfold vtVill
  by_cases hv : p.vtype.getLsbD 15 = true
  · simp only [if_pos hv]
    rfl
  · simp only [if_neg hv]
    rfl

/-- Settles O30: each instruction reads its registers, and SETVL, SETVLX and SETVLI then run the one grant of `run_setLength`. -/
theorem lengthGrants : Obligations.LengthGrants := by
  intro s d a b r v ha hb
  refine ⟨?_, ?_, ?_, exec_setrows ha d, exec_settype ha d⟩
  · exact (exec_setvl ha hb d).trans (run_setLength d _ _ _ s)
  · exact (exec_setvlx ha hb d).trans (run_setLength d _ _ _ s)
  · exact (exec_setvli ha d r v).trans (run_setLength d _ _ _ s)

end Sys2Proof.Machine
end

section
/-! The lead (01 R16, R17, R24): what its instruction may change, where its prefetches go, and the statement LeadResults. -/

namespace Sys2Proof.Machine

/-! ## Lists kept by use -/

theorem mem_touch {α : Type} [BEq α] [LawfulBEq α] {x y : α} {l : List α} (h : y ∈ touch x l) : y = x ∨ y ∈ l :=
  (List.mem_cons.mp h).imp id fun h => (List.mem_filter.mp h).1

/-- Using an element that a list holds adds none. -/
theorem mem_of_mem_touch {α : Type} [BEq α] [LawfulBEq α] {x y : α} {l : List α} (hx : x ∈ l) (h : y ∈ touch x l) : y ∈ l :=
  (mem_touch h).elim (fun e => e ▸ hx) id

theorem mem_of_mem_markSlice {core : Nat} {pc : Word} {y : Nat × Word} {l : List (Nat × Word)} (hx : (core, pc) ∈ l)
    (h : y ∈ markSlice core pc l) : y ∈ l := mem_of_mem_touch hx (mem_keepFirst _ _ _ _ h)

theorem head_mem_keepFirst {α : Type} {p : α → Bool} {x : α} {l : List α} {n : Nat} (hn : n ≠ 0) : x ∈ keepFirst p n (x :: l) := by
  unfold keepFirst
  cases n with
  | zero => exact absurd rfl hn
  | succ n => split <;> exact List.mem_cons_self ..

/-- The lead L1 holds the line that it has just taken. -/
theorem mem_leadL1 (core line : Nat) (l : List (Nat × Nat)) :
    (core, line) ∈ keepFirst (fun y => y.1 == core) leadL1Lines (touch (core, line) l) := head_mem_keepFirst (by decide)

theorem mem_placeBy {α : Type} [BEq α] (hint : VHint) (x : α) (l : List α) : x ∈ placeBy hint x l := by
  unfold placeBy
  split
  · exact List.mem_append_right _ (List.mem_singleton.mpr rfl)
  · exact List.mem_cons_self ..

theorem mem_addLookahead (hint : VHint) (core line : Nat) (l : List (Nat × Nat)) : (core, line) ∈ addLookahead hint core line l := by
  unfold addLookahead
  simp only
  split
  · exact List.mem_append_right _ (List.mem_singleton.mpr rfl)
  · exact head_mem_keepFirst (by decide)

/-! ## What the lead's instruction may change (01 R24) -/

/-- From one state to another the lead has changed its own context, cached entries that its walks read, and used marks and lines of its L1
that were there. -/
structure LeadKeeps (s t : State) : Prop where
  frame : t = { s with hart := { s.hart with lead := t.hart.lead }, tlb := t.tlb, slice := t.slice, leadL1 := t.leadL1 }
  tlb : ∀ e ∈ t.tlb, e ∈ s.tlb ∨ s.walkRead s.hart.ctxU e.at_ = .ok e.pte
  slice : ∀ y ∈ t.slice, y ∈ s.slice
  leadL1 : ∀ y ∈ t.leadL1, y ∈ s.leadL1

namespace LeadKeeps
variable {s t u : State}

theorem ctxU (h : LeadKeeps s t) : t.hart.ctxU = s.hart.ctxU := by rw [h.frame]; rfl

theorem bytes (h : LeadKeeps s t) (v : View) (n : Nat) : ∀ pa, t.bytes v pa n = s.bytes v pa n := by
  have hb : ∀ a, t.byte v a = s.byte v a := by intro a; rw [h.frame]; rfl
  induction n with
  | zero => intro pa; rfl
  | succ n ih => intro pa; rw [State.bytes, State.bytes, hb, ih]

theorem walkRead (h : LeadKeeps s t) (c : Ctx) (pa : Nat) : t.walkRead c pa = s.walkRead c pa := by
  have hr : t.reaches c false pa = s.reaches c false pa := by rw [h.frame]; rfl
  have hu : t.badUnits pa 8 = s.badUnits pa 8 := by rw [h.frame]; rfl
  unfold State.walkRead
  rw [hr, hu, h.bytes]

theorem refl (s : State) : LeadKeeps s s := ⟨rfl, fun _ => .inl, fun _ => id, fun _ => id⟩

theorem trans (h : LeadKeeps s t) (g : LeadKeeps t u) : LeadKeeps s u where
  frame := by rw [g.frame, h.frame]
  tlb e he := (g.tlb e he).elim (h.tlb e) fun hw => .inr (by rwa [h.ctxU, h.walkRead] at hw)
  slice y hy := h.slice y (g.slice y hy)
  leadL1 y hy := h.leadL1 y (g.leadL1 y hy)

theorem setLead (s : State) (l : Lead) : LeadKeeps s (s.setLead l) := ⟨rfl, fun _ => .inl, fun _ => id, fun _ => id⟩

theorem foldl {α : Type} {f : State → α → State} (hf : ∀ s x, LeadKeeps s (f s x)) (xs : List α) : ∀ s, LeadKeeps s (xs.foldl f s) := by
  induction xs with
  | nil => exact refl
  | cons x xs ih => exact fun s => (hf s x).trans (ih _)

theorem useMark (s : State) (pc : Word) : LeadKeeps s (s.useMark pc) := by
  unfold State.useMark
  split
  next hm => exact ⟨rfl, fun _ => .inl, fun y hy => mem_of_mem_markSlice (List.contains_iff_mem.mp hm) hy, fun _ => id⟩
  next => exact refl s

theorem useLeadL1 (s : State) (line : Nat) : LeadKeeps s (s.useLeadL1 line) := by
  unfold State.useLeadL1
  simp only
  split
  next hm => exact ⟨rfl, fun _ => .inl, fun _ => id, fun y hy => mem_of_mem_touch (List.contains_iff_mem.mp hm) hy⟩
  next => exact refl s

/-! A walk of the lead caches what it reads. -/

theorem cacheIn {at_ : Nat} {e : Word} (hw : s.walkRead s.hart.ctxU at_ = .ok e) (core : Option Nat) (c : Ctx) (va : Word) (lvl : Nat) :
    LeadKeeps s (s.cacheIn core c va lvl at_ e) := by
  unfold State.cacheIn
  simp only
  split
  · exact refl s
  · refine ⟨rfl, fun x hx => ?_, fun _ => id, fun _ => id⟩
    dsimp only at hx
    rcases List.mem_cons.mp (mem_keepFirst _ _ _ _ hx) with rfl | h
    · exact .inr hw
    · exact .inl h

theorem fillEntry {at_ : Nat} {e : Word} (hw : s.walkRead s.hart.ctxU at_ = .ok e) (c : Ctx) (va : Word) (lvl : Nat) :
    LeadKeeps s (s.fillEntry c va lvl at_ e) := by
  unfold State.fillEntry
  split
  · exact refl s
  · have hdie := cacheIn hw none c va lvl
    simp only
    split
    · exact hdie.trans (cacheIn (by rw [hdie.ctxU, hdie.walkRead, hw]) c.core c va lvl)
    · exact hdie

theorem fillFrom (va : Word) (n : Nat) : ∀ (s : State) (table : Nat), LeadKeeps s (s.fillFrom s.hart.ctxU va n table) := by
  induction n with
  | zero => exact fun s _ => refl s
  | succ n ih =>
    intro s table
    unfold State.fillFrom
    simp only
    split
    · exact refl s
    next e hw =>
      have he := fillEntry hw s.hart.ctxU va (3 - n)
      split
      · exact refl s
      · split
        · exact he
        · have hn := ih (s.fillEntry s.hart.ctxU va (3 - n) (entryAddr table n va) e) (ptePa e)
          rw [he.ctxU] at hn
          exact he.trans hn

theorem fillWalk (s : State) (va : Word) : LeadKeeps s (s.fillWalk va) := by
  unfold State.fillWalk State.fillWalkOf
  split
  · exact fillFrom va 3 s _
  · exact refl s

/-! The actions of R14. -/

theorem leadCompute (i : Instr) (us : LeadUse) (go : Bool) (s : State) : LeadKeeps s (leadCompute i us go s) := by
  unfold Machine.leadCompute
  simp only
  split <;> exact setLead s _

theorem leadBranch (i : Instr) (us : LeadUse) (s : State) : LeadKeeps s (leadBranch i us s) := by
  unfold Machine.leadBranch
  simp only
  split <;> exact setLead s _

theorem leadGrant (i : Instr) (us : LeadUse) (s : State) : LeadKeeps s (leadGrant i us s) := by
  unfold Machine.leadGrant
  simp only
  split
  · exact setLead s _
  · split
    · exact leadCompute i us true s
    · exact (leadCompute i us true s).trans (setLead _ _)

/-- A prefetch's walks, its request, the lines of the lead L1 that it uses and what it computes. -/
theorem leadPrefetch (i : Instr) (us : LeadUse) (read : Bool) (s : State) : LeadKeeps s (leadPrefetch i us read s) := by
  unfold Machine.leadPrefetch
  simp only
  split
  · exact setLead s _
  · have hasked : ∀ (vas : List Word) (l : Lead), LeadKeeps s ((vas.foldl State.fillWalk s).setLead l) :=
      fun vas l => (foldl fillWalk vas s).trans (setLead _ l)
    have hused : ∀ (vas : List Word) (l : Lead) (lines : List Nat) (b : Bool),
        LeadKeeps s (if b then (vas.foldl State.fillWalk s).setLead l
          else lines.foldl State.useLeadL1 ((vas.foldl State.fillWalk s).setLead l)) := by
      intro vas l lines b
      split
      · exact hasked vas l
      · exact (hasked vas l).trans (foldl useLeadL1 lines _)
    generalize hu : Machine.leadCompute i us _ _ = u
    have hdone : LeadKeeps s u := hu ▸ (hused _ _ _ _).trans (leadCompute i us _ _)
    split
    · exact hdone.trans (setLead _ _)
    · exact hdone

theorem leadStep (i : Instr) (s : State) : LeadKeeps s (leadStep i s) := by
  have hm := useMark s s.hart.lead.pc
  unfold Machine.leadStep
  simp only
  split
  · exact hm.trans (leadCompute i _ _ _)
  · exact hm.trans (leadPrefetch i _ _ _)
  · exact hm.trans (leadBranch i _ _)
  · exact hm.trans (setLead _ _)
  · exact hm.trans (setLead _ _)
  · exact hm.trans (setLead _ _)
  · exact hm.trans (leadGrant i _ _)

end LeadKeeps

/-- The lead acts on the instruction that it has fetched. -/
theorem exec_leadInstruction {s : State} (hi : s.hart.leadIssues = true) {f : Option Instr} (hf : s.hart.lead.fetched = some f) :
    exec .leadInstruction s =
      let u := s.setLead { s.hart.lead with fetched := none }
      .next (match f with
        | some i => leadStep i u
        | none => u.setLead (u.hart.lead.stopAt .waiting)) := by
  show execLeadInstruction s = _
  unfold execLeadInstruction
  simp only [hi, hf, Bool.not_true, Bool.false_eq_true, if_false]
  cases f <;> rfl

/-! ## Prefetches that return (01 R17) -/

/-- The lead's list without the line that has returned. -/
def State.prefetchTaken (s : State) (n : Nat) : State := s.setLead { s.hart.lead with prefetch := s.hart.lead.prefetch.eraseIdx n }

theorem exec_leadPrefetchFill {s : State} {n : Nat} {x : LeadLine} (hx : s.hart.lead.prefetch[n]? = some x)
    (hr : s.reaches s.hart.ctxU false (128 * x.line) = true) :
    exec (.leadPrefetchFill n) s =
      run (if s.badLine x.line then logError (x.line * Config.lineBytes) .uncorrectable
        else do
          recallLine none x.line
          putLeadLine x) (s.prefetchTaken n) := by
  have hr' : (s.prefetchTaken n).reaches s.hart.ctxU false (x.line * Config.lineBytes) = true := by
    rw [Nat.mul_comm]; exact hr
  show execLeadPrefetchFill n s = _
  unfold execLeadPrefetchFill
  simp only [hx]
  show run (if (s.prefetchTaken n).reaches _ _ _ = true then _ else _) (s.prefetchTaken n) = _
  rw [if_pos hr']

/-- A line in error is logged and comes into no cache. -/
theorem exec_leadPrefetchFill_bad {s : State} {n : Nat} {x : LeadLine} (hx : s.hart.lead.prefetch[n]? = some x)
    (hr : s.reaches s.hart.ctxU false (128 * x.line) = true) (hb : s.badLine x.line = true) :
    exec (.leadPrefetchFill n) s = .next ((s.prefetchTaken n).logMemory (x.line * Config.lineBytes) .uncorrectable) := by
  rw [exec_leadPrefetchFill hx hr, if_pos hb]
  rfl

/-- A whole line that no cache owns is put where its address says. -/
theorem exec_leadPrefetchFill_whole {s : State} {n : Nat} {x : LeadLine} (hx : s.hart.lead.prefetch[n]? = some x)
    (hr : s.reaches s.hart.ctxU false (128 * x.line) = true) (hb : s.badLine x.line = false) (ho : s.owner x.line = none) :
    exec (.leadPrefetchFill n) s = run (putLeadLine x) (s.prefetchTaken n) := by
  have hrecall : recallLine none x.line (s.prefetchTaken n) = .ok ⟨⟩ (s.prefetchTaken n) := by
    have ho' : (s.prefetchTaken n).owner x.line = none := ho
    unfold recallLine
    rw [bind_get_run, ho']
    rfl
  rw [exec_leadPrefetchFill hx hr, if_neg (by simp [hb])]
  exact congrArg finish (bind_of_ok hrecall)

/-! Where a line goes (04 R85, R86). -/

theorem run_putLeadLine_scalar {x : LeadLine} (hv : x.vector = false) (s : State) :
    run (putLeadLine x) s = .next { s with
      leadL1 := keepFirst (fun y => y.1 == s.hart.ident.coreKey) leadL1Lines (touch (s.hart.ident.coreKey, x.line) s.leadL1) } := by
  unfold putLeadLine
  simp only [hv]
  rfl

theorem run_putLeadLine_lookahead {x : LeadLine} {s : State} (hv : x.vector = true) (hw : s.windowAt x.va = none) :
    run (putLeadLine x) s = .next { s.atSlice x.hint x.line with
      lookahead := addLookahead x.hint s.hart.ident.coreKey x.line s.lookahead } := by
  refine run_of_ok ?_ (a := ⟨⟩)
  unfold putLeadLine
  rw [bind_get_run]
  simp only [hv, hw]
  rfl

theorem Hart.windowAt_window {g : Hart} {va : Word} {h : Holder} (hw : g.windowAt va = some h) : ∃ id i l, h = .window id i l := by
  obtain ⟨i, -, rfl⟩ := Option.map_eq_some_iff.mp hw
  exact ⟨_, _, _, rfl⟩

/-- What serves an address is a window's line. -/
theorem State.windowAt_window {s : State} {va : Word} {h : Holder} (hw : s.windowAt va = some h) : ∃ id i l, h = .window id i l := by
  rcases Option.or_eq_some_iff.mp hw with hw | ⟨-, hw⟩
  · exact Hart.windowAt_window hw
  · obtain ⟨g, -, hg⟩ := Option.bind_eq_some_iff.mp hw
    split at hg
    · exact Hart.windowAt_window hg
    · cases hg

/-- A window takes a line beside what it holds. -/
theorem install_window (hint : VHint) (id i vline line : Nat) (s : State) :
    install hint (.window id i vline) line s =
      .ok ⟨⟩ { s.atSlice hint line with copies := placeBy hint (.window id i vline, line) s.copies } := by
  unfold install
  rw [bind_modify_run, bind_get_run]
  generalize List.drop scalarL1Lines _ = beyond
  cases beyond <;> rfl

theorem run_putLeadLine_window {x : LeadLine} {s : State} {h : Holder} (hv : x.vector = true) (hw : s.windowAt x.va = some h) :
    run (putLeadLine x) s = .next { s.atSlice x.hint x.line with copies := placeBy x.hint (h, x.line) s.copies } := by
  obtain ⟨id, i, l, rfl⟩ := State.windowAt_window hw
  refine run_of_ok ?_ (a := ⟨⟩)
  unfold putLeadLine
  rw [bind_get_run]
  simp only [hv, hw]
  exact install_window ..

/-- Settles O51: the lead's instruction by `LeadKeeps.leadStep`, a prefetch by where its line is put. -/
theorem leadResults : Obligations.LeadResults := by
  intro s l
  refine ⟨fun hi => ⟨fun i hf => ?_, fun hf => exec_leadInstruction hi hf⟩, fun n x hx hr => ⟨fun hb ho => ?_, fun hb => ?_⟩⟩
  · have h := (LeadKeeps.setLead s { l with fetched := none }).trans (LeadKeeps.leadStep i _)
    exact ⟨_, exec_leadInstruction hi hf, h.frame, h.tlb, h.slice, h.leadL1⟩
  · rw [exec_leadPrefetchFill_whole hx hr hb ho]
    cases hv : x.vector with
    | false =>
      refine ⟨_, run_putLeadLine_scalar hv _, rfl, fun _ => ⟨?_, rfl, rfl⟩, nofun⟩
      exact mem_leadL1 s.hart.ident.coreKey x.line s.leadL1
    | true =>
      cases hw : s.windowAt x.va with
      | none =>
        refine ⟨_, run_putLeadLine_lookahead hv hw, rfl, nofun, fun _ => ⟨rfl, fun _ => ⟨?_, rfl⟩, nofun⟩⟩
        exact mem_addLookahead ..
      | some h =>
        refine ⟨_, run_putLeadLine_window hv hw, rfl, nofun, fun _ => ⟨rfl, nofun, ?_⟩⟩
        rintro _ ⟨⟩
        exact ⟨mem_placeBy .., rfl⟩
  · refine ⟨_, exec_leadPrefetchFill_bad hx hr hb, ?_⟩
    rw [State.logMemory_eq]
    exact ⟨rfl, rfl, rfl, rfl, rfl⟩

end Sys2Proof.Machine
end
